-- ==== Sys2Proof/Word.lean ====
section
/-! DEFINITION. The machine's plain data words: bytes, stream words and pixels. -/

namespace Sys2Proof

/-- One element of the byte space `B` (20_memory.md R61). -/
abbrev Byte := BitVec 8

/-- One audio stream word (30_encoding.md R90, format `A64`). -/
abbrev Word64 := BitVec 64

/-- One pixel `(r, g, b, a)` (20_memory.md R63). -/
structure Pixel where
  r : Byte
  g : Byte
  b : Byte
  a : Byte
deriving DecidableEq, Repr

end Sys2Proof
end

