-- ==== Sys2Proof/Config.lean ====
section
/-! DEFINITION. What an implementation fixes: the block's configuration, one named field for each parameter of
00_scope.md R6 and R7, and the constants with no body that stand for what no plain data can hold or no rule fixes. The
spec's default of every field stands in Machine/Params.lean and Decode.lean, where a repair can mend it. -/

namespace Sys2Proof

/-! ## Parameters of the image format (00_scope.md R6) -/

/-- An order of the three colour fields of an opcode, named from the most significant field or the first byte on
(93_implementation_defined.md I5). -/
inductive ColourOrder where
  | rgb
  | rbg
  | grb
  | gbr
  | brg
  | bgr
deriving DecidableEq, Repr

/-- The tags and the field orders of the image opcodes (30_encoding.md R100 to R104, 93_implementation_defined.md I4,
I5). -/
structure ImageFormat where
  /-- `TAG_INDEX` (R100). -/
  tagIndex : BitVec 2
  /-- `TAG_DIFF` (R100). -/
  tagDiff : BitVec 2
  /-- `TAG_LUMA` (R100). -/
  tagLuma : BitVec 2
  /-- `TAG_RUN` (R100). -/
  tagRun : BitVec 2
  /-- `TAG_RGB` (R100). -/
  tagRgb : Byte
  /-- `TAG_RGBA` (R100). -/
  tagRgba : Byte
  /-- The order of DIFF's three deltas, from the most significant one (R101). -/
  diffOrder : ColourOrder
  /-- Whether LUMA's red cross delta has the high nibble of the second byte, and the blue one the low one (R102). -/
  lumaRedHigh : Bool
  /-- The order of RGB's three bytes (R104). -/
  rgbOrder : ColourOrder
  /-- The order of RGBA's three colour bytes among themselves (R104). -/
  rgbaOrder : ColourOrder
  /-- How many of RGBA's colour bytes stand before its alpha byte (R104). -/
  alphaPlace : Fin 4
deriving DecidableEq, Repr

/-! ## Parameters of the quantizer and the predictor (00_scope.md R6, R7) -/

/-- The formula of `DIV`, which may be any total function (93_implementation_defined.md I3): the reciprocal multiply of
41_quantizer_slice.md R150, or the function `Config.customDiv`. -/
inductive DivRule where
  | reciprocal
  | custom
deriving DecidableEq, Repr

/-- The two readings of how the audio decoder's cursor leaves a frame (00_scope.md R7, 43_audio_commands.md R223). -/
inductive FrameAdvance where
  | consumed
  | declared
deriving DecidableEq, Repr

/-- The configuration of one block instance: every parameter of 00_scope.md R6 and R7, under the spec's own name
(93_implementation_defined.md I1 to I9). Nothing writes it (10_state.md R20, R34; log 23). -/
structure Config where
  /-- `DEQUANT[16][8]` (41_quantizer_slice.md R152). -/
  dequant : Vector (Vector Int 8) 16
  /-- `QUANT[17]` (41_quantizer_slice.md R151). -/
  quant : Vector (BitVec 3) 17
  /-- `RECIP[16]` (41_quantizer_slice.md R150). -/
  recip : Vector Int 16
  /-- `DIV` (41_quantizer_slice.md R150). -/
  div : DivRule
  /-- The tags and field orders of the image opcodes. -/
  image : ImageFormat
  /-- `INIT_W[4]`, each `s32` (10_state.md R38). -/
  initW : Vector (BitVec 32) 4
  /-- `INIT_H[4]`, each `s16` (10_state.md R38). -/
  initH : Vector (BitVec 16) 4
  /-- `INIT_SF`, 0 .. 15 (10_state.md R38). -/
  initSf : BitVec 4
  /-- `W_BITS`, the width of a live weight register (10_state.md R22). -/
  wBits : Nat
  /-- `FRAME_ADVANCE` (43_audio_commands.md R223), which decision D14 leaves open (log 6). -/
  frameAdvance : FrameAdvance
  /-- `AUDIO_MIN_SIZE` (43_audio_commands.md R221). -/
  audioMinSize : Nat
  /-- `IMAGE_MIN_SIZE` (45_pixel_decoder.md R270). -/
  imageMinSize : Nat
deriving DecidableEq, Repr

/-! ## Constants with no body -/

/-- Any total `DIV` other than the spec's default formula (93_implementation_defined.md I3; log 7). -/
opaque Config.customDiv : Int → BitVec 4 → Int

/-- A free value of `w` bits: what a result register holds after an error (60_exceptions.md R310,
93_implementation_defined.md U2). The second argument numbers the free values of a run (log 5). -/
opaque Config.freeValue (w : Nat) (n : Nat) : BitVec w

end Sys2Proof
end

