-- ==== Sys2Proof/Syntax.lean ====
section
/-! DEFINITION. The instruction syntax: the 21 rows of the opcode table, in the notation of 30_encoding.md R110,
and the places of a stream (or the command register) at which each is read. -/

namespace Sys2Proof

/-- A stream unit or a host command. Operands are the decoded ones of 30_encoding.md R105: deltas are signed and
unbiased, a run has its true length, a slice has its scale factor and the codes of the samples it carries. -/
inductive Instr where
  /-- `RGB r, g, b` (R104): literal colour, alpha unchanged. -/
  | rgb (r g b : Byte)
  /-- `RGBA r, g, b, a` (R104): literal colour and alpha. -/
  | rgba (r g b a : Byte)
  /-- `INDEX slot` (R103): the cache slot's pixel. -/
  | index (slot : BitVec 6)
  /-- `DIFF dr, dg, db` (R101): each delta in -2 .. 1. -/
  | diff (dr dg db : Int)
  /-- `LUMA dg, dr_dg, db_dg` (R102): green delta -32 .. 31, cross deltas -8 .. 7. -/
  | luma (dg drg dbg : Int)
  /-- `RUN length` (R103): length 1 .. 62. -/
  | run (length : Nat)
  /-- `QOIF width, height, chtag, cstag` (R96): the image header. -/
  | qoif (width height : BitVec 32) (chtag cstag : Byte)
  /-- `END` (R97): the image footer. -/
  | footer
  /-- `QOAF samples` (R91): the audio stream header. -/
  | qoaf (samples : BitVec 32)
  /-- `FRAME channels, rate, fsamples, fsize` (R92): a frame header. -/
  | frame (channels : BitVec 8) (rate : BitVec 24) (fsamples fsize : BitVec 16)
  /-- `HIST h0, h1, h2, h3` (R93): the history word of a snapshot, as the four stored 16-bit fields. -/
  | hist (h0 h1 h2 h3 : BitVec 16)
  /-- `WGHT w0, w1, w2, w3` (R93): the weights word of a snapshot, as the four stored 16-bit fields. -/
  | wght (w0 w1 w2 w3 : BitVec 16)
  /-- `SLICE sf : c0 .. c(m-1)` (R94, R95): a slice of `m` samples, 1 .. 20. -/
  | slice (sf : BitVec 4) (codes : List (BitVec 3))
  /-- `NOP`, command code 0 (R120). -/
  | nop
  /-- `AUD_ENC`, command code 1 (R120). -/
  | audEnc
  /-- `AUD_DEC`, command code 2 (R120). -/
  | audDec
  /-- `IMG_ENC`, command code 3 (R120). -/
  | imgEnc
  /-- `IMG_DEC`, command code 4 (R120). -/
  | imgDec
  /-- Reserved command code 5 (R121). -/
  | reserved5
  /-- Reserved command code 6 (R121). -/
  | reserved6
  /-- Reserved command code 7 (R121). -/
  | reserved7
deriving DecidableEq, Repr

/-- What is read at a place of a stream, or from the command register: the opcode table selects the audio words,
the headers and the footer by position, the image opcodes by their first byte (R99). -/
inductive UnitKind where
  /-- The `CMD` register, one byte holding its 3 bits. -/
  | command
  /-- Offset 0 of an image stream. -/
  | imageHeader
  /-- An opcode of an image stream. -/
  | opcode
  /-- The 8 bytes after the last opcode. -/
  | imageFooter
  /-- Offset 0 of an audio stream. -/
  | audioHeader
  /-- The first word of a frame. -/
  | frameHeader
  /-- A history word of a snapshot. -/
  | history
  /-- A weights word of a snapshot. -/
  | weights
  /-- A slice word that carries `m` samples. -/
  | slice (m : Nat)
deriving DecidableEq, Repr

end Sys2Proof
end

