-- ==== Sys2Proof/WellFormed.lean ====
section
/-! DEFINITION. Which instructions the encodings admit: the operand ranges of 30_encoding.md R105 and R110. -/

namespace Sys2Proof

/-- `lo ≤ v ≤ hi`, as a Boolean. -/
def inRange (v lo hi : Int) : Bool := decide (lo ≤ v) && decide (v ≤ hi)

/-- The operands lie in the ranges their fields can hold (R101 DIFF, R102 LUMA, R103 RUN, R94 and R95 SLICE);
every other operand has a type of exactly its field's width. -/
def Instr.wf : Instr → Bool
  | .diff dr dg db => inRange dr (-2) 1 && inRange dg (-2) 1 && inRange db (-2) 1
  | .luma dg drg dbg => inRange dg (-32) 31 && inRange drg (-8) 7 && inRange dbg (-8) 7
  | .run length => decide (1 ≤ length) && decide (length ≤ 62)
  | .slice _ codes => decide (1 ≤ codes.length) && decide (codes.length ≤ 20)
  | .rgb _ _ _ | .rgba _ _ _ _ | .index _ | .qoif _ _ _ _ | .footer | .qoaf _ | .frame _ _ _ _
  | .hist _ _ _ _ | .wght _ _ _ _ | .nop | .audEnc | .audDec | .imgEnc | .imgDec
  | .reserved5 | .reserved6 | .reserved7 => true

end Sys2Proof
end

