-- ==== Sys2Proof/Decode.lean ====
section
/-! DEFINITION. Decoding and encoding of stream units and commands (30_encoding.md) under an image format (tags and field
orders, R100 to R104) and its default, the byte order of the streams (20_memory.md R65), and the reading of an
opcode-table word. -/

namespace Sys2Proof

/-! ## Byte order and bit fields -/

/-- The 8 bytes of a stream word, lowest address first: big-endian (20_memory.md R65). -/
def bytes64 (w : Word64) : List Byte :=
  [w.extractLsb' 56 8, w.extractLsb' 48 8, w.extractLsb' 40 8, w.extractLsb' 32 8,
   w.extractLsb' 24 8, w.extractLsb' 16 8, w.extractLsb' 8 8, w.extractLsb' 0 8]

/-- The 4 bytes of a 32-bit field, lowest address first (R65). -/
def bytes32 (w : BitVec 32) : List Byte :=
  [w.extractLsb' 24 8, w.extractLsb' 16 8, w.extractLsb' 8 8, w.extractLsb' 0 8]

/-- The big-endian 64-bit word of the first 8 bytes, with the bytes after them (R65, `MemRead(B, addr, 8)` of 00_scope.md R14). -/
def takeWord64 : List Byte → Option (Word64 × List Byte)
  | b0 :: b1 :: b2 :: b3 :: b4 :: b5 :: b6 :: b7 :: rest => some (b0 ++ b1 ++ b2 ++ b3 ++ b4 ++ b5 ++ b6 ++ b7, rest)
  | _ => none

/-- The big-endian 32-bit field of the first 4 bytes, with the bytes after them (R65, `MemRead(B, addr, 4)` of R14). -/
def takeWord32 : List Byte → Option (BitVec 32 × List Byte)
  | b0 :: b1 :: b2 :: b3 :: rest => some (b0 ++ b1 ++ b2 ++ b3, rest)
  | _ => none

/-! ## Constants of the encodings -/

/-- `AUDIO_MAGIC`, "qoaf" (00_scope.md R5). -/
def audioMagic : BitVec 32 := 0x716F6166
/-- `IMAGE_MAGIC`, "qoif" (00_scope.md R5). -/
def imageMagic : BitVec 32 := 0x716F6966
/-- `IMG_FOOTER` as one word (R97). -/
def imageFooterWord : Word64 := 1

/-- The spec's default tags and field orders (00_scope.md R6; R100 to R104), PRESUMED by the spec from general knowledge
(log 8). -/
def defaultImageFormat : ImageFormat where
  tagIndex := 0
  tagDiff := 1
  tagLuma := 2
  tagRun := 3
  tagRgb := 0xFE
  tagRgba := 0xFF
  diffOrder := .rgb
  lumaRedHigh := true
  rgbOrder := .rgb
  rgbaOrder := .rgb
  alphaPlace := 3

/-! ## Immediates (R105) -/

/-- A field that stores `v + bias`, decoded: `field - bias`. -/
def unbias {w : Nat} (bias : Int) (field : BitVec w) : Int := (field.toNat : Int) - bias

/-- The field of `w` bits that stores `v + bias`. -/
def biased (w : Nat) (bias v : Int) : BitVec w := BitVec.ofInt w (v + bias)

/-- The 2-bit tag, bits 7..6 of an opcode's first byte. -/
def opTag (op : Byte) : BitVec 2 := op.extractLsb' 6 2

/-- The low 6 bits of an opcode's first byte. -/
def opLow (op : Byte) : BitVec 6 := op.extractLsb' 0 6

/-! ## Image formats (R100 to R104) -/

/-- The ranges 93_implementation_defined.md I4 gives the tags: four distinct 2-bit values, and two distinct bytes whose
top two bits are `TAG_RUN` and whose low six bits are 62 and 63. -/
def ImageFormat.wf (f : ImageFormat) : Bool :=
  decide ([f.tagIndex, f.tagDiff, f.tagLuma, f.tagRun].Nodup) && decide (f.tagRgb ≠ f.tagRgba) &&
  [f.tagRgb, f.tagRgba].all fun t => decide (opTag t = f.tagRun) && decide (62 ≤ (opLow t).toNat)

/-- Red, green and blue in the order of an opcode's fields. -/
def ColourOrder.arrange {α : Type} (o : ColourOrder) (r g b : α) : α × α × α :=
  match o with
  | .rgb => (r, g, b)
  | .rbg => (r, b, g)
  | .grb => (g, r, b)
  | .gbr => (g, b, r)
  | .brg => (b, r, g)
  | .bgr => (b, g, r)

/-- An opcode's three fields as red, green and blue. -/
def ColourOrder.sort {α : Type} (o : ColourOrder) (x y z : α) : α × α × α :=
  match o with
  | .rgb => (x, y, z)
  | .rbg => (x, z, y)
  | .grb => (y, x, z)
  | .gbr => (z, x, y)
  | .brg => (y, z, x)
  | .bgr => (z, y, x)

/-- The alpha byte put among three colour bytes. -/
def insertAlpha (place : Fin 4) (a x y z : Byte) : Byte × Byte × Byte × Byte :=
  match place with
  | 0 => (a, x, y, z)
  | 1 => (x, a, y, z)
  | 2 => (x, y, a, z)
  | 3 => (x, y, z, a)

/-- The alpha byte taken from among four bytes, and the three colour bytes. -/
def extractAlpha (place : Fin 4) (b0 b1 b2 b3 : Byte) : Byte × Byte × Byte × Byte :=
  match place with
  | 0 => (b0, b1, b2, b3)
  | 1 => (b1, b0, b2, b3)
  | 2 => (b2, b0, b1, b3)
  | 3 => (b3, b0, b1, b2)

/-- RGB from its three bytes (R104). -/
def rgbOf (f : ImageFormat) (x y z : Byte) : Instr :=
  let c := f.rgbOrder.sort x y z
  .rgb c.1 c.2.1 c.2.2

/-- RGBA from its four bytes (R104). -/
def rgbaOf (f : ImageFormat) (b0 b1 b2 b3 : Byte) : Instr :=
  let p := extractAlpha f.alphaPlace b0 b1 b2 b3
  let c := f.rgbaOrder.sort p.2.1 p.2.2.1 p.2.2.2
  .rgba c.1 c.2.1 c.2.2 p.1

/-- DIFF from its three fields, the most significant first (R101). -/
def diffOf (f : ImageFormat) (x y z : BitVec 2) : Instr :=
  let c := f.diffOrder.sort x y z
  .diff (unbias 2 c.1) (unbias 2 c.2.1) (unbias 2 c.2.2)

/-- LUMA from its green delta and the two nibbles of its second byte (R102). -/
def lumaOf (f : ImageFormat) (green : BitVec 6) (high low : BitVec 4) : Instr :=
  .luma (unbias 32 green) (unbias 8 (if f.lumaRedHigh then high else low)) (unbias 8 (if f.lumaRedHigh then low else high))

/-! ## Slice words (R94, R95) -/

/-- The 3-bit field `code[j]` of a slice word: bits 59-3j .. 57-3j (R94). -/
def sliceCode (w : Word64) (j : Nat) : BitVec 3 := w.extractLsb' (57 - 3 * j) 3

/-- The first `m` codes of a slice word; the fill bits below are not looked at (R95, 42_audio_bitstream.md R188). -/
def sliceCodes (w : Word64) (m : Nat) : List (BitVec 3) := (List.range m).map (sliceCode w)

/-- The slice word before its left-justification: `sf`, then one code after another from the low end (R187). -/
def pushCodes (w : Word64) (codes : List (BitVec 3)) : Word64 :=
  codes.foldl (fun acc c => (acc <<< 3) ||| c.setWidth 64) w

/-- The slice word of a scale factor and `m` codes: left-justified, zero-filled below (R94, R95). -/
def packSlice (sf : BitVec 4) (codes : List (BitVec 3)) : Word64 :=
  pushCodes (sf.setWidth 64) codes <<< (3 * (20 - codes.length))

/-! ## Decoding -/

/-- Why bytes are no unit of the kind asked for. -/
inductive DecodeError where
  /-- Fewer bytes than the unit has (the machine's `need` comes first: 20_memory.md R78). -/
  | truncated
  /-- A stream header whose magic is another (R107, R108). -/
  | badMagic
  /-- More than 3 bits for the command register (R120). -/
  | notACommand
  /-- A first byte no tag claims: none exists with four distinct tags (R99). -/
  | unassignedTag
deriving DecidableEq, Repr

/-- What decoding answers: a unit and the bytes after it, or a rejection by name. -/
inductive Decoded where
  | ok (i : Instr) (rest : List Byte)
  | reject (e : DecodeError)
deriving DecidableEq, Repr

/-- The length of an image opcode, told by its first byte alone (R98), by the dispatch order of R99. -/
def opcodeLength (f : ImageFormat) (op : Byte) : Nat :=
  if op = f.tagRgb then 4
  else if op = f.tagRgba then 5
  else if opTag op = f.tagIndex ∨ opTag op = f.tagDiff then 1
  else if opTag op = f.tagLuma then 2
  else 1

/-- The command a code of the `CMD` register names (R120, R121). -/
def decodeCommand (code : BitVec 3) : Instr :=
  if code = 0 then .nop
  else if code = 1 then .audEnc
  else if code = 2 then .audDec
  else if code = 3 then .imgEnc
  else if code = 4 then .imgDec
  else if code = 5 then .reserved5
  else if code = 6 then .reserved6
  else .reserved7

/-- An image opcode, by the dispatch order of R99: the two 8-bit tags first, then the 2-bit tags. -/
def decodeOpcode (f : ImageFormat) : List Byte → Decoded
  | [] => .reject .truncated
  | op :: rest =>
    if op = f.tagRgb then
      match rest with
      | x :: y :: z :: t => .ok (rgbOf f x y z) t
      | _ => .reject .truncated
    else if op = f.tagRgba then
      match rest with
      | b0 :: b1 :: b2 :: b3 :: t => .ok (rgbaOf f b0 b1 b2 b3) t
      | _ => .reject .truncated
    else if opTag op = f.tagIndex then .ok (.index (opLow op)) rest
    else if opTag op = f.tagDiff then
      .ok (diffOf f (op.extractLsb' 4 2) (op.extractLsb' 2 2) (op.extractLsb' 0 2)) rest
    else if opTag op = f.tagLuma then
      match rest with
      | b1 :: t => .ok (lumaOf f (opLow op) (b1.extractLsb' 4 4) (b1.extractLsb' 0 4)) t
      | _ => .reject .truncated
    else if opTag op = f.tagRun then .ok (.run ((opLow op).toNat + 1)) rest
    else .reject .unassignedTag

/-- The image header (R96): magic, width, height, two tags. -/
def decodeImageHeader (bs : List Byte) : Decoded :=
  match takeWord32 bs with
  | none => .reject .truncated
  | some (magic, bs1) =>
    match takeWord32 bs1 with
    | none => .reject .truncated
    | some (width, bs2) =>
      match takeWord32 bs2 with
      | some (height, chtag :: cstag :: rest) =>
        if magic = imageMagic then .ok (.qoif width height chtag cstag) rest else .reject .badMagic
      | _ => .reject .truncated

/-- The frame header's fields (R92). -/
def frameOfWord (w : Word64) : Instr :=
  .frame (w.extractLsb' 56 8) (w.extractLsb' 32 24) (w.extractLsb' 16 16) (w.extractLsb' 0 16)

/-- An audio word at a place of the stream (R91 to R95). -/
def unitOfWord (k : UnitKind) (w : Word64) (rest : List Byte) : Decoded :=
  match k with
  | .audioHeader =>
    if w.extractLsb' 32 32 = audioMagic then .ok (.qoaf (w.extractLsb' 0 32)) rest else .reject .badMagic
  | .frameHeader => .ok (frameOfWord w) rest
  | .history => .ok (.hist (w.extractLsb' 48 16) (w.extractLsb' 32 16) (w.extractLsb' 16 16) (w.extractLsb' 0 16)) rest
  | .weights => .ok (.wght (w.extractLsb' 48 16) (w.extractLsb' 32 16) (w.extractLsb' 16 16) (w.extractLsb' 0 16)) rest
  | .slice m => .ok (.slice (w.extractLsb' 60 4) (sliceCodes w m)) rest
  | .imageFooter => .ok .footer rest
  | .command | .imageHeader | .opcode => .reject .truncated

/-- The unit at the head of the bytes, read as the kind its place selects; total on any bytes. The image footer's
content is not examined (45_pixel_decoder.md R280). -/
def decode (f : ImageFormat) (k : UnitKind) (bs : List Byte) : Decoded :=
  match k with
  | .command =>
    match bs with
    | [] => .reject .truncated
    | b :: rest => if b.toNat < 8 then .ok (decodeCommand (b.setWidth 3)) rest else .reject .notACommand
  | .imageHeader => decodeImageHeader bs
  | .opcode => decodeOpcode f bs
  | _ =>
    match takeWord64 bs with
    | none => .reject .truncated
    | some (w, rest) => unitOfWord k w rest

/-! ## Encoding -/

/-- The code of a host command, as the byte that holds the `CMD` register's 3 bits (R120). -/
def commandByte (code : BitVec 3) : List Byte := [code.setWidth 8]

/-- RGB's bytes (R104). -/
def rgbBytes (f : ImageFormat) (r g b : Byte) : List Byte :=
  let c := f.rgbOrder.arrange r g b
  [f.tagRgb, c.1, c.2.1, c.2.2]

/-- RGBA's bytes (R104). -/
def rgbaBytes (f : ImageFormat) (r g b a : Byte) : List Byte :=
  let c := f.rgbaOrder.arrange r g b
  let p := insertAlpha f.alphaPlace a c.1 c.2.1 c.2.2
  [f.tagRgba, p.1, p.2.1, p.2.2.1, p.2.2.2]

/-- DIFF's byte (R101). -/
def diffByte (f : ImageFormat) (dr dg db : Int) : Byte :=
  let c := f.diffOrder.arrange (biased 2 2 dr) (biased 2 2 dg) (biased 2 2 db)
  (f.tagDiff ++ c.1 ++ c.2.1 ++ c.2.2 : BitVec 8)

/-- LUMA's two bytes (R102). -/
def lumaBytes (f : ImageFormat) (dg drg dbg : Int) : List Byte :=
  [f.tagLuma ++ biased 6 32 dg,
   biased 4 8 (if f.lumaRedHigh then drg else dbg) ++ biased 4 8 (if f.lumaRedHigh then dbg else drg)]

/-- The bytes of a unit, lowest address first (R91 to R104); of a command, the byte of its code (R120). -/
def encode (f : ImageFormat) : Instr → List Byte
  | .rgb r g b => rgbBytes f r g b
  | .rgba r g b a => rgbaBytes f r g b a
  | .index slot => [f.tagIndex ++ slot]
  | .diff dr dg db => [diffByte f dr dg db]
  | .luma dg drg dbg => lumaBytes f dg drg dbg
  | .run length => [f.tagRun ++ BitVec.ofNat 6 (length - 1)]
  | .qoif width height chtag cstag => bytes32 imageMagic ++ bytes32 width ++ bytes32 height ++ [chtag, cstag]
  | .footer => bytes64 imageFooterWord
  | .qoaf samples => bytes64 (audioMagic ++ samples)
  | .frame channels rate fsamples fsize => bytes64 (channels ++ rate ++ fsamples ++ fsize)
  | .hist h0 h1 h2 h3 => bytes64 (h0 ++ h1 ++ h2 ++ h3)
  | .wght w0 w1 w2 w3 => bytes64 (w0 ++ w1 ++ w2 ++ w3)
  | .slice sf codes => bytes64 (packSlice sf codes)
  | .nop => commandByte 0
  | .audEnc => commandByte 1
  | .audDec => commandByte 2
  | .imgEnc => commandByte 3
  | .imgDec => commandByte 4
  | .reserved5 => commandByte 5
  | .reserved6 => commandByte 6
  | .reserved7 => commandByte 7

/-- The place at which a unit is read (the opcode table's "select"). -/
def kindOf : Instr → UnitKind
  | .rgb _ _ _ | .rgba _ _ _ _ | .index _ | .diff _ _ _ | .luma _ _ _ | .run _ => .opcode
  | .qoif _ _ _ _ => .imageHeader
  | .footer => .imageFooter
  | .qoaf _ => .audioHeader
  | .frame _ _ _ _ => .frameHeader
  | .hist _ _ _ _ => .history
  | .wght _ _ _ _ => .weights
  | .slice _ codes => .slice codes.length
  | .nop | .audEnc | .audDec | .imgEnc | .imgDec | .reserved5 | .reserved6 | .reserved7 => .command

/-- The number of bytes of a unit (R90, R98). -/
def unitLength : Instr → Nat
  | .rgb _ _ _ => 4
  | .rgba _ _ _ _ => 5
  | .luma _ _ _ => 2
  | .index _ | .diff _ _ _ | .run _ => 1
  | .qoif _ _ _ _ => 14
  | .footer | .qoaf _ | .frame _ _ _ _ | .hist _ _ _ _ | .wght _ _ _ _ | .slice _ _ => 8
  | .nop | .audEnc | .audDec | .imgEnc | .imgDec | .reserved5 | .reserved6 | .reserved7 => 1

/-! ## Opcode-table words -/

/-- The low `n` bytes of a number, the least significant first. -/
def littleBytes : Nat → Nat → List Byte
  | 0, _ => []
  | n + 1, w => BitVec.ofNat 8 w :: littleBytes n (w / 256)

/-- An instruction's bytes from its table bits, lowest address first (log 15). The table numbers a command or an image
opcode by bytes, the first one bits 7..0 (`RGB` matches 0xFE); it numbers the 64-bit units and the 14-byte image header as
one big-endian word, the first byte on top (`QOAF` matches 0x716F616600000000). Every bit above the given ones is 0. -/
def tableBytes (nbits w : Nat) : List Byte :=
  if nbits ≤ 40 then littleBytes 5 w
  else if nbits ≤ 64 then (littleBytes 8 w).reverse
  else (littleBytes 14 w).reverse

/-- The kind a table word is read as (DESIGN CHOICE, log 15): the table numbers rows that only their place tells apart,
so a byte below 8 is a command code, a word of up to 5 bytes an image opcode, one of up to 8 bytes an audio header,
an image footer or else a frame header, and a longer one an image header. -/
def tableKind (nbits w : Nat) : UnitKind :=
  if nbits ≤ 8 ∧ w < 8 then .command
  else if nbits ≤ 40 then .opcode
  else if nbits ≤ 64 then
    if (BitVec.ofNat 64 w).extractLsb' 32 32 = audioMagic then .audioHeader
    else if BitVec.ofNat 64 w = imageFooterWord then .imageFooter
    else .frameHeader
  else .imageHeader

/-- The instruction the decoder reads from an instruction whose bits are `w`, numbered as the opcode table numbers them;
the table writes its rows with the default tags. -/
def decodeTableWord (nbits w : Nat) : Option Instr :=
  match decode defaultImageFormat (tableKind nbits w) (tableBytes nbits (w % 2 ^ nbits)) with
  | .ok i _ => some i
  | .reject _ => none

end Sys2Proof
end

