-- ==== Sys2Proof/Machine/Params.lean ====
section
/-! DEFINITION. The block's parameters: the fixed ones (00_scope.md R5), the ranges of the configured ones (R6, R7;
93_implementation_defined.md I1 to I9), and the spec's default of every configured one: tables whose contents it takes
from general knowledge (41_quantizer_slice.md R150 to R152; log 7) and values it decides (log 9). -/

namespace Sys2Proof.Machine

/-! ## Fixed parameters (R5) -/

/-- `MAX_CHANNELS`. -/
def maxChannels : Nat := 8
/-- `PREDICT_SHIFT`. -/
def predictShift : Nat := 13
/-- `DELTA_SHIFT`. -/
def deltaShift : Nat := 4
/-- `SLICE_LEN`. -/
def sliceLen : Nat := 20
/-- `FRAME_LEN`. -/
def frameLen : Nat := 5120
/-- `N_SCALE`. -/
def scaleCount : Nat := 16
/-- `PENALTY_SHIFT`. -/
def penaltyShift : Nat := 18
/-- `PENALTY_BIAS`, 0x8FF. -/
def penaltyBias : Nat := 2303
/-- `RUN_MAX`. -/
def runMax : Nat := 62
/-- `MAX_DIM`. -/
def maxDim : Nat := 16384
/-- `IMG_ENC_CHTAG`. -/
def imgEncChtag : Byte := 4
/-- `IMG_ENC_CSTAG`. -/
def imgEncCstag : Byte := 0

/-- The pixel (0, 0, 0, 0): a cleared cache slot (10_state.md R38), and the value the model names for pixel registers
after reset. -/
def Pixel.zero : Pixel := ⟨0, 0, 0, 0⟩
/-- The pixel coder's start colour, opaque black (10_state.md R38). -/
def seedPixel : Pixel := ⟨0, 0, 0, 255⟩
/-- The colour cache at the start of an image, all zero (10_state.md R38). -/
def clearCache : Vector Pixel 64 := Vector.replicate 64 Pixel.zero

/-! ## Default tables (R6) -/

/-- `RECIP`'s default (41_quantizer_slice.md R150), PRESUMED by the spec from general knowledge (log 7). -/
def defaultRecip : Vector Int 16 :=
  #v[65536, 9363, 3121, 1457, 781, 475, 311, 216, 156, 117, 90, 71, 57, 47, 39, 32]

/-- `QUANT`'s default, indexed by the clamped scaled residual + 8 (41_quantizer_slice.md R151), PRESUMED by the spec from
general knowledge (log 7). -/
def defaultQuant : Vector (BitVec 3) 17 :=
  #v[7, 7, 7, 5, 5, 3, 3, 1, 0, 0, 2, 2, 4, 4, 6, 6, 6]

/-- `DEQUANT`'s default, rows by scale factor, columns by code (41_quantizer_slice.md R152), PRESUMED by the spec from general
knowledge (log 7). -/
def defaultDequant : Vector (Vector Int 8) 16 :=
  #v[#v[1, -1, 3, -3, 5, -5, 7, -7],
     #v[5, -5, 18, -18, 32, -32, 49, -49],
     #v[16, -16, 53, -53, 95, -95, 147, -147],
     #v[34, -34, 113, -113, 203, -203, 315, -315],
     #v[63, -63, 210, -210, 378, -378, 588, -588],
     #v[104, -104, 345, -345, 621, -621, 966, -966],
     #v[158, -158, 528, -528, 950, -950, 1477, -1477],
     #v[228, -228, 760, -760, 1368, -1368, 2128, -2128],
     #v[316, -316, 1053, -1053, 1895, -1895, 2947, -2947],
     #v[422, -422, 1405, -1405, 2529, -2529, 3934, -3934],
     #v[548, -548, 1828, -1828, 3290, -3290, 5117, -5117],
     #v[696, -696, 2320, -2320, 4176, -4176, 6496, -6496],
     #v[868, -868, 2893, -2893, 5207, -5207, 8099, -8099],
     #v[1064, -1064, 3548, -3548, 6386, -6386, 9933, -9933],
     #v[1286, -1286, 4288, -4288, 7718, -7718, 12005, -12005],
     #v[1536, -1536, 5120, -5120, 9216, -9216, 14336, -14336]]

/-! ## The default configuration and the ranges (R6, R7) -/

/-- The spec's default of every parameter of 00_scope.md R6 and R7 (decisions D4 to D8, D13, D14; logs 6 to 9). -/
def defaultConfig : Config where
  dequant := defaultDequant
  quant := defaultQuant
  recip := defaultRecip
  div := .reciprocal
  image := defaultImageFormat
  initW := #v[0, 0, 0, 0]
  initH := #v[0, 0, 0, 0]
  initSf := 0
  wBits := 32
  frameAdvance := .consumed
  audioMinSize := 16
  imageMinSize := 22

end Sys2Proof.Machine

namespace Sys2Proof

/-- The ranges 93_implementation_defined.md 1.1 gives the parameters, as far as their types leave them open: positive
reciprocals (I3), tags that do not collide (I4), `W_BITS` at least 17 (I7), `AUDIO_MIN_SIZE` at least 16 (I9); and
`IMAGE_MIN_SIZE` at least the 14 bytes of the header that is read behind its check (DEDUCED, log 23). -/
def Config.wf (cfg : Config) : Bool :=
  cfg.recip.toList.all (fun r => decide (0 < r)) && cfg.image.wf && decide (17 ≤ cfg.wBits) &&
  decide (16 ≤ cfg.audioMinSize) && decide (14 ≤ cfg.imageMinSize)

end Sys2Proof
end

