-- ==== Sys2Proof/Machine/State.lean ====
section
/-! DEFINITION. The machine's state as plain data, its faults and refusals, and the state after reset
(10_state.md R20 to R39). -/

namespace Sys2Proof.Machine

/-- The error kinds (60_exceptions.md R300). -/
inductive ErrKind where
  | eNone
  | eInvalidArgs
  | eMemory
  | eEof
  | eBadMagic
  | eStreaming
  | eTooManyChannels
  | eFrameInconsistent
  | eMalformedFrame
  | eInvalidDimensions
  | eInvalidTag
deriving DecidableEq, Repr

/-- Why the model stops. -/
inductive Fault where
  /-- Raised by a read of a buffer element that nothing has written: the spec leaves host memory unspecified (R36)
  and holds a host to filling its input (70_reset_and_hazards.md R341). Safe: the hardware goes on (log 2). -/
  | unfilledBuffer
  /-- Raised by an access outside the descriptor's length or capacity that no bounds rule caught; every rule checks
  first, so no run that starts at reset makes one (20_memory.md R78, R79). Safe (log 3). -/
  | outsideBuffer
deriving DecidableEq, Repr

/-- Why the model gives an instruction no meaning. -/
inductive Refusal where
  /-- Raised by exec's arm of an instruction that has no meaning yet. Safe. -/
  | notModelled (mnemonic : String)
  /-- Raised by a command handed to exec while `STATUS.BUSY` = 1, which the host never does
  (93_implementation_defined.md X1, 60_exceptions.md R321). Safe (log 16). -/
  | commandWhileBusy
  /-- Raised by a stream unit handed to exec where the running command has no such unit: position selects the unit,
  and step never does this (log 16). Safe. -/
  | unitOutOfPlace
deriving DecidableEq, Repr

/-- The three buffer spaces (20_memory.md R60). -/
inductive SpaceId where
  | bytes
  | samples
  | pixels
deriving DecidableEq, Repr

/-- A buffer space's contents: (index, element) pairs with the indices strictly rising. An index that is not listed
has no value: it is host memory that nothing has written (R36; DESIGN CHOICE, log 2). -/
abbrev Space (α : Type) := List (Nat × α)

/-- A buffer descriptor (R29). -/
structure Descriptor where
  present : Bool
  len : BitVec 32
  cap : BitVec 32
deriving DecidableEq, Repr

/-- One channel's predictor state: four weights and four history samples, `h3` the most recent (R21, R22). A weight
register is `W_BITS` wide, a parameter: it holds a signed integer, and every write wraps it to that width (R22). -/
structure Predictor where
  w0 : Int
  w1 : Int
  w2 : Int
  w3 : Int
  h0 : BitVec 32
  h1 : BitVec 32
  h2 : BitVec 32
  h3 : BitVec 32
deriving DecidableEq, Repr

/-- A candidate of the slice search: its predictor state, rank, slice word and scale factor (R33). -/
structure Candidate where
  pred : Predictor
  rank : Nat
  word : Word64
  sf : BitVec 4
deriving DecidableEq, Repr

/-- The hidden state of a slice search (R33): the loop index of 41_quantizer_slice.md R158, the candidate last
simulated and the best one so far. -/
structure Search where
  index : Nat
  cand : Candidate
  best : Option Candidate
deriving DecidableEq, Repr

/-- The header values `w, h, ct, cs` of 45_pixel_decoder.md R270, held from the header to R281 (log 17). -/
structure ImageHeader where
  width : BitVec 32
  height : BitVec 32
  chtag : Byte
  cstag : Byte
deriving DecidableEq, Repr

/-- Which unit of its stream a running command handles next (the opcode table's "select"). -/
inductive Place where
  /-- The image header. -/
  | imageHeader
  /-- A pixel step of the image loop. -/
  | pixel
  /-- The image footer. -/
  | imageFooter
  /-- The audio stream header. -/
  | audioHeader
  /-- The test of the frame loop, and the frame header behind it. -/
  | frame
  /-- The history word of channel `c`. -/
  | hist (c : Fin 8)
  /-- The weights word of channel `c`. -/
  | wght (c : Fin 8)
  /-- The slice word of slice `t`, channel `c`. -/
  | slice (t : Nat) (c : Fin 8)
deriving DecidableEq, Repr

/-- Idle, or a decoder or an encoder at a place of its stream: the model's own field for the point a command has
reached (00_scope.md R8, log 10). -/
inductive Phase where
  | idle
  | dec (p : Place)
  | enc (p : Place)
deriving DecidableEq, Repr

/-- A move of the host, possible while `STATUS.BUSY` = 0 only (R35, log 11): a write of `CMD`, of an operand
register (R28), of a descriptor field (R29) or of a buffer element. -/
inductive HostMove where
  | writeCmd (code : BitVec 3)
  | writeChannels (v : BitVec 8)
  | writeRate (v : BitVec 24)
  | writeSamples (v : BitVec 32)
  | writeWidth (v : BitVec 32)
  | writeHeight (v : BitVec 32)
  | setPresent (x : SpaceId) (v : Bool)
  | setLen (x : SpaceId) (v : BitVec 32)
  | setCap (x : SpaceId) (v : BitVec 32)
  | fillByte (a : BitVec 32) (v : Byte)
  | fillSample (i : BitVec 32) (v : BitVec 16)
  | fillPixel (i : BitVec 32) (v : Pixel)
deriving DecidableEq, Repr

/-- All the state of one block instance (R20), the three buffer spaces, and the model's own control fields. -/
structure State where
  /-- The configuration the block is built with (00_scope.md R6, R7); the model's own field: nothing writes it (R20,
  log 23). -/
  cfg : Config
  /-- `CMD` (R31). -/
  cmd : BitVec 3
  /-- `STATUS.BUSY` (R31). -/
  busy : Bool
  /-- `STATUS.DONE` (R31). -/
  done : Bool
  /-- `ERR` (R31, 60_exceptions.md R300). -/
  err : BitVec 4
  /-- `A_CHANNELS` (R28). -/
  aChannels : BitVec 8
  /-- `A_RATE` (R28). -/
  aRate : BitVec 24
  /-- `A_SAMPLES` (R28). -/
  aSamples : BitVec 32
  /-- `I_WIDTH` (R28). -/
  iWidth : BitVec 32
  /-- `I_HEIGHT` (R28). -/
  iHeight : BitVec 32
  /-- `I_CHTAG` (R28). -/
  iChtag : Byte
  /-- `I_CSTAG` (R28). -/
  iCstag : Byte
  /-- `B_PRESENT`, `B_LEN`, `B_CAP` (R29). -/
  bDesc : Descriptor
  /-- `S_PRESENT`, `S_LEN`, `S_CAP` (R29). -/
  sDesc : Descriptor
  /-- `P_PRESENT`, `P_LEN`, `P_CAP` (R29). -/
  pDesc : Descriptor
  /-- The space `B` (20_memory.md R61). -/
  bytes : Space Byte
  /-- The space `S` (20_memory.md R62). -/
  samples : Space (BitVec 16)
  /-- The space `P` (20_memory.md R63). -/
  pixels : Space Pixel
  /-- `BP` (R30). -/
  bp : BitVec 32
  /-- `SP` (R30). -/
  sp : BitVec 32
  /-- `PP` (R30). -/
  pp : BitVec 32
  /-- `W[c][0..3]` and `H[c][0..3]` (R21, R22). -/
  pred : Vector Predictor 8
  /-- `PREV_SF[c]` (R24). -/
  prevSf : Vector (BitVec 4) 8
  /-- `PX_PREV` (R25). -/
  pxPrev : Pixel
  /-- `CACHE[k]` (R26). -/
  cache : Vector Pixel 64
  /-- `RUN` (R27). -/
  run : BitVec 6
  /-- `ST_CHANNELS` (R32). -/
  stChannels : BitVec 8
  /-- `ST_RATE` (R32). -/
  stRate : BitVec 24
  /-- `ST_SAMPLES` (R32). -/
  stSamples : BitVec 32
  /-- `F_CHANNELS` (R32). -/
  fChannels : BitVec 8
  /-- `F_RATE` (R32). -/
  fRate : BitVec 24
  /-- `F_SAMPLES` (R32). -/
  fSamples : BitVec 16
  /-- `F_SIZE` (R32). -/
  fSize : BitVec 16
  /-- `F_START` (R32). -/
  fStart : BitVec 32
  /-- The hidden search state (R33). -/
  search : Search
  /-- The header values an image decode holds (45_pixel_decoder.md R270); the model's own field (log 17). -/
  hdr : ImageHeader
  /-- The point the running command has reached; the model's own field (log 10). -/
  phase : Phase
  /-- The host moves still to come; the model's own field (log 11). -/
  host : List HostMove
  /-- The reset signal (R36), an input; the model's own field (log 12). -/
  resetLine : Bool
  /-- Numbers the free values; the model's own field (log 5). -/
  freeCount : Nat
deriving DecidableEq, Repr

/-- The three outcomes of this machine's steps. -/
abbrev Out := Host.Outcome State Fault Refusal

/-- Nothing attached (R36). -/
def Descriptor.reset : Descriptor := ⟨false, 0, 0⟩

/-- The value the model names for a predictor register after reset: zero (R36 leaves it unspecified; log 1). -/
def Predictor.zero : Predictor := ⟨0, 0, 0, 0, 0, 0, 0, 0⟩

/-- A candidate that nothing has simulated. -/
def Candidate.zero : Candidate := ⟨Predictor.zero, 0, 0, 0⟩

/-- The search state at the start of a slice (41_quantizer_slice.md R158: `best <- none`). -/
def Search.start : Search := ⟨0, Candidate.zero, none⟩

/-- A block of a given configuration right after reset (R36, 70_reset_and_hazards.md R340): the handshake registers and
descriptors at the values the rule gives, nothing listed in a buffer space, and every register the rule leaves
unspecified at zero (log 1). -/
def State.resetWith (cfg : Config) : State where
  cfg := cfg
  cmd := 0
  busy := false
  done := false
  err := 0
  aChannels := 0
  aRate := 0
  aSamples := 0
  iWidth := 0
  iHeight := 0
  iChtag := 0
  iCstag := 0
  bDesc := Descriptor.reset
  sDesc := Descriptor.reset
  pDesc := Descriptor.reset
  bytes := []
  samples := []
  pixels := []
  bp := 0
  sp := 0
  pp := 0
  pred := Vector.replicate 8 Predictor.zero
  prevSf := Vector.replicate 8 0
  pxPrev := Pixel.zero
  cache := Vector.replicate 64 Pixel.zero
  run := 0
  stChannels := 0
  stRate := 0
  stSamples := 0
  fChannels := 0
  fRate := 0
  fSamples := 0
  fSize := 0
  fStart := 0
  search := Search.start
  hdr := ⟨0, 0, 0, 0⟩
  phase := .idle
  host := []
  resetLine := false
  freeCount := 0

/-- The machine right after reset, a block of the spec's default configuration (log 23). -/
def State.reset : State := State.resetWith defaultConfig

end Sys2Proof.Machine
end

