-- ==== Sys2Proof/Machine/Arith.lean ====
section
/-! DEFINITION. The functions of the spec's pseudocode that narrow or compare integers (00_scope.md R12). Exact
arithmetic is Lean's `Int`; the floor shift `v >> k` is `>>>` on `Int`. -/

namespace Sys2Proof.Machine

/-- `sgn(v)` (R12). -/
def sgn (v : Int) : Int := if 0 < v then 1 else if v < 0 then -1 else 0

/-- `clamp(v, lo, hi)` (R12). -/
def clamp (v lo hi : Int) : Int := if v < lo then lo else if hi < v then hi else v

/-- `clamp16(v)` (R12). -/
def clamp16 (v : Int) : Int := clamp v (-32768) 32767

/-- `wrap_N(v)`: two's complement wrap-around to `N` bits (R12). -/
def wrapTo (bits : Nat) (v : Int) : Int := v.bmod (2 ^ bits)

/-- The 32-bit container of a history register that takes a value (10_state.md R22). -/
def historyReg (v : Int) : BitVec 32 := BitVec.ofInt 32 v

/-- The value a weight register takes from a write: wrapped to `W_BITS` (10_state.md R22). -/
def weightReg (cfg : Config) (v : Int) : Int := wrapTo cfg.wBits v

/-- `trunc_16` of a history register (R12, 42_audio_bitstream.md R185). -/
def trunc16 (v : BitVec 32) : BitVec 16 := v.setWidth 16

/-- `trunc_16` of a weight register (R12, 42_audio_bitstream.md R185). -/
def truncWeight (v : Int) : BitVec 16 := BitVec.ofInt 16 v

/-- `sext_16` of a stored field, as the register that takes it (R12, 42_audio_bitstream.md R186). -/
def sext16 (v : BitVec 16) : BitVec 32 := v.signExtend 32

/-- `wrap8u(v)` (R12). -/
def wrap8u (v : Int) : Byte := BitVec.ofInt 8 v

/-- `s8(v)`: the wrapped difference read as a signed byte (R12). -/
def s8 (v : Int) : Int := (wrap8u v).toInt

/-- `ceil(n / d)` of counts. -/
def ceilDiv (n d : Nat) : Nat := (n + (d - 1)) / d

end Sys2Proof.Machine
end

