-- ==== Sys2Proof/Machine/Flags.lean ====
section
/-! DEFINITION. The block's only flags: STATUS.BUSY, STATUS.DONE and ERR (10_state.md R31). No datapath operation sets
a condition code. -/

namespace Sys2Proof.Machine

/-- The number of an error kind (60_exceptions.md R300, decision D24). -/
def ErrKind.code : ErrKind → BitVec 4
  | .eNone => 0
  | .eInvalidArgs => 1
  | .eMemory => 2
  | .eEof => 3
  | .eBadMagic => 4
  | .eStreaming => 5
  | .eTooManyChannels => 6
  | .eFrameInconsistent => 7
  | .eMalformedFrame => 8
  | .eInvalidDimensions => 9
  | .eInvalidTag => 10

/-- The write of `CMD`: `DONE <- 0`, `BUSY <- 1` (60_exceptions.md R321). -/
def flagsStart (code : BitVec 3) (s : State) : State := { s with cmd := code, busy := true, done := false }

/-- Completion, with the error kind it reports: `BUSY <- 0`, `DONE <- 1`, `ERR` (60_exceptions.md R321); the block is
idle again. -/
def flagsEnd (e : ErrKind) (s : State) : State :=
  { s with busy := false, done := true, err := e.code, phase := .idle }

/-- The write of a command code that completes at once and has no other effect (30_encoding.md R120 `NOP`, R121
reserved codes). -/
def flagsAtOnce (code : BitVec 3) (e : ErrKind) (s : State) : State := flagsEnd e (flagsStart code s)

end Sys2Proof.Machine
end

