-- ==== Sys2Proof/Machine/Ops.lean ====
section
/-! DEFINITION. The named operations over buffers and registers: reading and writing the spaces (00_scope.md R14),
`need` and `emit` (20_memory.md R78, R79), starting and completing a command, raising an error (60_exceptions.md R310)
and reset (10_state.md R36, R37). -/

namespace Sys2Proof.Machine

/-! ## Buffer spaces -/

/-- The element at an index, if anything wrote one (R14 `MemRead`). -/
def Space.read {α : Type} : Space α → Nat → Option α
  | [], _ => none
  | (k, v) :: rest, a => if k = a then some v else Space.read rest a

/-- One element written (R14 `MemWrite`), the indices kept rising. -/
def Space.write {α : Type} : Space α → Nat → α → Space α
  | [], a, v => [(a, v)]
  | (k, u) :: rest, a, v =>
    if a < k then (a, v) :: (k, u) :: rest
    else if a = k then (a, v) :: rest
    else (k, u) :: Space.write rest a v

/-- Elements written one after another. -/
def Space.writeAll {α : Type} (m : Space α) (ws : List (Nat × α)) : Space α :=
  ws.foldl (fun acc w => Space.write acc w.1 w.2) m

/-- The canonical form: indices strictly rising. (Every listed entry differs from an unlisted one: that has no value.) -/
def Space.wf {α : Type} : Space α → Bool
  | [] => true
  | [_] => true
  | (k, _) :: (l, v) :: rest => decide (k < l) && Space.wf ((l, v) :: rest)

/-- `n` consecutive indices from `a`. -/
def indices (a n : Nat) : List Nat := (List.range n).map (a + ·)

/-- Consecutive writes from index `a`. -/
def placed {α : Type} (a : Nat) (vs : List α) : List (Nat × α) := (indices a vs.length).zip vs

/-- One element of an input buffer: below the descriptor's length (20_memory.md R61 to R63) and written by someone. -/
def readElem {α : Type} (m : Space α) (len : BitVec 32) (i : Nat) : Except Fault α :=
  if len.toNat ≤ i then .error .outsideBuffer
  else match Space.read m i with
    | none => .error .unfilledBuffer
    | some v => .ok v

/-- Several elements of an input buffer, in order. -/
def readMany {α : Type} (m : Space α) (len : BitVec 32) : List Nat → Except Fault (List α)
  | [] => .ok []
  | i :: rest =>
    match readElem m len i with
    | .error f => .error f
    | .ok v =>
      match readMany m len rest with
      | .error f => .error f
      | .ok vs => .ok (v :: vs)

/-- Bytes of the input stream, `n` from address `a`. -/
def readBytes (s : State) (a n : Nat) : Except Fault (List Byte) := readMany s.bytes s.bDesc.len (indices a n)

/-- Pixel `PP` of the input image (20_memory.md R63). -/
def readPixel (s : State) : Except Fault Pixel := readElem s.pixels s.pDesc.len s.pp.toNat

/-- `need(n)` holds: `n` bytes remain (20_memory.md R78). -/
def hasBytes (s : State) (n : Nat) : Bool := decide (s.bp.toNat + n ≤ s.bDesc.len.toNat)

/-! ## Errors, start and completion of a command -/

/-- The space a command writes (10_state.md R29). -/
def outputOf (cmd : BitVec 3) : Option SpaceId :=
  if cmd = 1 ∨ cmd = 3 then some .bytes
  else if cmd = 2 then some .samples
  else if cmd = 4 then some .pixels
  else none

/-- A descriptor whose length became 0. -/
def Descriptor.emptied (d : Descriptor) : Descriptor := { d with len := 0 }

/-- `raise Err(E)` (60_exceptions.md R310), the machine's one exception: `ERR`, `BUSY`, `DONE`, and the output
descriptor's length 0. The output buffer's contents have no value from then on (93_implementation_defined.md U1, log 4)
and the result registers of a decode hold free values (U2, log 5). There is no return from it (R317). -/
def raiseErr (e : ErrKind) (s : State) : State :=
  { flagsEnd e s with
    bDesc := if outputOf s.cmd = some .bytes then Descriptor.emptied s.bDesc else s.bDesc
    sDesc := if outputOf s.cmd = some .samples then Descriptor.emptied s.sDesc else s.sDesc
    pDesc := if outputOf s.cmd = some .pixels then Descriptor.emptied s.pDesc else s.pDesc
    bytes := if outputOf s.cmd = some .bytes then [] else s.bytes
    samples := if outputOf s.cmd = some .samples then [] else s.samples
    pixels := if outputOf s.cmd = some .pixels then [] else s.pixels
    aChannels := if outputOf s.cmd = some .samples then Config.freeValue 8 s.freeCount else s.aChannels
    aRate := if outputOf s.cmd = some .samples then Config.freeValue 24 (s.freeCount + 1) else s.aRate
    aSamples := if outputOf s.cmd = some .samples then Config.freeValue 32 (s.freeCount + 2) else s.aSamples
    iWidth := if outputOf s.cmd = some .pixels then Config.freeValue 32 s.freeCount else s.iWidth
    iHeight := if outputOf s.cmd = some .pixels then Config.freeValue 32 (s.freeCount + 1) else s.iHeight
    iChtag := if outputOf s.cmd = some .pixels then Config.freeValue 8 (s.freeCount + 2) else s.iChtag
    iCstag := if outputOf s.cmd = some .pixels then Config.freeValue 8 (s.freeCount + 3) else s.iCstag
    freeCount := if outputOf s.cmd = some .samples ∨ outputOf s.cmd = some .pixels then s.freeCount + 4 else s.freeCount }

/-- The first failing check of a sequence decides the error (60_exceptions.md R313). -/
def firstError : List (Bool × ErrKind) → Option ErrKind
  | [] => none
  | (fails, e) :: rest => if fails then some e else firstError rest

/-- A sequence of checks, then a command's or a unit's effect. -/
def checked (checks : List (Bool × ErrKind)) (s : State) (effect : State) : Out :=
  match firstError checks with
  | some e => .next (raiseErr e s)
  | none => .next effect

/-- The start of one of the four commands: the flags, and all cursors 0 (60_exceptions.md R321, 10_state.md R38). -/
def beginCommand (code : BitVec 3) (s : State) : State := { flagsStart code s with bp := 0, sp := 0, pp := 0 }

/-- A successful completion: `ERR <- E_NONE` (60_exceptions.md R321). -/
def completeOk (s : State) : State := flagsEnd .eNone s

/-! ## Output -/

/-- `emit` has room for `n` bytes (20_memory.md R79). -/
def hasRoom (s : State) (n : Nat) : Bool := decide (s.bp.toNat + n ≤ s.bDesc.cap.toNat)

/-- The bytes stored at `BP`, and `BP` moved past them (20_memory.md R79). -/
def emitted (bs : List Byte) (s : State) : State :=
  { s with bytes := Space.writeAll s.bytes (placed s.bp.toNat bs), bp := s.bp + BitVec.ofNat 32 bs.length }

/-- `emit` (20_memory.md R79), then the rest of a unit's effect; without room, `E_MEMORY` (log 14). -/
def emitThen (bs : List Byte) (s : State) (effect : State → State) : Out :=
  if hasRoom s bs.length then .next (effect (emitted bs s)) else .next (raiseErr .eMemory s)

/-- Samples stored in `S` (20_memory.md R62), each below the capacity. -/
def storeSamples (ws : List (Nat × BitVec 16)) (s : State) : Except Fault State :=
  if ws.all (fun w => decide (w.1 < s.sDesc.cap.toNat)) then .ok { s with samples := Space.writeAll s.samples ws }
  else .error .outsideBuffer

/-! ## Reset -/

/-- The reset signal (10_state.md R36, 70_reset_and_hazards.md R340): every register as after reset, the buffer spaces
untouched; a running command is abandoned and its output contents have no value (R37, log 12). The configuration stays
(R20), and host moves still to come and the numbering of free values go on. -/
def applyReset (s : State) : State :=
  { State.resetWith s.cfg with
    bytes := if s.busy ∧ outputOf s.cmd = some .bytes then [] else s.bytes
    samples := if s.busy ∧ outputOf s.cmd = some .samples then [] else s.samples
    pixels := if s.busy ∧ outputOf s.cmd = some .pixels then [] else s.pixels
    host := s.host
    freeCount := s.freeCount }

end Sys2Proof.Machine
end

