-- ==== Sys2Proof/Machine/PixelCoder.lean ====
section
/-! DEFINITION. The pixel coder's functions: the cache hash, the encoder's opcode selector and the decoder's colour
arithmetic (44_pixel_encoder.md R243 to R249, 45_pixel_decoder.md R272 to R276). -/

namespace Sys2Proof.Machine

/-- `HASH` (44_pixel_encoder.md R244). -/
def pixelHash (px : Pixel) : BitVec 6 :=
  BitVec.ofNat 6 (px.r.toNat * 3 + px.g.toNat * 5 + px.b.toNat * 7 + px.a.toNat * 11)

/-- The cache slot a hash or an INDEX operand names. -/
def cacheSlot (cache : Vector Pixel 64) (slot : BitVec 6) : Pixel := cache[slot.toNat]'slot.isLt

/-- `CACHE[HASH(px)] <- px` (44_pixel_encoder.md R246, 45_pixel_decoder.md R278). -/
def cacheStore (cache : Vector Pixel 64) (px : Pixel) : Vector Pixel 64 :=
  cache.set (pixelHash px).toNat px (pixelHash px).isLt

/-- A colour delta, the wrapped 8-bit difference read as a signed byte (44_pixel_encoder.md R247). -/
def colourDelta (now before : Byte) : Int := s8 ((now.toNat : Int) - before.toNat)

/-- Whether DIFF applies to these deltas (44_pixel_encoder.md R247). -/
def diffApplies (dr dg db : Int) : Bool := inRange dr (-2) 1 && inRange dg (-2) 1 && inRange db (-2) 1

/-- Whether LUMA applies to this green delta and these cross deltas (44_pixel_encoder.md R248). -/
def lumaApplies (dg drg dbg : Int) : Bool := inRange dg (-32) 31 && inRange drg (-8) 7 && inRange dbg (-8) 7

/-- The opcode of a pixel that misses the cache: the first applicable of DIFF, LUMA, RGB, RGBA
(44_pixel_encoder.md R247 to R249). -/
def selectLiteral (px prev : Pixel) : Instr :=
  let dr := colourDelta px.r prev.r
  let dg := colourDelta px.g prev.g
  let db := colourDelta px.b prev.b
  let drg := s8 (dr - dg)
  let dbg := s8 (db - dg)
  if px.a = prev.a then
    if diffApplies dr dg db then .diff dr dg db
    else if lumaApplies dg drg dbg then .luma dg drg dbg
    else .rgb px.r px.g px.b
  else .rgba px.r px.g px.b px.a

/-- The opcode of a pixel that is in no run (44_pixel_encoder.md R245, R255 a): INDEX on a cache hit, else by its
deltas. -/
def selectOpcode (px prev : Pixel) (cache : Vector Pixel 64) : Instr :=
  if cacheSlot cache (pixelHash px) = px then .index (pixelHash px) else selectLiteral px prev

/-- DIFF's colour (45_pixel_decoder.md R274). -/
def diffColour (prev : Pixel) (dr dg db : Int) : Pixel :=
  ⟨wrap8u (prev.r.toNat + dr), wrap8u (prev.g.toNat + dg), wrap8u (prev.b.toNat + db), prev.a⟩

/-- LUMA's colour (45_pixel_decoder.md R275). -/
def lumaColour (prev : Pixel) (dg drg dbg : Int) : Pixel :=
  ⟨wrap8u (prev.r.toNat + dg + drg), wrap8u (prev.g.toNat + dg), wrap8u (prev.b.toNat + dg + dbg), prev.a⟩

end Sys2Proof.Machine
end

