-- ==== Sys2Proof/Machine/Predictor.lean ====
section
/-! DEFINITION. The adaptive predictor (40_predictor.md). -/

namespace Sys2Proof.Machine

/-- The exact dot product of weights and history (40_predictor.md R131, R132). -/
def dotProduct (st : Predictor) : Int :=
  st.w0 * st.h0.toInt + st.w1 * st.h1.toInt + st.w2 * st.h2.toInt + st.w3 * st.h3.toInt

/-- `PREDICT` (40_predictor.md R131): the dot product, floor-shifted right by 13. -/
def predict (st : Predictor) : Int := dotProduct st >>> predictShift

/-- The weight step of `UPDATE` (40_predictor.md R133): the residual, floor-shifted right by 4. -/
def weightDelta (resid : Int) : Int := resid >>> deltaShift

/-- One weight after `UPDATE`: the step's sign follows the old history sample, the sum wraps (40_predictor.md R133 a,
b). -/
def stepWeight (cfg : Config) (w : Int) (h : BitVec 32) (delta : Int) : Int :=
  weightReg cfg (w + if h.toInt < 0 then -delta else delta)

/-- `UPDATE` (40_predictor.md R133): four weight steps, and the reconstructed sample shifted into the history. -/
def update (cfg : Config) (st : Predictor) (recon resid : Int) : Predictor where
  w0 := stepWeight cfg st.w0 st.h0 (weightDelta resid)
  w1 := stepWeight cfg st.w1 st.h1 (weightDelta resid)
  w2 := stepWeight cfg st.w2 st.h2 (weightDelta resid)
  w3 := stepWeight cfg st.w3 st.h3 (weightDelta resid)
  h0 := st.h1
  h1 := st.h2
  h2 := st.h3
  h3 := historyReg recon

end Sys2Proof.Machine
end

