-- ==== Sys2Proof/Machine/Quantizer.lean ====
section
/-! DEFINITION. The quantizer, the residual encoder, the slice search and the decoder's per-sample step
(41_quantizer_slice.md). -/

namespace Sys2Proof.Machine

/-- `RECIP[sf]` (41_quantizer_slice.md R150). -/
def recip (cfg : Config) (sf : BitVec 4) : Int := cfg.recip[sf.toNat]'sf.isLt

/-- `DEQUANT[sf][code]` (41_quantizer_slice.md R152). -/
def dequant (cfg : Config) (sf : BitVec 4) (code : BitVec 3) : Int :=
  (cfg.dequant[sf.toNat]'sf.isLt)[code.toNat]'code.isLt

/-- The first line of `DIV`: reciprocal multiply, rounding constant, floor shift (41_quantizer_slice.md R150). -/
def divFirst (cfg : Config) (v : Int) (sf : BitVec 4) : Int := (v * recip cfg sf + 32768) >>> (16 : Nat)

/-- `DIV` (41_quantizer_slice.md R150): the reciprocal multiply with the round-away-from-zero correction, or the
configured function (93_implementation_defined.md I3). -/
def divScale (cfg : Config) (v : Int) (sf : BitVec 4) : Int :=
  match cfg.div with
  | .reciprocal => divFirst cfg v sf + sgn v - sgn (divFirst cfg v sf)
  | .custom => Config.customDiv v sf

/-- The index of a scaled residual in `QUANT`: clamped to -8 .. 8, plus 8 (41_quantizer_slice.md R151, R153). -/
def quantIndex (scaled : Int) : Fin 17 :=
  ⟨(clamp scaled (-8) 8 + 8).toNat, by unfold clamp; split <;> [skip; split] <;> omega⟩

/-- `QUANTIZE` (41_quantizer_slice.md R153). -/
def quantize (cfg : Config) (resid : Int) (sf : BitVec 4) : BitVec 3 := cfg.quant[quantIndex (divScale cfg resid sf)]

/-- The reconstructed sample of `RECONSTRUCT` (41_quantizer_slice.md R154); its `dq` is `dequant cfg sf code`. -/
def reconstruct (cfg : Config) (p : Int) (sf : BitVec 4) (code : BitVec 3) : Int := clamp16 (p + dequant cfg sf code)

/-- The sum of squared weights, exact (41_quantizer_slice.md R155). -/
def squaredWeights (st : Predictor) : Nat :=
  st.w0.natAbs ^ 2 + st.w1.natAbs ^ 2 + st.w2.natAbs ^ 2 + st.w3.natAbs ^ 2

/-- `PENALTY` (41_quantizer_slice.md R155): natural subtraction is the maximum with 0. -/
def penalty (st : Predictor) : Nat := (squaredWeights st >>> penaltyShift) - penaltyBias

/-- What one sample adds to a candidate's rank, `RANK_STEP` (41_quantizer_slice.md R156); `st` is the state before the
sample's `UPDATE`. -/
def rankStep (st : Predictor) (x recon : Int) : Nat := (x - recon).natAbs ^ 2 + penalty st ^ 2

/-- The decoder's step for one code, `DECODE_SAMPLE` (41_quantizer_slice.md R162): the new state and the sample. -/
def decodeSample (cfg : Config) (st : Predictor) (sf : BitVec 4) (code : BitVec 3) : Predictor × Int :=
  (update cfg st (reconstruct cfg (predict st) sf code) (dequant cfg sf code), reconstruct cfg (predict st) sf code)

/-- `DECODE_SAMPLE` over the codes of a slice in order (43_audio_commands.md R225): the final state and the samples. -/
def decodeSlice (cfg : Config) (st : Predictor) (sf : BitVec 4) : List (BitVec 3) → Predictor × List Int
  | [] => (st, [])
  | code :: rest =>
    let one := decodeSample cfg st sf code
    let more := decodeSlice cfg one.1 sf rest
    (more.1, one.2 :: more.2)

/-- One sample of `SLICE_SIM` (41_quantizer_slice.md R157): predict, quantize, reconstruct, rank, update, append the code. -/
def simSample (cfg : Config) (cand : Candidate) (x : Int) : Candidate :=
  let code := quantize cfg (x - predict cand.pred) cand.sf
  let recon := reconstruct cfg (predict cand.pred) cand.sf code
  { pred := update cfg cand.pred recon (dequant cfg cand.sf code)
    rank := cand.rank + rankStep cand.pred x recon
    word := (cand.word <<< 3) ||| code.setWidth 64
    sf := cand.sf }

/-- The candidate before its first sample: the channel's state, rank 0, the word holding `sf` (41_quantizer_slice.md R157). -/
def simStart (st : Predictor) (sf : BitVec 4) : Candidate := ⟨st, 0, sf.setWidth 64, sf⟩

/-- `SLICE_SIM` (41_quantizer_slice.md R157): the samples in order, then the word left-justified (R161). -/
def sliceSim (cfg : Config) (st : Predictor) (xs : List Int) (sf : BitVec 4) : Candidate :=
  let last := xs.foldl (simSample cfg) (simStart st sf)
  { last with word := last.word <<< (3 * (20 - xs.length)) }

/-- The scale factor visited at index `i` of the search: `(PREV_SF + i) mod 16` (41_quantizer_slice.md R158). -/
def visited (prevSf : BitVec 4) (i : Nat) : BitVec 4 := prevSf + BitVec.ofNat 4 i

/-- The best of the candidates so far and one more: a strictly smaller rank replaces it (41_quantizer_slice.md R158, R160). -/
def better (best : Option Candidate) (cand : Candidate) : Option Candidate :=
  match best with
  | none => some cand
  | some b => if cand.rank < b.rank then some cand else some b

/-- One turn of the search loop on a channel's state and its slice's samples (41_quantizer_slice.md R158). -/
def searchTurn (cfg : Config) (st : Predictor) (prevSf : BitVec 4) (xs : List Int) (se : Search) : Search :=
  let cand := sliceSim cfg st xs (visited prevSf se.index)
  { index := se.index + 1, cand := cand, best := better se.best cand }

/-- `SLICE_SEARCH` (41_quantizer_slice.md R158) as one function: all 16 turns. -/
def sliceSearch (cfg : Config) (st : Predictor) (prevSf : BitVec 4) (xs : List Int) : Search :=
  (List.range scaleCount).foldl (fun se _ => searchTurn cfg st prevSf xs se) Search.start

end Sys2Proof.Machine
end

