-- ==== Sys2Proof/Machine/Operands.lean ====
section
/-! DEFINITION. The operands of commands and units as values computed from registers: pixel counts, frame geometry
(42_audio_bitstream.md R189 to R191), sample indices (20_memory.md R62), the predictor registers of a channel, and the
place that follows a unit. -/

namespace Sys2Proof.Machine

/-! ## Image geometry -/

/-- `n = I_WIDTH × I_HEIGHT` of an encode (44_pixel_encoder.md R254). -/
def encPixelCount (s : State) : Nat := s.iWidth.toNat * s.iHeight.toNat

/-- `n = w × h` of a decode (45_pixel_decoder.md R270). -/
def decPixelCount (s : State) : Nat := s.hdr.width.toNat * s.hdr.height.toNat

/-- A width or height outside 1 .. 16384 (60_exceptions.md R309). -/
def badDimension (v : BitVec 32) : Bool := decide (v.toNat = 0) || decide (maxDim < v.toNat)

/-! ## Audio geometry -/

/-- Slices per channel of `n` samples: `ceil(n / 20)` (42_audio_bitstream.md R189). -/
def sliceCount (n : Nat) : Nat := ceilDiv n sliceLen

/-- `fsize` of a frame (42_audio_bitstream.md R189). -/
def frameBytes (n ch : Nat) : Nat := 8 + 16 * ch + 8 * sliceCount n * ch

/-- `L`, the length of an encoded stream (43_audio_commands.md R213). -/
def streamBytes (n ch : Nat) : Nat := 8 + ceilDiv n frameLen * (8 + 16 * ch) + 8 * ch * sliceCount n

/-- The samples per channel of the next frame: `min(5120, N - SP)` (43_audio_commands.md R212). -/
def nextFrameLen (s : State) : Nat := min frameLen (s.stSamples.toNat - s.sp.toNat)

/-- The samples slice `t` of the frame carries: `min(20, F_SAMPLES - 20t)` (42_audio_bitstream.md R188). -/
def sliceSamples (s : State) (t : Nat) : Nat := min sliceLen (s.fSamples.toNat - sliceLen * t)

/-- The index in `S` of sample `j` of slice `t`, channel `c` (43_audio_commands.md R212, R225). -/
def sampleIndex (s : State) (t : Nat) (c : Fin 8) (j : Nat) : Nat :=
  (s.sp.toNat + sliceLen * t + j) * s.stChannels.toNat + c.val

/-- The indices of the samples slice `t` of channel `c` carries. -/
def sampleIndices (s : State) (t : Nat) (c : Fin 8) (m : Nat) : List Nat := (List.range m).map (sampleIndex s t c)

/-- `x[0 .. m-1]`, the input samples of a slice (43_audio_commands.md R212). -/
def readSlice (s : State) (t : Nat) (c : Fin 8) : Except Fault (List Int) :=
  match readMany s.samples s.sDesc.len (sampleIndices s t c (sliceSamples s t)) with
  | .error f => .error f
  | .ok vs => .ok (vs.map BitVec.toInt)

/-- The stores of a decoded slice (43_audio_commands.md R225). -/
def sliceStores (s : State) (t : Nat) (c : Fin 8) (samples : List Int) : List (Nat × BitVec 16) :=
  (sampleIndices s t c samples.length).zip (samples.map (BitVec.ofInt 16))

/-! ## Predictor registers -/

/-- `H[c][0..3]` loaded from a history word (42_audio_bitstream.md R186). -/
def loadHistory (st : Predictor) (h0 h1 h2 h3 : BitVec 16) : Predictor :=
  { st with h0 := sext16 h0, h1 := sext16 h1, h2 := sext16 h2, h3 := sext16 h3 }

/-- `W[c][0..3]` loaded from a weights word (42_audio_bitstream.md R186), sign-extended; every write of a weight register
wraps to its width (10_state.md R22). -/
def loadWeights (cfg : Config) (st : Predictor) (w0 w1 w2 w3 : BitVec 16) : Predictor :=
  { st with
    w0 := weightReg cfg w0.toInt, w1 := weightReg cfg w1.toInt, w2 := weightReg cfg w2.toInt
    w3 := weightReg cfg w3.toInt }

/-- The history word of a predictor state (42_audio_bitstream.md R185). -/
def historyUnit (st : Predictor) : Instr := .hist (trunc16 st.h0) (trunc16 st.h1) (trunc16 st.h2) (trunc16 st.h3)

/-- The weights word of a predictor state (42_audio_bitstream.md R185). -/
def weightsUnit (st : Predictor) : Instr :=
  .wght (truncWeight st.w0) (truncWeight st.w1) (truncWeight st.w2) (truncWeight st.w3)

/-- Channel `c`'s registers replaced. -/
def setPredictor (s : State) (c : Fin 8) (st : Predictor) : State := { s with pred := s.pred.set c.val st c.isLt }

/-- `INIT_W` and `INIT_H` as a channel's registers (10_state.md R38), each weight wrapped to `W_BITS` as every write of
one is (R22; log 9). -/
def initPredictor (cfg : Config) : Predictor where
  w0 := weightReg cfg cfg.initW[0].toInt
  w1 := weightReg cfg cfg.initW[1].toInt
  w2 := weightReg cfg cfg.initW[2].toInt
  w3 := weightReg cfg cfg.initW[3].toInt
  h0 := sext16 cfg.initH[0]
  h1 := sext16 cfg.initH[1]
  h2 := sext16 cfg.initH[2]
  h3 := sext16 cfg.initH[3]

/-- The registers of the channels below `ch` at their initial values, the others kept (10_state.md R38, R21). -/
def initChannels (s : State) (ch : Nat) : State :=
  { s with
    pred := Vector.ofFn (fun c : Fin 8 => if c.val < ch then initPredictor s.cfg else s.pred[c.val])
    prevSf := Vector.ofFn (fun c : Fin 8 => if c.val < ch then s.cfg.initSf else s.prevSf[c.val]) }

/-! ## The place after a unit (43_audio_commands.md R212, R225; 42_audio_bitstream.md R191) -/

/-- The next channel of the stream, if there is one. -/
def nextChannel (s : State) (c : Fin 8) : Option (Fin 8) :=
  if h : c.val + 1 < 8 then if c.val + 1 < s.stChannels.toNat then some ⟨c.val + 1, h⟩ else none else none

/-- After the frame header: the first snapshot, if the stream has a channel; none where the frame has ended. -/
def afterFrameHeader (s : State) : Option Place := if s.stChannels.toNat = 0 then none else some (.hist 0)

/-- After the weights of channel `c`: the next snapshot, or the first slice, or the frame's end. -/
def afterWeights (s : State) (c : Fin 8) : Option Place :=
  match nextChannel s c with
  | some d => some (.hist d)
  | none => if sliceCount s.fSamples.toNat = 0 then none else some (.slice 0 0)

/-- After slice `t` of channel `c`: slice-major, channel-minor (42_audio_bitstream.md R191). -/
def afterSlice (s : State) (t : Nat) (c : Fin 8) : Option Place :=
  match nextChannel s c with
  | some d => some (.slice t d)
  | none => if t + 1 < sliceCount s.fSamples.toNat then some (.slice (t + 1) 0) else none

end Sys2Proof.Machine
end

