-- ==== Sys2Proof/Machine/ImageUnits.lean ====
section
/-! DEFINITION. The meanings of the image stream's units, as a decoder executes them (45_pixel_decoder.md) and as an
encoder emits them (44_pixel_encoder.md). Each has one definition; the running command's place decides the direction. -/

namespace Sys2Proof.Machine

/-! ## Shared steps of the decoder -/

/-- The end of a decoder's pixel step: `MemWrite(P, PP, 1, PX_PREV)`, `PP <- PP + 1`, and the loop test
(45_pixel_decoder.md R271). -/
def pixelProduced (s : State) : State :=
  { s with
    pixels := Space.write s.pixels s.pp.toNat s.pxPrev
    pp := s.pp + 1
    phase := if s.pp.toNat + 1 < decPixelCount s then .dec .pixel else .dec .imageFooter }

/-- The end of a decoder's pixel step, with room in `P` for the pixel (45_pixel_decoder.md R271). -/
def producePixel (s : State) : Out :=
  if s.pDesc.cap.toNat ≤ s.pp.toNat then .fault .outsideBuffer else .next (pixelProduced s)

/-- A new colour: `PX_PREV`, the cursor past the opcode, and the cache write of every opcode but RUN
(45_pixel_decoder.md R278). -/
def colourSet (px : Pixel) (length : Nat) (s : State) : State :=
  { s with pxPrev := px, bp := s.bp + BitVec.ofNat 32 length, cache := cacheStore s.cache px }

/-- A step that consumes one unit of an active run (45_pixel_decoder.md R271). -/
def consumeRun (s : State) : Out := producePixel { s with run := s.run - 1 }

/-! ## Shared steps of the encoder -/

/-- The end of an encoder's pixel step: `PX_PREV <- px`, `PP <- PP + 1`, and the loop test (44_pixel_encoder.md R250,
R254). -/
def pixelCoded (px : Pixel) (s : State) : State :=
  { s with
    pxPrev := px
    pp := s.pp + 1
    phase := if s.pp.toNat + 1 < encPixelCount s then .enc .pixel else .enc .imageFooter }

/-- The pixel at `PP` coded by one opcode: its bytes, then the end of the pixel step (44_pixel_encoder.md R245, R250). -/
def emitPixel (i : Instr) (s : State) : Out :=
  match readPixel s with
  | .error f => .fault f
  | .ok px => emitThen (encode s.cfg.image i) s (pixelCoded px)

/-- The same for an opcode chosen on a cache miss: the pixel is stored into its slot (44_pixel_encoder.md R246). -/
def emitMissedPixel (i : Instr) (s : State) : Out :=
  match readPixel s with
  | .error f => .fault f
  | .ok px => emitThen (encode s.cfg.image i) { s with cache := cacheStore s.cache px } (pixelCoded px)

/-- A RUN opcode, `RUN <- 0` (44_pixel_encoder.md R243). Where the pixel at `PP` continues the run it is coded with it;
where it differs, the flush leaves it to the next step. -/
def flushRun (i : Instr) (s : State) : Out :=
  match readPixel s with
  | .error f => .fault f
  | .ok px =>
    emitThen (encode s.cfg.image i) { s with run := 0 } (fun s1 => if px = s.pxPrev then pixelCoded px s1 else s1)

/-- A pixel that extends the active run and emits nothing (44_pixel_encoder.md R243). -/
def extendRun (s : State) : State := pixelCoded s.pxPrev { s with run := s.run + 1 }

/-! ## The opcodes -/

/-- RGB: decode 45_pixel_decoder.md R272, encode 44_pixel_encoder.md R249. -/
def execRgb (r g b : Byte) (s : State) : Out :=
  match s.phase with
  | .dec .pixel => producePixel (colourSet ⟨r, g, b, s.pxPrev.a⟩ 4 s)
  | .enc .pixel => emitMissedPixel (.rgb r g b) s
  | _ => .refused .unitOutOfPlace

/-- RGBA: decode 45_pixel_decoder.md R276, encode 44_pixel_encoder.md R249. -/
def execRgba (r g b a : Byte) (s : State) : Out :=
  match s.phase with
  | .dec .pixel => producePixel (colourSet ⟨r, g, b, a⟩ 5 s)
  | .enc .pixel => emitMissedPixel (.rgba r g b a) s
  | _ => .refused .unitOutOfPlace

/-- INDEX: decode 45_pixel_decoder.md R273, encode 44_pixel_encoder.md R245 (the cache is not written). -/
def execIndex (slot : BitVec 6) (s : State) : Out :=
  match s.phase with
  | .dec .pixel => producePixel (colourSet (cacheSlot s.cache slot) 1 s)
  | .enc .pixel => emitPixel (.index slot) s
  | _ => .refused .unitOutOfPlace

/-- DIFF: decode 45_pixel_decoder.md R274, encode 44_pixel_encoder.md R247. -/
def execDiff (dr dg db : Int) (s : State) : Out :=
  match s.phase with
  | .dec .pixel => producePixel (colourSet (diffColour s.pxPrev dr dg db) 1 s)
  | .enc .pixel => emitMissedPixel (.diff dr dg db) s
  | _ => .refused .unitOutOfPlace

/-- LUMA: decode 45_pixel_decoder.md R275, encode 44_pixel_encoder.md R248. -/
def execLuma (dg drg dbg : Int) (s : State) : Out :=
  match s.phase with
  | .dec .pixel => producePixel (colourSet (lumaColour s.pxPrev dg drg dbg) 2 s)
  | .enc .pixel => emitMissedPixel (.luma dg drg dbg) s
  | _ => .refused .unitOutOfPlace

/-- RUN: decode 45_pixel_decoder.md R277 (the counter takes `length - 1`; no cache write), encode 44_pixel_encoder.md
R243. -/
def execRun (length : Nat) (s : State) : Out :=
  match s.phase with
  | .dec .pixel => producePixel { s with run := BitVec.ofNat 6 (length - 1), bp := s.bp + 1 }
  | .enc .pixel => flushRun (.run length) s
  | _ => .refused .unitOutOfPlace

/-! ## Header and footer -/

/-- The pixel coder's start values (10_state.md R38). -/
def seedPixelCoder (s : State) : State := { s with pxPrev := seedPixel, cache := clearCache, run := 0 }

/-- The header checks 4 to 6 of `IMG_DEC` (45_pixel_decoder.md R270). -/
def imageHeaderChecks (width height : BitVec 32) (chtag cstag : Byte) (s : State) : List (Bool × ErrKind) :=
  [(badDimension width || badDimension height, .eInvalidDimensions),
   (!(decide (chtag = 3) || decide (chtag = 4)) || !(decide (cstag = 0) || decide (cstag = 1)), .eInvalidTag),
   (decide (s.pDesc.cap.toNat < width.toNat * height.toNat), .eMemory)]

/-- Step 7 of `IMG_DEC`'s header (45_pixel_decoder.md R270): the pixel loop begins. -/
def startPixels (width height : BitVec 32) (chtag cstag : Byte) (s : State) : State :=
  { seedPixelCoder s with bp := 14, pp := 0, hdr := ⟨width, height, chtag, cstag⟩, phase := .dec .pixel }

/-- QOIF: decode 45_pixel_decoder.md R270 steps 4 to 7, encode 44_pixel_encoder.md R242. -/
def execQoif (width height : BitVec 32) (chtag cstag : Byte) (s : State) : Out :=
  match s.phase with
  | .dec .imageHeader => checked (imageHeaderChecks width height chtag cstag s) s (startPixels width height chtag cstag s)
  | .enc .imageHeader => emitThen (encode s.cfg.image (.qoif width height chtag cstag)) s (fun s1 => { s1 with phase := .enc .pixel })
  | _ => .refused .unitOutOfPlace

/-- The results of a successful `IMG_DEC` (45_pixel_decoder.md R281). -/
def imageResults (s : State) : State :=
  completeOk { s with
    iWidth := s.hdr.width
    iHeight := s.hdr.height
    iChtag := s.hdr.chtag
    iCstag := s.hdr.cstag
    pDesc := { s.pDesc with len := BitVec.ofNat 32 (decPixelCount s) } }

/-- The result of a successful encode: `B_LEN <- BP` (44_pixel_encoder.md R252, 43_audio_commands.md R212). -/
def streamResult (s : State) : State := completeOk { s with bDesc := { s.bDesc with len := s.bp } }

/-- END: decode 45_pixel_decoder.md R280 and R281 (`BP` does not move), encode 44_pixel_encoder.md R252. -/
def execFooter (s : State) : Out :=
  match s.phase with
  | .dec .imageFooter => .next (imageResults s)
  | .enc .imageFooter => emitThen (encode s.cfg.image .footer) s streamResult
  | _ => .refused .unitOutOfPlace

end Sys2Proof.Machine
end

