-- ==== Sys2Proof/Machine/AudioUnits.lean ====
section
/-! DEFINITION. The meanings of the audio stream's words, as `AUD_DEC` executes them and as `AUD_ENC` emits them
(42_audio_bitstream.md, 43_audio_commands.md). -/

namespace Sys2Proof.Machine

/-! ## Frames -/

/-- Where the decoder's cursor stands after a frame (43_audio_commands.md R223): past the last word read, or past the
declared size, as the configuration says (log 6). -/
def frameEndCursor (s : State) : BitVec 32 :=
  match s.cfg.frameAdvance with
  | .consumed => s.bp
  | .declared => s.fStart + s.fSize.setWidth 32

/-- `SP <- SP + F_SAMPLES` (43_audio_commands.md R212, R223). -/
def advanceSamples (s : State) : BitVec 32 := s.sp + s.fSamples.setWidth 32

/-- A decoder goes on to a place of the frame, or to the frame loop's test when the frame has ended. -/
def decodeOnward (next : Option Place) (s : State) : State :=
  match next with
  | some p => { s with phase := .dec p }
  | none => { s with sp := advanceSamples s, bp := frameEndCursor s, phase := .dec .frame }

/-- An encoder goes on to a place of the frame with the search at its start, or to the frame loop's test. -/
def encodeOnward (next : Option Place) (s : State) : State :=
  match next with
  | some p => { s with search := Search.start, phase := .enc p }
  | none => { s with sp := advanceSamples s, search := Search.start, phase := .enc .frame }

/-! ## Stream header -/

/-- The checks of `AUD_DEC` on the peeked header and the output size (43_audio_commands.md R221 step 5, R222). -/
def peekChecks (s : State) : List (Bool × ErrKind) :=
  [(decide (maxChannels < s.stChannels.toNat), .eTooManyChannels),
   (decide (s.sDesc.cap.toNat < s.stSamples.toNat * s.stChannels.toNat), .eMemory)]

/-- The stream-wide values: the header's sample count, and the channels and rate of the word at offset 8
(43_audio_commands.md R221 steps 4 and 5). -/
def latchStream (samples : BitVec 32) (w : Word64) (s : State) : State :=
  { s with stSamples := samples, stChannels := w.extractLsb' 56 8, stRate := w.extractLsb' 32 24 }

/-- The peek of the first frame header (43_audio_commands.md R221 step 5) and the checks behind it. -/
def peekFrame (samples : BitVec 32) (s : State) : Out :=
  match readBytes s 8 8 with
  | .error f => .fault f
  | .ok bs =>
    match takeWord64 bs with
    | none => .fault .outsideBuffer
    | some (w, _) => checked (peekChecks (latchStream samples w s)) (latchStream samples w s)
        { latchStream samples w s with phase := .dec .frame }

/-- QOAF: decode 42_audio_bitstream.md R182 and 43_audio_commands.md R221, R222; encode 42_audio_bitstream.md R181. -/
def execQoaf (samples : BitVec 32) (s : State) : Out :=
  match s.phase with
  | .dec .audioHeader =>
    if samples = 0 then .next (raiseErr .eStreaming { s with bp := s.bp + 8 })
    else peekFrame samples { s with bp := s.bp + 8 }
  | .enc .audioHeader => emitThen (encode s.cfg.image (.qoaf samples)) s (fun s1 => { s1 with phase := .enc .frame })
  | _ => .refused .unitOutOfPlace

/-! ## Frame header -/

/-- The frame latches (10_state.md R32), `F_START` the cursor at the header. -/
def latchFrame (channels : BitVec 8) (rate : BitVec 24) (fsamples fsize : BitVec 16) (s : State) : State :=
  { s with fChannels := channels, fRate := rate, fSamples := fsamples, fSize := fsize, fStart := s.bp }

/-- The slice words that fit in a frame behind its header and snapshots: `floor(data / 8)`, none where the size does
not even cover these (43_audio_commands.md R224 b). -/
def frameTooSmall (s : State) : Bool :=
  decide (s.fSize.toNat < 8 + 16 * s.stChannels.toNat) ||
  decide ((s.fSize.toNat - (8 + 16 * s.stChannels.toNat)) / 8 < sliceCount s.fSamples.toNat * s.stChannels.toNat)

/-- Frame validation (43_audio_commands.md R224), a to d in order. -/
def frameChecks (s : State) : List (Bool × ErrKind) :=
  [(decide (s.fChannels ≠ s.stChannels) || decide (s.fRate ≠ s.stRate), .eFrameInconsistent),
   (frameTooSmall s, .eMalformedFrame),
   (decide (s.bDesc.len.toNat < s.fStart.toNat + s.fSize.toNat), .eEof),
   (decide (s.stSamples.toNat < s.sp.toNat + s.fSamples.toNat), .eEof)]

/-- FRAME: decode 42_audio_bitstream.md R184 and 43_audio_commands.md R224, encode 42_audio_bitstream.md R183. -/
def execFrame (channels : BitVec 8) (rate : BitVec 24) (fsamples fsize : BitVec 16) (s : State) : Out :=
  match s.phase with
  | .dec .frame =>
    let s1 := { latchFrame channels rate fsamples fsize s with bp := s.bp + 8 }
    checked (frameChecks s1) s1 (decodeOnward (afterFrameHeader s1) s1)
  | .enc .frame =>
    emitThen (encode s.cfg.image (.frame channels rate fsamples fsize)) (latchFrame channels rate fsamples fsize s)
      (fun s1 => encodeOnward (afterFrameHeader s1) s1)
  | _ => .refused .unitOutOfPlace

/-! ## Predictor snapshot -/

/-- HIST: decode and encode 42_audio_bitstream.md R186, R185, the history word. -/
def execHist (h0 h1 h2 h3 : BitVec 16) (s : State) : Out :=
  match s.phase with
  | .dec (.hist c) =>
    .next { setPredictor s c (loadHistory s.pred[c.val] h0 h1 h2 h3) with bp := s.bp + 8, phase := .dec (.wght c) }
  | .enc (.hist c) => emitThen (encode s.cfg.image (.hist h0 h1 h2 h3)) s (fun s1 => { s1 with phase := .enc (.wght c) })
  | _ => .refused .unitOutOfPlace

/-- WGHT: decode and encode 42_audio_bitstream.md R186, R185, the weights word. -/
def execWght (w0 w1 w2 w3 : BitVec 16) (s : State) : Out :=
  match s.phase with
  | .dec (.wght c) =>
    .next (decodeOnward (afterWeights s c)
      { setPredictor s c (loadWeights s.cfg s.pred[c.val] w0 w1 w2 w3) with bp := s.bp + 8 })
  | .enc (.wght c) => emitThen (encode s.cfg.image (.wght w0 w1 w2 w3)) s (fun s1 => encodeOnward (afterWeights s1 c) s1)
  | _ => .refused .unitOutOfPlace

/-! ## Slices -/

/-- A decoded slice word (42_audio_bitstream.md R188, 43_audio_commands.md R225): every code a sample, stored in `S`. -/
def decodeSliceUnit (sf : BitVec 4) (codes : List (BitVec 3)) (t : Nat) (c : Fin 8) (s : State) : Out :=
  let run := decodeSlice s.cfg s.pred[c.val] sf codes
  match storeSamples (sliceStores s t c run.2) s with
  | .error f => .fault f
  | .ok s1 => .next (decodeOnward (afterSlice s t c) { setPredictor s1 c run.1 with bp := s.bp + 8 })

/-- The commit of a slice search (41_quantizer_slice.md R158): the winner's state, and its scale factor. -/
def commitSearch (c : Fin 8) (sf : BitVec 4) (best : Candidate) (s : State) : State :=
  { setPredictor s c best.pred with prevSf := s.prevSf.set c.val sf c.isLt }

/-- An emitted slice word (42_audio_bitstream.md R187) and the commit of the search that chose it
(41_quantizer_slice.md R158); without a finished search there is no slice to emit. -/
def encodeSliceUnit (sf : BitVec 4) (codes : List (BitVec 3)) (t : Nat) (c : Fin 8) (s : State) : Out :=
  match s.search.best with
  | none => .refused .unitOutOfPlace
  | some best =>
    emitThen (encode s.cfg.image (.slice sf codes)) s (fun s1 => encodeOnward (afterSlice s1 t c) (commitSearch c sf best s1))

/-- SLICE: decode 42_audio_bitstream.md R188 with 41_quantizer_slice.md R162, encode 42_audio_bitstream.md R187 with the
commit of 41_quantizer_slice.md R158. -/
def execSlice (sf : BitVec 4) (codes : List (BitVec 3)) (s : State) : Out :=
  match s.phase with
  | .dec (.slice t c) => decodeSliceUnit sf codes t c s
  | .enc (.slice t c) => encodeSliceUnit sf codes t c s
  | _ => .refused .unitOutOfPlace

/-! ## Ends of the frame loops -/

/-- The end checks of `AUD_DEC` (43_audio_commands.md R226) and its results (R227). -/
def finishAudioDecode (s : State) : Out :=
  checked [(decide (s.sp ≠ s.stSamples) || decide (s.bp ≠ s.bDesc.len), .eEof)] s
    (completeOk { s with
      aChannels := s.stChannels
      aRate := s.stRate
      aSamples := s.stSamples
      sDesc := { s.sDesc with len := BitVec.ofNat 32 (s.stSamples.toNat * s.stChannels.toNat) } })

end Sys2Proof.Machine
end

