-- ==== Sys2Proof/Machine/Commands.lean ====
section
/-! DEFINITION. The meanings of the host commands (30_encoding.md R120, R121): the operand checks and start values of
the four codec commands, whose units follow step by step, and the commands that complete at once. -/

namespace Sys2Proof.Machine

/-- A command runs only while `STATUS.BUSY` = 0: a write of `CMD` while busy has no meaning (60_exceptions.md R321,
log 16). -/
def whenIdle (s : State) (out : Out) : Out := if s.busy then .refused .commandWhileBusy else out

/-- NOP (30_encoding.md R120). -/
def execNop (s : State) : Out := whenIdle s (.next (flagsAtOnce 0 .eNone s))

/-- `AUD_ENC`'s operand checks (43_audio_commands.md R211), 1 to 5 in order. -/
def audEncChecks (s : State) : List (Bool × ErrKind) :=
  [(!s.sDesc.present || !s.bDesc.present, .eInvalidArgs),
   (decide (s.aChannels.toNat = 0) || decide (maxChannels < s.aChannels.toNat), .eInvalidArgs),
   (decide (s.aSamples.toNat = 0), .eInvalidArgs),
   (decide (s.sDesc.len.toNat ≠ s.aSamples.toNat * s.aChannels.toNat), .eInvalidArgs),
   (decide (s.bDesc.cap.toNat < streamBytes s.aSamples.toNat s.aChannels.toNat), .eMemory)]

/-- The start of `AUD_ENC`'s body (43_audio_commands.md R212). -/
def audEncStart (s : State) : State :=
  { initChannels s s.aChannels.toNat with
    stChannels := s.aChannels
    stRate := s.aRate
    stSamples := s.aSamples
    phase := .enc .audioHeader }

/-- AUD_ENC (43_audio_commands.md R210 to R212). -/
def execAudEnc (s : State) : Out :=
  whenIdle s (checked (audEncChecks (beginCommand 1 s)) (beginCommand 1 s) (audEncStart (beginCommand 1 s)))

/-- AUD_DEC: the first check of 43_audio_commands.md R221; the header unit follows. -/
def execAudDec (s : State) : Out :=
  whenIdle s (checked [(!s.bDesc.present || !s.sDesc.present, .eInvalidArgs)] (beginCommand 2 s)
    { beginCommand 2 s with phase := .dec .audioHeader })

/-- `IMG_ENC`'s operand checks (44_pixel_encoder.md R241), 1 to 3 in order. -/
def imgEncChecks (s : State) : List (Bool × ErrKind) :=
  [(!s.pDesc.present || !s.bDesc.present, .eInvalidArgs),
   (badDimension s.iWidth || badDimension s.iHeight, .eInvalidDimensions),
   (decide (s.pDesc.len.toNat ≠ encPixelCount s), .eInvalidArgs)]

/-- IMG_ENC (44_pixel_encoder.md R241, R242). -/
def execImgEnc (s : State) : Out :=
  whenIdle s (checked (imgEncChecks (beginCommand 3 s)) (beginCommand 3 s)
    { seedPixelCoder (beginCommand 3 s) with phase := .enc .imageHeader })

/-- IMG_DEC: the first check of 45_pixel_decoder.md R270; the header unit follows. -/
def execImgDec (s : State) : Out :=
  whenIdle s (checked [(!s.bDesc.present || !s.pDesc.present, .eInvalidArgs)] (beginCommand 4 s)
    { beginCommand 4 s with phase := .dec .imageHeader })

/-- Reserved code 5 (30_encoding.md R121). -/
def execReserved5 (s : State) : Out := whenIdle s (.next (flagsAtOnce 5 .eInvalidArgs s))

/-- Reserved code 6 (30_encoding.md R121). -/
def execReserved6 (s : State) : Out := whenIdle s (.next (flagsAtOnce 6 .eInvalidArgs s))

/-- Reserved code 7 (30_encoding.md R121). -/
def execReserved7 (s : State) : Out := whenIdle s (.next (flagsAtOnce 7 .eInvalidArgs s))

end Sys2Proof.Machine
end

