-- ==== Sys2Proof/Machine/HostPort.lean ====
section
/-! DEFINITION. What the host may do while `STATUS.BUSY` = 0 (10_state.md R35): its writes, and what it may read. -/

namespace Sys2Proof.Machine

/-- A descriptor field written in the space it belongs to (R29). -/
def updateDesc (x : SpaceId) (f : Descriptor → Descriptor) (s : State) : State :=
  match x with
  | .bytes => { s with bDesc := f s.bDesc }
  | .samples => { s with sDesc := f s.sDesc }
  | .pixels => { s with pDesc := f s.pDesc }

/-- A host write (R35). The write of `CMD` is the start of a command and is executed as one, not here. -/
def applyMove (m : HostMove) (s : State) : State :=
  match m with
  | .writeCmd _ => s
  | .writeChannels v => { s with aChannels := v }
  | .writeRate v => { s with aRate := v }
  | .writeSamples v => { s with aSamples := v }
  | .writeWidth v => { s with iWidth := v }
  | .writeHeight v => { s with iHeight := v }
  | .setPresent x v => updateDesc x (fun d => { d with present := v }) s
  | .setLen x v => updateDesc x (fun d => { d with len := v }) s
  | .setCap x v => updateDesc x (fun d => { d with cap := v }) s
  | .fillByte a v => { s with bytes := Space.write s.bytes a.toNat v }
  | .fillSample i v => { s with samples := Space.write s.samples i.toNat v }
  | .fillPixel i v => { s with pixels := Space.write s.pixels i.toNat v }

/-- What the host may read (R35): `STATUS`, `ERR`, the result registers and the buffers' lengths. -/
structure HostView where
  busy : Bool
  done : Bool
  err : BitVec 4
  channels : BitVec 8
  rate : BitVec 24
  samples : BitVec 32
  width : BitVec 32
  height : BitVec 32
  chtag : Byte
  cstag : Byte
  bLen : BitVec 32
  sLen : BitVec 32
  pLen : BitVec 32
deriving DecidableEq, Repr

/-- The host's view of the registers: nothing while a command runs (R35, 20_memory.md R73). Reading changes nothing
(20_memory.md R69). -/
def hostView (s : State) : Option HostView :=
  if s.busy then none
  else some ⟨s.busy, s.done, s.err, s.aChannels, s.aRate, s.aSamples, s.iWidth, s.iHeight, s.iChtag, s.iCstag,
    s.bDesc.len, s.sDesc.len, s.pDesc.len⟩

/-- The host's read of the byte space, below its length and while no command runs (R35). -/
def hostByte (s : State) (a : Nat) : Option Byte :=
  if s.busy then none else if s.bDesc.len.toNat ≤ a then none else Space.read s.bytes a

/-- The host's read of the sample space (R35). -/
def hostSample (s : State) (i : Nat) : Option (BitVec 16) :=
  if s.busy then none else if s.sDesc.len.toNat ≤ i then none else Space.read s.samples i

/-- The host's read of the pixel space (R35). -/
def hostPixel (s : State) (i : Nat) : Option Pixel :=
  if s.busy then none else if s.pDesc.len.toNat ≤ i then none else Space.read s.pixels i

end Sys2Proof.Machine
end

