-- ==== Sys2Proof/Machine/Sequencer.lean ====
section
/-! DEFINITION. What a step does before it runs an instruction: a decoder fetches the unit its place selects
(20_memory.md R78, 30_encoding.md R99), an encoder selects the unit to emit (44_pixel_encoder.md R254,
43_audio_commands.md R212), an idle block takes the host's next move. -/

namespace Sys2Proof.Machine

/-! ## Fetch -/

/-- What fetching a unit answers. -/
inductive Fetched where
  | unit (i : Instr)
  | error (e : ErrKind)
  | fault (f : Fault)
deriving DecidableEq, Repr

/-- The kind of unit a place of the stream holds. -/
def placeKind (s : State) : Place → UnitKind
  | .imageHeader => .imageHeader
  | .pixel => .opcode
  | .imageFooter => .imageFooter
  | .audioHeader => .audioHeader
  | .frame => .frameHeader
  | .hist _ => .history
  | .wght _ => .weights
  | .slice t _ => .slice (sliceSamples s t)

/-- The error a rejection raises: a wrong magic is `E_BAD_MAGIC` (60_exceptions.md R302), missing bytes `E_EOF`. -/
def rejectionError : DecodeError → ErrKind
  | .badMagic => .eBadMagic
  | .truncated | .notACommand | .unassignedTag => .eEof

/-- `n` bytes from an address, decoded as a kind of unit. -/
def fetchAt (s : State) (k : UnitKind) (a n : Nat) : Fetched :=
  match readBytes s a n with
  | .error f => .fault f
  | .ok bs =>
    match decode s.cfg.image k bs with
    | .ok i _ => .unit i
    | .reject e => .error (rejectionError e)

/-- An image opcode: its first byte, which tells its length, then the whole of it (45_pixel_decoder.md R271, R272, R275,
R276; 30_encoding.md R98). -/
def fetchOpcode (s : State) : Fetched :=
  if hasBytes s 1 then
    match readElem s.bytes s.bDesc.len s.bp.toNat with
    | .error f => .fault f
    | .ok op =>
      if hasBytes s (opcodeLength s.cfg.image op) then fetchAt s .opcode s.bp.toNat (opcodeLength s.cfg.image op)
      else .error .eEof
  else .error .eEof

/-- The unit at a decoder's place, after the length check its rule makes: the header minimums (43_audio_commands.md
R221 step 2, 45_pixel_decoder.md R270 step 2), `need(8)` at a frame header (42_audio_bitstream.md R184) and at the image
footer, whose bytes are not read (45_pixel_decoder.md R280); none for the words of a validated frame (R186, R188). -/
def fetchUnit (s : State) (p : Place) : Fetched :=
  match p with
  | .imageHeader => if s.bDesc.len.toNat < s.cfg.imageMinSize then .error .eEof else fetchAt s .imageHeader 0 14
  | .pixel => fetchOpcode s
  | .imageFooter => if hasBytes s 8 then .unit .footer else .error .eEof
  | .audioHeader => if s.bDesc.len.toNat < s.cfg.audioMinSize then .error .eEof else fetchAt s .audioHeader s.bp.toNat 8
  | .frame => if hasBytes s 8 then fetchAt s .frameHeader s.bp.toNat 8 else .error .eEof
  | .hist _ | .wght _ | .slice _ _ => fetchAt s (placeKind s p) s.bp.toNat 8

/-! ## Turns -/

/-- What a step does: it runs an instruction on a state, or something that is no instruction. -/
inductive Turn where
  | run (i : Instr) (s : State)
  | quiet (o : Out)
deriving Repr

/-- The turn of a fetched unit. -/
def fetchedTurn (s : State) : Fetched → Turn
  | .unit i => .run i s
  | .error e => .quiet (.next (raiseErr e s))
  | .fault f => .quiet (.fault f)

/-- A decoder's turn: a run unit is consumed without a fetch (45_pixel_decoder.md R271), the frame loop ends where its
condition fails (43_audio_commands.md R223, R226), else the unit of the place is fetched. -/
def decodeTurn (s : State) (p : Place) : Turn :=
  if p = .pixel ∧ s.run ≠ 0 then .quiet (consumeRun s)
  else if p = .frame ∧ ¬(s.bp.toNat < s.bDesc.len.toNat ∧ s.sp.toNat < s.stSamples.toNat) then .quiet (finishAudioDecode s)
  else fetchedTurn s (fetchUnit s p)

/-- The encoder's turn at a pixel (44_pixel_encoder.md R243 to R249). -/
def pixelTurn (s : State) : Turn :=
  match readPixel s with
  | .error f => .quiet (.fault f)
  | .ok px =>
    if px = s.pxPrev then
      if s.run.toNat + 1 = runMax ∨ s.pp.toNat + 1 = encPixelCount s then .run (.run (s.run.toNat + 1)) s
      else .quiet (.next (extendRun s))
    else if s.run ≠ 0 then .run (.run s.run.toNat) s
    else .run (selectOpcode px s.pxPrev s.cache) s

/-- The encoder's turn at a slice: 16 turns of the search, then the winner's word (41_quantizer_slice.md R158,
43_audio_commands.md R212). -/
def sliceTurn (s : State) (t : Nat) (c : Fin 8) : Turn :=
  if s.search.index < scaleCount then
    match readSlice s t c with
    | .error f => .quiet (.fault f)
    | .ok xs => .quiet (.next { s with search := searchTurn s.cfg s.pred[c.val] s.prevSf[c.val] xs s.search })
  else
    match s.search.best with
    | none => .quiet (.refused .unitOutOfPlace)
    | some best => .run (.slice best.sf (sliceCodes best.word (sliceSamples s t))) s

/-- The frame header of the next frame (43_audio_commands.md R212). -/
def frameUnit (s : State) : Instr :=
  .frame s.stChannels s.stRate (BitVec.ofNat 16 (nextFrameLen s))
    (BitVec.ofNat 16 (frameBytes (nextFrameLen s) s.stChannels.toNat))

/-- An encoder's turn: it selects the unit its place holds. -/
def encodeTurn (s : State) (p : Place) : Turn :=
  match p with
  | .imageHeader => .run (.qoif s.iWidth s.iHeight imgEncChtag imgEncCstag) s
  | .pixel => pixelTurn s
  | .imageFooter => .run .footer s
  | .audioHeader => .run (.qoaf s.stSamples) s
  | .frame => if s.sp.toNat < s.stSamples.toNat then .run (frameUnit s) s else .quiet (.next (streamResult s))
  | .hist c => .run (historyUnit s.pred[c.val]) s
  | .wght c => .run (weightsUnit s.pred[c.val]) s
  | .slice t c => sliceTurn s t c

/-- The idle block's turn: the host's next move; a write of `CMD` runs the command it names (30_encoding.md R120). With
no move to come the block stays as it is (60_exceptions.md R335). -/
def hostTurn (s : State) : Turn :=
  match s.host with
  | [] => .quiet (.next s)
  | .writeCmd code :: rest => .run (decodeCommand code) { s with host := rest }
  | m :: rest => .quiet (.next (applyMove m { s with host := rest }))

/-- The machine's next turn: the reset signal first (10_state.md R37: it stops a running command), then by phase. -/
def turn (s : State) : Turn :=
  if s.resetLine then .quiet (.next (applyReset s))
  else match s.phase with
    | .idle => hostTurn s
    | .dec p => decodeTurn s p
    | .enc p => encodeTurn s p

/-! ## Placing an instruction -/

/-- The length of the stream an instruction is placed in: one both header checks accept. -/
def placedLength (s : State) : Nat := max s.cfg.imageMinSize s.cfg.audioMinSize

/-- The stream bytes of a placed instruction: its own, and zeros behind it. -/
def placedStream (s : State) (bs : List Byte) : List Byte := bs ++ List.replicate (placedLength s - bs.length) 0

/-- A decoder at a place, about to fetch the bytes `bs` at the start of `B`: what the fetch and the unit need (log 15). -/
def placeUnit (s : State) (cmd : BitVec 3) (p : Place) (bs : List Byte) : State :=
  { s with
    resetLine := false
    cmd := cmd
    busy := true
    phase := .dec p
    bytes := Space.writeAll s.bytes (placed 0 (placedStream s bs))
    bDesc := ⟨true, BitVec.ofNat 32 (placedLength s), s.bDesc.cap⟩
    bp := 0
    sp := 0
    pp := 0
    run := 0
    stSamples := 1
    hdr := ⟨1, 1, 4, 0⟩
    pDesc := ⟨true, s.pDesc.len, if s.pDesc.cap = 0 then 1 else s.pDesc.cap⟩ }

/-- The state whose next turn runs a table word: a host write of `CMD` for a command, else a decoder at the place that
holds the unit (log 15). -/
def placeTableWord (s : State) (nbits w : Nat) : State :=
  match tableKind nbits w with
  | .command => { s with resetLine := false, busy := false, phase := .idle, host := .writeCmd (BitVec.ofNat 3 w) :: s.host }
  | .opcode => placeUnit s 4 .pixel (tableBytes nbits (w % 2 ^ nbits))
  | .imageHeader => placeUnit s 4 .imageHeader (tableBytes nbits (w % 2 ^ nbits))
  | .imageFooter => placeUnit s 4 .imageFooter (tableBytes nbits (w % 2 ^ nbits))
  | .audioHeader => placeUnit s 2 .audioHeader (tableBytes nbits (w % 2 ^ nbits))
  | .frameHeader => placeUnit s 2 .frame (tableBytes nbits (w % 2 ^ nbits))
  | .history => placeUnit s 2 (.hist 0) (tableBytes nbits (w % 2 ^ nbits))
  | .weights => placeUnit s 2 (.wght 0) (tableBytes nbits (w % 2 ^ nbits))
  | .slice _ => placeUnit s 2 (.slice 0 0) (tableBytes nbits (w % 2 ^ nbits))

end Sys2Proof.Machine
end

