-- ==== Sys2Proof/Machine/Dispatch.lean ====
section
/-! DEFINITION. The meaning of every instruction, one arm per constructor. -/

namespace Sys2Proof.Machine

def exec (i : Instr) (s : State) : Host.Outcome State Fault Refusal :=
  match i with
  | .rgb r g b => Sys2Proof.Machine.execRgb r g b s
  | .rgba r g b a => Sys2Proof.Machine.execRgba r g b a s
  | .index slot => Sys2Proof.Machine.execIndex slot s
  | .diff dr dg db => Sys2Proof.Machine.execDiff dr dg db s
  | .luma dg drg dbg => Sys2Proof.Machine.execLuma dg drg dbg s
  | .run length => Sys2Proof.Machine.execRun length s
  | .qoif width height chtag cstag => Sys2Proof.Machine.execQoif width height chtag cstag s
  | .footer => Sys2Proof.Machine.execFooter s
  | .qoaf samples => Sys2Proof.Machine.execQoaf samples s
  | .frame channels rate fsamples fsize => Sys2Proof.Machine.execFrame channels rate fsamples fsize s
  | .hist h0 h1 h2 h3 => Sys2Proof.Machine.execHist h0 h1 h2 h3 s
  | .wght w0 w1 w2 w3 => Sys2Proof.Machine.execWght w0 w1 w2 w3 s
  | .slice sf codes => Sys2Proof.Machine.execSlice sf codes s
  | .nop => Sys2Proof.Machine.execNop s
  | .audEnc => Sys2Proof.Machine.execAudEnc s
  | .audDec => Sys2Proof.Machine.execAudDec s
  | .imgEnc => Sys2Proof.Machine.execImgEnc s
  | .imgDec => Sys2Proof.Machine.execImgDec s
  | .reserved5 => Sys2Proof.Machine.execReserved5 s
  | .reserved6 => Sys2Proof.Machine.execReserved6 s
  | .reserved7 => Sys2Proof.Machine.execReserved7 s

end Sys2Proof.Machine
end

