-- ==== Sys2Proof/Machine/Step.lean ====
section
/-! DEFINITION. One step of the machine, and the placing of an instruction where the next step runs it. -/

namespace Sys2Proof.Machine

/-- One step: the turn the sequencer takes, an instruction run by `exec` (00_scope.md R8: one unit of a command, log 10). -/
def step (s : State) : Host.Outcome State Fault Refusal :=
  match turn s with
  | .run i s1 => exec i s1
  | .quiet o => o

/-- `s` with an instruction, numbered as the opcode table numbers its bits, where the next step runs it (log 15). -/
def State.withFetchWord (s : State) (nbits w : Nat) : State := placeTableWord s nbits w

end Sys2Proof.Machine
end

