-- ==== Sys2Proof/Safety.lean ====
section
/-! DEFINITION. What holds of a good state, in the terms claims use, and the relations between a state and the next
one that the claims about single instructions share. -/

namespace Sys2Proof.Machine

/-! ## Memory -/

/-- Every listed index lies below a bound. -/
def Space.below {α : Type} (m : Space α) (n : Nat) : Bool := m.all (fun e => decide (e.1 < n))

/-- The three buffer spaces are in canonical form and list 32-bit indices only (20_memory.md R61 to R63). -/
def MemoryOk (s : State) : Prop :=
  (Space.wf s.bytes = true ∧ Space.below s.bytes (2 ^ 32) = true) ∧
  (Space.wf s.samples = true ∧ Space.below s.samples (2 ^ 32) = true) ∧
  (Space.wf s.pixels = true ∧ Space.below s.pixels (2 ^ 32) = true)

/-! ## Control -/

/-- Whether a place belongs to the image format. -/
def Place.isImage : Place → Bool
  | .imageHeader | .pixel | .imageFooter => true
  | .audioHeader | .frame | .hist _ | .wght _ | .slice _ _ => false

/-- The code of the command that has reached a phase (30_encoding.md R120). -/
def Phase.command : Phase → BitVec 3
  | .idle => 0
  | .dec p => if p.isImage then 4 else 2
  | .enc p => if p.isImage then 3 else 1

/-- The block is busy exactly while a command has a place in a stream, it is that command that `CMD` names, `DONE` is
clear meanwhile, and `ERR` is one of the eleven codes (10_state.md R31, 60_exceptions.md R300, R321). -/
def ControlOk (s : State) : Prop :=
  (s.busy = true ↔ s.phase ≠ .idle) ∧
  (s.busy = true → s.done = false ∧ s.cmd = s.phase.command) ∧
  s.err.toNat ≤ 10

/-! ## Predictor and pixel coder registers -/

/-- A history register holds a 16-bit value (10_state.md R22). -/
def sampleRange (h : BitVec 32) : Prop := -32768 ≤ h.toInt ∧ h.toInt ≤ 32767

/-- All four history registers of a predictor state hold 16-bit values (10_state.md R22). -/
def Predictor.historyLegal (st : Predictor) : Prop :=
  sampleRange st.h0 ∧ sampleRange st.h1 ∧ sampleRange st.h2 ∧ sampleRange st.h3

/-- Every history register holds a 16-bit value (10_state.md R22), the scratch copies of a search (R33) included. -/
def HistoryOk (s : State) : Prop :=
  (∀ c : Fin 8, s.pred[c.val].historyLegal) ∧ s.search.cand.pred.historyLegal ∧
  ∀ b ∈ s.search.best, b.pred.historyLegal

/-- A weight register of `bits` bits holds a signed value of that width (10_state.md R22). -/
def weightRange (bits : Nat) (w : Int) : Prop := -(2 ^ bits) ≤ 2 * w ∧ 2 * w < 2 ^ bits

/-- All four weight registers of a predictor state hold values of the configured width (10_state.md R22). -/
def Predictor.weightsLegal (bits : Nat) (st : Predictor) : Prop :=
  weightRange bits st.w0 ∧ weightRange bits st.w1 ∧ weightRange bits st.w2 ∧ weightRange bits st.w3

/-- Every weight register holds a value of `W_BITS` bits (10_state.md R22), the scratch copies of a search (R33)
included. -/
def WeightsOk (s : State) : Prop :=
  (∀ c : Fin 8, s.pred[c.val].weightsLegal s.cfg.wBits) ∧ s.search.cand.pred.weightsLegal s.cfg.wBits ∧
  ∀ b ∈ s.search.best, b.pred.weightsLegal s.cfg.wBits

/-- A weight that a snapshot's 16-bit field holds without loss (70_reset_and_hazards.md R352). -/
def storedRange (w : Int) : Prop := -32768 ≤ w ∧ w ≤ 32767

/-- A predictor state at the configured start values (10_state.md R38): `INIT_W` as the weight registers take it (R22),
`INIT_H`. -/
def InitialPredictor (cfg : Config) (st : Predictor) : Prop :=
  st.w0 = (cfg.initW[0].toInt).bmod (2 ^ cfg.wBits) ∧ st.w1 = (cfg.initW[1].toInt).bmod (2 ^ cfg.wBits) ∧
  st.w2 = (cfg.initW[2].toInt).bmod (2 ^ cfg.wBits) ∧ st.w3 = (cfg.initW[3].toInt).bmod (2 ^ cfg.wBits) ∧
  st.h0.toInt = cfg.initH[0].toInt ∧ st.h1.toInt = cfg.initH[1].toInt ∧
  st.h2.toInt = cfg.initH[2].toInt ∧ st.h3.toInt = cfg.initH[3].toInt

/-- Every slot of a colour cache holds the cleared pixel or a pixel stored at its own hash (44_pixel_encoder.md R245). -/
def CacheLegal (cache : Vector Pixel 64) : Prop :=
  ∀ k : BitVec 6, cacheSlot cache k = Pixel.zero ∨ pixelHash (cacheSlot cache k) = k

/-- The run counter never rests above 61 (44_pixel_encoder.md R243 c, 45_pixel_decoder.md R277), and the cache holds
pixels at their own hashes. -/
def PixelCoderOk (s : State) : Prop := s.run.toNat ≤ 61 ∧ CacheLegal s.cache

/-! ## Cursors and stream geometry -/

/-- A width or height in 1 .. 16384. -/
def goodDimension (v : BitVec 32) : Prop := 1 ≤ v.toNat ∧ v.toNat ≤ maxDim

/-- What `IMG_DEC` knows once its header is accepted (45_pixel_decoder.md R270). -/
def ImageDecodeOk (s : State) : Prop :=
  goodDimension s.hdr.width ∧ goodDimension s.hdr.height ∧
  (s.hdr.chtag = 3 ∨ s.hdr.chtag = 4) ∧ (s.hdr.cstag = 0 ∨ s.hdr.cstag = 1) ∧
  decPixelCount s ≤ s.pDesc.cap.toNat ∧ s.bp.toNat ≤ s.bDesc.len.toNat

/-- What `IMG_ENC` knows once its operands are accepted (44_pixel_encoder.md R241). -/
def ImageEncodeOk (s : State) : Prop :=
  goodDimension s.iWidth ∧ goodDimension s.iHeight ∧ s.pDesc.len.toNat = encPixelCount s ∧
  s.bp.toNat ≤ s.bDesc.cap.toNat

/-- What `AUD_DEC` knows once the stream header and the output size are accepted (43_audio_commands.md R221, R222). -/
def AudioDecodeOk (s : State) : Prop :=
  s.stChannels.toNat ≤ maxChannels ∧ s.stSamples.toNat * s.stChannels.toNat ≤ s.sDesc.cap.toNat

/-- What it knows inside a frame, once the frame is validated (43_audio_commands.md R224). -/
def FrameDecodeOk (s : State) : Prop :=
  AudioDecodeOk s ∧ frameTooSmall s = false ∧ s.fStart.toNat + s.fSize.toNat ≤ s.bDesc.len.toNat ∧
  s.sp.toNat + s.fSamples.toNat ≤ s.stSamples.toNat

/-- What `AUD_ENC` knows once its operands are accepted (43_audio_commands.md R211). -/
def AudioEncodeOk (s : State) : Prop :=
  1 ≤ s.stChannels.toNat ∧ s.stChannels.toNat ≤ maxChannels ∧
  s.sDesc.len.toNat = s.stSamples.toNat * s.stChannels.toNat ∧
  streamBytes s.stSamples.toNat s.stChannels.toNat ≤ s.bDesc.cap.toNat

/-- The length an audio encode still emits is what the whole stream's length leaves: with the bytes still to come, `BP`
is at `L` (43_audio_commands.md R213). -/
def streamLeft (s : State) (bytes : Nat) : Prop :=
  s.bp.toNat + bytes = streamBytes s.stSamples.toNat s.stChannels.toNat

/-- The bytes of the frames that `n` more samples per channel need (43_audio_commands.md R213). -/
def framesBytes (n ch : Nat) : Nat := ceilDiv n frameLen * (8 + 16 * ch) + 8 * ch * sliceCount n

/-- The bytes of the frames behind the running one. -/
def laterBytes (s : State) : Nat :=
  framesBytes (s.stSamples.toNat - (s.sp.toNat + s.fSamples.toNat)) s.stChannels.toNat

/-- Where the cursors stand at each place of a stream, and what the checks before it have established. -/
def PlaceOk (s : State) : Prop :=
  match s.phase with
  | .idle => True
  | .dec .imageHeader => s.bp.toNat = 0 ∧ s.pp.toNat = 0
  | .dec .pixel => ImageDecodeOk s ∧ s.pp.toNat < decPixelCount s
  | .dec .imageFooter => ImageDecodeOk s ∧ s.pp.toNat = decPixelCount s
  | .dec .audioHeader => s.bp.toNat = 0 ∧ s.sp.toNat = 0
  | .dec .frame => AudioDecodeOk s ∧ s.bp.toNat ≤ s.bDesc.len.toNat ∧ s.sp.toNat ≤ s.stSamples.toNat
  | .dec (.hist c) =>
    FrameDecodeOk s ∧ c.val < s.stChannels.toNat ∧ s.bp.toNat = s.fStart.toNat + 8 + 16 * c.val
  | .dec (.wght c) =>
    FrameDecodeOk s ∧ c.val < s.stChannels.toNat ∧ s.bp.toNat = s.fStart.toNat + 16 + 16 * c.val
  | .dec (.slice t c) =>
    FrameDecodeOk s ∧ c.val < s.stChannels.toNat ∧ t < sliceCount s.fSamples.toNat ∧
    s.bp.toNat = s.fStart.toNat + 8 + 16 * s.stChannels.toNat + 8 * (t * s.stChannels.toNat + c.val)
  | .enc .imageHeader => ImageEncodeOk s ∧ s.bp.toNat = 0 ∧ s.pp.toNat = 0 ∧ s.run.toNat = 0
  | .enc .pixel =>
    ImageEncodeOk s ∧ s.pp.toNat < encPixelCount s ∧ s.bp.toNat + 5 * s.run.toNat ≤ 14 + 5 * s.pp.toNat
  | .enc .imageFooter =>
    ImageEncodeOk s ∧ s.pp.toNat = encPixelCount s ∧ s.bp.toNat ≤ 14 + 5 * encPixelCount s
  | .enc .audioHeader => AudioEncodeOk s ∧ s.bp.toNat = 0 ∧ s.sp.toNat = 0
  | .enc .frame =>
    AudioEncodeOk s ∧ s.sp.toNat ≤ s.stSamples.toNat ∧
    streamLeft s (framesBytes (s.stSamples.toNat - s.sp.toNat) s.stChannels.toNat)
  | .enc (.hist c) =>
    AudioEncodeOk s ∧ c.val < s.stChannels.toNat ∧ s.sp.toNat + s.fSamples.toNat ≤ s.stSamples.toNat ∧
    streamLeft s (16 * (s.stChannels.toNat - c.val) + 8 * s.stChannels.toNat * sliceCount s.fSamples.toNat + laterBytes s)
  | .enc (.wght c) =>
    AudioEncodeOk s ∧ c.val < s.stChannels.toNat ∧ s.sp.toNat + s.fSamples.toNat ≤ s.stSamples.toNat ∧
    streamLeft s (8 + 16 * (s.stChannels.toNat - (c.val + 1)) +
      8 * s.stChannels.toNat * sliceCount s.fSamples.toNat + laterBytes s)
  | .enc (.slice t c) =>
    AudioEncodeOk s ∧ c.val < s.stChannels.toNat ∧ s.sp.toNat + s.fSamples.toNat ≤ s.stSamples.toNat ∧
    t < sliceCount s.fSamples.toNat ∧
    streamLeft s (8 * (s.stChannels.toNat - c.val) +
      8 * s.stChannels.toNat * (sliceCount s.fSamples.toNat - (t + 1)) + laterBytes s) ∧
    s.search.index ≤ scaleCount ∧ (s.search.index = 0 ∨ s.search.best.isSome = true)

/-- A state that meets every one of these, of a block whose parameters lie in the spec's ranges. -/
def Good (s : State) : Prop :=
  s.cfg.wf = true ∧ MemoryOk s ∧ ControlOk s ∧ HistoryOk s ∧ WeightsOk s ∧ PixelCoderOk s ∧ PlaceOk s

/-- A bound on the steps a running command still takes (60_exceptions.md R321: every command terminates). -/
def turnsLeft (s : State) : Nat :=
  match s.phase with
  | .idle => 0
  | .dec .imageHeader => maxDim * maxDim + 2
  | .dec .pixel => decPixelCount s - s.pp.toNat + 1
  | .dec .imageFooter => 1
  | .dec _ => s.bDesc.len.toNat - s.bp.toNat + 1
  | .enc .imageHeader => 2 * encPixelCount s + 3
  | .enc .pixel => 2 * (encPixelCount s - s.pp.toNat) + (if s.run = 0 then 0 else 1) + 1
  | .enc .imageFooter => 1
  | .enc _ =>
    17 * (streamBytes s.stSamples.toNat s.stChannels.toNat - s.bp.toNat) + (scaleCount - s.search.index) + 1

/-! ## A state and the next one -/

/-- The elements `vs` stored from index `a` on, and every other index as before. -/
def StoredAt {α : Type} (before after : Space α) (a : Nat) (vs : List α) : Prop :=
  ∀ k : Nat, Space.read after k = if a ≤ k ∧ k < a + vs.length then vs[k - a]? else Space.read before k

/-- The colour cache with one pixel stored at its own hash, and every other slot as before. -/
def CachedAt (before after : Vector Pixel 64) (px : Pixel) : Prop :=
  ∀ k : BitVec 6, cacheSlot after k = if k = pixelHash px then px else cacheSlot before k

/-- A decoder's pixel step wrote pixel `px` at `P[PP]` and went on (45_pixel_decoder.md R271). -/
def PixelWritten (px : Pixel) (s t : State) : Prop :=
  StoredAt s.pixels t.pixels s.pp.toNat [px] ∧ t.pp = s.pp + 1 ∧
  t.phase = if s.pp.toNat + 1 < decPixelCount s then Phase.dec .pixel else Phase.dec .imageFooter

/-- A colour opcode of `n` bytes decoded to `px`: the new colour, the cursor past it, the cache write, the pixel
written, and everything else unchanged (45_pixel_decoder.md R271, R278). -/
def ColourDecoded (px : Pixel) (n : Nat) (s t : State) : Prop :=
  t.pxPrev = px ∧ t.bp.toNat = s.bp.toNat + n ∧ CachedAt s.cache t.cache px ∧ PixelWritten px s t ∧
  { t with pxPrev := s.pxPrev, bp := s.bp, cache := s.cache, pixels := s.pixels, pp := s.pp, phase := s.phase } = s

/-- The bytes of a unit emitted at `BP`, and the cursor past them (20_memory.md R79). -/
def Emitted (bs : List Byte) (s t : State) : Prop :=
  StoredAt s.bytes t.bytes s.bp.toNat bs ∧ t.bp.toNat = s.bp.toNat + bs.length

/-- An encoder's pixel step is over: the pixel is the previous one, the cursor past it (44_pixel_encoder.md R250). -/
def PixelCoded (px : Pixel) (s t : State) : Prop :=
  t.pxPrev = px ∧ t.pp = s.pp + 1 ∧
  t.phase = if s.pp.toNat + 1 < encPixelCount s then Phase.enc .pixel else Phase.enc .imageFooter

/-- The error completion (60_exceptions.md R310): the flags, the output descriptor's length, and the input, the other
descriptor fields, the operands and the host's side as before. Nothing is said of the output's contents, of a decode's
result registers (both unspecified from then on) or of the private registers (10_state.md R39). -/
def Raised (e : ErrKind) (s t : State) : Prop :=
  t.err = e.code ∧ t.busy = false ∧ t.done = true ∧ t.phase = .idle ∧ t.cmd = s.cmd ∧ t.host = s.host ∧
  t.bDesc = (if outputOf s.cmd = some .bytes then { s.bDesc with len := 0 } else s.bDesc) ∧
  t.sDesc = (if outputOf s.cmd = some .samples then { s.sDesc with len := 0 } else s.sDesc) ∧
  t.pDesc = (if outputOf s.cmd = some .pixels then { s.pDesc with len := 0 } else s.pDesc) ∧
  (outputOf s.cmd ≠ some .bytes → t.bytes = s.bytes) ∧
  (outputOf s.cmd ≠ some .samples →
    t.samples = s.samples ∧ t.aChannels = s.aChannels ∧ t.aRate = s.aRate ∧ t.aSamples = s.aSamples) ∧
  (outputOf s.cmd ≠ some .pixels →
    t.pixels = s.pixels ∧ t.iWidth = s.iWidth ∧ t.iHeight = s.iHeight ∧ t.iChtag = s.iChtag ∧ t.iCstag = s.iCstag)

/-- The state with the audio commands' private registers at fixed values: `SP`, predictor registers, previous scale
factors, frame latches and the slice search (10_state.md R21, R24, R30, R32, R33). -/
def withoutAudio (s : State) : State :=
  { s with
    sp := 0
    pred := State.reset.pred
    prevSf := State.reset.prevSf
    stChannels := 0, stRate := 0, stSamples := 0
    fChannels := 0, fRate := 0, fSamples := 0, fSize := 0, fStart := 0
    search := Search.start }

/-- The state with the image commands' private registers at fixed values: `PP`, `PX_PREV`, `CACHE`, `RUN` (10_state.md
R25 to R27, R30) and the header values an image decode holds. -/
def withoutPixels (s : State) : State :=
  { s with pp := 0, pxPrev := Pixel.zero, cache := State.reset.cache, run := 0, hdr := State.reset.hdr }

end Sys2Proof.Machine
end

