-- ==== Sys2Proof/Certificates/Slice0/Obligations.lean ====
section
/-! DEFINITION. The statements for the provers. Each says what the spec's numbered rules say an instruction or the
machine does; the docstring names them. -/

open Sys2Proof Sys2Proof.Machine

/-! ## Encodings -/

/-- R90 to R105: under every image format whose tags do not collide, decoding the bytes of a well-formed unit or command,
read at its place, gives it back. -/
def Obligations.DecodeOfEncode : Prop :=
  ∀ (f : ImageFormat) (i : Instr) (rest : List Byte), f.wf = true → i.wf = true →
    decode f (kindOf i) (encode f i ++ rest) = .ok i rest

/-- R90 to R105: outside the footer and short slices (whose fill bits and bytes are not looked at, R95, R280) the bytes
a unit was decoded from are the bytes of its encoding, and its operands are well-formed. -/
def Obligations.DecodedUnitReencodes : Prop :=
  ∀ (f : ImageFormat) (k : UnitKind) (bs rest : List Byte) (i : Instr), f.wf = true → k ≠ .imageFooter →
    (∀ m, k = .slice m → m = 20) → decode f k bs = .ok i rest → i.wf = true ∧ kindOf i = k ∧ encode f i ++ rest = bs

/-- R98, R99, R108: every first byte, followed by enough bytes, is an opcode of the length it tells. -/
def Obligations.EveryFirstByteIsAnOpcode : Prop :=
  ∀ (f : ImageFormat) (op : Byte) (rest : List Byte), f.wf = true → 4 ≤ rest.length →
    ∃ i, decode f .opcode (op :: rest) = .ok i (rest.drop (opcodeLength f op - 1)) ∧
      unitLength i = opcodeLength f op ∧
      (opcodeLength f op = 1 ∨ opcodeLength f op = 2 ∨ opcodeLength f op = 4 ∨ opcodeLength f op = 5) ∧
      ∀ i' rest' rest'', decode f .opcode (op :: rest') = .ok i' rest'' → unitLength i' = opcodeLength f op

/-- R92, R94, R101 to R104, R181, R183, R188: under the default tags and field orders the spec's worked
examples decode to what they stand for. -/
def Obligations.SpecExamplesDecode : Prop :=
  decode defaultImageFormat .opcode [0x5A] = .ok (.diff (-1) 0 0) [] ∧
  decode defaultImageFormat .opcode [0xA3, 0x76] = .ok (.luma 3 (-1) (-2)) [] ∧
  decode defaultImageFormat .opcode [0x09] = .ok (.index 9) [] ∧
  decode defaultImageFormat .opcode [0xC0] = .ok (.run 1) [] ∧
  decode defaultImageFormat .opcode [0xFD] = .ok (.run 62) [] ∧
  decode defaultImageFormat .opcode [0xFE, 0x0A, 0x14, 0x1E] = .ok (.rgb 10 20 30) [] ∧
  decode defaultImageFormat .opcode [0xFF, 0xC8, 0x64, 0x32, 0x80] = .ok (.rgba 200 100 50 128) [] ∧
  decode defaultImageFormat .audioHeader [0x71, 0x6F, 0x61, 0x66, 0, 0, 0, 0x0A] = .ok (.qoaf 10) [] ∧
  decode defaultImageFormat .frameHeader [0x01, 0, 0x1F, 0x40, 0, 0x0A, 0, 0x20] = .ok (.frame 1 8000 10 32) [] ∧
  decode defaultImageFormat (.slice 10) [0, 0xD1, 0x0D, 0x02, 0, 0, 0, 0] = .ok (.slice 0 [0, 3, 2, 1, 0, 3, 2, 0, 1, 0]) []

/-- R94, R95: the slice word is the scale factor in bits 63..60 and code `j` in bits 59-3j .. 57-3j, zero below. -/
def Obligations.SliceWordLayout : Prop :=
  ∀ (sf : BitVec 4) (codes : List (BitVec 3)), codes.length ≤ 20 →
    (packSlice sf codes).toNat =
      sf.toNat * 2 ^ 60 + ((List.finRange codes.length).map fun j => codes[j].toNat * 2 ^ (57 - 3 * j.val)).sum ∧
    ∀ w : Word64, (packSlice sf codes).toNat / 2 ^ (60 - 3 * codes.length) = w.toNat / 2 ^ (60 - 3 * codes.length) →
      w.extractLsb' 60 4 = sf ∧ sliceCodes w codes.length = codes

/-! ## Predictor and quantizer -/

/-- R131: the prediction is the floor of the exact dot product over 8192. -/
def Obligations.PredictFloorsDotProduct : Prop :=
  ∀ st : Predictor,
    let acc := st.w0 * st.h0.toInt + st.w1 * st.h1.toInt + st.w2 * st.h2.toInt +
      st.w3 * st.h3.toInt
    predict st * 8192 ≤ acc ∧ acc < (predict st + 1) * 8192

/-- R132: the ranges of the products, of the dot product and of the prediction, with weights of the default 32 bits and
with stored weights. -/
def Obligations.PredictRange : Prop :=
  ∀ st : Predictor, st.historyLegal → |st.w0| ≤ 2 ^ 31 → |st.w1| ≤ 2 ^ 31 → |st.w2| ≤ 2 ^ 31 → |st.w3| ≤ 2 ^ 31 →
    |st.w0 * st.h0.toInt| ≤ 2 ^ 46 ∧ |st.w1 * st.h1.toInt| ≤ 2 ^ 46 ∧
    |st.w2 * st.h2.toInt| ≤ 2 ^ 46 ∧ |st.w3 * st.h3.toInt| ≤ 2 ^ 46 ∧
    |dotProduct st| ≤ 2 ^ 48 ∧ -(2 ^ 36) ≤ predict st ∧ predict st < 2 ^ 36 ∧
    (storedRange st.w0 → storedRange st.w1 → storedRange st.w2 → storedRange st.w3 →
      |dotProduct st| ≤ 2 ^ 32 ∧ -524288 ≤ predict st ∧ predict st ≤ 524288)

/-- R133: the eight registers after `UPDATE`: the weight step follows the old history's sign, the sum wraps to `W_BITS`
bits (32 by default, R22), the history moves down and takes the reconstructed sample. -/
def Obligations.UpdateRegisters : Prop :=
  ∀ (cfg : Config) (st : Predictor) (recon resid : Int), -32768 ≤ recon → recon ≤ 32767 →
    let t := update cfg st recon resid
    let delta := resid / 16
    let stepped := fun (w : Int) (h : BitVec 32) => (w + (if h.toInt < 0 then -delta else delta)).bmod (2 ^ cfg.wBits)
    t.w0 = stepped st.w0 st.h0 ∧ t.w1 = stepped st.w1 st.h1 ∧ t.w2 = stepped st.w2 st.h2 ∧ t.w3 = stepped st.w3 st.h3 ∧
    t.h0 = st.h1 ∧ t.h1 = st.h2 ∧ t.h2 = st.h3 ∧ t.h3.toInt = recon

/-- R150: the reciprocal multiply, with any table of positive reciprocals, and what its correction does: it fires exactly
where the first line gave 0 for a residual that is not 0, and then gives the residual's sign. -/
def Obligations.DivRoundsAwayFromZero : Prop :=
  ∀ (cfg : Config) (v : Int) (sf : BitVec 4), cfg.wf = true → cfg.div = .reciprocal →
    let first := (v * recip cfg sf + 32768) / 65536
    (v = 0 → divScale cfg v sf = 0) ∧
    (0 < v → first = 0 → divScale cfg v sf = 1) ∧
    (v < 0 → first = 0 → divScale cfg v sf = -1) ∧
    (first ≠ 0 → divScale cfg v sf = first)

/-- R153, R154: in every configuration the code is the table entry at the clamped scaled residual, and the reconstructed
sample is the exact sum clamped once. R151, R153: with the default `QUANT` the code's parity is the residual's sign, and
the code saturates at a scaled residual of 6 either way. -/
def Obligations.QuantizeAndReconstruct : Prop :=
  ∀ (cfg : Config) (resid p : Int) (sf : BitVec 4) (code : BitVec 3),
    let q := quantize cfg resid sf
    (∀ k : Fin 17, (k.val : Int) = max (-8) (min 8 (divScale cfg resid sf)) + 8 → q = cfg.quant[k.val]) ∧
    reconstruct cfg p sf code = max (-32768) (min 32767 (p + dequant cfg sf code)) ∧
    (cfg.wf = true → cfg.div = .reciprocal → cfg.quant = defaultQuant →
      (0 ≤ resid → q.toNat % 2 = 0) ∧ (resid < 0 → q.toNat % 2 = 1) ∧ (resid = 0 → q = 0) ∧
      (6 ≤ divScale cfg resid sf → q = 6) ∧ (divScale cfg resid sf ≤ -6 → q = 7))

/-- R155: the penalty is the shifted sum of squares less 2303, at least 0; it is 0 exactly below 603979776, for instance
where every weight's magnitude is below 12288. -/
def Obligations.PenaltyThreshold : Prop :=
  ∀ st : Predictor,
    let ssq := st.w0 ^ 2 + st.w1 ^ 2 + st.w2 ^ 2 + st.w3 ^ 2
    (|st.w0| ≤ 2 ^ 31 → |st.w1| ≤ 2 ^ 31 → |st.w2| ≤ 2 ^ 31 → |st.w3| ≤ 2 ^ 31 → ssq ≤ 2 ^ 64) ∧
    (penalty st : Int) = max 0 (ssq / 2 ^ 18 - 2303) ∧ (penalty st = 0 ↔ ssq < 603979776) ∧
    (|st.w0| < 12288 → |st.w1| < 12288 → |st.w2| < 12288 → |st.w3| < 12288 → penalty st = 0)

/-- R135, R157, R162: in every configuration, a decoder that starts a slice from the state a candidate started from, and
reads the candidate's word, ends in the candidate's final predictor state; its samples are 16-bit, and their squared distance from the input
is within the candidate's rank; and the word is the packing of its scale factor and its codes. -/
def Obligations.DecoderFollowsCandidate : Prop :=
  ∀ (cfg : Config) (st : Predictor) (xs : List Int) (sf : BitVec 4), 1 ≤ xs.length → xs.length ≤ 20 →
    let cand := sliceSim cfg st xs sf
    let codes := sliceCodes cand.word xs.length
    cand.sf = sf ∧ cand.word.extractLsb' 60 4 = sf ∧ packSlice sf codes = cand.word ∧
    (decodeSlice cfg st sf codes).1 = cand.pred ∧
    (decodeSlice cfg st sf codes).2.length = xs.length ∧
    (∀ y ∈ (decodeSlice cfg st sf codes).2, -32768 ≤ y ∧ y ≤ 32767) ∧
    ((xs.zip (decodeSlice cfg st sf codes).2).map fun p => (p.1 - p.2).natAbs ^ 2).sum ≤ cand.rank

/-- R158, R160: the search commits the candidate of the least rank, and among those of equal rank the one visited
first. -/
def Obligations.SearchKeepsFirstLeastRank : Prop :=
  ∀ (cfg : Config) (st : Predictor) (prevSf : BitVec 4) (xs : List Int),
    ∃ i : Fin 16, ∃ best : Candidate,
      (sliceSearch cfg st prevSf xs).best = some best ∧
      best = sliceSim cfg st xs (prevSf + BitVec.ofNat 4 i.val) ∧
      (∀ j : Fin 16, best.rank ≤ (sliceSim cfg st xs (prevSf + BitVec.ofNat 4 j.val)).rank) ∧
      (∀ j : Fin 16, j < i → best.rank < (sliceSim cfg st xs (prevSf + BitVec.ofNat 4 j.val)).rank)

/-- R158, R33: at a slice of an audio encode, sixteen steps from the start of the search run it whole, and nothing but
the search registers changes. -/
def Obligations.SixteenStepsSearchASlice : Prop :=
  ∀ (s : State) (t : Nat) (c : Fin 8) (xs : List Int), s.resetLine = false → s.phase = .enc (.slice t c) →
    s.search = Search.start → readSlice s t c = .ok xs →
    Host.Core.run Sys2Proof.core 16 s = .next { s with search := sliceSearch s.cfg s.pred[c.val] s.prevSf[c.val] xs }

/-- R185, R186, R352: what a decoder loads from a channel's snapshot: the history as it was, each weight reduced to 16
bits and sign-extended, which is the encoder's weight exactly where that lies in the 16-bit range. -/
def Obligations.SnapshotRoundTrip : Prop :=
  ∀ (cfg : Config) (st before : Predictor), cfg.wf = true → st.historyLegal →
    let loaded := loadWeights cfg (loadHistory before (trunc16 st.h0) (trunc16 st.h1) (trunc16 st.h2) (trunc16 st.h3))
      (truncWeight st.w0) (truncWeight st.w1) (truncWeight st.w2) (truncWeight st.w3)
    loaded.h0 = st.h0 ∧ loaded.h1 = st.h1 ∧ loaded.h2 = st.h2 ∧ loaded.h3 = st.h3 ∧
    loaded.w0 = st.w0.bmod (2 ^ 16) ∧ loaded.w1 = st.w1.bmod (2 ^ 16) ∧
    loaded.w2 = st.w2.bmod (2 ^ 16) ∧ loaded.w3 = st.w3.bmod (2 ^ 16) ∧
    (loaded = st ↔ storedRange st.w0 ∧ storedRange st.w1 ∧ storedRange st.w2 ∧ storedRange st.w3)

/-! ## Image opcodes, decoded -/

/-- R272, R273, R276, R278: RGB, RGBA and INDEX complete: the new colour, the cursor, the cache write, the pixel, and
nothing else. -/
def Obligations.LiteralsAndIndexDecode : Prop :=
  ∀ s : State, s.phase = .dec .pixel → s.pp.toNat < s.pDesc.cap.toNat →
    (∀ r g b : Byte, s.bp.toNat + 4 ≤ s.bDesc.len.toNat →
      ∃ t, exec (.rgb r g b) s = .next t ∧ ColourDecoded ⟨r, g, b, s.pxPrev.a⟩ 4 s t) ∧
    (∀ r g b a : Byte, s.bp.toNat + 5 ≤ s.bDesc.len.toNat →
      ∃ t, exec (.rgba r g b a) s = .next t ∧ ColourDecoded ⟨r, g, b, a⟩ 5 s t) ∧
    (∀ slot : BitVec 6, s.bp.toNat + 1 ≤ s.bDesc.len.toNat →
      ∃ t, exec (.index slot) s = .next t ∧ ColourDecoded (cacheSlot s.cache slot) 1 s t)

/-- R274, R275, R278: DIFF and LUMA complete: each colour channel is the old one plus its delta, modulo 256; alpha is
unchanged. -/
def Obligations.DeltasDecode : Prop :=
  ∀ s : State, s.phase = .dec .pixel → s.pp.toNat < s.pDesc.cap.toNat →
    (∀ dr dg db : Int, s.bp.toNat + 1 ≤ s.bDesc.len.toNat →
      ∃ t px, exec (.diff dr dg db) s = .next t ∧ ColourDecoded px 1 s t ∧
        (px.r.toNat : Int) = (s.pxPrev.r.toNat + dr) % 256 ∧ (px.g.toNat : Int) = (s.pxPrev.g.toNat + dg) % 256 ∧
        (px.b.toNat : Int) = (s.pxPrev.b.toNat + db) % 256 ∧ px.a = s.pxPrev.a) ∧
    (∀ dg drg dbg : Int, s.bp.toNat + 2 ≤ s.bDesc.len.toNat →
      ∃ t px, exec (.luma dg drg dbg) s = .next t ∧ ColourDecoded px 2 s t ∧
        (px.r.toNat : Int) = (s.pxPrev.r.toNat + dg + drg) % 256 ∧ (px.g.toNat : Int) = (s.pxPrev.g.toNat + dg) % 256 ∧
        (px.b.toNat : Int) = (s.pxPrev.b.toNat + dg + dbg) % 256 ∧ px.a = s.pxPrev.a)

/-- R271, R277: RUN completes: it repeats the colour, sets the counter and writes no cache slot; a later step of the run
takes one from the counter and reads no opcode. -/
def Obligations.RunRepeatsTheColour : Prop :=
  ∀ s : State, s.phase = .dec .pixel → s.pp.toNat < s.pDesc.cap.toNat →
    (∀ length : Nat, 1 ≤ length → length ≤ 62 → s.bp.toNat + 1 ≤ s.bDesc.len.toNat →
      ∃ t, exec (.run length) s = .next t ∧ t.run.toNat = length - 1 ∧ t.bp.toNat = s.bp.toNat + 1 ∧
        PixelWritten s.pxPrev s t ∧
        { t with run := s.run, bp := s.bp, pixels := s.pixels, pp := s.pp, phase := s.phase } = s) ∧
    (s.resetLine = false → s.run ≠ 0 →
      ∃ t, step s = .next t ∧ t.run.toNat = s.run.toNat - 1 ∧ PixelWritten s.pxPrev s t ∧
        { t with run := s.run, pixels := s.pixels, pp := s.pp, phase := s.phase } = s)

/-! ## Image opcodes, encoded -/

/-- R245 to R250: INDEX, and on a cache miss DIFF, LUMA, RGB and RGBA, complete: their bytes at `BP`, the pixel at its
own hash in the cache for all but INDEX, the pixel step over, and nothing else. -/
def Obligations.OpcodesEmit : Prop :=
  ∀ (s : State) (px : Pixel) (i : Instr), s.phase = .enc .pixel → readPixel s = .ok px →
    s.bp.toNat + unitLength i ≤ s.bDesc.cap.toNat →
    ((∃ r g b, i = .rgb r g b) ∨ (∃ r g b a, i = .rgba r g b a) ∨ (∃ dr dg db, i = .diff dr dg db) ∨
        (∃ dg drg dbg, i = .luma dg drg dbg) →
      ∃ t, exec i s = .next t ∧ Emitted (encode s.cfg.image i) s t ∧ CachedAt s.cache t.cache px ∧ PixelCoded px s t ∧
        { t with bytes := s.bytes, bp := s.bp, cache := s.cache, pxPrev := s.pxPrev, pp := s.pp, phase := s.phase } = s) ∧
    ((∃ slot, i = .index slot) →
      ∃ t, exec i s = .next t ∧ Emitted (encode s.cfg.image i) s t ∧ PixelCoded px s t ∧
        { t with bytes := s.bytes, bp := s.bp, pxPrev := s.pxPrev, pp := s.pp, phase := s.phase } = s)

/-- R243, R250: RUN completes: its byte at `BP`, the counter 0; the pixel step is over where the pixel continues the
run, and still to come where it differs. -/
def Obligations.RunEmits : Prop :=
  ∀ (s : State) (px : Pixel) (length : Nat), s.phase = .enc .pixel → readPixel s = .ok px →
    s.bp.toNat + 1 ≤ s.bDesc.cap.toNat →
    ∃ t, exec (.run length) s = .next t ∧ Emitted (encode s.cfg.image (.run length)) s t ∧ t.run = 0 ∧
      (px = s.pxPrev → PixelCoded px s t) ∧
      (px ≠ s.pxPrev → t.pxPrev = s.pxPrev ∧ t.pp = s.pp ∧ t.phase = s.phase) ∧
      { t with bytes := s.bytes, bp := s.bp, run := s.run, pxPrev := s.pxPrev, pp := s.pp, phase := s.phase } = s

/-- R79, R304, R310: a unit that does not fit into the output's capacity raises `E_MEMORY`. -/
def Obligations.EmitWithoutRoomRaisesMemory : Prop :=
  ∀ (s : State) (p : Place) (i : Instr), s.phase = .enc p → kindOf i = placeKind s p →
    (p = .pixel → ∃ px, readPixel s = .ok px) →
    (∀ t c, p = .slice t c → s.search.best.isSome = true) →
    s.bDesc.cap.toNat < s.bp.toNat + (encode s.cfg.image i).length →
    ∃ t, exec i s = .next t ∧ Raised .eMemory s t

/-- R243 to R249, R255: which opcode the encoder selects at a pixel: a run first, then INDEX of the pixel's hash, DIFF,
LUMA, RGB, RGBA, the first that applies. -/
def Obligations.SelectorPriority : Prop :=
  ∀ (s : State) (px : Pixel), s.resetLine = false → s.phase = .enc .pixel → readPixel s = .ok px →
    let prev := s.pxPrev
    let full := s.run.toNat + 1 = 62 ∨ s.pp.toNat + 1 = encPixelCount s
    let dr := ((px.r.toNat : Int) - prev.r.toNat).bmod 256
    let dg := ((px.g.toNat : Int) - prev.g.toNat).bmod 256
    let db := ((px.b.toNat : Int) - prev.b.toNat).bmod 256
    let drg := (dr - dg).bmod 256
    let dbg := (db - dg).bmod 256
    let small := -2 ≤ dr ∧ dr ≤ 1 ∧ -2 ≤ dg ∧ dg ≤ 1 ∧ -2 ≤ db ∧ db ≤ 1
    let medium := -32 ≤ dg ∧ dg ≤ 31 ∧ -8 ≤ drg ∧ drg ≤ 7 ∧ -8 ≤ dbg ∧ dbg ≤ 7
    let hit := cacheSlot s.cache (pixelHash px) = px
    (pixelHash px).toNat = (px.r.toNat * 3 + px.g.toNat * 5 + px.b.toNat * 7 + px.a.toNat * 11) % 64 ∧
    (px = prev → full → turn s = .run (.run (s.run.toNat + 1)) s) ∧
    (px = prev → ¬full →
      ∃ t, step s = .next t ∧ t.run = s.run + 1 ∧ PixelCoded px s t ∧
        { t with run := s.run, pxPrev := s.pxPrev, pp := s.pp, phase := s.phase } = s) ∧
    (px ≠ prev → s.run ≠ 0 → turn s = .run (.run s.run.toNat) s) ∧
    (px ≠ prev → s.run = 0 → hit → turn s = .run (.index (pixelHash px)) s) ∧
    (px ≠ prev → s.run = 0 → ¬hit → px.a = prev.a → small → turn s = .run (.diff dr dg db) s) ∧
    (px ≠ prev → s.run = 0 → ¬hit → px.a = prev.a → ¬small → medium → turn s = .run (.luma dg drg dbg) s) ∧
    (px ≠ prev → s.run = 0 → ¬hit → px.a = prev.a → ¬small → ¬medium → turn s = .run (.rgb px.r px.g px.b) s) ∧
    (px ≠ prev → s.run = 0 → ¬hit → px.a ≠ prev.a → turn s = .run (.rgba px.r px.g px.b px.a) s)

/-- R255 e, R243, R277, R278: the decoder stays in step with the encoder, over the same image format. On equal previous
pixels and equal caches: the opcode the encoder selects for a pixel in no run makes the decoder produce that pixel; a
RUN it selects (of a full or a last run, or flushed before a different pixel) makes the decoder produce as many pixels
of the colour as the run has, in as many steps; both leave equal previous pixels and equal caches. A pixel that only
extends the run emits nothing and leaves them equal too. -/
def Obligations.DecoderFollowsPixelEncoder : Prop :=
  ∀ (e d : State) (px : Pixel), e.resetLine = false → d.resetLine = false → e.phase = .enc .pixel →
    d.phase = .dec .pixel → readPixel e = .ok px → e.cfg.image = d.cfg.image → e.cfg.image.wf = true →
    e.pxPrev = d.pxPrev → e.cache = d.cache → CacheLegal e.cache → e.run.toNat ≤ 61 → d.run = 0 →
    (∀ i : Instr, px ≠ e.pxPrev → e.run = 0 → turn e = .run i e → e.bp.toNat + unitLength i ≤ e.bDesc.cap.toNat →
      d.pp.toNat < d.pDesc.cap.toNat →
      ∃ e' d', exec i e = .next e' ∧ exec i d = .next d' ∧
        e'.pxPrev = px ∧ d'.pxPrev = px ∧ e'.cache = d'.cache ∧ CacheLegal d'.cache ∧
        Space.read d'.pixels d.pp.toNat = some px ∧ d'.pp.toNat = d.pp.toNat + 1 ∧ e'.run = 0 ∧ d'.run = 0 ∧
        ∀ rest, decode d.cfg.image .opcode (encode e.cfg.image i ++ rest) = .ok i rest) ∧
    (∀ n : Nat, turn e = .run (.run n) e → e.bp.toNat + 1 ≤ e.bDesc.cap.toNat →
      d.pp.toNat + n ≤ d.pDesc.cap.toNat → d.pp.toNat + n ≤ decPixelCount d →
      n = (if px = e.pxPrev then e.run.toNat + 1 else e.run.toNat) ∧
      ∃ e' d1 d', exec (.run n) e = .next e' ∧ exec (.run n) d = .next d1 ∧
        Host.Core.run Sys2Proof.core (n - 1) d1 = .next d' ∧
        e'.pxPrev = e.pxPrev ∧ d'.pxPrev = e.pxPrev ∧ e'.cache = e.cache ∧ d'.cache = e.cache ∧
        StoredAt d.pixels d'.pixels d.pp.toNat (List.replicate n e.pxPrev) ∧ d'.pp.toNat = d.pp.toNat + n ∧
        e'.run = 0 ∧ d'.run = 0 ∧
        ∀ rest, decode d.cfg.image .opcode (encode e.cfg.image (.run n) ++ rest) = .ok (.run n) rest) ∧
    (px = e.pxPrev → ¬(∃ n, turn e = .run (.run n) e) →
      ∃ e', step e = .next e' ∧ e'.run.toNat = e.run.toNat + 1 ∧ e'.pxPrev = e.pxPrev ∧ e'.cache = e.cache ∧
        e'.bytes = e.bytes ∧ e'.bp = e.bp)

/-- R243 d, R255, R183, R187, R30: from a good state, what an encoder selects is well-formed, is a unit of the place it
stands at, and selecting it changes nothing. -/
def Obligations.EncoderSelectsWellFormedUnit : Prop :=
  ∀ (s s' : State) (p : Place) (i : Instr), Good s → s.resetLine = false → s.phase = .enc p →
    turn s = .run i s' → s' = s ∧ i.wf = true ∧ kindOf i = placeKind s p

/-! ## Headers and footer -/

/-- R270 steps 4 to 7, R38: an accepted image header starts the pixel loop. -/
def Obligations.QoifDecodes : Prop :=
  ∀ (s : State) (width height : BitVec 32) (chtag cstag : Byte), s.phase = .dec .imageHeader →
    goodDimension width → goodDimension height → (chtag = 3 ∨ chtag = 4) → (cstag = 0 ∨ cstag = 1) →
    width.toNat * height.toNat ≤ s.pDesc.cap.toNat →
    ∃ t, exec (.qoif width height chtag cstag) s = .next t ∧ t.bp = 14 ∧ t.pp = 0 ∧ t.pxPrev = ⟨0, 0, 0, 255⟩ ∧
      (∀ k, cacheSlot t.cache k = ⟨0, 0, 0, 0⟩) ∧ t.run = 0 ∧ t.hdr = ⟨width, height, chtag, cstag⟩ ∧
      t.phase = .dec .pixel ∧
      { t with
        bp := s.bp, pp := s.pp, pxPrev := s.pxPrev, cache := s.cache, run := s.run, hdr := s.hdr, phase := s.phase } = s

/-- R270 steps 4 to 6, R309, R311, R314: a header outside the ranges raises, the dimensions first, the tags next, the
output capacity last. -/
def Obligations.QoifRejects : Prop :=
  ∀ (s : State) (width height : BitVec 32) (chtag cstag : Byte), s.phase = .dec .imageHeader →
    let dimensions := goodDimension width ∧ goodDimension height
    let tags := (chtag = 3 ∨ chtag = 4) ∧ (cstag = 0 ∨ cstag = 1)
    (¬dimensions → ∃ t, exec (.qoif width height chtag cstag) s = .next t ∧ Raised .eInvalidDimensions s t) ∧
    (dimensions → ¬tags → ∃ t, exec (.qoif width height chtag cstag) s = .next t ∧ Raised .eInvalidTag s t) ∧
    (dimensions → tags → s.pDesc.cap.toNat < width.toNat * height.toNat →
      ∃ t, exec (.qoif width height chtag cstag) s = .next t ∧ Raised .eMemory s t)

/-- R181, R242: the encoders' stream headers complete: the bytes at `BP`, and on to the first pixel or frame. -/
def Obligations.StreamHeadersEmit : Prop :=
  ∀ s : State,
    (∀ (width height : BitVec 32) (chtag cstag : Byte), s.phase = .enc .imageHeader →
      s.bp.toNat + 14 ≤ s.bDesc.cap.toNat →
      ∃ t, exec (.qoif width height chtag cstag) s = .next t ∧
        Emitted ([0x71, 0x6F, 0x69, 0x66] ++ bytes32 width ++ bytes32 height ++ [chtag, cstag]) s t ∧
        t.phase = .enc .pixel ∧ { t with bytes := s.bytes, bp := s.bp, phase := s.phase } = s) ∧
    (∀ samples : BitVec 32, s.phase = .enc .audioHeader → s.bp.toNat + 8 ≤ s.bDesc.cap.toNat →
      ∃ t, exec (.qoaf samples) s = .next t ∧ Emitted ([0x71, 0x6F, 0x61, 0x66] ++ bytes32 samples) s t ∧
        t.phase = .enc .frame ∧ { t with bytes := s.bytes, bp := s.bp, phase := s.phase } = s)

/-- R280, R281, R321: the footer ends an image decode: the results, the output length, the completion; `BP` stays. That
every private register also stays, which R39 leaves unspecified, is the model's choice (log 13). -/
def Obligations.FooterEndsImageDecode : Prop :=
  ∀ s : State, s.phase = .dec .imageFooter → decPixelCount s < 2 ^ 32 →
    ∃ t, exec .footer s = .next t ∧ t.iWidth = s.hdr.width ∧ t.iHeight = s.hdr.height ∧ t.iChtag = s.hdr.chtag ∧
      t.iCstag = s.hdr.cstag ∧ t.pDesc.len.toNat = s.hdr.width.toNat * s.hdr.height.toNat ∧
      t.pDesc.present = s.pDesc.present ∧ t.pDesc.cap = s.pDesc.cap ∧
      t.err = 0 ∧ t.busy = false ∧ t.done = true ∧ t.phase = .idle ∧
      { t with
        iWidth := s.iWidth, iHeight := s.iHeight, iChtag := s.iChtag, iCstag := s.iCstag, pDesc := s.pDesc
        err := s.err, busy := s.busy, done := s.done, phase := s.phase } = s

/-- R252, R321: the footer ends an image encode: eight bytes, the output length, the completion. That every private
register but the cursor stays, which R39 leaves unspecified, is the model's choice (log 13). -/
def Obligations.FooterEndsImageEncode : Prop :=
  ∀ s : State, s.phase = .enc .imageFooter → s.bp.toNat + 8 ≤ s.bDesc.cap.toNat →
    ∃ t, exec .footer s = .next t ∧ Emitted [0, 0, 0, 0, 0, 0, 0, 1] s t ∧ t.bDesc = { s.bDesc with len := t.bp } ∧
      t.err = 0 ∧ t.busy = false ∧ t.done = true ∧ t.phase = .idle ∧
      { t with
        bytes := s.bytes, bp := s.bp, bDesc := s.bDesc, err := s.err, busy := s.busy, done := s.done
        phase := s.phase } = s

/-! ## Audio words -/

/-- R182, R221, R222: an accepted stream header: the cursor past it, and the stream-wide values from it and from the
peeked word. -/
def Obligations.QoafDecodes : Prop :=
  ∀ (s : State) (samples : BitVec 32) (channels : BitVec 8) (rate : BitVec 24) (low : BitVec 32),
    s.phase = .dec .audioHeader → samples ≠ 0 → readBytes s 8 8 = .ok (bytes64 (channels ++ rate ++ low)) →
    channels.toNat ≤ 8 → samples.toNat * channels.toNat ≤ s.sDesc.cap.toNat →
    ∃ t, exec (.qoaf samples) s = .next t ∧ t.bp = s.bp + 8 ∧ t.stSamples = samples ∧ t.stChannels = channels ∧
      t.stRate = rate ∧ t.phase = .dec .frame ∧
      { t with
        bp := s.bp, stSamples := s.stSamples, stChannels := s.stChannels, stRate := s.stRate, phase := s.phase } = s

/-- R221 steps 4 and 5, R222, R305, R306: streaming mode, too many channels and too small an output raise, in this
order; streaming mode without a look at the frame. -/
def Obligations.QoafRejects : Prop :=
  ∀ (s : State) (samples : BitVec 32) (channels : BitVec 8) (rate : BitVec 24) (low : BitVec 32),
    s.phase = .dec .audioHeader →
    (samples = 0 → ∃ t, exec (.qoaf samples) s = .next t ∧ Raised .eStreaming s t) ∧
    (samples ≠ 0 → readBytes s 8 8 = .ok (bytes64 (channels ++ rate ++ low)) → 8 < channels.toNat →
      ∃ t, exec (.qoaf samples) s = .next t ∧ Raised .eTooManyChannels s t) ∧
    (samples ≠ 0 → readBytes s 8 8 = .ok (bytes64 (channels ++ rate ++ low)) → channels.toNat ≤ 8 →
      s.sDesc.cap.toNat < samples.toNat * channels.toNat →
      ∃ t, exec (.qoaf samples) s = .next t ∧ Raised .eMemory s t)

/-- R184, R224, R225, R228: a frame header that passes the four checks: the latches, the cursor, and on to the first
snapshot; a frame of no channels has ended already. -/
def Obligations.FrameDecodes : Prop :=
  ∀ (s : State) (channels : BitVec 8) (rate : BitVec 24) (fsamples fsize : BitVec 16), s.phase = .dec .frame →
    channels = s.stChannels → rate = s.stRate → 8 + 16 * channels.toNat ≤ fsize.toNat →
    (fsamples.toNat + 19) / 20 * channels.toNat ≤ (fsize.toNat - 8 - 16 * channels.toNat) / 8 →
    s.bp.toNat + fsize.toNat ≤ s.bDesc.len.toNat → s.sp.toNat + fsamples.toNat ≤ s.stSamples.toNat →
    ∃ t, exec (.frame channels rate fsamples fsize) s = .next t ∧ t.fChannels = channels ∧ t.fRate = rate ∧
      t.fSamples = fsamples ∧ t.fSize = fsize ∧ t.fStart = s.bp ∧
      (channels ≠ 0 → t.bp.toNat = s.bp.toNat + 8 ∧ t.sp = s.sp ∧ t.phase = .dec (.hist 0)) ∧
      (channels = 0 → t.bp.toNat = s.bp.toNat + (if s.cfg.frameAdvance = .consumed then 8 else fsize.toNat) ∧
        t.sp.toNat = s.sp.toNat + fsamples.toNat ∧ t.phase = .dec .frame) ∧
      { t with
        fChannels := s.fChannels, fRate := s.fRate, fSamples := s.fSamples, fSize := s.fSize, fStart := s.fStart
        bp := s.bp, sp := s.sp, phase := s.phase } = s

/-- R224, R307, R308, R313: a frame header that fails a check raises the error of the first that fails. -/
def Obligations.FrameRejects : Prop :=
  ∀ (s : State) (channels : BitVec 8) (rate : BitVec 24) (fsamples fsize : BitVec 16), s.phase = .dec .frame →
    let consistent := channels = s.stChannels ∧ rate = s.stRate
    let covered := 8 + 16 * s.stChannels.toNat ≤ fsize.toNat ∧
      (fsamples.toNat + 19) / 20 * s.stChannels.toNat ≤ (fsize.toNat - 8 - 16 * s.stChannels.toNat) / 8
    let fits := s.bp.toNat + fsize.toNat ≤ s.bDesc.len.toNat ∧ s.sp.toNat + fsamples.toNat ≤ s.stSamples.toNat
    (¬consistent → ∃ t, exec (.frame channels rate fsamples fsize) s = .next t ∧ Raised .eFrameInconsistent s t) ∧
    (consistent → ¬covered → ∃ t, exec (.frame channels rate fsamples fsize) s = .next t ∧ Raised .eMalformedFrame s t) ∧
    (consistent → covered → ¬fits → ∃ t, exec (.frame channels rate fsamples fsize) s = .next t ∧ Raised .eEof s t)

/-- R183, R212: an emitted frame header: its bytes, the latches, and on to the first snapshot. -/
def Obligations.FrameEmits : Prop :=
  ∀ (s : State) (channels : BitVec 8) (rate : BitVec 24) (fsamples fsize : BitVec 16), s.phase = .enc .frame →
    s.bp.toNat + 8 ≤ s.bDesc.cap.toNat → 1 ≤ s.stChannels.toNat →
    ∃ t, exec (.frame channels rate fsamples fsize) s = .next t ∧
      Emitted (bytes64 (channels ++ rate ++ fsamples ++ fsize)) s t ∧ t.fChannels = channels ∧ t.fRate = rate ∧
      t.fSamples = fsamples ∧ t.fSize = fsize ∧ t.fStart = s.bp ∧ t.search = Search.start ∧ t.phase = .enc (.hist 0) ∧
      { t with
        bytes := s.bytes, bp := s.bp, fChannels := s.fChannels, fRate := s.fRate, fSamples := s.fSamples
        fSize := s.fSize, fStart := s.fStart, search := s.search, phase := s.phase } = s

/-- R186, R225: the two snapshot words load a channel's registers, sign-extended, and no other register of the file;
then the next channel's snapshot, the first slice, or the end of the frame. -/
def Obligations.SnapshotWordsLoad : Prop :=
  ∀ (s : State) (c : Fin 8) (x0 x1 x2 x3 : BitVec 16), s.cfg.wf = true →
    s.bp.toNat + 8 ≤ s.bDesc.len.toNat →
    (s.phase = .dec (.hist c) →
      ∃ t, exec (.hist x0 x1 x2 x3) s = .next t ∧
        t.pred[c.val].h0.toInt = x0.toInt ∧ t.pred[c.val].h1.toInt = x1.toInt ∧
        t.pred[c.val].h2.toInt = x2.toInt ∧ t.pred[c.val].h3.toInt = x3.toInt ∧
        t.pred[c.val].w0 = s.pred[c.val].w0 ∧ t.pred[c.val].w1 = s.pred[c.val].w1 ∧
        t.pred[c.val].w2 = s.pred[c.val].w2 ∧ t.pred[c.val].w3 = s.pred[c.val].w3 ∧
        (∀ d : Fin 8, d ≠ c → t.pred[d.val] = s.pred[d.val]) ∧
        t.bp.toNat = s.bp.toNat + 8 ∧ t.phase = .dec (.wght c) ∧
        { t with pred := s.pred, bp := s.bp, phase := s.phase } = s) ∧
    (s.phase = .dec (.wght c) →
      ∃ t, exec (.wght x0 x1 x2 x3) s = .next t ∧
        t.pred[c.val].w0 = x0.toInt ∧ t.pred[c.val].w1 = x1.toInt ∧
        t.pred[c.val].w2 = x2.toInt ∧ t.pred[c.val].w3 = x3.toInt ∧
        t.pred[c.val].h0 = s.pred[c.val].h0 ∧ t.pred[c.val].h1 = s.pred[c.val].h1 ∧
        t.pred[c.val].h2 = s.pred[c.val].h2 ∧ t.pred[c.val].h3 = s.pred[c.val].h3 ∧
        (∀ d : Fin 8, d ≠ c → t.pred[d.val] = s.pred[d.val]) ∧
        (∀ d : Fin 8, d.val = c.val + 1 → d.val < s.stChannels.toNat →
          t.phase = .dec (.hist d) ∧ t.bp.toNat = s.bp.toNat + 8 ∧ t.sp = s.sp) ∧
        (s.stChannels.toNat ≤ c.val + 1 → 0 < s.fSamples.toNat →
          t.phase = .dec (.slice 0 0) ∧ t.bp.toNat = s.bp.toNat + 8 ∧ t.sp = s.sp) ∧
        (s.stChannels.toNat ≤ c.val + 1 → s.fSamples.toNat = 0 → t.phase = .dec .frame ∧ t.sp = s.sp ∧
          t.bp = (if s.cfg.frameAdvance = .consumed then s.bp + 8 else s.fStart + s.fSize.setWidth 32)) ∧
        { t with pred := s.pred, bp := s.bp, sp := s.sp, phase := s.phase } = s)

/-- R185: the two snapshot words a channel's registers are packed into, emitted at `BP`; the registers stay. -/
def Obligations.SnapshotWordsEmit : Prop :=
  ∀ (s : State) (c : Fin 8) (x0 x1 x2 x3 : BitVec 16), s.bp.toNat + 8 ≤ s.bDesc.cap.toNat →
    (s.phase = .enc (.hist c) →
      ∃ t, exec (.hist x0 x1 x2 x3) s = .next t ∧ Emitted (bytes64 (x0 ++ x1 ++ x2 ++ x3)) s t ∧
        t.phase = .enc (.wght c) ∧ { t with bytes := s.bytes, bp := s.bp, phase := s.phase } = s) ∧
    (s.phase = .enc (.wght c) →
      ∃ t, exec (.wght x0 x1 x2 x3) s = .next t ∧ Emitted (bytes64 (x0 ++ x1 ++ x2 ++ x3)) s t ∧
        t.search = Search.start ∧
        (∀ d : Fin 8, d.val = c.val + 1 → d.val < s.stChannels.toNat → t.phase = .enc (.hist d) ∧ t.sp = s.sp) ∧
        (s.stChannels.toNat ≤ c.val + 1 → 0 < s.fSamples.toNat → t.phase = .enc (.slice 0 0) ∧ t.sp = s.sp) ∧
        { t with bytes := s.bytes, bp := s.bp, search := s.search, sp := s.sp, phase := s.phase } = s)

/-- R162, R188, R225, R191: a decoded slice: the channel's registers after its samples, each sample at its interleaved
index, no other register of the file and no other element of `S`; then the next channel, the next slice index or the
end of the frame. -/
def Obligations.SliceDecodes : Prop :=
  ∀ (s : State) (k : Nat) (c : Fin 8) (sf : BitVec 4) (codes : List (BitVec 3)), s.phase = .dec (.slice k c) →
    s.bp.toNat + 8 ≤ s.bDesc.len.toNat → c.val < s.stChannels.toNat → s.stChannels.toNat ≤ 8 →
    (∀ j < codes.length, (s.sp.toNat + 20 * k + j) * s.stChannels.toNat + c.val < s.sDesc.cap.toNat) →
    let run := decodeSlice s.cfg s.pred[c.val] sf codes
    let index := fun j : Nat => (s.sp.toNat + 20 * k + j) * s.stChannels.toNat + c.val
    ∃ t, exec (.slice sf codes) s = .next t ∧ t.pred[c.val] = run.1 ∧
      (∀ d : Fin 8, d ≠ c → t.pred[d.val] = s.pred[d.val]) ∧
      run.2.length = codes.length ∧
      (∀ (j : Nat) (x : Int), run.2[j]? = some x → Space.read t.samples (index j) = some (BitVec.ofInt 16 x)) ∧
      (∀ a : Nat, (∀ j < codes.length, a ≠ index j) → Space.read t.samples a = Space.read s.samples a) ∧
      (∀ d : Fin 8, d.val = c.val + 1 → d.val < s.stChannels.toNat →
        t.phase = .dec (.slice k d) ∧ t.bp.toNat = s.bp.toNat + 8 ∧ t.sp = s.sp) ∧
      (s.stChannels.toNat = c.val + 1 → 20 * (k + 1) < s.fSamples.toNat →
        t.phase = .dec (.slice (k + 1) 0) ∧ t.bp.toNat = s.bp.toNat + 8 ∧ t.sp = s.sp) ∧
      (s.stChannels.toNat = c.val + 1 → s.fSamples.toNat ≤ 20 * (k + 1) →
        t.phase = .dec .frame ∧ t.sp = s.sp + s.fSamples.setWidth 32 ∧
        t.bp = (if s.cfg.frameAdvance = .consumed then s.bp + 8 else s.fStart + s.fSize.setWidth 32)) ∧
      { t with pred := s.pred, samples := s.samples, bp := s.bp, sp := s.sp, phase := s.phase } = s

/-- R158, R187, R191, R212: an emitted slice: its word at `BP`, the commit of the best candidate's state and of the
scale factor to the channel and to no other; then the next channel, the next slice index or the end of the frame. -/
def Obligations.SliceEmits : Prop :=
  ∀ (s : State) (k : Nat) (c : Fin 8) (sf : BitVec 4) (codes : List (BitVec 3)) (best : Candidate),
    s.phase = .enc (.slice k c) → s.search.best = some best → s.bp.toNat + 8 ≤ s.bDesc.cap.toNat →
    c.val < s.stChannels.toNat → s.stChannels.toNat ≤ 8 →
    ∃ t, exec (.slice sf codes) s = .next t ∧ Emitted (bytes64 (packSlice sf codes)) s t ∧
      t.pred[c.val] = best.pred ∧ t.prevSf[c.val] = sf ∧
      (∀ d : Fin 8, d ≠ c → t.pred[d.val] = s.pred[d.val] ∧ t.prevSf[d.val] = s.prevSf[d.val]) ∧
      t.search = Search.start ∧
      (∀ d : Fin 8, d.val = c.val + 1 → d.val < s.stChannels.toNat → t.phase = .enc (.slice k d) ∧ t.sp = s.sp) ∧
      (s.stChannels.toNat = c.val + 1 → 20 * (k + 1) < s.fSamples.toNat →
        t.phase = .enc (.slice (k + 1) 0) ∧ t.sp = s.sp) ∧
      (s.stChannels.toNat = c.val + 1 → s.fSamples.toNat ≤ 20 * (k + 1) →
        t.phase = .enc .frame ∧ t.sp = s.sp + s.fSamples.setWidth 32) ∧
      { t with
        bytes := s.bytes, bp := s.bp, pred := s.pred, prevSf := s.prevSf, search := s.search, sp := s.sp
        phase := s.phase } = s

/-- R212, R223, R226, R227: the ends of the two audio commands: a decode completes exactly where the samples are all
there and the input is consumed, else raises `E_EOF`; an encode reports the stream's length. That every private register
stays at a successful end, which R39 leaves unspecified but for `W` and `H`, is the model's choice (log 13). -/
def Obligations.AudioCommandsEnd : Prop :=
  ∀ s : State, s.resetLine = false →
    (s.phase = .dec .frame → s.sp = s.stSamples → s.bp = s.bDesc.len →
        s.stSamples.toNat * s.stChannels.toNat < 2 ^ 32 →
      ∃ t, step s = .next t ∧ t.aChannels = s.stChannels ∧ t.aRate = s.stRate ∧ t.aSamples = s.stSamples ∧
        t.sDesc.len.toNat = s.stSamples.toNat * s.stChannels.toNat ∧ t.sDesc.present = s.sDesc.present ∧
        t.sDesc.cap = s.sDesc.cap ∧ t.err = 0 ∧ t.busy = false ∧ t.done = true ∧ t.phase = .idle ∧
        { t with
          aChannels := s.aChannels, aRate := s.aRate, aSamples := s.aSamples, sDesc := s.sDesc
          err := s.err, busy := s.busy, done := s.done, phase := s.phase } = s) ∧
    (s.phase = .dec .frame → ¬(s.bp.toNat < s.bDesc.len.toNat ∧ s.sp.toNat < s.stSamples.toNat) →
        ¬(s.sp = s.stSamples ∧ s.bp = s.bDesc.len) →
      ∃ t, step s = .next t ∧ Raised .eEof s t) ∧
    (s.phase = .enc .frame → s.stSamples.toNat ≤ s.sp.toNat →
      ∃ t, step s = .next t ∧ t.bDesc = { s.bDesc with len := s.bp } ∧ t.err = 0 ∧ t.busy = false ∧ t.done = true ∧
        t.phase = .idle ∧
        { t with bDesc := s.bDesc, err := s.err, busy := s.busy, done := s.done, phase := s.phase } = s)

/-! ## Host commands -/

/-- R120, R121: `NOP` and the reserved codes complete at once, with `E_NONE` and with `E_INVALID_ARGS`, and change
nothing but `CMD`, `STATUS` and `ERR`. That `CMD` keeps the code and the cursors stay, where R38 clears them at the start
of every command, is the model's reading (DEDUCED, log 19). -/
def Obligations.AtOnceCommandsComplete : Prop :=
  ∀ s : State, s.busy = false → s.phase = .idle →
    (exec .nop s = .next { s with cmd := 0, done := true, err := 0 }) ∧
    (exec .reserved5 s = .next { s with cmd := 5, done := true, err := 1 }) ∧
    (exec .reserved6 s = .next { s with cmd := 6, done := true, err := 1 }) ∧
    (exec .reserved7 s = .next { s with cmd := 7, done := true, err := 1 })

/-- R211, R212, R38, R315: `AUD_ENC` checks its operands in order, and starts with the used channels' registers at their
configured values, all 0 by default, and the others untouched. -/
def Obligations.AudEncStartsOrRejects : Prop :=
  ∀ s : State, s.busy = false →
    let ch := s.aChannels.toNat
    let n := s.aSamples.toNat
    let attached := s.sDesc.present = true ∧ s.bDesc.present = true
    let operands := 1 ≤ ch ∧ ch ≤ 8 ∧ n ≠ 0 ∧ s.sDesc.len.toNat = n * ch
    let length := 8 + (n + 5119) / 5120 * (8 + 16 * ch) + 8 * ch * ((n + 19) / 20)
    (¬(attached ∧ operands) → ∃ t, exec .audEnc s = .next t ∧ Raised .eInvalidArgs { s with cmd := 1 } t) ∧
    (attached → operands → s.bDesc.cap.toNat < length →
      ∃ t, exec .audEnc s = .next t ∧ Raised .eMemory { s with cmd := 1 } t) ∧
    (attached → operands → length ≤ s.bDesc.cap.toNat →
      ∃ t, exec .audEnc s = .next t ∧ t.cmd = 1 ∧ t.busy = true ∧ t.done = false ∧ t.bp = 0 ∧ t.sp = 0 ∧ t.pp = 0 ∧
        t.stChannels = s.aChannels ∧ t.stRate = s.aRate ∧ t.stSamples = s.aSamples ∧
        (∀ c : Fin 8, c.val < ch → InitialPredictor s.cfg t.pred[c.val] ∧ t.prevSf[c.val] = s.cfg.initSf) ∧
        (s.cfg = defaultConfig → ∀ c : Fin 8, c.val < ch → t.pred[c.val] = Predictor.zero ∧ t.prevSf[c.val] = 0) ∧
        (∀ c : Fin 8, ch ≤ c.val → t.pred[c.val] = s.pred[c.val] ∧ t.prevSf[c.val] = s.prevSf[c.val]) ∧
        t.phase = .enc .audioHeader ∧
        { t with
          cmd := s.cmd, busy := s.busy, done := s.done, bp := s.bp, sp := s.sp, pp := s.pp
          stChannels := s.stChannels, stRate := s.stRate, stSamples := s.stSamples, pred := s.pred
          prevSf := s.prevSf, phase := s.phase } = s)

/-- R241, R242, R38, R315: `IMG_ENC` checks its operands in order, and starts with the pixel coder at its start
values. -/
def Obligations.ImgEncStartsOrRejects : Prop :=
  ∀ s : State, s.busy = false →
    let attached := s.pDesc.present = true ∧ s.bDesc.present = true
    let dimensions := goodDimension s.iWidth ∧ goodDimension s.iHeight
    (¬attached → ∃ t, exec .imgEnc s = .next t ∧ Raised .eInvalidArgs { s with cmd := 3 } t) ∧
    (attached → ¬dimensions → ∃ t, exec .imgEnc s = .next t ∧ Raised .eInvalidDimensions { s with cmd := 3 } t) ∧
    (attached → dimensions → s.pDesc.len.toNat ≠ s.iWidth.toNat * s.iHeight.toNat →
      ∃ t, exec .imgEnc s = .next t ∧ Raised .eInvalidArgs { s with cmd := 3 } t) ∧
    (attached → dimensions → s.pDesc.len.toNat = s.iWidth.toNat * s.iHeight.toNat →
      ∃ t, exec .imgEnc s = .next t ∧ t.cmd = 3 ∧ t.busy = true ∧ t.done = false ∧ t.bp = 0 ∧ t.sp = 0 ∧ t.pp = 0 ∧
        t.pxPrev = ⟨0, 0, 0, 255⟩ ∧ (∀ k, cacheSlot t.cache k = ⟨0, 0, 0, 0⟩) ∧ t.run = 0 ∧
        t.phase = .enc .imageHeader ∧
        { t with
          cmd := s.cmd, busy := s.busy, done := s.done, bp := s.bp, sp := s.sp, pp := s.pp
          pxPrev := s.pxPrev, cache := s.cache, run := s.run, phase := s.phase } = s)

/-- R221 step 1, R270 step 1, R38, R321: the two decode commands start at their stream's header, or raise
`E_INVALID_ARGS` where a buffer is not attached. -/
def Obligations.DecodeCommandsStart : Prop :=
  ∀ s : State, s.busy = false →
    (¬(s.bDesc.present = true ∧ s.sDesc.present = true) →
      ∃ t, exec .audDec s = .next t ∧ Raised .eInvalidArgs { s with cmd := 2 } t) ∧
    (s.bDesc.present = true → s.sDesc.present = true →
      exec .audDec s = .next
        { s with cmd := 2, busy := true, done := false, bp := 0, sp := 0, pp := 0, phase := .dec .audioHeader }) ∧
    (¬(s.bDesc.present = true ∧ s.pDesc.present = true) →
      ∃ t, exec .imgDec s = .next t ∧ Raised .eInvalidArgs { s with cmd := 4 } t) ∧
    (s.bDesc.present = true → s.pDesc.present = true →
      exec .imgDec s = .next
        { s with cmd := 4, busy := true, done := false, bp := 0, sp := 0, pp := 0, phase := .dec .imageHeader })

/-! ## Errors and reset -/

/-- R310, R300, R29: what raising an error does, for each of the ten kinds and their numbers, and which space is the
output of each command. -/
def Obligations.RaiseEffects : Prop :=
  (∀ (e : ErrKind) (s : State), Raised e s (raiseErr e s)) ∧
  [ErrKind.eInvalidArgs, .eMemory, .eEof, .eBadMagic, .eStreaming, .eTooManyChannels, .eFrameInconsistent,
    .eMalformedFrame, .eInvalidDimensions, .eInvalidTag].map ErrKind.code = [1, 2, 3, 4, 5, 6, 7, 8, 9, 10] ∧
  outputOf 1 = some .bytes ∧ outputOf 2 = some .samples ∧ outputOf 3 = some .bytes ∧ outputOf 4 = some .pixels ∧
  ∀ code : BitVec 3, code = 0 ∨ 5 ≤ code.toNat → outputOf code = none

/-- R78, R221 steps 2 and 3, R270 steps 2 and 3, R279, R280, R301, R302: input that ends too early raises `E_EOF`, a
wrong magic `E_BAD_MAGIC`. -/
def Obligations.ShortOrForeignInputRaises : Prop :=
  ∀ s : State, s.resetLine = false →
    (s.phase = .dec .audioHeader → s.bDesc.len.toNat < s.cfg.audioMinSize → ∃ t, step s = .next t ∧ Raised .eEof s t) ∧
    (s.phase = .dec .imageHeader → s.bDesc.len.toNat < s.cfg.imageMinSize → ∃ t, step s = .next t ∧ Raised .eEof s t) ∧
    (∀ bs : List Byte, s.phase = .dec .audioHeader → s.cfg.audioMinSize ≤ s.bDesc.len.toNat → readBytes s s.bp.toNat 8 = .ok bs →
      bs.take 4 ≠ [0x71, 0x6F, 0x61, 0x66] → ∃ t, step s = .next t ∧ Raised .eBadMagic s t) ∧
    (∀ bs : List Byte, s.phase = .dec .imageHeader → s.cfg.imageMinSize ≤ s.bDesc.len.toNat → readBytes s 0 14 = .ok bs →
      bs.take 4 ≠ [0x71, 0x6F, 0x69, 0x66] → ∃ t, step s = .next t ∧ Raised .eBadMagic s t) ∧
    (s.phase = .dec .frame → s.bp.toNat < s.bDesc.len.toNat → s.sp.toNat < s.stSamples.toNat →
      s.bDesc.len.toNat < s.bp.toNat + 8 → ∃ t, step s = .next t ∧ Raised .eEof s t) ∧
    (s.phase = .dec .pixel → s.run = 0 → s.bDesc.len.toNat ≤ s.bp.toNat → ∃ t, step s = .next t ∧ Raised .eEof s t) ∧
    (∀ op : Byte, s.phase = .dec .pixel → s.run = 0 → s.bp.toNat < s.bDesc.len.toNat →
      Space.read s.bytes s.bp.toNat = some op → s.bDesc.len.toNat < s.bp.toNat + opcodeLength s.cfg.image op →
      ∃ t, step s = .next t ∧ Raised .eEof s t) ∧
    (s.phase = .dec .imageFooter → s.bDesc.len.toNat < s.bp.toNat + 8 → ∃ t, step s = .next t ∧ Raised .eEof s t)

/-- R36, R37, R340, R20: reset leaves the values the rules give, at any time; a running command is abandoned; an input
buffer and the configuration are not touched. That the signal is a field a step looks at first, and that the host's
moves survive the reset (`t.host = s.host`), is the model's choice (log 12). -/
def Obligations.ResetEffects : Prop :=
  ∀ s : State, s.resetLine = true →
    ∃ t, step s = .next t ∧ t.cmd = 0 ∧ t.busy = false ∧ t.done = false ∧ t.err = 0 ∧
      t.bDesc = ⟨false, 0, 0⟩ ∧ t.sDesc = ⟨false, 0, 0⟩ ∧ t.pDesc = ⟨false, 0, 0⟩ ∧ t.phase = .idle ∧
      t.cfg = s.cfg ∧ t.host = s.host ∧
      (¬(s.busy = true ∧ outputOf s.cmd = some .bytes) → t.bytes = s.bytes) ∧
      (¬(s.busy = true ∧ outputOf s.cmd = some .samples) → t.samples = s.samples) ∧
      (¬(s.busy = true ∧ outputOf s.cmd = some .pixels) → t.pixels = s.pixels)

/-! ## Steps -/

/-- R8, R78, R99, R223, R271: a decoder's step runs the unit its place holds: the bytes there, decoded, then `exec` of
it; and nothing else around it. -/
def Obligations.StepRunsDecodedUnit : Prop :=
  ∀ (s : State) (p : Place) (i : Instr) (bs rest : List Byte), s.resetLine = false → s.phase = .dec p →
    (p = .pixel → s.run = 0) → (p = .frame → s.sp.toNat < s.stSamples.toNat) →
    (p = .imageHeader → s.cfg.imageMinSize ≤ s.bDesc.len.toNat) → (p = .audioHeader → s.cfg.audioMinSize ≤ s.bDesc.len.toNat) →
    readBytes s (if p = .imageHeader then 0 else s.bp.toNat) (unitLength i) = .ok bs →
    decode s.cfg.image (placeKind s p) bs = .ok i rest → step s = exec i s

/-- R158, R183, R185, R212, R213, R242, R252: an encoder's step runs the unit it selects at each place but a pixel. -/
def Obligations.StepRunsSelectedUnit : Prop :=
  ∀ s : State, s.resetLine = false →
    (s.phase = .enc .imageHeader → step s = exec (.qoif s.iWidth s.iHeight 4 0) s) ∧
    (s.phase = .enc .imageFooter → step s = exec .footer s) ∧
    (s.phase = .enc .audioHeader → step s = exec (.qoaf s.stSamples) s) ∧
    (∀ n ch : Nat, s.phase = .enc .frame → s.sp.toNat < s.stSamples.toNat →
      n = min 5120 (s.stSamples.toNat - s.sp.toNat) → ch = s.stChannels.toNat →
      step s = exec (.frame s.stChannels s.stRate (BitVec.ofNat 16 n)
        (BitVec.ofNat 16 (8 + 16 * ch + 8 * ((n + 19) / 20) * ch))) s) ∧
    (∀ c : Fin 8, s.phase = .enc (.hist c) →
      step s = exec (.hist (s.pred[c.val].h0.setWidth 16) (s.pred[c.val].h1.setWidth 16)
        (s.pred[c.val].h2.setWidth 16) (s.pred[c.val].h3.setWidth 16)) s) ∧
    (∀ c : Fin 8, s.phase = .enc (.wght c) →
      step s = exec (.wght (BitVec.ofInt 16 s.pred[c.val].w0) (BitVec.ofInt 16 s.pred[c.val].w1)
        (BitVec.ofInt 16 s.pred[c.val].w2) (BitVec.ofInt 16 s.pred[c.val].w3)) s) ∧
    (∀ (t : Nat) (c : Fin 8) (best : Candidate), s.phase = .enc (.slice t c) → s.search.index = 16 →
      s.search.best = some best → step s = exec (.slice best.sf (sliceCodes best.word (sliceSamples s t))) s)

/-- R35, R28, R29, R120, R335: an idle block takes the host's next move, whichever it is: the command a write of `CMD`
names runs; an operand register, a descriptor field of any space or an element of any buffer is written, and nothing
else; with no move to come nothing changes. That the moves stand in a list of the state is the model's choice
(log 11). -/
def Obligations.IdleStepTakesHostMove : Prop :=
  ∀ (s : State) (rest : List HostMove), s.resetLine = false → s.phase = .idle →
    (s.host = [] → step s = .next s) ∧
    (∀ i : Instr, kindOf i = .command →
      ∃ code : BitVec 3, encode s.cfg.image i = [code.setWidth 8] ∧
        (s.host = .writeCmd code :: rest → step s = exec i { s with host := rest })) ∧
    (∀ v, s.host = .writeChannels v :: rest → step s = .next { s with host := rest, aChannels := v }) ∧
    (∀ v, s.host = .writeRate v :: rest → step s = .next { s with host := rest, aRate := v }) ∧
    (∀ v, s.host = .writeSamples v :: rest → step s = .next { s with host := rest, aSamples := v }) ∧
    (∀ v, s.host = .writeWidth v :: rest → step s = .next { s with host := rest, iWidth := v }) ∧
    (∀ v, s.host = .writeHeight v :: rest → step s = .next { s with host := rest, iHeight := v }) ∧
    (∀ v, s.host = .setPresent .bytes v :: rest →
      step s = .next { s with host := rest, bDesc := { s.bDesc with present := v } }) ∧
    (∀ v, s.host = .setPresent .samples v :: rest →
      step s = .next { s with host := rest, sDesc := { s.sDesc with present := v } }) ∧
    (∀ v, s.host = .setPresent .pixels v :: rest →
      step s = .next { s with host := rest, pDesc := { s.pDesc with present := v } }) ∧
    (∀ v, s.host = .setLen .bytes v :: rest →
      step s = .next { s with host := rest, bDesc := { s.bDesc with len := v } }) ∧
    (∀ v, s.host = .setLen .samples v :: rest →
      step s = .next { s with host := rest, sDesc := { s.sDesc with len := v } }) ∧
    (∀ v, s.host = .setLen .pixels v :: rest →
      step s = .next { s with host := rest, pDesc := { s.pDesc with len := v } }) ∧
    (∀ v, s.host = .setCap .bytes v :: rest →
      step s = .next { s with host := rest, bDesc := { s.bDesc with cap := v } }) ∧
    (∀ v, s.host = .setCap .samples v :: rest →
      step s = .next { s with host := rest, sDesc := { s.sDesc with cap := v } }) ∧
    (∀ v, s.host = .setCap .pixels v :: rest →
      step s = .next { s with host := rest, pDesc := { s.pDesc with cap := v } }) ∧
    (∀ (a : BitVec 32) (v : Byte), s.host = .fillByte a v :: rest →
      ∃ t, step s = .next t ∧ StoredAt s.bytes t.bytes a.toNat [v] ∧ t.host = rest ∧
        { t with host := s.host, bytes := s.bytes } = s) ∧
    (∀ (k : BitVec 32) (v : BitVec 16), s.host = .fillSample k v :: rest →
      ∃ t, step s = .next t ∧ StoredAt s.samples t.samples k.toNat [v] ∧ t.host = rest ∧
        { t with host := s.host, samples := s.samples } = s) ∧
    (∀ (k : BitVec 32) (v : Pixel), s.host = .fillPixel k v :: rest →
      ∃ t, step s = .next t ∧ StoredAt s.pixels t.pixels k.toNat [v] ∧ t.host = rest ∧
        { t with host := s.host, pixels := s.pixels } = s)

/-- Log 16, R321: a unit handed to `exec` where no place holds it, and a command handed to it while the block is busy,
are refused by name (the model's choice; no step does either); a pixel with no room for it in `P` is a fault, which no
accepted header allows (log 3). -/
def Obligations.UnitsOutOfPlaceAreRefused : Prop :=
  (∀ (i : Instr) (s : State), kindOf i ≠ .command → s.phase = .idle → exec i s = .refused .unitOutOfPlace) ∧
  (∀ (i : Instr) (s : State), kindOf i = .command → s.busy = true → exec i s = .refused .commandWhileBusy) ∧
  (∀ (r g b : Byte) (s : State), s.phase = .dec .pixel → s.pDesc.cap.toNat ≤ s.pp.toNat →
    exec (.rgb r g b) s = .fault .outsideBuffer)

/-! ## Invariants and runs -/

/-- R61 to R63: every step keeps the three buffer spaces canonical and within 32-bit indices. -/
def Obligations.StepKeepsMemory : Prop :=
  ∀ s t : State, MemoryOk s → step s = .next t → MemoryOk t

/-- R20, R31, R34, R300, R321: every step keeps `BUSY`, `DONE`, `CMD`, `ERR` and the place in step with each other, and
none writes the configuration. -/
def Obligations.StepKeepsControl : Prop :=
  ∀ s t : State, step s = .next t → (ControlOk s → ControlOk t) ∧ t.cfg = s.cfg

/-- R22, R243 c, R245, R277: every step keeps the history registers within 16 bits, the weight registers within `W_BITS`
bits, and the run counter at most 61 with every cached pixel at its own hash. -/
def Obligations.StepKeepsRegisterRanges : Prop :=
  ∀ s t : State, step s = .next t →
    (HistoryOk s → HistoryOk t) ∧ (WeightsOk s → WeightsOk t) ∧
    (s.cfg.wf = true → PixelCoderOk s → PixelCoderOk t)

/-- R30, R189, R213, R224: every step keeps the cursors where the stream's geometry puts them: inside the input, inside
the capacity, and at the offset of the place the command stands at. -/
def Obligations.StepKeepsPlace : Prop :=
  ∀ s t : State, s.cfg.wf = true → PlaceOk s → step s = .next t → PlaceOk t

/-- R36, R6, R7: the state after reset meets every one of these, in the spec's default configuration and in every other
within the ranges. -/
def Obligations.ResetIsGood : Prop :=
  Good State.reset ∧ ∀ cfg : Config, cfg.wf = true → Good (State.resetWith cfg)

/-- R78, R79, R214, R225, R99: from a good state no step is refused and none leaves a buffer's bounds; the only stop is
the read of an input element that the host never filled. -/
def Obligations.GoodStepStopsOnlyAtUnfilledInput : Prop :=
  ∀ s : State, Good s → (∃ t, step s = .next t) ∨ step s = .fault .unfilledBuffer

/-- R321: a running command ends: within a bound on its steps it completes, or meets an input element that the host
never filled. -/
def Obligations.EveryCommandCompletes : Prop :=
  ∀ s : State, Good s → s.busy = true → s.resetLine = false →
    ∃ k ≤ turnsLeft s,
      (∃ t : State, Host.Core.run Sys2Proof.core k s = .next t ∧ t.busy = false ∧ t.done = true) ∨
      Host.Core.run Sys2Proof.core k s = .fault .unfilledBuffer

/-- R213, R214, R253, R354: once its body runs an audio encode cannot fail, and its stream has the length `L`; an image
encode with a capacity of 22 + 5n bytes cannot fail either, and its stream is at most that long. -/
def Obligations.EncodersFit : Prop :=
  ∀ (s t : State) (p : Place), Good s → s.resetLine = false → s.phase = .enc p → step s = .next t →
    (p.isImage = false → t.busy = false →
      t.err = 0 ∧ t.bDesc.len.toNat = streamBytes s.stSamples.toNat s.stChannels.toNat) ∧
    (p.isImage = true → 22 + 5 * (s.iWidth.toNat * s.iHeight.toNat) ≤ s.bDesc.cap.toNat → t.busy = false →
      t.err = 0 ∧ t.bDesc.len.toNat ≤ 22 + 5 * (s.iWidth.toNat * s.iHeight.toNat))

/-- R35, R61, R73: while a command runs, a decoder never writes `B`, an encoder never writes `S` or `P`, and the
operands, descriptors and host moves stay as they are until it completes. -/
def Obligations.BusyStepKeepsTheHostsSide : Prop :=
  ∀ (s t : State) (p : Place), ControlOk s → s.resetLine = false → s.phase = .dec p ∨ s.phase = .enc p →
    step s = .next t →
    t.host = s.host ∧ t.cmd = s.cmd ∧
    (s.phase = .dec p → t.bytes = s.bytes ∧ t.bDesc = s.bDesc) ∧
    (s.phase = .enc p → t.samples = s.samples ∧ t.pixels = s.pixels ∧ t.sDesc = s.sDesc ∧ t.pDesc = s.pDesc ∧
      t.aChannels = s.aChannels ∧ t.aRate = s.aRate ∧ t.aSamples = s.aSamples ∧ t.iWidth = s.iWidth ∧
      t.iHeight = s.iHeight ∧ t.iChtag = s.iChtag ∧ t.iCstag = s.iCstag) ∧
    (t.busy = true →
      t.bDesc = s.bDesc ∧ t.sDesc = s.sDesc ∧ t.pDesc = s.pDesc ∧ t.err = s.err ∧
      t.aChannels = s.aChannels ∧ t.aRate = s.aRate ∧ t.aSamples = s.aSamples ∧ t.iWidth = s.iWidth ∧
      t.iHeight = s.iHeight ∧ t.iChtag = s.iChtag ∧ t.iCstag = s.iCstag)

/-- R23 to R27, R32: the private registers are kept apart: no step of an image command depends on an audio command's, no
step of an audio command on the pixel coder's. -/
def Obligations.CommandsUseTheirOwnRegisters : Prop :=
  ∀ (s t : State) (p : Place), s.resetLine = false → s.phase = .dec p ∨ s.phase = .enc p → step s = .next t →
    (p.isImage = true → step (withoutAudio s) = .next (withoutAudio t)) ∧
    (p.isImage = false → step (withoutPixels s) = .next (withoutPixels t))
end

