-- ==== Sys2Proof/Laws/State.lean ====
section
/-! SUPPORT. The fields of the state after each named update: one lemma per field per update, true by unfolding, so that
no later proof unfolds a record update. -/

namespace Sys2Proof.Machine

/-! The write of `CMD`. -/

@[simp] theorem flagsStart_cfg (code : BitVec 3) (s : State) : (flagsStart code s).cfg = s.cfg := rfl
@[simp] theorem flagsStart_cmd (code : BitVec 3) (s : State) : (flagsStart code s).cmd = code := rfl
@[simp] theorem flagsStart_busy (code : BitVec 3) (s : State) : (flagsStart code s).busy = true := rfl
@[simp] theorem flagsStart_done (code : BitVec 3) (s : State) : (flagsStart code s).done = false := rfl
@[simp] theorem flagsStart_err (code : BitVec 3) (s : State) : (flagsStart code s).err = s.err := rfl
@[simp] theorem flagsStart_aChannels (code : BitVec 3) (s : State) : (flagsStart code s).aChannels = s.aChannels := rfl
@[simp] theorem flagsStart_aRate (code : BitVec 3) (s : State) : (flagsStart code s).aRate = s.aRate := rfl
@[simp] theorem flagsStart_aSamples (code : BitVec 3) (s : State) : (flagsStart code s).aSamples = s.aSamples := rfl
@[simp] theorem flagsStart_iWidth (code : BitVec 3) (s : State) : (flagsStart code s).iWidth = s.iWidth := rfl
@[simp] theorem flagsStart_iHeight (code : BitVec 3) (s : State) : (flagsStart code s).iHeight = s.iHeight := rfl
@[simp] theorem flagsStart_iChtag (code : BitVec 3) (s : State) : (flagsStart code s).iChtag = s.iChtag := rfl
@[simp] theorem flagsStart_iCstag (code : BitVec 3) (s : State) : (flagsStart code s).iCstag = s.iCstag := rfl
@[simp] theorem flagsStart_bDesc (code : BitVec 3) (s : State) : (flagsStart code s).bDesc = s.bDesc := rfl
@[simp] theorem flagsStart_sDesc (code : BitVec 3) (s : State) : (flagsStart code s).sDesc = s.sDesc := rfl
@[simp] theorem flagsStart_pDesc (code : BitVec 3) (s : State) : (flagsStart code s).pDesc = s.pDesc := rfl
@[simp] theorem flagsStart_bytes (code : BitVec 3) (s : State) : (flagsStart code s).bytes = s.bytes := rfl
@[simp] theorem flagsStart_samples (code : BitVec 3) (s : State) : (flagsStart code s).samples = s.samples := rfl
@[simp] theorem flagsStart_pixels (code : BitVec 3) (s : State) : (flagsStart code s).pixels = s.pixels := rfl
@[simp] theorem flagsStart_bp (code : BitVec 3) (s : State) : (flagsStart code s).bp = s.bp := rfl
@[simp] theorem flagsStart_sp (code : BitVec 3) (s : State) : (flagsStart code s).sp = s.sp := rfl
@[simp] theorem flagsStart_pp (code : BitVec 3) (s : State) : (flagsStart code s).pp = s.pp := rfl
@[simp] theorem flagsStart_pred (code : BitVec 3) (s : State) : (flagsStart code s).pred = s.pred := rfl
@[simp] theorem flagsStart_prevSf (code : BitVec 3) (s : State) : (flagsStart code s).prevSf = s.prevSf := rfl
@[simp] theorem flagsStart_pxPrev (code : BitVec 3) (s : State) : (flagsStart code s).pxPrev = s.pxPrev := rfl
@[simp] theorem flagsStart_cache (code : BitVec 3) (s : State) : (flagsStart code s).cache = s.cache := rfl
@[simp] theorem flagsStart_run (code : BitVec 3) (s : State) : (flagsStart code s).run = s.run := rfl
@[simp] theorem flagsStart_stChannels (code : BitVec 3) (s : State) : (flagsStart code s).stChannels = s.stChannels := rfl
@[simp] theorem flagsStart_stRate (code : BitVec 3) (s : State) : (flagsStart code s).stRate = s.stRate := rfl
@[simp] theorem flagsStart_stSamples (code : BitVec 3) (s : State) : (flagsStart code s).stSamples = s.stSamples := rfl
@[simp] theorem flagsStart_fChannels (code : BitVec 3) (s : State) : (flagsStart code s).fChannels = s.fChannels := rfl
@[simp] theorem flagsStart_fRate (code : BitVec 3) (s : State) : (flagsStart code s).fRate = s.fRate := rfl
@[simp] theorem flagsStart_fSamples (code : BitVec 3) (s : State) : (flagsStart code s).fSamples = s.fSamples := rfl
@[simp] theorem flagsStart_fSize (code : BitVec 3) (s : State) : (flagsStart code s).fSize = s.fSize := rfl
@[simp] theorem flagsStart_fStart (code : BitVec 3) (s : State) : (flagsStart code s).fStart = s.fStart := rfl
@[simp] theorem flagsStart_search (code : BitVec 3) (s : State) : (flagsStart code s).search = s.search := rfl
@[simp] theorem flagsStart_hdr (code : BitVec 3) (s : State) : (flagsStart code s).hdr = s.hdr := rfl
@[simp] theorem flagsStart_phase (code : BitVec 3) (s : State) : (flagsStart code s).phase = s.phase := rfl
@[simp] theorem flagsStart_host (code : BitVec 3) (s : State) : (flagsStart code s).host = s.host := rfl
@[simp] theorem flagsStart_resetLine (code : BitVec 3) (s : State) : (flagsStart code s).resetLine = s.resetLine := rfl
@[simp] theorem flagsStart_freeCount (code : BitVec 3) (s : State) : (flagsStart code s).freeCount = s.freeCount := rfl

/-! Completion. -/

@[simp] theorem flagsEnd_cfg (e : ErrKind) (s : State) : (flagsEnd e s).cfg = s.cfg := rfl
@[simp] theorem flagsEnd_cmd (e : ErrKind) (s : State) : (flagsEnd e s).cmd = s.cmd := rfl
@[simp] theorem flagsEnd_busy (e : ErrKind) (s : State) : (flagsEnd e s).busy = false := rfl
@[simp] theorem flagsEnd_done (e : ErrKind) (s : State) : (flagsEnd e s).done = true := rfl
@[simp] theorem flagsEnd_err (e : ErrKind) (s : State) : (flagsEnd e s).err = e.code := rfl
@[simp] theorem flagsEnd_aChannels (e : ErrKind) (s : State) : (flagsEnd e s).aChannels = s.aChannels := rfl
@[simp] theorem flagsEnd_aRate (e : ErrKind) (s : State) : (flagsEnd e s).aRate = s.aRate := rfl
@[simp] theorem flagsEnd_aSamples (e : ErrKind) (s : State) : (flagsEnd e s).aSamples = s.aSamples := rfl
@[simp] theorem flagsEnd_iWidth (e : ErrKind) (s : State) : (flagsEnd e s).iWidth = s.iWidth := rfl
@[simp] theorem flagsEnd_iHeight (e : ErrKind) (s : State) : (flagsEnd e s).iHeight = s.iHeight := rfl
@[simp] theorem flagsEnd_iChtag (e : ErrKind) (s : State) : (flagsEnd e s).iChtag = s.iChtag := rfl
@[simp] theorem flagsEnd_iCstag (e : ErrKind) (s : State) : (flagsEnd e s).iCstag = s.iCstag := rfl
@[simp] theorem flagsEnd_bDesc (e : ErrKind) (s : State) : (flagsEnd e s).bDesc = s.bDesc := rfl
@[simp] theorem flagsEnd_sDesc (e : ErrKind) (s : State) : (flagsEnd e s).sDesc = s.sDesc := rfl
@[simp] theorem flagsEnd_pDesc (e : ErrKind) (s : State) : (flagsEnd e s).pDesc = s.pDesc := rfl
@[simp] theorem flagsEnd_bytes (e : ErrKind) (s : State) : (flagsEnd e s).bytes = s.bytes := rfl
@[simp] theorem flagsEnd_samples (e : ErrKind) (s : State) : (flagsEnd e s).samples = s.samples := rfl
@[simp] theorem flagsEnd_pixels (e : ErrKind) (s : State) : (flagsEnd e s).pixels = s.pixels := rfl
@[simp] theorem flagsEnd_bp (e : ErrKind) (s : State) : (flagsEnd e s).bp = s.bp := rfl
@[simp] theorem flagsEnd_sp (e : ErrKind) (s : State) : (flagsEnd e s).sp = s.sp := rfl
@[simp] theorem flagsEnd_pp (e : ErrKind) (s : State) : (flagsEnd e s).pp = s.pp := rfl
@[simp] theorem flagsEnd_pred (e : ErrKind) (s : State) : (flagsEnd e s).pred = s.pred := rfl
@[simp] theorem flagsEnd_prevSf (e : ErrKind) (s : State) : (flagsEnd e s).prevSf = s.prevSf := rfl
@[simp] theorem flagsEnd_pxPrev (e : ErrKind) (s : State) : (flagsEnd e s).pxPrev = s.pxPrev := rfl
@[simp] theorem flagsEnd_cache (e : ErrKind) (s : State) : (flagsEnd e s).cache = s.cache := rfl
@[simp] theorem flagsEnd_run (e : ErrKind) (s : State) : (flagsEnd e s).run = s.run := rfl
@[simp] theorem flagsEnd_stChannels (e : ErrKind) (s : State) : (flagsEnd e s).stChannels = s.stChannels := rfl
@[simp] theorem flagsEnd_stRate (e : ErrKind) (s : State) : (flagsEnd e s).stRate = s.stRate := rfl
@[simp] theorem flagsEnd_stSamples (e : ErrKind) (s : State) : (flagsEnd e s).stSamples = s.stSamples := rfl
@[simp] theorem flagsEnd_fChannels (e : ErrKind) (s : State) : (flagsEnd e s).fChannels = s.fChannels := rfl
@[simp] theorem flagsEnd_fRate (e : ErrKind) (s : State) : (flagsEnd e s).fRate = s.fRate := rfl
@[simp] theorem flagsEnd_fSamples (e : ErrKind) (s : State) : (flagsEnd e s).fSamples = s.fSamples := rfl
@[simp] theorem flagsEnd_fSize (e : ErrKind) (s : State) : (flagsEnd e s).fSize = s.fSize := rfl
@[simp] theorem flagsEnd_fStart (e : ErrKind) (s : State) : (flagsEnd e s).fStart = s.fStart := rfl
@[simp] theorem flagsEnd_search (e : ErrKind) (s : State) : (flagsEnd e s).search = s.search := rfl
@[simp] theorem flagsEnd_hdr (e : ErrKind) (s : State) : (flagsEnd e s).hdr = s.hdr := rfl
@[simp] theorem flagsEnd_phase (e : ErrKind) (s : State) : (flagsEnd e s).phase = .idle := rfl
@[simp] theorem flagsEnd_host (e : ErrKind) (s : State) : (flagsEnd e s).host = s.host := rfl
@[simp] theorem flagsEnd_resetLine (e : ErrKind) (s : State) : (flagsEnd e s).resetLine = s.resetLine := rfl
@[simp] theorem flagsEnd_freeCount (e : ErrKind) (s : State) : (flagsEnd e s).freeCount = s.freeCount := rfl

/-! The start of a command. -/

@[simp] theorem beginCommand_cfg (code : BitVec 3) (s : State) : (beginCommand code s).cfg = s.cfg := rfl
@[simp] theorem beginCommand_cmd (code : BitVec 3) (s : State) : (beginCommand code s).cmd = code := rfl
@[simp] theorem beginCommand_busy (code : BitVec 3) (s : State) : (beginCommand code s).busy = true := rfl
@[simp] theorem beginCommand_done (code : BitVec 3) (s : State) : (beginCommand code s).done = false := rfl
@[simp] theorem beginCommand_err (code : BitVec 3) (s : State) : (beginCommand code s).err = s.err := rfl
@[simp] theorem beginCommand_aChannels (code : BitVec 3) (s : State) : (beginCommand code s).aChannels = s.aChannels := rfl
@[simp] theorem beginCommand_aRate (code : BitVec 3) (s : State) : (beginCommand code s).aRate = s.aRate := rfl
@[simp] theorem beginCommand_aSamples (code : BitVec 3) (s : State) : (beginCommand code s).aSamples = s.aSamples := rfl
@[simp] theorem beginCommand_iWidth (code : BitVec 3) (s : State) : (beginCommand code s).iWidth = s.iWidth := rfl
@[simp] theorem beginCommand_iHeight (code : BitVec 3) (s : State) : (beginCommand code s).iHeight = s.iHeight := rfl
@[simp] theorem beginCommand_iChtag (code : BitVec 3) (s : State) : (beginCommand code s).iChtag = s.iChtag := rfl
@[simp] theorem beginCommand_iCstag (code : BitVec 3) (s : State) : (beginCommand code s).iCstag = s.iCstag := rfl
@[simp] theorem beginCommand_bDesc (code : BitVec 3) (s : State) : (beginCommand code s).bDesc = s.bDesc := rfl
@[simp] theorem beginCommand_sDesc (code : BitVec 3) (s : State) : (beginCommand code s).sDesc = s.sDesc := rfl
@[simp] theorem beginCommand_pDesc (code : BitVec 3) (s : State) : (beginCommand code s).pDesc = s.pDesc := rfl
@[simp] theorem beginCommand_bytes (code : BitVec 3) (s : State) : (beginCommand code s).bytes = s.bytes := rfl
@[simp] theorem beginCommand_samples (code : BitVec 3) (s : State) : (beginCommand code s).samples = s.samples := rfl
@[simp] theorem beginCommand_pixels (code : BitVec 3) (s : State) : (beginCommand code s).pixels = s.pixels := rfl
@[simp] theorem beginCommand_bp (code : BitVec 3) (s : State) : (beginCommand code s).bp = 0 := rfl
@[simp] theorem beginCommand_sp (code : BitVec 3) (s : State) : (beginCommand code s).sp = 0 := rfl
@[simp] theorem beginCommand_pp (code : BitVec 3) (s : State) : (beginCommand code s).pp = 0 := rfl
@[simp] theorem beginCommand_pred (code : BitVec 3) (s : State) : (beginCommand code s).pred = s.pred := rfl
@[simp] theorem beginCommand_prevSf (code : BitVec 3) (s : State) : (beginCommand code s).prevSf = s.prevSf := rfl
@[simp] theorem beginCommand_pxPrev (code : BitVec 3) (s : State) : (beginCommand code s).pxPrev = s.pxPrev := rfl
@[simp] theorem beginCommand_cache (code : BitVec 3) (s : State) : (beginCommand code s).cache = s.cache := rfl
@[simp] theorem beginCommand_run (code : BitVec 3) (s : State) : (beginCommand code s).run = s.run := rfl
@[simp] theorem beginCommand_stChannels (code : BitVec 3) (s : State) : (beginCommand code s).stChannels = s.stChannels := rfl
@[simp] theorem beginCommand_stRate (code : BitVec 3) (s : State) : (beginCommand code s).stRate = s.stRate := rfl
@[simp] theorem beginCommand_stSamples (code : BitVec 3) (s : State) : (beginCommand code s).stSamples = s.stSamples := rfl
@[simp] theorem beginCommand_fChannels (code : BitVec 3) (s : State) : (beginCommand code s).fChannels = s.fChannels := rfl
@[simp] theorem beginCommand_fRate (code : BitVec 3) (s : State) : (beginCommand code s).fRate = s.fRate := rfl
@[simp] theorem beginCommand_fSamples (code : BitVec 3) (s : State) : (beginCommand code s).fSamples = s.fSamples := rfl
@[simp] theorem beginCommand_fSize (code : BitVec 3) (s : State) : (beginCommand code s).fSize = s.fSize := rfl
@[simp] theorem beginCommand_fStart (code : BitVec 3) (s : State) : (beginCommand code s).fStart = s.fStart := rfl
@[simp] theorem beginCommand_search (code : BitVec 3) (s : State) : (beginCommand code s).search = s.search := rfl
@[simp] theorem beginCommand_hdr (code : BitVec 3) (s : State) : (beginCommand code s).hdr = s.hdr := rfl
@[simp] theorem beginCommand_phase (code : BitVec 3) (s : State) : (beginCommand code s).phase = s.phase := rfl
@[simp] theorem beginCommand_host (code : BitVec 3) (s : State) : (beginCommand code s).host = s.host := rfl
@[simp] theorem beginCommand_resetLine (code : BitVec 3) (s : State) : (beginCommand code s).resetLine = s.resetLine := rfl
@[simp] theorem beginCommand_freeCount (code : BitVec 3) (s : State) : (beginCommand code s).freeCount = s.freeCount := rfl

/-! A successful completion. -/

@[simp] theorem completeOk_cfg (s : State) : (completeOk s).cfg = s.cfg := rfl
@[simp] theorem completeOk_cmd (s : State) : (completeOk s).cmd = s.cmd := rfl
@[simp] theorem completeOk_busy (s : State) : (completeOk s).busy = false := rfl
@[simp] theorem completeOk_done (s : State) : (completeOk s).done = true := rfl
@[simp] theorem completeOk_err (s : State) : (completeOk s).err = 0 := rfl
@[simp] theorem completeOk_aChannels (s : State) : (completeOk s).aChannels = s.aChannels := rfl
@[simp] theorem completeOk_aRate (s : State) : (completeOk s).aRate = s.aRate := rfl
@[simp] theorem completeOk_aSamples (s : State) : (completeOk s).aSamples = s.aSamples := rfl
@[simp] theorem completeOk_iWidth (s : State) : (completeOk s).iWidth = s.iWidth := rfl
@[simp] theorem completeOk_iHeight (s : State) : (completeOk s).iHeight = s.iHeight := rfl
@[simp] theorem completeOk_iChtag (s : State) : (completeOk s).iChtag = s.iChtag := rfl
@[simp] theorem completeOk_iCstag (s : State) : (completeOk s).iCstag = s.iCstag := rfl
@[simp] theorem completeOk_bDesc (s : State) : (completeOk s).bDesc = s.bDesc := rfl
@[simp] theorem completeOk_sDesc (s : State) : (completeOk s).sDesc = s.sDesc := rfl
@[simp] theorem completeOk_pDesc (s : State) : (completeOk s).pDesc = s.pDesc := rfl
@[simp] theorem completeOk_bytes (s : State) : (completeOk s).bytes = s.bytes := rfl
@[simp] theorem completeOk_samples (s : State) : (completeOk s).samples = s.samples := rfl
@[simp] theorem completeOk_pixels (s : State) : (completeOk s).pixels = s.pixels := rfl
@[simp] theorem completeOk_bp (s : State) : (completeOk s).bp = s.bp := rfl
@[simp] theorem completeOk_sp (s : State) : (completeOk s).sp = s.sp := rfl
@[simp] theorem completeOk_pp (s : State) : (completeOk s).pp = s.pp := rfl
@[simp] theorem completeOk_pred (s : State) : (completeOk s).pred = s.pred := rfl
@[simp] theorem completeOk_prevSf (s : State) : (completeOk s).prevSf = s.prevSf := rfl
@[simp] theorem completeOk_pxPrev (s : State) : (completeOk s).pxPrev = s.pxPrev := rfl
@[simp] theorem completeOk_cache (s : State) : (completeOk s).cache = s.cache := rfl
@[simp] theorem completeOk_run (s : State) : (completeOk s).run = s.run := rfl
@[simp] theorem completeOk_stChannels (s : State) : (completeOk s).stChannels = s.stChannels := rfl
@[simp] theorem completeOk_stRate (s : State) : (completeOk s).stRate = s.stRate := rfl
@[simp] theorem completeOk_stSamples (s : State) : (completeOk s).stSamples = s.stSamples := rfl
@[simp] theorem completeOk_fChannels (s : State) : (completeOk s).fChannels = s.fChannels := rfl
@[simp] theorem completeOk_fRate (s : State) : (completeOk s).fRate = s.fRate := rfl
@[simp] theorem completeOk_fSamples (s : State) : (completeOk s).fSamples = s.fSamples := rfl
@[simp] theorem completeOk_fSize (s : State) : (completeOk s).fSize = s.fSize := rfl
@[simp] theorem completeOk_fStart (s : State) : (completeOk s).fStart = s.fStart := rfl
@[simp] theorem completeOk_search (s : State) : (completeOk s).search = s.search := rfl
@[simp] theorem completeOk_hdr (s : State) : (completeOk s).hdr = s.hdr := rfl
@[simp] theorem completeOk_phase (s : State) : (completeOk s).phase = .idle := rfl
@[simp] theorem completeOk_host (s : State) : (completeOk s).host = s.host := rfl
@[simp] theorem completeOk_resetLine (s : State) : (completeOk s).resetLine = s.resetLine := rfl
@[simp] theorem completeOk_freeCount (s : State) : (completeOk s).freeCount = s.freeCount := rfl

/-! An error completion. -/

@[simp] theorem raiseErr_cfg (e : ErrKind) (s : State) : (raiseErr e s).cfg = s.cfg := rfl
@[simp] theorem raiseErr_cmd (e : ErrKind) (s : State) : (raiseErr e s).cmd = s.cmd := rfl
@[simp] theorem raiseErr_busy (e : ErrKind) (s : State) : (raiseErr e s).busy = false := rfl
@[simp] theorem raiseErr_done (e : ErrKind) (s : State) : (raiseErr e s).done = true := rfl
@[simp] theorem raiseErr_err (e : ErrKind) (s : State) : (raiseErr e s).err = e.code := rfl
@[simp] theorem raiseErr_aChannels (e : ErrKind) (s : State) : (raiseErr e s).aChannels = if outputOf s.cmd = some .samples then Config.freeValue 8 s.freeCount else s.aChannels := rfl
@[simp] theorem raiseErr_aRate (e : ErrKind) (s : State) : (raiseErr e s).aRate = if outputOf s.cmd = some .samples then Config.freeValue 24 (s.freeCount + 1) else s.aRate := rfl
@[simp] theorem raiseErr_aSamples (e : ErrKind) (s : State) : (raiseErr e s).aSamples = if outputOf s.cmd = some .samples then Config.freeValue 32 (s.freeCount + 2) else s.aSamples := rfl
@[simp] theorem raiseErr_iWidth (e : ErrKind) (s : State) : (raiseErr e s).iWidth = if outputOf s.cmd = some .pixels then Config.freeValue 32 s.freeCount else s.iWidth := rfl
@[simp] theorem raiseErr_iHeight (e : ErrKind) (s : State) : (raiseErr e s).iHeight = if outputOf s.cmd = some .pixels then Config.freeValue 32 (s.freeCount + 1) else s.iHeight := rfl
@[simp] theorem raiseErr_iChtag (e : ErrKind) (s : State) : (raiseErr e s).iChtag = if outputOf s.cmd = some .pixels then Config.freeValue 8 (s.freeCount + 2) else s.iChtag := rfl
@[simp] theorem raiseErr_iCstag (e : ErrKind) (s : State) : (raiseErr e s).iCstag = if outputOf s.cmd = some .pixels then Config.freeValue 8 (s.freeCount + 3) else s.iCstag := rfl
@[simp] theorem raiseErr_bDesc (e : ErrKind) (s : State) : (raiseErr e s).bDesc = if outputOf s.cmd = some .bytes then Descriptor.emptied s.bDesc else s.bDesc := rfl
@[simp] theorem raiseErr_sDesc (e : ErrKind) (s : State) : (raiseErr e s).sDesc = if outputOf s.cmd = some .samples then Descriptor.emptied s.sDesc else s.sDesc := rfl
@[simp] theorem raiseErr_pDesc (e : ErrKind) (s : State) : (raiseErr e s).pDesc = if outputOf s.cmd = some .pixels then Descriptor.emptied s.pDesc else s.pDesc := rfl
@[simp] theorem raiseErr_bytes (e : ErrKind) (s : State) : (raiseErr e s).bytes = if outputOf s.cmd = some .bytes then [] else s.bytes := rfl
@[simp] theorem raiseErr_samples (e : ErrKind) (s : State) : (raiseErr e s).samples = if outputOf s.cmd = some .samples then [] else s.samples := rfl
@[simp] theorem raiseErr_pixels (e : ErrKind) (s : State) : (raiseErr e s).pixels = if outputOf s.cmd = some .pixels then [] else s.pixels := rfl
@[simp] theorem raiseErr_bp (e : ErrKind) (s : State) : (raiseErr e s).bp = s.bp := rfl
@[simp] theorem raiseErr_sp (e : ErrKind) (s : State) : (raiseErr e s).sp = s.sp := rfl
@[simp] theorem raiseErr_pp (e : ErrKind) (s : State) : (raiseErr e s).pp = s.pp := rfl
@[simp] theorem raiseErr_pred (e : ErrKind) (s : State) : (raiseErr e s).pred = s.pred := rfl
@[simp] theorem raiseErr_prevSf (e : ErrKind) (s : State) : (raiseErr e s).prevSf = s.prevSf := rfl
@[simp] theorem raiseErr_pxPrev (e : ErrKind) (s : State) : (raiseErr e s).pxPrev = s.pxPrev := rfl
@[simp] theorem raiseErr_cache (e : ErrKind) (s : State) : (raiseErr e s).cache = s.cache := rfl
@[simp] theorem raiseErr_run (e : ErrKind) (s : State) : (raiseErr e s).run = s.run := rfl
@[simp] theorem raiseErr_stChannels (e : ErrKind) (s : State) : (raiseErr e s).stChannels = s.stChannels := rfl
@[simp] theorem raiseErr_stRate (e : ErrKind) (s : State) : (raiseErr e s).stRate = s.stRate := rfl
@[simp] theorem raiseErr_stSamples (e : ErrKind) (s : State) : (raiseErr e s).stSamples = s.stSamples := rfl
@[simp] theorem raiseErr_fChannels (e : ErrKind) (s : State) : (raiseErr e s).fChannels = s.fChannels := rfl
@[simp] theorem raiseErr_fRate (e : ErrKind) (s : State) : (raiseErr e s).fRate = s.fRate := rfl
@[simp] theorem raiseErr_fSamples (e : ErrKind) (s : State) : (raiseErr e s).fSamples = s.fSamples := rfl
@[simp] theorem raiseErr_fSize (e : ErrKind) (s : State) : (raiseErr e s).fSize = s.fSize := rfl
@[simp] theorem raiseErr_fStart (e : ErrKind) (s : State) : (raiseErr e s).fStart = s.fStart := rfl
@[simp] theorem raiseErr_search (e : ErrKind) (s : State) : (raiseErr e s).search = s.search := rfl
@[simp] theorem raiseErr_hdr (e : ErrKind) (s : State) : (raiseErr e s).hdr = s.hdr := rfl
@[simp] theorem raiseErr_phase (e : ErrKind) (s : State) : (raiseErr e s).phase = .idle := rfl
@[simp] theorem raiseErr_host (e : ErrKind) (s : State) : (raiseErr e s).host = s.host := rfl
@[simp] theorem raiseErr_resetLine (e : ErrKind) (s : State) : (raiseErr e s).resetLine = s.resetLine := rfl
@[simp] theorem raiseErr_freeCount (e : ErrKind) (s : State) : (raiseErr e s).freeCount = if outputOf s.cmd = some .samples ∨ outputOf s.cmd = some .pixels then s.freeCount + 4 else s.freeCount := rfl

/-! Emitted bytes. -/

@[simp] theorem emitted_cfg (bs : List Byte) (s : State) : (emitted bs s).cfg = s.cfg := rfl
@[simp] theorem emitted_cmd (bs : List Byte) (s : State) : (emitted bs s).cmd = s.cmd := rfl
@[simp] theorem emitted_busy (bs : List Byte) (s : State) : (emitted bs s).busy = s.busy := rfl
@[simp] theorem emitted_done (bs : List Byte) (s : State) : (emitted bs s).done = s.done := rfl
@[simp] theorem emitted_err (bs : List Byte) (s : State) : (emitted bs s).err = s.err := rfl
@[simp] theorem emitted_aChannels (bs : List Byte) (s : State) : (emitted bs s).aChannels = s.aChannels := rfl
@[simp] theorem emitted_aRate (bs : List Byte) (s : State) : (emitted bs s).aRate = s.aRate := rfl
@[simp] theorem emitted_aSamples (bs : List Byte) (s : State) : (emitted bs s).aSamples = s.aSamples := rfl
@[simp] theorem emitted_iWidth (bs : List Byte) (s : State) : (emitted bs s).iWidth = s.iWidth := rfl
@[simp] theorem emitted_iHeight (bs : List Byte) (s : State) : (emitted bs s).iHeight = s.iHeight := rfl
@[simp] theorem emitted_iChtag (bs : List Byte) (s : State) : (emitted bs s).iChtag = s.iChtag := rfl
@[simp] theorem emitted_iCstag (bs : List Byte) (s : State) : (emitted bs s).iCstag = s.iCstag := rfl
@[simp] theorem emitted_bDesc (bs : List Byte) (s : State) : (emitted bs s).bDesc = s.bDesc := rfl
@[simp] theorem emitted_sDesc (bs : List Byte) (s : State) : (emitted bs s).sDesc = s.sDesc := rfl
@[simp] theorem emitted_pDesc (bs : List Byte) (s : State) : (emitted bs s).pDesc = s.pDesc := rfl
@[simp] theorem emitted_bytes (bs : List Byte) (s : State) : (emitted bs s).bytes = Space.writeAll s.bytes (placed s.bp.toNat bs) := rfl
@[simp] theorem emitted_samples (bs : List Byte) (s : State) : (emitted bs s).samples = s.samples := rfl
@[simp] theorem emitted_pixels (bs : List Byte) (s : State) : (emitted bs s).pixels = s.pixels := rfl
@[simp] theorem emitted_bp (bs : List Byte) (s : State) : (emitted bs s).bp = s.bp + BitVec.ofNat 32 bs.length := rfl
@[simp] theorem emitted_sp (bs : List Byte) (s : State) : (emitted bs s).sp = s.sp := rfl
@[simp] theorem emitted_pp (bs : List Byte) (s : State) : (emitted bs s).pp = s.pp := rfl
@[simp] theorem emitted_pred (bs : List Byte) (s : State) : (emitted bs s).pred = s.pred := rfl
@[simp] theorem emitted_prevSf (bs : List Byte) (s : State) : (emitted bs s).prevSf = s.prevSf := rfl
@[simp] theorem emitted_pxPrev (bs : List Byte) (s : State) : (emitted bs s).pxPrev = s.pxPrev := rfl
@[simp] theorem emitted_cache (bs : List Byte) (s : State) : (emitted bs s).cache = s.cache := rfl
@[simp] theorem emitted_run (bs : List Byte) (s : State) : (emitted bs s).run = s.run := rfl
@[simp] theorem emitted_stChannels (bs : List Byte) (s : State) : (emitted bs s).stChannels = s.stChannels := rfl
@[simp] theorem emitted_stRate (bs : List Byte) (s : State) : (emitted bs s).stRate = s.stRate := rfl
@[simp] theorem emitted_stSamples (bs : List Byte) (s : State) : (emitted bs s).stSamples = s.stSamples := rfl
@[simp] theorem emitted_fChannels (bs : List Byte) (s : State) : (emitted bs s).fChannels = s.fChannels := rfl
@[simp] theorem emitted_fRate (bs : List Byte) (s : State) : (emitted bs s).fRate = s.fRate := rfl
@[simp] theorem emitted_fSamples (bs : List Byte) (s : State) : (emitted bs s).fSamples = s.fSamples := rfl
@[simp] theorem emitted_fSize (bs : List Byte) (s : State) : (emitted bs s).fSize = s.fSize := rfl
@[simp] theorem emitted_fStart (bs : List Byte) (s : State) : (emitted bs s).fStart = s.fStart := rfl
@[simp] theorem emitted_search (bs : List Byte) (s : State) : (emitted bs s).search = s.search := rfl
@[simp] theorem emitted_hdr (bs : List Byte) (s : State) : (emitted bs s).hdr = s.hdr := rfl
@[simp] theorem emitted_phase (bs : List Byte) (s : State) : (emitted bs s).phase = s.phase := rfl
@[simp] theorem emitted_host (bs : List Byte) (s : State) : (emitted bs s).host = s.host := rfl
@[simp] theorem emitted_resetLine (bs : List Byte) (s : State) : (emitted bs s).resetLine = s.resetLine := rfl
@[simp] theorem emitted_freeCount (bs : List Byte) (s : State) : (emitted bs s).freeCount = s.freeCount := rfl

/-! A channel's registers. -/

@[simp] theorem setPredictor_cfg (s : State) (c : Fin 8) (st : Predictor) : (setPredictor s c st).cfg = s.cfg := rfl
@[simp] theorem setPredictor_cmd (s : State) (c : Fin 8) (st : Predictor) : (setPredictor s c st).cmd = s.cmd := rfl
@[simp] theorem setPredictor_busy (s : State) (c : Fin 8) (st : Predictor) : (setPredictor s c st).busy = s.busy := rfl
@[simp] theorem setPredictor_done (s : State) (c : Fin 8) (st : Predictor) : (setPredictor s c st).done = s.done := rfl
@[simp] theorem setPredictor_err (s : State) (c : Fin 8) (st : Predictor) : (setPredictor s c st).err = s.err := rfl
@[simp] theorem setPredictor_aChannels (s : State) (c : Fin 8) (st : Predictor) : (setPredictor s c st).aChannels = s.aChannels := rfl
@[simp] theorem setPredictor_aRate (s : State) (c : Fin 8) (st : Predictor) : (setPredictor s c st).aRate = s.aRate := rfl
@[simp] theorem setPredictor_aSamples (s : State) (c : Fin 8) (st : Predictor) : (setPredictor s c st).aSamples = s.aSamples := rfl
@[simp] theorem setPredictor_iWidth (s : State) (c : Fin 8) (st : Predictor) : (setPredictor s c st).iWidth = s.iWidth := rfl
@[simp] theorem setPredictor_iHeight (s : State) (c : Fin 8) (st : Predictor) : (setPredictor s c st).iHeight = s.iHeight := rfl
@[simp] theorem setPredictor_iChtag (s : State) (c : Fin 8) (st : Predictor) : (setPredictor s c st).iChtag = s.iChtag := rfl
@[simp] theorem setPredictor_iCstag (s : State) (c : Fin 8) (st : Predictor) : (setPredictor s c st).iCstag = s.iCstag := rfl
@[simp] theorem setPredictor_bDesc (s : State) (c : Fin 8) (st : Predictor) : (setPredictor s c st).bDesc = s.bDesc := rfl
@[simp] theorem setPredictor_sDesc (s : State) (c : Fin 8) (st : Predictor) : (setPredictor s c st).sDesc = s.sDesc := rfl
@[simp] theorem setPredictor_pDesc (s : State) (c : Fin 8) (st : Predictor) : (setPredictor s c st).pDesc = s.pDesc := rfl
@[simp] theorem setPredictor_bytes (s : State) (c : Fin 8) (st : Predictor) : (setPredictor s c st).bytes = s.bytes := rfl
@[simp] theorem setPredictor_samples (s : State) (c : Fin 8) (st : Predictor) : (setPredictor s c st).samples = s.samples := rfl
@[simp] theorem setPredictor_pixels (s : State) (c : Fin 8) (st : Predictor) : (setPredictor s c st).pixels = s.pixels := rfl
@[simp] theorem setPredictor_bp (s : State) (c : Fin 8) (st : Predictor) : (setPredictor s c st).bp = s.bp := rfl
@[simp] theorem setPredictor_sp (s : State) (c : Fin 8) (st : Predictor) : (setPredictor s c st).sp = s.sp := rfl
@[simp] theorem setPredictor_pp (s : State) (c : Fin 8) (st : Predictor) : (setPredictor s c st).pp = s.pp := rfl
@[simp] theorem setPredictor_pred (s : State) (c : Fin 8) (st : Predictor) : (setPredictor s c st).pred = s.pred.set c.val st c.isLt := rfl
@[simp] theorem setPredictor_prevSf (s : State) (c : Fin 8) (st : Predictor) : (setPredictor s c st).prevSf = s.prevSf := rfl
@[simp] theorem setPredictor_pxPrev (s : State) (c : Fin 8) (st : Predictor) : (setPredictor s c st).pxPrev = s.pxPrev := rfl
@[simp] theorem setPredictor_cache (s : State) (c : Fin 8) (st : Predictor) : (setPredictor s c st).cache = s.cache := rfl
@[simp] theorem setPredictor_run (s : State) (c : Fin 8) (st : Predictor) : (setPredictor s c st).run = s.run := rfl
@[simp] theorem setPredictor_stChannels (s : State) (c : Fin 8) (st : Predictor) : (setPredictor s c st).stChannels = s.stChannels := rfl
@[simp] theorem setPredictor_stRate (s : State) (c : Fin 8) (st : Predictor) : (setPredictor s c st).stRate = s.stRate := rfl
@[simp] theorem setPredictor_stSamples (s : State) (c : Fin 8) (st : Predictor) : (setPredictor s c st).stSamples = s.stSamples := rfl
@[simp] theorem setPredictor_fChannels (s : State) (c : Fin 8) (st : Predictor) : (setPredictor s c st).fChannels = s.fChannels := rfl
@[simp] theorem setPredictor_fRate (s : State) (c : Fin 8) (st : Predictor) : (setPredictor s c st).fRate = s.fRate := rfl
@[simp] theorem setPredictor_fSamples (s : State) (c : Fin 8) (st : Predictor) : (setPredictor s c st).fSamples = s.fSamples := rfl
@[simp] theorem setPredictor_fSize (s : State) (c : Fin 8) (st : Predictor) : (setPredictor s c st).fSize = s.fSize := rfl
@[simp] theorem setPredictor_fStart (s : State) (c : Fin 8) (st : Predictor) : (setPredictor s c st).fStart = s.fStart := rfl
@[simp] theorem setPredictor_search (s : State) (c : Fin 8) (st : Predictor) : (setPredictor s c st).search = s.search := rfl
@[simp] theorem setPredictor_hdr (s : State) (c : Fin 8) (st : Predictor) : (setPredictor s c st).hdr = s.hdr := rfl
@[simp] theorem setPredictor_phase (s : State) (c : Fin 8) (st : Predictor) : (setPredictor s c st).phase = s.phase := rfl
@[simp] theorem setPredictor_host (s : State) (c : Fin 8) (st : Predictor) : (setPredictor s c st).host = s.host := rfl
@[simp] theorem setPredictor_resetLine (s : State) (c : Fin 8) (st : Predictor) : (setPredictor s c st).resetLine = s.resetLine := rfl
@[simp] theorem setPredictor_freeCount (s : State) (c : Fin 8) (st : Predictor) : (setPredictor s c st).freeCount = s.freeCount := rfl

/-! The initialised channels. -/

@[simp] theorem initChannels_cfg (s : State) (ch : Nat) : (initChannels s ch).cfg = s.cfg := rfl
@[simp] theorem initChannels_cmd (s : State) (ch : Nat) : (initChannels s ch).cmd = s.cmd := rfl
@[simp] theorem initChannels_busy (s : State) (ch : Nat) : (initChannels s ch).busy = s.busy := rfl
@[simp] theorem initChannels_done (s : State) (ch : Nat) : (initChannels s ch).done = s.done := rfl
@[simp] theorem initChannels_err (s : State) (ch : Nat) : (initChannels s ch).err = s.err := rfl
@[simp] theorem initChannels_aChannels (s : State) (ch : Nat) : (initChannels s ch).aChannels = s.aChannels := rfl
@[simp] theorem initChannels_aRate (s : State) (ch : Nat) : (initChannels s ch).aRate = s.aRate := rfl
@[simp] theorem initChannels_aSamples (s : State) (ch : Nat) : (initChannels s ch).aSamples = s.aSamples := rfl
@[simp] theorem initChannels_iWidth (s : State) (ch : Nat) : (initChannels s ch).iWidth = s.iWidth := rfl
@[simp] theorem initChannels_iHeight (s : State) (ch : Nat) : (initChannels s ch).iHeight = s.iHeight := rfl
@[simp] theorem initChannels_iChtag (s : State) (ch : Nat) : (initChannels s ch).iChtag = s.iChtag := rfl
@[simp] theorem initChannels_iCstag (s : State) (ch : Nat) : (initChannels s ch).iCstag = s.iCstag := rfl
@[simp] theorem initChannels_bDesc (s : State) (ch : Nat) : (initChannels s ch).bDesc = s.bDesc := rfl
@[simp] theorem initChannels_sDesc (s : State) (ch : Nat) : (initChannels s ch).sDesc = s.sDesc := rfl
@[simp] theorem initChannels_pDesc (s : State) (ch : Nat) : (initChannels s ch).pDesc = s.pDesc := rfl
@[simp] theorem initChannels_bytes (s : State) (ch : Nat) : (initChannels s ch).bytes = s.bytes := rfl
@[simp] theorem initChannels_samples (s : State) (ch : Nat) : (initChannels s ch).samples = s.samples := rfl
@[simp] theorem initChannels_pixels (s : State) (ch : Nat) : (initChannels s ch).pixels = s.pixels := rfl
@[simp] theorem initChannels_bp (s : State) (ch : Nat) : (initChannels s ch).bp = s.bp := rfl
@[simp] theorem initChannels_sp (s : State) (ch : Nat) : (initChannels s ch).sp = s.sp := rfl
@[simp] theorem initChannels_pp (s : State) (ch : Nat) : (initChannels s ch).pp = s.pp := rfl
@[simp] theorem initChannels_pred (s : State) (ch : Nat) : (initChannels s ch).pred = Vector.ofFn (fun c : Fin 8 => if c.val < ch then initPredictor s.cfg else s.pred[c.val]) := rfl
@[simp] theorem initChannels_prevSf (s : State) (ch : Nat) : (initChannels s ch).prevSf = Vector.ofFn (fun c : Fin 8 => if c.val < ch then s.cfg.initSf else s.prevSf[c.val]) := rfl
@[simp] theorem initChannels_pxPrev (s : State) (ch : Nat) : (initChannels s ch).pxPrev = s.pxPrev := rfl
@[simp] theorem initChannels_cache (s : State) (ch : Nat) : (initChannels s ch).cache = s.cache := rfl
@[simp] theorem initChannels_run (s : State) (ch : Nat) : (initChannels s ch).run = s.run := rfl
@[simp] theorem initChannels_stChannels (s : State) (ch : Nat) : (initChannels s ch).stChannels = s.stChannels := rfl
@[simp] theorem initChannels_stRate (s : State) (ch : Nat) : (initChannels s ch).stRate = s.stRate := rfl
@[simp] theorem initChannels_stSamples (s : State) (ch : Nat) : (initChannels s ch).stSamples = s.stSamples := rfl
@[simp] theorem initChannels_fChannels (s : State) (ch : Nat) : (initChannels s ch).fChannels = s.fChannels := rfl
@[simp] theorem initChannels_fRate (s : State) (ch : Nat) : (initChannels s ch).fRate = s.fRate := rfl
@[simp] theorem initChannels_fSamples (s : State) (ch : Nat) : (initChannels s ch).fSamples = s.fSamples := rfl
@[simp] theorem initChannels_fSize (s : State) (ch : Nat) : (initChannels s ch).fSize = s.fSize := rfl
@[simp] theorem initChannels_fStart (s : State) (ch : Nat) : (initChannels s ch).fStart = s.fStart := rfl
@[simp] theorem initChannels_search (s : State) (ch : Nat) : (initChannels s ch).search = s.search := rfl
@[simp] theorem initChannels_hdr (s : State) (ch : Nat) : (initChannels s ch).hdr = s.hdr := rfl
@[simp] theorem initChannels_phase (s : State) (ch : Nat) : (initChannels s ch).phase = s.phase := rfl
@[simp] theorem initChannels_host (s : State) (ch : Nat) : (initChannels s ch).host = s.host := rfl
@[simp] theorem initChannels_resetLine (s : State) (ch : Nat) : (initChannels s ch).resetLine = s.resetLine := rfl
@[simp] theorem initChannels_freeCount (s : State) (ch : Nat) : (initChannels s ch).freeCount = s.freeCount := rfl

/-! The end of a decoder's pixel step. -/

@[simp] theorem pixelProduced_cfg (s : State) : (pixelProduced s).cfg = s.cfg := rfl
@[simp] theorem pixelProduced_cmd (s : State) : (pixelProduced s).cmd = s.cmd := rfl
@[simp] theorem pixelProduced_busy (s : State) : (pixelProduced s).busy = s.busy := rfl
@[simp] theorem pixelProduced_done (s : State) : (pixelProduced s).done = s.done := rfl
@[simp] theorem pixelProduced_err (s : State) : (pixelProduced s).err = s.err := rfl
@[simp] theorem pixelProduced_aChannels (s : State) : (pixelProduced s).aChannels = s.aChannels := rfl
@[simp] theorem pixelProduced_aRate (s : State) : (pixelProduced s).aRate = s.aRate := rfl
@[simp] theorem pixelProduced_aSamples (s : State) : (pixelProduced s).aSamples = s.aSamples := rfl
@[simp] theorem pixelProduced_iWidth (s : State) : (pixelProduced s).iWidth = s.iWidth := rfl
@[simp] theorem pixelProduced_iHeight (s : State) : (pixelProduced s).iHeight = s.iHeight := rfl
@[simp] theorem pixelProduced_iChtag (s : State) : (pixelProduced s).iChtag = s.iChtag := rfl
@[simp] theorem pixelProduced_iCstag (s : State) : (pixelProduced s).iCstag = s.iCstag := rfl
@[simp] theorem pixelProduced_bDesc (s : State) : (pixelProduced s).bDesc = s.bDesc := rfl
@[simp] theorem pixelProduced_sDesc (s : State) : (pixelProduced s).sDesc = s.sDesc := rfl
@[simp] theorem pixelProduced_pDesc (s : State) : (pixelProduced s).pDesc = s.pDesc := rfl
@[simp] theorem pixelProduced_bytes (s : State) : (pixelProduced s).bytes = s.bytes := rfl
@[simp] theorem pixelProduced_samples (s : State) : (pixelProduced s).samples = s.samples := rfl
@[simp] theorem pixelProduced_pixels (s : State) : (pixelProduced s).pixels = Space.write s.pixels s.pp.toNat s.pxPrev := rfl
@[simp] theorem pixelProduced_bp (s : State) : (pixelProduced s).bp = s.bp := rfl
@[simp] theorem pixelProduced_sp (s : State) : (pixelProduced s).sp = s.sp := rfl
@[simp] theorem pixelProduced_pp (s : State) : (pixelProduced s).pp = s.pp + 1 := rfl
@[simp] theorem pixelProduced_pred (s : State) : (pixelProduced s).pred = s.pred := rfl
@[simp] theorem pixelProduced_prevSf (s : State) : (pixelProduced s).prevSf = s.prevSf := rfl
@[simp] theorem pixelProduced_pxPrev (s : State) : (pixelProduced s).pxPrev = s.pxPrev := rfl
@[simp] theorem pixelProduced_cache (s : State) : (pixelProduced s).cache = s.cache := rfl
@[simp] theorem pixelProduced_run (s : State) : (pixelProduced s).run = s.run := rfl
@[simp] theorem pixelProduced_stChannels (s : State) : (pixelProduced s).stChannels = s.stChannels := rfl
@[simp] theorem pixelProduced_stRate (s : State) : (pixelProduced s).stRate = s.stRate := rfl
@[simp] theorem pixelProduced_stSamples (s : State) : (pixelProduced s).stSamples = s.stSamples := rfl
@[simp] theorem pixelProduced_fChannels (s : State) : (pixelProduced s).fChannels = s.fChannels := rfl
@[simp] theorem pixelProduced_fRate (s : State) : (pixelProduced s).fRate = s.fRate := rfl
@[simp] theorem pixelProduced_fSamples (s : State) : (pixelProduced s).fSamples = s.fSamples := rfl
@[simp] theorem pixelProduced_fSize (s : State) : (pixelProduced s).fSize = s.fSize := rfl
@[simp] theorem pixelProduced_fStart (s : State) : (pixelProduced s).fStart = s.fStart := rfl
@[simp] theorem pixelProduced_search (s : State) : (pixelProduced s).search = s.search := rfl
@[simp] theorem pixelProduced_hdr (s : State) : (pixelProduced s).hdr = s.hdr := rfl
@[simp] theorem pixelProduced_phase (s : State) : (pixelProduced s).phase = if s.pp.toNat + 1 < decPixelCount s then .dec .pixel else .dec .imageFooter := rfl
@[simp] theorem pixelProduced_host (s : State) : (pixelProduced s).host = s.host := rfl
@[simp] theorem pixelProduced_resetLine (s : State) : (pixelProduced s).resetLine = s.resetLine := rfl
@[simp] theorem pixelProduced_freeCount (s : State) : (pixelProduced s).freeCount = s.freeCount := rfl

/-! A decoded colour. -/

@[simp] theorem colourSet_cfg (px : Pixel) (length : Nat) (s : State) : (colourSet px length s).cfg = s.cfg := rfl
@[simp] theorem colourSet_cmd (px : Pixel) (length : Nat) (s : State) : (colourSet px length s).cmd = s.cmd := rfl
@[simp] theorem colourSet_busy (px : Pixel) (length : Nat) (s : State) : (colourSet px length s).busy = s.busy := rfl
@[simp] theorem colourSet_done (px : Pixel) (length : Nat) (s : State) : (colourSet px length s).done = s.done := rfl
@[simp] theorem colourSet_err (px : Pixel) (length : Nat) (s : State) : (colourSet px length s).err = s.err := rfl
@[simp] theorem colourSet_aChannels (px : Pixel) (length : Nat) (s : State) : (colourSet px length s).aChannels = s.aChannels := rfl
@[simp] theorem colourSet_aRate (px : Pixel) (length : Nat) (s : State) : (colourSet px length s).aRate = s.aRate := rfl
@[simp] theorem colourSet_aSamples (px : Pixel) (length : Nat) (s : State) : (colourSet px length s).aSamples = s.aSamples := rfl
@[simp] theorem colourSet_iWidth (px : Pixel) (length : Nat) (s : State) : (colourSet px length s).iWidth = s.iWidth := rfl
@[simp] theorem colourSet_iHeight (px : Pixel) (length : Nat) (s : State) : (colourSet px length s).iHeight = s.iHeight := rfl
@[simp] theorem colourSet_iChtag (px : Pixel) (length : Nat) (s : State) : (colourSet px length s).iChtag = s.iChtag := rfl
@[simp] theorem colourSet_iCstag (px : Pixel) (length : Nat) (s : State) : (colourSet px length s).iCstag = s.iCstag := rfl
@[simp] theorem colourSet_bDesc (px : Pixel) (length : Nat) (s : State) : (colourSet px length s).bDesc = s.bDesc := rfl
@[simp] theorem colourSet_sDesc (px : Pixel) (length : Nat) (s : State) : (colourSet px length s).sDesc = s.sDesc := rfl
@[simp] theorem colourSet_pDesc (px : Pixel) (length : Nat) (s : State) : (colourSet px length s).pDesc = s.pDesc := rfl
@[simp] theorem colourSet_bytes (px : Pixel) (length : Nat) (s : State) : (colourSet px length s).bytes = s.bytes := rfl
@[simp] theorem colourSet_samples (px : Pixel) (length : Nat) (s : State) : (colourSet px length s).samples = s.samples := rfl
@[simp] theorem colourSet_pixels (px : Pixel) (length : Nat) (s : State) : (colourSet px length s).pixels = s.pixels := rfl
@[simp] theorem colourSet_bp (px : Pixel) (length : Nat) (s : State) : (colourSet px length s).bp = s.bp + BitVec.ofNat 32 length := rfl
@[simp] theorem colourSet_sp (px : Pixel) (length : Nat) (s : State) : (colourSet px length s).sp = s.sp := rfl
@[simp] theorem colourSet_pp (px : Pixel) (length : Nat) (s : State) : (colourSet px length s).pp = s.pp := rfl
@[simp] theorem colourSet_pred (px : Pixel) (length : Nat) (s : State) : (colourSet px length s).pred = s.pred := rfl
@[simp] theorem colourSet_prevSf (px : Pixel) (length : Nat) (s : State) : (colourSet px length s).prevSf = s.prevSf := rfl
@[simp] theorem colourSet_pxPrev (px : Pixel) (length : Nat) (s : State) : (colourSet px length s).pxPrev = px := rfl
@[simp] theorem colourSet_cache (px : Pixel) (length : Nat) (s : State) : (colourSet px length s).cache = cacheStore s.cache px := rfl
@[simp] theorem colourSet_run (px : Pixel) (length : Nat) (s : State) : (colourSet px length s).run = s.run := rfl
@[simp] theorem colourSet_stChannels (px : Pixel) (length : Nat) (s : State) : (colourSet px length s).stChannels = s.stChannels := rfl
@[simp] theorem colourSet_stRate (px : Pixel) (length : Nat) (s : State) : (colourSet px length s).stRate = s.stRate := rfl
@[simp] theorem colourSet_stSamples (px : Pixel) (length : Nat) (s : State) : (colourSet px length s).stSamples = s.stSamples := rfl
@[simp] theorem colourSet_fChannels (px : Pixel) (length : Nat) (s : State) : (colourSet px length s).fChannels = s.fChannels := rfl
@[simp] theorem colourSet_fRate (px : Pixel) (length : Nat) (s : State) : (colourSet px length s).fRate = s.fRate := rfl
@[simp] theorem colourSet_fSamples (px : Pixel) (length : Nat) (s : State) : (colourSet px length s).fSamples = s.fSamples := rfl
@[simp] theorem colourSet_fSize (px : Pixel) (length : Nat) (s : State) : (colourSet px length s).fSize = s.fSize := rfl
@[simp] theorem colourSet_fStart (px : Pixel) (length : Nat) (s : State) : (colourSet px length s).fStart = s.fStart := rfl
@[simp] theorem colourSet_search (px : Pixel) (length : Nat) (s : State) : (colourSet px length s).search = s.search := rfl
@[simp] theorem colourSet_hdr (px : Pixel) (length : Nat) (s : State) : (colourSet px length s).hdr = s.hdr := rfl
@[simp] theorem colourSet_phase (px : Pixel) (length : Nat) (s : State) : (colourSet px length s).phase = s.phase := rfl
@[simp] theorem colourSet_host (px : Pixel) (length : Nat) (s : State) : (colourSet px length s).host = s.host := rfl
@[simp] theorem colourSet_resetLine (px : Pixel) (length : Nat) (s : State) : (colourSet px length s).resetLine = s.resetLine := rfl
@[simp] theorem colourSet_freeCount (px : Pixel) (length : Nat) (s : State) : (colourSet px length s).freeCount = s.freeCount := rfl

/-! The end of an encoder's pixel step. -/

@[simp] theorem pixelCoded_cfg (px : Pixel) (s : State) : (pixelCoded px s).cfg = s.cfg := rfl
@[simp] theorem pixelCoded_cmd (px : Pixel) (s : State) : (pixelCoded px s).cmd = s.cmd := rfl
@[simp] theorem pixelCoded_busy (px : Pixel) (s : State) : (pixelCoded px s).busy = s.busy := rfl
@[simp] theorem pixelCoded_done (px : Pixel) (s : State) : (pixelCoded px s).done = s.done := rfl
@[simp] theorem pixelCoded_err (px : Pixel) (s : State) : (pixelCoded px s).err = s.err := rfl
@[simp] theorem pixelCoded_aChannels (px : Pixel) (s : State) : (pixelCoded px s).aChannels = s.aChannels := rfl
@[simp] theorem pixelCoded_aRate (px : Pixel) (s : State) : (pixelCoded px s).aRate = s.aRate := rfl
@[simp] theorem pixelCoded_aSamples (px : Pixel) (s : State) : (pixelCoded px s).aSamples = s.aSamples := rfl
@[simp] theorem pixelCoded_iWidth (px : Pixel) (s : State) : (pixelCoded px s).iWidth = s.iWidth := rfl
@[simp] theorem pixelCoded_iHeight (px : Pixel) (s : State) : (pixelCoded px s).iHeight = s.iHeight := rfl
@[simp] theorem pixelCoded_iChtag (px : Pixel) (s : State) : (pixelCoded px s).iChtag = s.iChtag := rfl
@[simp] theorem pixelCoded_iCstag (px : Pixel) (s : State) : (pixelCoded px s).iCstag = s.iCstag := rfl
@[simp] theorem pixelCoded_bDesc (px : Pixel) (s : State) : (pixelCoded px s).bDesc = s.bDesc := rfl
@[simp] theorem pixelCoded_sDesc (px : Pixel) (s : State) : (pixelCoded px s).sDesc = s.sDesc := rfl
@[simp] theorem pixelCoded_pDesc (px : Pixel) (s : State) : (pixelCoded px s).pDesc = s.pDesc := rfl
@[simp] theorem pixelCoded_bytes (px : Pixel) (s : State) : (pixelCoded px s).bytes = s.bytes := rfl
@[simp] theorem pixelCoded_samples (px : Pixel) (s : State) : (pixelCoded px s).samples = s.samples := rfl
@[simp] theorem pixelCoded_pixels (px : Pixel) (s : State) : (pixelCoded px s).pixels = s.pixels := rfl
@[simp] theorem pixelCoded_bp (px : Pixel) (s : State) : (pixelCoded px s).bp = s.bp := rfl
@[simp] theorem pixelCoded_sp (px : Pixel) (s : State) : (pixelCoded px s).sp = s.sp := rfl
@[simp] theorem pixelCoded_pp (px : Pixel) (s : State) : (pixelCoded px s).pp = s.pp + 1 := rfl
@[simp] theorem pixelCoded_pred (px : Pixel) (s : State) : (pixelCoded px s).pred = s.pred := rfl
@[simp] theorem pixelCoded_prevSf (px : Pixel) (s : State) : (pixelCoded px s).prevSf = s.prevSf := rfl
@[simp] theorem pixelCoded_pxPrev (px : Pixel) (s : State) : (pixelCoded px s).pxPrev = px := rfl
@[simp] theorem pixelCoded_cache (px : Pixel) (s : State) : (pixelCoded px s).cache = s.cache := rfl
@[simp] theorem pixelCoded_run (px : Pixel) (s : State) : (pixelCoded px s).run = s.run := rfl
@[simp] theorem pixelCoded_stChannels (px : Pixel) (s : State) : (pixelCoded px s).stChannels = s.stChannels := rfl
@[simp] theorem pixelCoded_stRate (px : Pixel) (s : State) : (pixelCoded px s).stRate = s.stRate := rfl
@[simp] theorem pixelCoded_stSamples (px : Pixel) (s : State) : (pixelCoded px s).stSamples = s.stSamples := rfl
@[simp] theorem pixelCoded_fChannels (px : Pixel) (s : State) : (pixelCoded px s).fChannels = s.fChannels := rfl
@[simp] theorem pixelCoded_fRate (px : Pixel) (s : State) : (pixelCoded px s).fRate = s.fRate := rfl
@[simp] theorem pixelCoded_fSamples (px : Pixel) (s : State) : (pixelCoded px s).fSamples = s.fSamples := rfl
@[simp] theorem pixelCoded_fSize (px : Pixel) (s : State) : (pixelCoded px s).fSize = s.fSize := rfl
@[simp] theorem pixelCoded_fStart (px : Pixel) (s : State) : (pixelCoded px s).fStart = s.fStart := rfl
@[simp] theorem pixelCoded_search (px : Pixel) (s : State) : (pixelCoded px s).search = s.search := rfl
@[simp] theorem pixelCoded_hdr (px : Pixel) (s : State) : (pixelCoded px s).hdr = s.hdr := rfl
@[simp] theorem pixelCoded_phase (px : Pixel) (s : State) : (pixelCoded px s).phase = if s.pp.toNat + 1 < encPixelCount s then .enc .pixel else .enc .imageFooter := rfl
@[simp] theorem pixelCoded_host (px : Pixel) (s : State) : (pixelCoded px s).host = s.host := rfl
@[simp] theorem pixelCoded_resetLine (px : Pixel) (s : State) : (pixelCoded px s).resetLine = s.resetLine := rfl
@[simp] theorem pixelCoded_freeCount (px : Pixel) (s : State) : (pixelCoded px s).freeCount = s.freeCount := rfl

/-! A pixel that extends a run. -/

@[simp] theorem extendRun_cfg (s : State) : (extendRun s).cfg = s.cfg := rfl
@[simp] theorem extendRun_cmd (s : State) : (extendRun s).cmd = s.cmd := rfl
@[simp] theorem extendRun_busy (s : State) : (extendRun s).busy = s.busy := rfl
@[simp] theorem extendRun_done (s : State) : (extendRun s).done = s.done := rfl
@[simp] theorem extendRun_err (s : State) : (extendRun s).err = s.err := rfl
@[simp] theorem extendRun_aChannels (s : State) : (extendRun s).aChannels = s.aChannels := rfl
@[simp] theorem extendRun_aRate (s : State) : (extendRun s).aRate = s.aRate := rfl
@[simp] theorem extendRun_aSamples (s : State) : (extendRun s).aSamples = s.aSamples := rfl
@[simp] theorem extendRun_iWidth (s : State) : (extendRun s).iWidth = s.iWidth := rfl
@[simp] theorem extendRun_iHeight (s : State) : (extendRun s).iHeight = s.iHeight := rfl
@[simp] theorem extendRun_iChtag (s : State) : (extendRun s).iChtag = s.iChtag := rfl
@[simp] theorem extendRun_iCstag (s : State) : (extendRun s).iCstag = s.iCstag := rfl
@[simp] theorem extendRun_bDesc (s : State) : (extendRun s).bDesc = s.bDesc := rfl
@[simp] theorem extendRun_sDesc (s : State) : (extendRun s).sDesc = s.sDesc := rfl
@[simp] theorem extendRun_pDesc (s : State) : (extendRun s).pDesc = s.pDesc := rfl
@[simp] theorem extendRun_bytes (s : State) : (extendRun s).bytes = s.bytes := rfl
@[simp] theorem extendRun_samples (s : State) : (extendRun s).samples = s.samples := rfl
@[simp] theorem extendRun_pixels (s : State) : (extendRun s).pixels = s.pixels := rfl
@[simp] theorem extendRun_bp (s : State) : (extendRun s).bp = s.bp := rfl
@[simp] theorem extendRun_sp (s : State) : (extendRun s).sp = s.sp := rfl
@[simp] theorem extendRun_pp (s : State) : (extendRun s).pp = s.pp + 1 := rfl
@[simp] theorem extendRun_pred (s : State) : (extendRun s).pred = s.pred := rfl
@[simp] theorem extendRun_prevSf (s : State) : (extendRun s).prevSf = s.prevSf := rfl
@[simp] theorem extendRun_pxPrev (s : State) : (extendRun s).pxPrev = s.pxPrev := rfl
@[simp] theorem extendRun_cache (s : State) : (extendRun s).cache = s.cache := rfl
@[simp] theorem extendRun_run (s : State) : (extendRun s).run = s.run + 1 := rfl
@[simp] theorem extendRun_stChannels (s : State) : (extendRun s).stChannels = s.stChannels := rfl
@[simp] theorem extendRun_stRate (s : State) : (extendRun s).stRate = s.stRate := rfl
@[simp] theorem extendRun_stSamples (s : State) : (extendRun s).stSamples = s.stSamples := rfl
@[simp] theorem extendRun_fChannels (s : State) : (extendRun s).fChannels = s.fChannels := rfl
@[simp] theorem extendRun_fRate (s : State) : (extendRun s).fRate = s.fRate := rfl
@[simp] theorem extendRun_fSamples (s : State) : (extendRun s).fSamples = s.fSamples := rfl
@[simp] theorem extendRun_fSize (s : State) : (extendRun s).fSize = s.fSize := rfl
@[simp] theorem extendRun_fStart (s : State) : (extendRun s).fStart = s.fStart := rfl
@[simp] theorem extendRun_search (s : State) : (extendRun s).search = s.search := rfl
@[simp] theorem extendRun_hdr (s : State) : (extendRun s).hdr = s.hdr := rfl
@[simp] theorem extendRun_phase (s : State) : (extendRun s).phase = if s.pp.toNat + 1 < encPixelCount s then .enc .pixel else .enc .imageFooter := rfl
@[simp] theorem extendRun_host (s : State) : (extendRun s).host = s.host := rfl
@[simp] theorem extendRun_resetLine (s : State) : (extendRun s).resetLine = s.resetLine := rfl
@[simp] theorem extendRun_freeCount (s : State) : (extendRun s).freeCount = s.freeCount := rfl

/-! The pixel coder's start values. -/

@[simp] theorem seedPixelCoder_cfg (s : State) : (seedPixelCoder s).cfg = s.cfg := rfl
@[simp] theorem seedPixelCoder_cmd (s : State) : (seedPixelCoder s).cmd = s.cmd := rfl
@[simp] theorem seedPixelCoder_busy (s : State) : (seedPixelCoder s).busy = s.busy := rfl
@[simp] theorem seedPixelCoder_done (s : State) : (seedPixelCoder s).done = s.done := rfl
@[simp] theorem seedPixelCoder_err (s : State) : (seedPixelCoder s).err = s.err := rfl
@[simp] theorem seedPixelCoder_aChannels (s : State) : (seedPixelCoder s).aChannels = s.aChannels := rfl
@[simp] theorem seedPixelCoder_aRate (s : State) : (seedPixelCoder s).aRate = s.aRate := rfl
@[simp] theorem seedPixelCoder_aSamples (s : State) : (seedPixelCoder s).aSamples = s.aSamples := rfl
@[simp] theorem seedPixelCoder_iWidth (s : State) : (seedPixelCoder s).iWidth = s.iWidth := rfl
@[simp] theorem seedPixelCoder_iHeight (s : State) : (seedPixelCoder s).iHeight = s.iHeight := rfl
@[simp] theorem seedPixelCoder_iChtag (s : State) : (seedPixelCoder s).iChtag = s.iChtag := rfl
@[simp] theorem seedPixelCoder_iCstag (s : State) : (seedPixelCoder s).iCstag = s.iCstag := rfl
@[simp] theorem seedPixelCoder_bDesc (s : State) : (seedPixelCoder s).bDesc = s.bDesc := rfl
@[simp] theorem seedPixelCoder_sDesc (s : State) : (seedPixelCoder s).sDesc = s.sDesc := rfl
@[simp] theorem seedPixelCoder_pDesc (s : State) : (seedPixelCoder s).pDesc = s.pDesc := rfl
@[simp] theorem seedPixelCoder_bytes (s : State) : (seedPixelCoder s).bytes = s.bytes := rfl
@[simp] theorem seedPixelCoder_samples (s : State) : (seedPixelCoder s).samples = s.samples := rfl
@[simp] theorem seedPixelCoder_pixels (s : State) : (seedPixelCoder s).pixels = s.pixels := rfl
@[simp] theorem seedPixelCoder_bp (s : State) : (seedPixelCoder s).bp = s.bp := rfl
@[simp] theorem seedPixelCoder_sp (s : State) : (seedPixelCoder s).sp = s.sp := rfl
@[simp] theorem seedPixelCoder_pp (s : State) : (seedPixelCoder s).pp = s.pp := rfl
@[simp] theorem seedPixelCoder_pred (s : State) : (seedPixelCoder s).pred = s.pred := rfl
@[simp] theorem seedPixelCoder_prevSf (s : State) : (seedPixelCoder s).prevSf = s.prevSf := rfl
@[simp] theorem seedPixelCoder_pxPrev (s : State) : (seedPixelCoder s).pxPrev = seedPixel := rfl
@[simp] theorem seedPixelCoder_cache (s : State) : (seedPixelCoder s).cache = clearCache := rfl
@[simp] theorem seedPixelCoder_run (s : State) : (seedPixelCoder s).run = 0 := rfl
@[simp] theorem seedPixelCoder_stChannels (s : State) : (seedPixelCoder s).stChannels = s.stChannels := rfl
@[simp] theorem seedPixelCoder_stRate (s : State) : (seedPixelCoder s).stRate = s.stRate := rfl
@[simp] theorem seedPixelCoder_stSamples (s : State) : (seedPixelCoder s).stSamples = s.stSamples := rfl
@[simp] theorem seedPixelCoder_fChannels (s : State) : (seedPixelCoder s).fChannels = s.fChannels := rfl
@[simp] theorem seedPixelCoder_fRate (s : State) : (seedPixelCoder s).fRate = s.fRate := rfl
@[simp] theorem seedPixelCoder_fSamples (s : State) : (seedPixelCoder s).fSamples = s.fSamples := rfl
@[simp] theorem seedPixelCoder_fSize (s : State) : (seedPixelCoder s).fSize = s.fSize := rfl
@[simp] theorem seedPixelCoder_fStart (s : State) : (seedPixelCoder s).fStart = s.fStart := rfl
@[simp] theorem seedPixelCoder_search (s : State) : (seedPixelCoder s).search = s.search := rfl
@[simp] theorem seedPixelCoder_hdr (s : State) : (seedPixelCoder s).hdr = s.hdr := rfl
@[simp] theorem seedPixelCoder_phase (s : State) : (seedPixelCoder s).phase = s.phase := rfl
@[simp] theorem seedPixelCoder_host (s : State) : (seedPixelCoder s).host = s.host := rfl
@[simp] theorem seedPixelCoder_resetLine (s : State) : (seedPixelCoder s).resetLine = s.resetLine := rfl
@[simp] theorem seedPixelCoder_freeCount (s : State) : (seedPixelCoder s).freeCount = s.freeCount := rfl

/-! The start of the pixel loop. -/

@[simp] theorem startPixels_cfg (width height : BitVec 32) (chtag cstag : Byte) (s : State) : (startPixels width height chtag cstag s).cfg = s.cfg := rfl
@[simp] theorem startPixels_cmd (width height : BitVec 32) (chtag cstag : Byte) (s : State) : (startPixels width height chtag cstag s).cmd = s.cmd := rfl
@[simp] theorem startPixels_busy (width height : BitVec 32) (chtag cstag : Byte) (s : State) : (startPixels width height chtag cstag s).busy = s.busy := rfl
@[simp] theorem startPixels_done (width height : BitVec 32) (chtag cstag : Byte) (s : State) : (startPixels width height chtag cstag s).done = s.done := rfl
@[simp] theorem startPixels_err (width height : BitVec 32) (chtag cstag : Byte) (s : State) : (startPixels width height chtag cstag s).err = s.err := rfl
@[simp] theorem startPixels_aChannels (width height : BitVec 32) (chtag cstag : Byte) (s : State) : (startPixels width height chtag cstag s).aChannels = s.aChannels := rfl
@[simp] theorem startPixels_aRate (width height : BitVec 32) (chtag cstag : Byte) (s : State) : (startPixels width height chtag cstag s).aRate = s.aRate := rfl
@[simp] theorem startPixels_aSamples (width height : BitVec 32) (chtag cstag : Byte) (s : State) : (startPixels width height chtag cstag s).aSamples = s.aSamples := rfl
@[simp] theorem startPixels_iWidth (width height : BitVec 32) (chtag cstag : Byte) (s : State) : (startPixels width height chtag cstag s).iWidth = s.iWidth := rfl
@[simp] theorem startPixels_iHeight (width height : BitVec 32) (chtag cstag : Byte) (s : State) : (startPixels width height chtag cstag s).iHeight = s.iHeight := rfl
@[simp] theorem startPixels_iChtag (width height : BitVec 32) (chtag cstag : Byte) (s : State) : (startPixels width height chtag cstag s).iChtag = s.iChtag := rfl
@[simp] theorem startPixels_iCstag (width height : BitVec 32) (chtag cstag : Byte) (s : State) : (startPixels width height chtag cstag s).iCstag = s.iCstag := rfl
@[simp] theorem startPixels_bDesc (width height : BitVec 32) (chtag cstag : Byte) (s : State) : (startPixels width height chtag cstag s).bDesc = s.bDesc := rfl
@[simp] theorem startPixels_sDesc (width height : BitVec 32) (chtag cstag : Byte) (s : State) : (startPixels width height chtag cstag s).sDesc = s.sDesc := rfl
@[simp] theorem startPixels_pDesc (width height : BitVec 32) (chtag cstag : Byte) (s : State) : (startPixels width height chtag cstag s).pDesc = s.pDesc := rfl
@[simp] theorem startPixels_bytes (width height : BitVec 32) (chtag cstag : Byte) (s : State) : (startPixels width height chtag cstag s).bytes = s.bytes := rfl
@[simp] theorem startPixels_samples (width height : BitVec 32) (chtag cstag : Byte) (s : State) : (startPixels width height chtag cstag s).samples = s.samples := rfl
@[simp] theorem startPixels_pixels (width height : BitVec 32) (chtag cstag : Byte) (s : State) : (startPixels width height chtag cstag s).pixels = s.pixels := rfl
@[simp] theorem startPixels_bp (width height : BitVec 32) (chtag cstag : Byte) (s : State) : (startPixels width height chtag cstag s).bp = 14 := rfl
@[simp] theorem startPixels_sp (width height : BitVec 32) (chtag cstag : Byte) (s : State) : (startPixels width height chtag cstag s).sp = s.sp := rfl
@[simp] theorem startPixels_pp (width height : BitVec 32) (chtag cstag : Byte) (s : State) : (startPixels width height chtag cstag s).pp = 0 := rfl
@[simp] theorem startPixels_pred (width height : BitVec 32) (chtag cstag : Byte) (s : State) : (startPixels width height chtag cstag s).pred = s.pred := rfl
@[simp] theorem startPixels_prevSf (width height : BitVec 32) (chtag cstag : Byte) (s : State) : (startPixels width height chtag cstag s).prevSf = s.prevSf := rfl
@[simp] theorem startPixels_pxPrev (width height : BitVec 32) (chtag cstag : Byte) (s : State) : (startPixels width height chtag cstag s).pxPrev = seedPixel := rfl
@[simp] theorem startPixels_cache (width height : BitVec 32) (chtag cstag : Byte) (s : State) : (startPixels width height chtag cstag s).cache = clearCache := rfl
@[simp] theorem startPixels_run (width height : BitVec 32) (chtag cstag : Byte) (s : State) : (startPixels width height chtag cstag s).run = 0 := rfl
@[simp] theorem startPixels_stChannels (width height : BitVec 32) (chtag cstag : Byte) (s : State) : (startPixels width height chtag cstag s).stChannels = s.stChannels := rfl
@[simp] theorem startPixels_stRate (width height : BitVec 32) (chtag cstag : Byte) (s : State) : (startPixels width height chtag cstag s).stRate = s.stRate := rfl
@[simp] theorem startPixels_stSamples (width height : BitVec 32) (chtag cstag : Byte) (s : State) : (startPixels width height chtag cstag s).stSamples = s.stSamples := rfl
@[simp] theorem startPixels_fChannels (width height : BitVec 32) (chtag cstag : Byte) (s : State) : (startPixels width height chtag cstag s).fChannels = s.fChannels := rfl
@[simp] theorem startPixels_fRate (width height : BitVec 32) (chtag cstag : Byte) (s : State) : (startPixels width height chtag cstag s).fRate = s.fRate := rfl
@[simp] theorem startPixels_fSamples (width height : BitVec 32) (chtag cstag : Byte) (s : State) : (startPixels width height chtag cstag s).fSamples = s.fSamples := rfl
@[simp] theorem startPixels_fSize (width height : BitVec 32) (chtag cstag : Byte) (s : State) : (startPixels width height chtag cstag s).fSize = s.fSize := rfl
@[simp] theorem startPixels_fStart (width height : BitVec 32) (chtag cstag : Byte) (s : State) : (startPixels width height chtag cstag s).fStart = s.fStart := rfl
@[simp] theorem startPixels_search (width height : BitVec 32) (chtag cstag : Byte) (s : State) : (startPixels width height chtag cstag s).search = s.search := rfl
@[simp] theorem startPixels_hdr (width height : BitVec 32) (chtag cstag : Byte) (s : State) : (startPixels width height chtag cstag s).hdr = ⟨width, height, chtag, cstag⟩ := rfl
@[simp] theorem startPixels_phase (width height : BitVec 32) (chtag cstag : Byte) (s : State) : (startPixels width height chtag cstag s).phase = .dec .pixel := rfl
@[simp] theorem startPixels_host (width height : BitVec 32) (chtag cstag : Byte) (s : State) : (startPixels width height chtag cstag s).host = s.host := rfl
@[simp] theorem startPixels_resetLine (width height : BitVec 32) (chtag cstag : Byte) (s : State) : (startPixels width height chtag cstag s).resetLine = s.resetLine := rfl
@[simp] theorem startPixels_freeCount (width height : BitVec 32) (chtag cstag : Byte) (s : State) : (startPixels width height chtag cstag s).freeCount = s.freeCount := rfl

/-! The results of an image decode. -/

@[simp] theorem imageResults_cfg (s : State) : (imageResults s).cfg = s.cfg := rfl
@[simp] theorem imageResults_cmd (s : State) : (imageResults s).cmd = s.cmd := rfl
@[simp] theorem imageResults_busy (s : State) : (imageResults s).busy = false := rfl
@[simp] theorem imageResults_done (s : State) : (imageResults s).done = true := rfl
@[simp] theorem imageResults_err (s : State) : (imageResults s).err = 0 := rfl
@[simp] theorem imageResults_aChannels (s : State) : (imageResults s).aChannels = s.aChannels := rfl
@[simp] theorem imageResults_aRate (s : State) : (imageResults s).aRate = s.aRate := rfl
@[simp] theorem imageResults_aSamples (s : State) : (imageResults s).aSamples = s.aSamples := rfl
@[simp] theorem imageResults_iWidth (s : State) : (imageResults s).iWidth = s.hdr.width := rfl
@[simp] theorem imageResults_iHeight (s : State) : (imageResults s).iHeight = s.hdr.height := rfl
@[simp] theorem imageResults_iChtag (s : State) : (imageResults s).iChtag = s.hdr.chtag := rfl
@[simp] theorem imageResults_iCstag (s : State) : (imageResults s).iCstag = s.hdr.cstag := rfl
@[simp] theorem imageResults_bDesc (s : State) : (imageResults s).bDesc = s.bDesc := rfl
@[simp] theorem imageResults_sDesc (s : State) : (imageResults s).sDesc = s.sDesc := rfl
@[simp] theorem imageResults_pDesc (s : State) : (imageResults s).pDesc = { s.pDesc with len := BitVec.ofNat 32 (decPixelCount s) } := rfl
@[simp] theorem imageResults_bytes (s : State) : (imageResults s).bytes = s.bytes := rfl
@[simp] theorem imageResults_samples (s : State) : (imageResults s).samples = s.samples := rfl
@[simp] theorem imageResults_pixels (s : State) : (imageResults s).pixels = s.pixels := rfl
@[simp] theorem imageResults_bp (s : State) : (imageResults s).bp = s.bp := rfl
@[simp] theorem imageResults_sp (s : State) : (imageResults s).sp = s.sp := rfl
@[simp] theorem imageResults_pp (s : State) : (imageResults s).pp = s.pp := rfl
@[simp] theorem imageResults_pred (s : State) : (imageResults s).pred = s.pred := rfl
@[simp] theorem imageResults_prevSf (s : State) : (imageResults s).prevSf = s.prevSf := rfl
@[simp] theorem imageResults_pxPrev (s : State) : (imageResults s).pxPrev = s.pxPrev := rfl
@[simp] theorem imageResults_cache (s : State) : (imageResults s).cache = s.cache := rfl
@[simp] theorem imageResults_run (s : State) : (imageResults s).run = s.run := rfl
@[simp] theorem imageResults_stChannels (s : State) : (imageResults s).stChannels = s.stChannels := rfl
@[simp] theorem imageResults_stRate (s : State) : (imageResults s).stRate = s.stRate := rfl
@[simp] theorem imageResults_stSamples (s : State) : (imageResults s).stSamples = s.stSamples := rfl
@[simp] theorem imageResults_fChannels (s : State) : (imageResults s).fChannels = s.fChannels := rfl
@[simp] theorem imageResults_fRate (s : State) : (imageResults s).fRate = s.fRate := rfl
@[simp] theorem imageResults_fSamples (s : State) : (imageResults s).fSamples = s.fSamples := rfl
@[simp] theorem imageResults_fSize (s : State) : (imageResults s).fSize = s.fSize := rfl
@[simp] theorem imageResults_fStart (s : State) : (imageResults s).fStart = s.fStart := rfl
@[simp] theorem imageResults_search (s : State) : (imageResults s).search = s.search := rfl
@[simp] theorem imageResults_hdr (s : State) : (imageResults s).hdr = s.hdr := rfl
@[simp] theorem imageResults_phase (s : State) : (imageResults s).phase = .idle := rfl
@[simp] theorem imageResults_host (s : State) : (imageResults s).host = s.host := rfl
@[simp] theorem imageResults_resetLine (s : State) : (imageResults s).resetLine = s.resetLine := rfl
@[simp] theorem imageResults_freeCount (s : State) : (imageResults s).freeCount = s.freeCount := rfl

/-! The result of an encode. -/

@[simp] theorem streamResult_cfg (s : State) : (streamResult s).cfg = s.cfg := rfl
@[simp] theorem streamResult_cmd (s : State) : (streamResult s).cmd = s.cmd := rfl
@[simp] theorem streamResult_busy (s : State) : (streamResult s).busy = false := rfl
@[simp] theorem streamResult_done (s : State) : (streamResult s).done = true := rfl
@[simp] theorem streamResult_err (s : State) : (streamResult s).err = 0 := rfl
@[simp] theorem streamResult_aChannels (s : State) : (streamResult s).aChannels = s.aChannels := rfl
@[simp] theorem streamResult_aRate (s : State) : (streamResult s).aRate = s.aRate := rfl
@[simp] theorem streamResult_aSamples (s : State) : (streamResult s).aSamples = s.aSamples := rfl
@[simp] theorem streamResult_iWidth (s : State) : (streamResult s).iWidth = s.iWidth := rfl
@[simp] theorem streamResult_iHeight (s : State) : (streamResult s).iHeight = s.iHeight := rfl
@[simp] theorem streamResult_iChtag (s : State) : (streamResult s).iChtag = s.iChtag := rfl
@[simp] theorem streamResult_iCstag (s : State) : (streamResult s).iCstag = s.iCstag := rfl
@[simp] theorem streamResult_bDesc (s : State) : (streamResult s).bDesc = { s.bDesc with len := s.bp } := rfl
@[simp] theorem streamResult_sDesc (s : State) : (streamResult s).sDesc = s.sDesc := rfl
@[simp] theorem streamResult_pDesc (s : State) : (streamResult s).pDesc = s.pDesc := rfl
@[simp] theorem streamResult_bytes (s : State) : (streamResult s).bytes = s.bytes := rfl
@[simp] theorem streamResult_samples (s : State) : (streamResult s).samples = s.samples := rfl
@[simp] theorem streamResult_pixels (s : State) : (streamResult s).pixels = s.pixels := rfl
@[simp] theorem streamResult_bp (s : State) : (streamResult s).bp = s.bp := rfl
@[simp] theorem streamResult_sp (s : State) : (streamResult s).sp = s.sp := rfl
@[simp] theorem streamResult_pp (s : State) : (streamResult s).pp = s.pp := rfl
@[simp] theorem streamResult_pred (s : State) : (streamResult s).pred = s.pred := rfl
@[simp] theorem streamResult_prevSf (s : State) : (streamResult s).prevSf = s.prevSf := rfl
@[simp] theorem streamResult_pxPrev (s : State) : (streamResult s).pxPrev = s.pxPrev := rfl
@[simp] theorem streamResult_cache (s : State) : (streamResult s).cache = s.cache := rfl
@[simp] theorem streamResult_run (s : State) : (streamResult s).run = s.run := rfl
@[simp] theorem streamResult_stChannels (s : State) : (streamResult s).stChannels = s.stChannels := rfl
@[simp] theorem streamResult_stRate (s : State) : (streamResult s).stRate = s.stRate := rfl
@[simp] theorem streamResult_stSamples (s : State) : (streamResult s).stSamples = s.stSamples := rfl
@[simp] theorem streamResult_fChannels (s : State) : (streamResult s).fChannels = s.fChannels := rfl
@[simp] theorem streamResult_fRate (s : State) : (streamResult s).fRate = s.fRate := rfl
@[simp] theorem streamResult_fSamples (s : State) : (streamResult s).fSamples = s.fSamples := rfl
@[simp] theorem streamResult_fSize (s : State) : (streamResult s).fSize = s.fSize := rfl
@[simp] theorem streamResult_fStart (s : State) : (streamResult s).fStart = s.fStart := rfl
@[simp] theorem streamResult_search (s : State) : (streamResult s).search = s.search := rfl
@[simp] theorem streamResult_hdr (s : State) : (streamResult s).hdr = s.hdr := rfl
@[simp] theorem streamResult_phase (s : State) : (streamResult s).phase = .idle := rfl
@[simp] theorem streamResult_host (s : State) : (streamResult s).host = s.host := rfl
@[simp] theorem streamResult_resetLine (s : State) : (streamResult s).resetLine = s.resetLine := rfl
@[simp] theorem streamResult_freeCount (s : State) : (streamResult s).freeCount = s.freeCount := rfl

/-! The stream latches. -/

@[simp] theorem latchStream_cfg (samples : BitVec 32) (w : Word64) (s : State) : (latchStream samples w s).cfg = s.cfg := rfl
@[simp] theorem latchStream_cmd (samples : BitVec 32) (w : Word64) (s : State) : (latchStream samples w s).cmd = s.cmd := rfl
@[simp] theorem latchStream_busy (samples : BitVec 32) (w : Word64) (s : State) : (latchStream samples w s).busy = s.busy := rfl
@[simp] theorem latchStream_done (samples : BitVec 32) (w : Word64) (s : State) : (latchStream samples w s).done = s.done := rfl
@[simp] theorem latchStream_err (samples : BitVec 32) (w : Word64) (s : State) : (latchStream samples w s).err = s.err := rfl
@[simp] theorem latchStream_aChannels (samples : BitVec 32) (w : Word64) (s : State) : (latchStream samples w s).aChannels = s.aChannels := rfl
@[simp] theorem latchStream_aRate (samples : BitVec 32) (w : Word64) (s : State) : (latchStream samples w s).aRate = s.aRate := rfl
@[simp] theorem latchStream_aSamples (samples : BitVec 32) (w : Word64) (s : State) : (latchStream samples w s).aSamples = s.aSamples := rfl
@[simp] theorem latchStream_iWidth (samples : BitVec 32) (w : Word64) (s : State) : (latchStream samples w s).iWidth = s.iWidth := rfl
@[simp] theorem latchStream_iHeight (samples : BitVec 32) (w : Word64) (s : State) : (latchStream samples w s).iHeight = s.iHeight := rfl
@[simp] theorem latchStream_iChtag (samples : BitVec 32) (w : Word64) (s : State) : (latchStream samples w s).iChtag = s.iChtag := rfl
@[simp] theorem latchStream_iCstag (samples : BitVec 32) (w : Word64) (s : State) : (latchStream samples w s).iCstag = s.iCstag := rfl
@[simp] theorem latchStream_bDesc (samples : BitVec 32) (w : Word64) (s : State) : (latchStream samples w s).bDesc = s.bDesc := rfl
@[simp] theorem latchStream_sDesc (samples : BitVec 32) (w : Word64) (s : State) : (latchStream samples w s).sDesc = s.sDesc := rfl
@[simp] theorem latchStream_pDesc (samples : BitVec 32) (w : Word64) (s : State) : (latchStream samples w s).pDesc = s.pDesc := rfl
@[simp] theorem latchStream_bytes (samples : BitVec 32) (w : Word64) (s : State) : (latchStream samples w s).bytes = s.bytes := rfl
@[simp] theorem latchStream_samples (samples : BitVec 32) (w : Word64) (s : State) : (latchStream samples w s).samples = s.samples := rfl
@[simp] theorem latchStream_pixels (samples : BitVec 32) (w : Word64) (s : State) : (latchStream samples w s).pixels = s.pixels := rfl
@[simp] theorem latchStream_bp (samples : BitVec 32) (w : Word64) (s : State) : (latchStream samples w s).bp = s.bp := rfl
@[simp] theorem latchStream_sp (samples : BitVec 32) (w : Word64) (s : State) : (latchStream samples w s).sp = s.sp := rfl
@[simp] theorem latchStream_pp (samples : BitVec 32) (w : Word64) (s : State) : (latchStream samples w s).pp = s.pp := rfl
@[simp] theorem latchStream_pred (samples : BitVec 32) (w : Word64) (s : State) : (latchStream samples w s).pred = s.pred := rfl
@[simp] theorem latchStream_prevSf (samples : BitVec 32) (w : Word64) (s : State) : (latchStream samples w s).prevSf = s.prevSf := rfl
@[simp] theorem latchStream_pxPrev (samples : BitVec 32) (w : Word64) (s : State) : (latchStream samples w s).pxPrev = s.pxPrev := rfl
@[simp] theorem latchStream_cache (samples : BitVec 32) (w : Word64) (s : State) : (latchStream samples w s).cache = s.cache := rfl
@[simp] theorem latchStream_run (samples : BitVec 32) (w : Word64) (s : State) : (latchStream samples w s).run = s.run := rfl
@[simp] theorem latchStream_stChannels (samples : BitVec 32) (w : Word64) (s : State) : (latchStream samples w s).stChannels = w.extractLsb' 56 8 := rfl
@[simp] theorem latchStream_stRate (samples : BitVec 32) (w : Word64) (s : State) : (latchStream samples w s).stRate = w.extractLsb' 32 24 := rfl
@[simp] theorem latchStream_stSamples (samples : BitVec 32) (w : Word64) (s : State) : (latchStream samples w s).stSamples = samples := rfl
@[simp] theorem latchStream_fChannels (samples : BitVec 32) (w : Word64) (s : State) : (latchStream samples w s).fChannels = s.fChannels := rfl
@[simp] theorem latchStream_fRate (samples : BitVec 32) (w : Word64) (s : State) : (latchStream samples w s).fRate = s.fRate := rfl
@[simp] theorem latchStream_fSamples (samples : BitVec 32) (w : Word64) (s : State) : (latchStream samples w s).fSamples = s.fSamples := rfl
@[simp] theorem latchStream_fSize (samples : BitVec 32) (w : Word64) (s : State) : (latchStream samples w s).fSize = s.fSize := rfl
@[simp] theorem latchStream_fStart (samples : BitVec 32) (w : Word64) (s : State) : (latchStream samples w s).fStart = s.fStart := rfl
@[simp] theorem latchStream_search (samples : BitVec 32) (w : Word64) (s : State) : (latchStream samples w s).search = s.search := rfl
@[simp] theorem latchStream_hdr (samples : BitVec 32) (w : Word64) (s : State) : (latchStream samples w s).hdr = s.hdr := rfl
@[simp] theorem latchStream_phase (samples : BitVec 32) (w : Word64) (s : State) : (latchStream samples w s).phase = s.phase := rfl
@[simp] theorem latchStream_host (samples : BitVec 32) (w : Word64) (s : State) : (latchStream samples w s).host = s.host := rfl
@[simp] theorem latchStream_resetLine (samples : BitVec 32) (w : Word64) (s : State) : (latchStream samples w s).resetLine = s.resetLine := rfl
@[simp] theorem latchStream_freeCount (samples : BitVec 32) (w : Word64) (s : State) : (latchStream samples w s).freeCount = s.freeCount := rfl

/-! The frame latches. -/

@[simp] theorem latchFrame_cfg (channels : BitVec 8) (rate : BitVec 24) (fsamples fsize : BitVec 16) (s : State) : (latchFrame channels rate fsamples fsize s).cfg = s.cfg := rfl
@[simp] theorem latchFrame_cmd (channels : BitVec 8) (rate : BitVec 24) (fsamples fsize : BitVec 16) (s : State) : (latchFrame channels rate fsamples fsize s).cmd = s.cmd := rfl
@[simp] theorem latchFrame_busy (channels : BitVec 8) (rate : BitVec 24) (fsamples fsize : BitVec 16) (s : State) : (latchFrame channels rate fsamples fsize s).busy = s.busy := rfl
@[simp] theorem latchFrame_done (channels : BitVec 8) (rate : BitVec 24) (fsamples fsize : BitVec 16) (s : State) : (latchFrame channels rate fsamples fsize s).done = s.done := rfl
@[simp] theorem latchFrame_err (channels : BitVec 8) (rate : BitVec 24) (fsamples fsize : BitVec 16) (s : State) : (latchFrame channels rate fsamples fsize s).err = s.err := rfl
@[simp] theorem latchFrame_aChannels (channels : BitVec 8) (rate : BitVec 24) (fsamples fsize : BitVec 16) (s : State) : (latchFrame channels rate fsamples fsize s).aChannels = s.aChannels := rfl
@[simp] theorem latchFrame_aRate (channels : BitVec 8) (rate : BitVec 24) (fsamples fsize : BitVec 16) (s : State) : (latchFrame channels rate fsamples fsize s).aRate = s.aRate := rfl
@[simp] theorem latchFrame_aSamples (channels : BitVec 8) (rate : BitVec 24) (fsamples fsize : BitVec 16) (s : State) : (latchFrame channels rate fsamples fsize s).aSamples = s.aSamples := rfl
@[simp] theorem latchFrame_iWidth (channels : BitVec 8) (rate : BitVec 24) (fsamples fsize : BitVec 16) (s : State) : (latchFrame channels rate fsamples fsize s).iWidth = s.iWidth := rfl
@[simp] theorem latchFrame_iHeight (channels : BitVec 8) (rate : BitVec 24) (fsamples fsize : BitVec 16) (s : State) : (latchFrame channels rate fsamples fsize s).iHeight = s.iHeight := rfl
@[simp] theorem latchFrame_iChtag (channels : BitVec 8) (rate : BitVec 24) (fsamples fsize : BitVec 16) (s : State) : (latchFrame channels rate fsamples fsize s).iChtag = s.iChtag := rfl
@[simp] theorem latchFrame_iCstag (channels : BitVec 8) (rate : BitVec 24) (fsamples fsize : BitVec 16) (s : State) : (latchFrame channels rate fsamples fsize s).iCstag = s.iCstag := rfl
@[simp] theorem latchFrame_bDesc (channels : BitVec 8) (rate : BitVec 24) (fsamples fsize : BitVec 16) (s : State) : (latchFrame channels rate fsamples fsize s).bDesc = s.bDesc := rfl
@[simp] theorem latchFrame_sDesc (channels : BitVec 8) (rate : BitVec 24) (fsamples fsize : BitVec 16) (s : State) : (latchFrame channels rate fsamples fsize s).sDesc = s.sDesc := rfl
@[simp] theorem latchFrame_pDesc (channels : BitVec 8) (rate : BitVec 24) (fsamples fsize : BitVec 16) (s : State) : (latchFrame channels rate fsamples fsize s).pDesc = s.pDesc := rfl
@[simp] theorem latchFrame_bytes (channels : BitVec 8) (rate : BitVec 24) (fsamples fsize : BitVec 16) (s : State) : (latchFrame channels rate fsamples fsize s).bytes = s.bytes := rfl
@[simp] theorem latchFrame_samples (channels : BitVec 8) (rate : BitVec 24) (fsamples fsize : BitVec 16) (s : State) : (latchFrame channels rate fsamples fsize s).samples = s.samples := rfl
@[simp] theorem latchFrame_pixels (channels : BitVec 8) (rate : BitVec 24) (fsamples fsize : BitVec 16) (s : State) : (latchFrame channels rate fsamples fsize s).pixels = s.pixels := rfl
@[simp] theorem latchFrame_bp (channels : BitVec 8) (rate : BitVec 24) (fsamples fsize : BitVec 16) (s : State) : (latchFrame channels rate fsamples fsize s).bp = s.bp := rfl
@[simp] theorem latchFrame_sp (channels : BitVec 8) (rate : BitVec 24) (fsamples fsize : BitVec 16) (s : State) : (latchFrame channels rate fsamples fsize s).sp = s.sp := rfl
@[simp] theorem latchFrame_pp (channels : BitVec 8) (rate : BitVec 24) (fsamples fsize : BitVec 16) (s : State) : (latchFrame channels rate fsamples fsize s).pp = s.pp := rfl
@[simp] theorem latchFrame_pred (channels : BitVec 8) (rate : BitVec 24) (fsamples fsize : BitVec 16) (s : State) : (latchFrame channels rate fsamples fsize s).pred = s.pred := rfl
@[simp] theorem latchFrame_prevSf (channels : BitVec 8) (rate : BitVec 24) (fsamples fsize : BitVec 16) (s : State) : (latchFrame channels rate fsamples fsize s).prevSf = s.prevSf := rfl
@[simp] theorem latchFrame_pxPrev (channels : BitVec 8) (rate : BitVec 24) (fsamples fsize : BitVec 16) (s : State) : (latchFrame channels rate fsamples fsize s).pxPrev = s.pxPrev := rfl
@[simp] theorem latchFrame_cache (channels : BitVec 8) (rate : BitVec 24) (fsamples fsize : BitVec 16) (s : State) : (latchFrame channels rate fsamples fsize s).cache = s.cache := rfl
@[simp] theorem latchFrame_run (channels : BitVec 8) (rate : BitVec 24) (fsamples fsize : BitVec 16) (s : State) : (latchFrame channels rate fsamples fsize s).run = s.run := rfl
@[simp] theorem latchFrame_stChannels (channels : BitVec 8) (rate : BitVec 24) (fsamples fsize : BitVec 16) (s : State) : (latchFrame channels rate fsamples fsize s).stChannels = s.stChannels := rfl
@[simp] theorem latchFrame_stRate (channels : BitVec 8) (rate : BitVec 24) (fsamples fsize : BitVec 16) (s : State) : (latchFrame channels rate fsamples fsize s).stRate = s.stRate := rfl
@[simp] theorem latchFrame_stSamples (channels : BitVec 8) (rate : BitVec 24) (fsamples fsize : BitVec 16) (s : State) : (latchFrame channels rate fsamples fsize s).stSamples = s.stSamples := rfl
@[simp] theorem latchFrame_fChannels (channels : BitVec 8) (rate : BitVec 24) (fsamples fsize : BitVec 16) (s : State) : (latchFrame channels rate fsamples fsize s).fChannels = channels := rfl
@[simp] theorem latchFrame_fRate (channels : BitVec 8) (rate : BitVec 24) (fsamples fsize : BitVec 16) (s : State) : (latchFrame channels rate fsamples fsize s).fRate = rate := rfl
@[simp] theorem latchFrame_fSamples (channels : BitVec 8) (rate : BitVec 24) (fsamples fsize : BitVec 16) (s : State) : (latchFrame channels rate fsamples fsize s).fSamples = fsamples := rfl
@[simp] theorem latchFrame_fSize (channels : BitVec 8) (rate : BitVec 24) (fsamples fsize : BitVec 16) (s : State) : (latchFrame channels rate fsamples fsize s).fSize = fsize := rfl
@[simp] theorem latchFrame_fStart (channels : BitVec 8) (rate : BitVec 24) (fsamples fsize : BitVec 16) (s : State) : (latchFrame channels rate fsamples fsize s).fStart = s.bp := rfl
@[simp] theorem latchFrame_search (channels : BitVec 8) (rate : BitVec 24) (fsamples fsize : BitVec 16) (s : State) : (latchFrame channels rate fsamples fsize s).search = s.search := rfl
@[simp] theorem latchFrame_hdr (channels : BitVec 8) (rate : BitVec 24) (fsamples fsize : BitVec 16) (s : State) : (latchFrame channels rate fsamples fsize s).hdr = s.hdr := rfl
@[simp] theorem latchFrame_phase (channels : BitVec 8) (rate : BitVec 24) (fsamples fsize : BitVec 16) (s : State) : (latchFrame channels rate fsamples fsize s).phase = s.phase := rfl
@[simp] theorem latchFrame_host (channels : BitVec 8) (rate : BitVec 24) (fsamples fsize : BitVec 16) (s : State) : (latchFrame channels rate fsamples fsize s).host = s.host := rfl
@[simp] theorem latchFrame_resetLine (channels : BitVec 8) (rate : BitVec 24) (fsamples fsize : BitVec 16) (s : State) : (latchFrame channels rate fsamples fsize s).resetLine = s.resetLine := rfl
@[simp] theorem latchFrame_freeCount (channels : BitVec 8) (rate : BitVec 24) (fsamples fsize : BitVec 16) (s : State) : (latchFrame channels rate fsamples fsize s).freeCount = s.freeCount := rfl

/-! The commit of a search. -/

@[simp] theorem commitSearch_cfg (c : Fin 8) (sf : BitVec 4) (best : Candidate) (s : State) : (commitSearch c sf best s).cfg = s.cfg := rfl
@[simp] theorem commitSearch_cmd (c : Fin 8) (sf : BitVec 4) (best : Candidate) (s : State) : (commitSearch c sf best s).cmd = s.cmd := rfl
@[simp] theorem commitSearch_busy (c : Fin 8) (sf : BitVec 4) (best : Candidate) (s : State) : (commitSearch c sf best s).busy = s.busy := rfl
@[simp] theorem commitSearch_done (c : Fin 8) (sf : BitVec 4) (best : Candidate) (s : State) : (commitSearch c sf best s).done = s.done := rfl
@[simp] theorem commitSearch_err (c : Fin 8) (sf : BitVec 4) (best : Candidate) (s : State) : (commitSearch c sf best s).err = s.err := rfl
@[simp] theorem commitSearch_aChannels (c : Fin 8) (sf : BitVec 4) (best : Candidate) (s : State) : (commitSearch c sf best s).aChannels = s.aChannels := rfl
@[simp] theorem commitSearch_aRate (c : Fin 8) (sf : BitVec 4) (best : Candidate) (s : State) : (commitSearch c sf best s).aRate = s.aRate := rfl
@[simp] theorem commitSearch_aSamples (c : Fin 8) (sf : BitVec 4) (best : Candidate) (s : State) : (commitSearch c sf best s).aSamples = s.aSamples := rfl
@[simp] theorem commitSearch_iWidth (c : Fin 8) (sf : BitVec 4) (best : Candidate) (s : State) : (commitSearch c sf best s).iWidth = s.iWidth := rfl
@[simp] theorem commitSearch_iHeight (c : Fin 8) (sf : BitVec 4) (best : Candidate) (s : State) : (commitSearch c sf best s).iHeight = s.iHeight := rfl
@[simp] theorem commitSearch_iChtag (c : Fin 8) (sf : BitVec 4) (best : Candidate) (s : State) : (commitSearch c sf best s).iChtag = s.iChtag := rfl
@[simp] theorem commitSearch_iCstag (c : Fin 8) (sf : BitVec 4) (best : Candidate) (s : State) : (commitSearch c sf best s).iCstag = s.iCstag := rfl
@[simp] theorem commitSearch_bDesc (c : Fin 8) (sf : BitVec 4) (best : Candidate) (s : State) : (commitSearch c sf best s).bDesc = s.bDesc := rfl
@[simp] theorem commitSearch_sDesc (c : Fin 8) (sf : BitVec 4) (best : Candidate) (s : State) : (commitSearch c sf best s).sDesc = s.sDesc := rfl
@[simp] theorem commitSearch_pDesc (c : Fin 8) (sf : BitVec 4) (best : Candidate) (s : State) : (commitSearch c sf best s).pDesc = s.pDesc := rfl
@[simp] theorem commitSearch_bytes (c : Fin 8) (sf : BitVec 4) (best : Candidate) (s : State) : (commitSearch c sf best s).bytes = s.bytes := rfl
@[simp] theorem commitSearch_samples (c : Fin 8) (sf : BitVec 4) (best : Candidate) (s : State) : (commitSearch c sf best s).samples = s.samples := rfl
@[simp] theorem commitSearch_pixels (c : Fin 8) (sf : BitVec 4) (best : Candidate) (s : State) : (commitSearch c sf best s).pixels = s.pixels := rfl
@[simp] theorem commitSearch_bp (c : Fin 8) (sf : BitVec 4) (best : Candidate) (s : State) : (commitSearch c sf best s).bp = s.bp := rfl
@[simp] theorem commitSearch_sp (c : Fin 8) (sf : BitVec 4) (best : Candidate) (s : State) : (commitSearch c sf best s).sp = s.sp := rfl
@[simp] theorem commitSearch_pp (c : Fin 8) (sf : BitVec 4) (best : Candidate) (s : State) : (commitSearch c sf best s).pp = s.pp := rfl
@[simp] theorem commitSearch_pred (c : Fin 8) (sf : BitVec 4) (best : Candidate) (s : State) : (commitSearch c sf best s).pred = s.pred.set c.val best.pred c.isLt := rfl
@[simp] theorem commitSearch_prevSf (c : Fin 8) (sf : BitVec 4) (best : Candidate) (s : State) : (commitSearch c sf best s).prevSf = s.prevSf.set c.val sf c.isLt := rfl
@[simp] theorem commitSearch_pxPrev (c : Fin 8) (sf : BitVec 4) (best : Candidate) (s : State) : (commitSearch c sf best s).pxPrev = s.pxPrev := rfl
@[simp] theorem commitSearch_cache (c : Fin 8) (sf : BitVec 4) (best : Candidate) (s : State) : (commitSearch c sf best s).cache = s.cache := rfl
@[simp] theorem commitSearch_run (c : Fin 8) (sf : BitVec 4) (best : Candidate) (s : State) : (commitSearch c sf best s).run = s.run := rfl
@[simp] theorem commitSearch_stChannels (c : Fin 8) (sf : BitVec 4) (best : Candidate) (s : State) : (commitSearch c sf best s).stChannels = s.stChannels := rfl
@[simp] theorem commitSearch_stRate (c : Fin 8) (sf : BitVec 4) (best : Candidate) (s : State) : (commitSearch c sf best s).stRate = s.stRate := rfl
@[simp] theorem commitSearch_stSamples (c : Fin 8) (sf : BitVec 4) (best : Candidate) (s : State) : (commitSearch c sf best s).stSamples = s.stSamples := rfl
@[simp] theorem commitSearch_fChannels (c : Fin 8) (sf : BitVec 4) (best : Candidate) (s : State) : (commitSearch c sf best s).fChannels = s.fChannels := rfl
@[simp] theorem commitSearch_fRate (c : Fin 8) (sf : BitVec 4) (best : Candidate) (s : State) : (commitSearch c sf best s).fRate = s.fRate := rfl
@[simp] theorem commitSearch_fSamples (c : Fin 8) (sf : BitVec 4) (best : Candidate) (s : State) : (commitSearch c sf best s).fSamples = s.fSamples := rfl
@[simp] theorem commitSearch_fSize (c : Fin 8) (sf : BitVec 4) (best : Candidate) (s : State) : (commitSearch c sf best s).fSize = s.fSize := rfl
@[simp] theorem commitSearch_fStart (c : Fin 8) (sf : BitVec 4) (best : Candidate) (s : State) : (commitSearch c sf best s).fStart = s.fStart := rfl
@[simp] theorem commitSearch_search (c : Fin 8) (sf : BitVec 4) (best : Candidate) (s : State) : (commitSearch c sf best s).search = s.search := rfl
@[simp] theorem commitSearch_hdr (c : Fin 8) (sf : BitVec 4) (best : Candidate) (s : State) : (commitSearch c sf best s).hdr = s.hdr := rfl
@[simp] theorem commitSearch_phase (c : Fin 8) (sf : BitVec 4) (best : Candidate) (s : State) : (commitSearch c sf best s).phase = s.phase := rfl
@[simp] theorem commitSearch_host (c : Fin 8) (sf : BitVec 4) (best : Candidate) (s : State) : (commitSearch c sf best s).host = s.host := rfl
@[simp] theorem commitSearch_resetLine (c : Fin 8) (sf : BitVec 4) (best : Candidate) (s : State) : (commitSearch c sf best s).resetLine = s.resetLine := rfl
@[simp] theorem commitSearch_freeCount (c : Fin 8) (sf : BitVec 4) (best : Candidate) (s : State) : (commitSearch c sf best s).freeCount = s.freeCount := rfl

/-! The start of AUD_ENC. -/

@[simp] theorem audEncStart_cfg (s : State) : (audEncStart s).cfg = s.cfg := rfl
@[simp] theorem audEncStart_cmd (s : State) : (audEncStart s).cmd = s.cmd := rfl
@[simp] theorem audEncStart_busy (s : State) : (audEncStart s).busy = s.busy := rfl
@[simp] theorem audEncStart_done (s : State) : (audEncStart s).done = s.done := rfl
@[simp] theorem audEncStart_err (s : State) : (audEncStart s).err = s.err := rfl
@[simp] theorem audEncStart_aChannels (s : State) : (audEncStart s).aChannels = s.aChannels := rfl
@[simp] theorem audEncStart_aRate (s : State) : (audEncStart s).aRate = s.aRate := rfl
@[simp] theorem audEncStart_aSamples (s : State) : (audEncStart s).aSamples = s.aSamples := rfl
@[simp] theorem audEncStart_iWidth (s : State) : (audEncStart s).iWidth = s.iWidth := rfl
@[simp] theorem audEncStart_iHeight (s : State) : (audEncStart s).iHeight = s.iHeight := rfl
@[simp] theorem audEncStart_iChtag (s : State) : (audEncStart s).iChtag = s.iChtag := rfl
@[simp] theorem audEncStart_iCstag (s : State) : (audEncStart s).iCstag = s.iCstag := rfl
@[simp] theorem audEncStart_bDesc (s : State) : (audEncStart s).bDesc = s.bDesc := rfl
@[simp] theorem audEncStart_sDesc (s : State) : (audEncStart s).sDesc = s.sDesc := rfl
@[simp] theorem audEncStart_pDesc (s : State) : (audEncStart s).pDesc = s.pDesc := rfl
@[simp] theorem audEncStart_bytes (s : State) : (audEncStart s).bytes = s.bytes := rfl
@[simp] theorem audEncStart_samples (s : State) : (audEncStart s).samples = s.samples := rfl
@[simp] theorem audEncStart_pixels (s : State) : (audEncStart s).pixels = s.pixels := rfl
@[simp] theorem audEncStart_bp (s : State) : (audEncStart s).bp = s.bp := rfl
@[simp] theorem audEncStart_sp (s : State) : (audEncStart s).sp = s.sp := rfl
@[simp] theorem audEncStart_pp (s : State) : (audEncStart s).pp = s.pp := rfl
@[simp] theorem audEncStart_pred (s : State) : (audEncStart s).pred = Vector.ofFn (fun c : Fin 8 => if c.val < s.aChannels.toNat then initPredictor s.cfg else s.pred[c.val]) := rfl
@[simp] theorem audEncStart_prevSf (s : State) : (audEncStart s).prevSf = Vector.ofFn (fun c : Fin 8 => if c.val < s.aChannels.toNat then s.cfg.initSf else s.prevSf[c.val]) := rfl
@[simp] theorem audEncStart_pxPrev (s : State) : (audEncStart s).pxPrev = s.pxPrev := rfl
@[simp] theorem audEncStart_cache (s : State) : (audEncStart s).cache = s.cache := rfl
@[simp] theorem audEncStart_run (s : State) : (audEncStart s).run = s.run := rfl
@[simp] theorem audEncStart_stChannels (s : State) : (audEncStart s).stChannels = s.aChannels := rfl
@[simp] theorem audEncStart_stRate (s : State) : (audEncStart s).stRate = s.aRate := rfl
@[simp] theorem audEncStart_stSamples (s : State) : (audEncStart s).stSamples = s.aSamples := rfl
@[simp] theorem audEncStart_fChannels (s : State) : (audEncStart s).fChannels = s.fChannels := rfl
@[simp] theorem audEncStart_fRate (s : State) : (audEncStart s).fRate = s.fRate := rfl
@[simp] theorem audEncStart_fSamples (s : State) : (audEncStart s).fSamples = s.fSamples := rfl
@[simp] theorem audEncStart_fSize (s : State) : (audEncStart s).fSize = s.fSize := rfl
@[simp] theorem audEncStart_fStart (s : State) : (audEncStart s).fStart = s.fStart := rfl
@[simp] theorem audEncStart_search (s : State) : (audEncStart s).search = s.search := rfl
@[simp] theorem audEncStart_hdr (s : State) : (audEncStart s).hdr = s.hdr := rfl
@[simp] theorem audEncStart_phase (s : State) : (audEncStart s).phase = .enc .audioHeader := rfl
@[simp] theorem audEncStart_host (s : State) : (audEncStart s).host = s.host := rfl
@[simp] theorem audEncStart_resetLine (s : State) : (audEncStart s).resetLine = s.resetLine := rfl
@[simp] theorem audEncStart_freeCount (s : State) : (audEncStart s).freeCount = s.freeCount := rfl

/-! Reset. -/

@[simp] theorem applyReset_cfg (s : State) : (applyReset s).cfg = s.cfg := rfl
@[simp] theorem applyReset_cmd (s : State) : (applyReset s).cmd = State.reset.cmd := rfl
@[simp] theorem applyReset_busy (s : State) : (applyReset s).busy = State.reset.busy := rfl
@[simp] theorem applyReset_done (s : State) : (applyReset s).done = State.reset.done := rfl
@[simp] theorem applyReset_err (s : State) : (applyReset s).err = State.reset.err := rfl
@[simp] theorem applyReset_aChannels (s : State) : (applyReset s).aChannels = State.reset.aChannels := rfl
@[simp] theorem applyReset_aRate (s : State) : (applyReset s).aRate = State.reset.aRate := rfl
@[simp] theorem applyReset_aSamples (s : State) : (applyReset s).aSamples = State.reset.aSamples := rfl
@[simp] theorem applyReset_iWidth (s : State) : (applyReset s).iWidth = State.reset.iWidth := rfl
@[simp] theorem applyReset_iHeight (s : State) : (applyReset s).iHeight = State.reset.iHeight := rfl
@[simp] theorem applyReset_iChtag (s : State) : (applyReset s).iChtag = State.reset.iChtag := rfl
@[simp] theorem applyReset_iCstag (s : State) : (applyReset s).iCstag = State.reset.iCstag := rfl
@[simp] theorem applyReset_bDesc (s : State) : (applyReset s).bDesc = State.reset.bDesc := rfl
@[simp] theorem applyReset_sDesc (s : State) : (applyReset s).sDesc = State.reset.sDesc := rfl
@[simp] theorem applyReset_pDesc (s : State) : (applyReset s).pDesc = State.reset.pDesc := rfl
@[simp] theorem applyReset_bytes (s : State) : (applyReset s).bytes = if s.busy ∧ outputOf s.cmd = some .bytes then [] else s.bytes := rfl
@[simp] theorem applyReset_samples (s : State) : (applyReset s).samples = if s.busy ∧ outputOf s.cmd = some .samples then [] else s.samples := rfl
@[simp] theorem applyReset_pixels (s : State) : (applyReset s).pixels = if s.busy ∧ outputOf s.cmd = some .pixels then [] else s.pixels := rfl
@[simp] theorem applyReset_bp (s : State) : (applyReset s).bp = State.reset.bp := rfl
@[simp] theorem applyReset_sp (s : State) : (applyReset s).sp = State.reset.sp := rfl
@[simp] theorem applyReset_pp (s : State) : (applyReset s).pp = State.reset.pp := rfl
@[simp] theorem applyReset_pred (s : State) : (applyReset s).pred = State.reset.pred := rfl
@[simp] theorem applyReset_prevSf (s : State) : (applyReset s).prevSf = State.reset.prevSf := rfl
@[simp] theorem applyReset_pxPrev (s : State) : (applyReset s).pxPrev = State.reset.pxPrev := rfl
@[simp] theorem applyReset_cache (s : State) : (applyReset s).cache = State.reset.cache := rfl
@[simp] theorem applyReset_run (s : State) : (applyReset s).run = State.reset.run := rfl
@[simp] theorem applyReset_stChannels (s : State) : (applyReset s).stChannels = State.reset.stChannels := rfl
@[simp] theorem applyReset_stRate (s : State) : (applyReset s).stRate = State.reset.stRate := rfl
@[simp] theorem applyReset_stSamples (s : State) : (applyReset s).stSamples = State.reset.stSamples := rfl
@[simp] theorem applyReset_fChannels (s : State) : (applyReset s).fChannels = State.reset.fChannels := rfl
@[simp] theorem applyReset_fRate (s : State) : (applyReset s).fRate = State.reset.fRate := rfl
@[simp] theorem applyReset_fSamples (s : State) : (applyReset s).fSamples = State.reset.fSamples := rfl
@[simp] theorem applyReset_fSize (s : State) : (applyReset s).fSize = State.reset.fSize := rfl
@[simp] theorem applyReset_fStart (s : State) : (applyReset s).fStart = State.reset.fStart := rfl
@[simp] theorem applyReset_search (s : State) : (applyReset s).search = State.reset.search := rfl
@[simp] theorem applyReset_hdr (s : State) : (applyReset s).hdr = State.reset.hdr := rfl
@[simp] theorem applyReset_phase (s : State) : (applyReset s).phase = State.reset.phase := rfl
@[simp] theorem applyReset_host (s : State) : (applyReset s).host = s.host := rfl
@[simp] theorem applyReset_resetLine (s : State) : (applyReset s).resetLine = State.reset.resetLine := rfl
@[simp] theorem applyReset_freeCount (s : State) : (applyReset s).freeCount = s.freeCount := rfl

end Sys2Proof.Machine
end

