-- ==== Sys2Proof/Laws/Memory.lean ====
section
/-! SUPPORT. The laws of a buffer space: a read after writes, the canonical form kept, and the index range kept. -/

namespace Sys2Proof.Machine

variable {α : Type}

/-! ## Read after write -/

@[simp] theorem Space.read_nil (a : Nat) : Space.read ([] : Space α) a = none := rfl

/-- A read after one write: the value written at its index, the old one elsewhere. -/
@[simp] theorem Space.read_write (m : Space α) (k : Nat) (v : α) (a : Nat) :
    Space.read (Space.write m k v) a = if a = k then some v else Space.read m a := by
  induction m with
  | nil => simp [Space.write, Space.read, eq_comm]
  | cons e rest ih =>
    obtain ⟨l, u⟩ := e
    have head (x : Nat) (w : α) (m : Space α) :
        Space.read ((x, w) :: m) a = if a = x then some w else Space.read m a := by
      simp [Space.read, eq_comm]
    simp only [Space.write]
    rcases Nat.lt_trichotomy k l with hlt | rfl | hgt
    · rw [if_pos hlt, head]
    · rw [if_neg (by omega), if_pos rfl, head, head]
      by_cases h : a = k <;> simp [h]
    · rw [if_neg (by omega), if_neg (by omega), head, head, ih]
      by_cases h : a = l
      · rw [if_pos h, if_pos h, if_neg (by omega)]
      · rw [if_neg h, if_neg h]

theorem Space.writeAll_cons (m : Space α) (w : Nat × α) (ws : List (Nat × α)) :
    Space.writeAll m (w :: ws) = Space.writeAll (Space.write m w.1 w.2) ws := rfl

/-- Writes leave every index they do not name alone. -/
theorem Space.read_writeAll_of_notMem (ws : List (Nat × α)) (m : Space α) (a : Nat)
    (h : ∀ w ∈ ws, w.1 ≠ a) : Space.read (Space.writeAll m ws) a = Space.read m a := by
  induction ws generalizing m with
  | nil => rfl
  | cons w ws ih =>
    rw [Space.writeAll_cons, ih _ (fun x hx => h x (List.mem_cons_of_mem _ hx)), Space.read_write,
      if_neg (fun e => h w List.mem_cons_self e.symm)]

/-- Writes to indices that all differ: each index holds what was written to it. -/
theorem Space.read_writeAll_of_mem (ws : List (Nat × α)) (m : Space α) (a : Nat) (v : α)
    (hn : (ws.map Prod.fst).Nodup) (h : (a, v) ∈ ws) : Space.read (Space.writeAll m ws) a = some v := by
  induction ws generalizing m with
  | nil => cases h
  | cons w ws ih =>
    rw [Space.writeAll_cons]
    rw [List.map_cons, List.nodup_cons] at hn
    rcases List.mem_cons.mp h with rfl | h
    · rw [Space.read_writeAll_of_notMem _ _ _ (fun x hx e => hn.1 (List.mem_map.mpr ⟨x, hx, e⟩))]
      simp
    · exact ih _ hn.2 h

/-! ## Consecutive writes -/

theorem length_indices (a n : Nat) : (indices a n).length = n := by simp [indices]

theorem mem_indices (a n k : Nat) : k ∈ indices a n ↔ a ≤ k ∧ k < a + n := by
  simp only [indices, List.mem_map, List.mem_range]
  constructor
  · rintro ⟨j, hj, rfl⟩; omega
  · rintro ⟨h1, h2⟩; exact ⟨k - a, by omega, by omega⟩

theorem map_fst_placed (a : Nat) (vs : List α) : (placed a vs).map Prod.fst = indices a vs.length := by
  rw [placed, List.map_fst_zip]; simp [length_indices]

theorem nodup_indices (a n : Nat) : (indices a n).Nodup :=
  List.Nodup.map (fun x y h => by simpa using h) List.nodup_range

/-- Consecutive writes: inside the written range the value written, outside it the old one. -/
theorem Space.read_placed (m : Space α) (a : Nat) (vs : List α) (k : Nat) :
    Space.read (Space.writeAll m (placed a vs)) k =
      if h : a ≤ k ∧ k < a + vs.length then some (vs[k - a]'(by omega)) else Space.read m k := by
  split
  · rename_i h
    refine Space.read_writeAll_of_mem _ _ _ _ (by rw [map_fst_placed]; exact nodup_indices _ _) ?_
    rw [placed, List.mem_iff_getElem]
    refine ⟨k - a, by simp [length_indices]; omega, ?_⟩
    simp [indices]; omega
  · rename_i h
    refine Space.read_writeAll_of_notMem _ _ _ (fun w hw e => h ?_)
    rw [← mem_indices, ← map_fst_placed, ← e]
    exact List.mem_map.mpr ⟨w, hw, rfl⟩

/-! ## The canonical form -/

/-- A canonical space stays so behind its first entry. -/
theorem Space.wf_tail {e : Nat × α} {rest : Space α} (h : Space.wf (e :: rest) = true) : Space.wf rest = true := by
  cases rest with
  | nil => rfl
  | cons f rest => obtain ⟨k, u⟩ := e; obtain ⟨l, v⟩ := f; simp [Space.wf] at h; exact h.2

/-- Consing below a canonical space's head keeps the form. -/
theorem Space.wf_cons {k : Nat} {v : α} {m : Space α} (h : Space.wf m = true)
    (hk : ∀ e ∈ m.head?, k < e.1) : Space.wf ((k, v) :: m) = true := by
  cases m with
  | nil => rfl
  | cons e rest => obtain ⟨l, u⟩ := e; simp [Space.wf] at hk ⊢; exact ⟨hk, h⟩

/-- The head of a written space is the old head or the written index. -/
theorem Space.head_write (m : Space α) (k : Nat) (v : α) (e : Nat × α) (h : e ∈ (Space.write m k v).head?) :
    e.1 = k ∨ ∃ f ∈ m.head?, f.1 = e.1 ∧ f.1 < k := by
  cases m with
  | nil => simp [Space.write] at h; left; rw [← h]
  | cons f rest =>
    obtain ⟨l, u⟩ := f
    simp only [Space.write] at h
    split_ifs at h with h1 h2
    · simp at h; left; rw [← h]
    · simp at h; left; rw [← h]
    · simp at h; right; exact ⟨(l, u), by simp, by rw [← h], by simp; omega⟩

/-- A write keeps the canonical form. -/
theorem Space.wf_write (m : Space α) (k : Nat) (v : α) (h : Space.wf m = true) :
    Space.wf (Space.write m k v) = true := by
  induction m with
  | nil => rfl
  | cons e rest ih =>
    obtain ⟨l, u⟩ := e
    simp only [Space.write]
    split_ifs with h1 h2
    · exact Space.wf_cons h (by simp; exact h1)
    · subst h2
      refine Space.wf_cons (Space.wf_tail h) ?_
      cases rest with
      | nil => simp
      | cons f rest => obtain ⟨j, w⟩ := f; simp [Space.wf] at h ⊢; exact h.1
    · refine Space.wf_cons (ih (Space.wf_tail h)) (fun e he => ?_)
      rcases Space.head_write _ _ _ _ he with hk | ⟨f, hf, hfe, _⟩
      · omega
      · rw [← hfe]
        cases rest with
        | nil => cases hf
        | cons g rest => obtain ⟨j, w⟩ := g; simp [Space.wf] at h hf; rw [← hf]; exact h.1

/-- Writes keep the canonical form. -/
theorem Space.wf_writeAll (ws : List (Nat × α)) (m : Space α) (h : Space.wf m = true) :
    Space.wf (Space.writeAll m ws) = true := by
  induction ws generalizing m with
  | nil => exact h
  | cons w ws ih => exact ih _ (Space.wf_write _ _ _ h)

/-- The entries of a written space are the old ones and the written one. -/
theorem Space.mem_write (m : Space α) (k : Nat) (v : α) (e : Nat × α) (h : e ∈ Space.write m k v) :
    e = (k, v) ∨ e ∈ m := by
  induction m with
  | nil => simpa [Space.write] using h
  | cons f rest ih =>
    obtain ⟨l, u⟩ := f
    simp only [Space.write] at h
    split_ifs at h with h1 h2
    · simpa using h
    · rcases List.mem_cons.mp h with h | h
      · exact .inl h
      · exact .inr (List.mem_cons_of_mem _ h)
    · rcases List.mem_cons.mp h with h | h
      · exact .inr (by rw [h]; exact List.mem_cons_self)
      · rcases ih h with h | h
        · exact .inl h
        · exact .inr (List.mem_cons_of_mem _ h)

/-- The entries of a space after writes are the old ones and written ones. -/
theorem Space.mem_writeAll (ws : List (Nat × α)) (m : Space α) (e : Nat × α) (h : e ∈ Space.writeAll m ws) :
    e ∈ ws ∨ e ∈ m := by
  induction ws generalizing m with
  | nil => exact .inr h
  | cons w ws ih =>
    rcases ih _ h with h | h
    · exact .inl (List.mem_cons_of_mem _ h)
    · rcases Space.mem_write _ _ _ _ h with h | h
      · exact .inl (by rw [h]; exact List.mem_cons_self)
      · exact .inr h

/-! ## Reading an input -/

/-- A read element lies below the length and is listed. -/
theorem readElem_ok {m : Space α} {len : BitVec 32} {i : Nat} {v : α} (h : readElem m len i = .ok v) :
    i < len.toNat ∧ Space.read m i = some v := by
  unfold readElem at h
  split at h
  · cases h
  · split at h
    · cases h
    · cases h; exact ⟨by omega, by assumption⟩

/-- Read elements: each index below the length, each value the one listed, in order. -/
theorem readMany_ok {m : Space α} {len : BitVec 32} {is : List Nat} {vs : List α} (h : readMany m len is = .ok vs) :
    (∀ i ∈ is, i < len.toNat) ∧ is.map (Space.read m) = vs.map some := by
  induction is generalizing vs with
  | nil => cases h; simp
  | cons i is ih =>
    unfold readMany at h
    split at h
    · cases h
    · rename_i v hv
      split at h
      · cases h
      · rename_i ws hws
        cases h
        obtain ⟨h1, h2⟩ := readElem_ok hv
        obtain ⟨h3, h4⟩ := ih hws
        exact ⟨by simpa using ⟨h1, h3⟩, by simp [h2, h4]⟩

/-- As many elements are read as indices are asked for. -/
theorem length_readMany {m : Space α} {len : BitVec 32} {is : List Nat} {vs : List α}
    (h : readMany m len is = .ok vs) : vs.length = is.length := by
  have h2 := congrArg List.length (readMany_ok h).2
  simpa using h2.symm

/-- A run of bytes that was read lies below the input's length. -/
theorem readBytes_ok {s : State} {a n : Nat} {bs : List Byte} (h : readBytes s a n = .ok bs) :
    bs.length = n ∧ (0 < n → a + n ≤ s.bDesc.len.toNat) := by
  refine ⟨by rw [length_readMany h, length_indices], fun hn => ?_⟩
  have h1 := (readMany_ok h).1 (a + n - 1) ((mem_indices _ _ _).mpr ⟨by omega, by omega⟩)
  omega

end Sys2Proof.Machine
end

