-- ==== Sys2Proof/Laws/Ops.lean ====
section
/-! SUPPORT. One lemma per shared operation that says everything it can do. -/

namespace Sys2Proof.Machine

variable {s t : State}

/-! ## Checks, errors and emission -/

/-- The first failing check: its predecessors hold and it fails. -/
theorem firstError_some {checks : List (Bool × ErrKind)} {e : ErrKind} (h : firstError checks = some e) :
    ∃ before after, checks = before ++ (true, e) :: after ∧ ∀ c ∈ before, c.1 = false := by
  induction checks with
  | nil => cases h
  | cons c rest ih =>
    obtain ⟨fails, k⟩ := c
    simp only [firstError] at h
    split at h
    · rename_i hf; cases h; exact ⟨[], rest, by simp [hf], by simp⟩
    · rename_i hf
      obtain ⟨b, a, rfl, hb⟩ := ih h
      exact ⟨(fails, k) :: b, a, rfl, by simpa [hf] using hb⟩

/-- No check fails. -/
theorem firstError_none {checks : List (Bool × ErrKind)} : firstError checks = none ↔ ∀ c ∈ checks, c.1 = false := by
  induction checks with
  | nil => simp [firstError]
  | cons c rest ih =>
    obtain ⟨fails, k⟩ := c
    simp only [firstError]
    cases fails <;> simp [ih]

/-- Checked effects always complete: with the first error, or with the effect. -/
theorem checked_cases (checks : List (Bool × ErrKind)) (s effect : State) :
    (∃ e, firstError checks = some e ∧ checked checks s effect = .next (raiseErr e s)) ∨
    (firstError checks = none ∧ checked checks s effect = .next effect) := by
  unfold checked
  cases h : firstError checks with
  | some e => exact .inl ⟨e, rfl, rfl⟩
  | none => exact .inr ⟨rfl, rfl⟩

/-- Emission: with room the bytes and then the effect, else `E_MEMORY`. -/
theorem emitThen_cases (bs : List Byte) (s : State) (effect : State → State) :
    (hasRoom s bs.length = true ∧ emitThen bs s effect = .next (effect (emitted bs s))) ∨
    (hasRoom s bs.length = false ∧ emitThen bs s effect = .next (raiseErr .eMemory s)) := by
  unfold emitThen
  cases h : hasRoom s bs.length
  · exact .inr ⟨rfl, rfl⟩
  · exact .inl ⟨rfl, rfl⟩

/-- What the output holds after an emission. -/
theorem read_emitted (bs : List Byte) (s : State) (k : Nat) :
    Space.read (emitted bs s).bytes k =
      if h : s.bp.toNat ≤ k ∧ k < s.bp.toNat + bs.length then some (bs[k - s.bp.toNat]'(by omega))
      else Space.read s.bytes k := by
  rw [emitted_bytes, Space.read_placed]

/-- With room, the cursor moves by the bytes emitted and does not wrap. -/
theorem bp_emitted {bs : List Byte} (h : hasRoom s bs.length = true) :
    (emitted bs s).bp.toNat = s.bp.toNat + bs.length ∧ (emitted bs s).bp.toNat ≤ s.bDesc.cap.toNat := by
  have h1 : s.bp.toNat + bs.length ≤ s.bDesc.cap.toNat := by simpa [hasRoom] using h
  have h2 := s.bDesc.cap.isLt
  have : (emitted bs s).bp.toNat = s.bp.toNat + bs.length := by
    rw [emitted_bp, BitVec.toNat_add, BitVec.toNat_ofNat]; omega
  exact ⟨this, by omega⟩

/-- Stored samples: all below the capacity, and only `S` changes. -/
theorem storeSamples_ok {ws : List (Nat × BitVec 16)} (h : storeSamples ws s = .ok t) :
    (∀ w ∈ ws, w.1 < s.sDesc.cap.toNat) ∧ t = { s with samples := Space.writeAll s.samples ws } := by
  unfold storeSamples at h
  split at h
  · rename_i hw; cases h; exact ⟨by simpa using hw, rfl⟩
  · cases h

/-- A pixel is produced where `P` has room for it. -/
theorem producePixel_next (h : producePixel s = .next t) :
    s.pp.toNat < s.pDesc.cap.toNat ∧ t = pixelProduced s := by
  unfold producePixel at h
  split at h
  · cases h
  · cases h; exact ⟨by omega, rfl⟩

/-- A command runs only while the block is not busy. -/
theorem whenIdle_next {o : Out} (h : whenIdle s o = .next t) : s.busy = false ∧ o = .next t := by
  unfold whenIdle at h
  cases hb : s.busy
  · exact ⟨rfl, by simpa [hb] using h⟩
  · simp [hb] at h

/-- A pixel coded by an opcode: read, and then emitted or out of room. -/
theorem emitPixel_next {i : Instr} (h : emitPixel i s = .next t) :
    ∃ px, readPixel s = .ok px ∧
      ((hasRoom s (encode s.cfg.image i).length = true ∧ t = pixelCoded px (emitted (encode s.cfg.image i) s)) ∨ t = raiseErr .eMemory s) := by
  unfold emitPixel at h
  split at h
  · cases h
  · rename_i px hpx
    refine ⟨px, hpx, ?_⟩
    rcases emitThen_cases (encode s.cfg.image i) s (pixelCoded px) with ⟨hr, he⟩ | ⟨_, he⟩ <;> rw [he] at h <;> cases h
    · exact .inl ⟨hr, rfl⟩
    · exact .inr rfl

/-- A pixel coded on a cache miss: the same, with its slot written. -/
theorem emitMissedPixel_next {i : Instr} (h : emitMissedPixel i s = .next t) :
    ∃ px, readPixel s = .ok px ∧
      ((hasRoom s (encode s.cfg.image i).length = true ∧
          t = pixelCoded px (emitted (encode s.cfg.image i) { s with cache := cacheStore s.cache px })) ∨
        t = raiseErr .eMemory { s with cache := cacheStore s.cache px }) := by
  unfold emitMissedPixel at h
  split at h
  · cases h
  · rename_i px hpx
    refine ⟨px, hpx, ?_⟩
    rcases emitThen_cases (encode s.cfg.image i) { s with cache := cacheStore s.cache px } (pixelCoded px) with ⟨hr, he⟩ | ⟨_, he⟩ <;>
      rw [he] at h <;> cases h
    · exact .inl ⟨hr, rfl⟩
    · exact .inr rfl

/-- A flushed run: the pixel at the cursor is coded with it exactly when it continues the run. -/
theorem flushRun_next {i : Instr} (h : flushRun i s = .next t) :
    ∃ px, readPixel s = .ok px ∧
      ((hasRoom s (encode s.cfg.image i).length = true ∧
          t = if px = s.pxPrev then pixelCoded px (emitted (encode s.cfg.image i) { s with run := 0 })
              else emitted (encode s.cfg.image i) { s with run := 0 }) ∨
        t = raiseErr .eMemory { s with run := 0 }) := by
  unfold flushRun at h
  split at h
  · cases h
  · rename_i px hpx
    refine ⟨px, hpx, ?_⟩
    rcases emitThen_cases (encode s.cfg.image i) { s with run := 0 } (fun s1 => if px = s.pxPrev then pixelCoded px s1 else s1)
      with ⟨hr, he⟩ | ⟨_, he⟩ <;> rw [he] at h <;> cases h
    · exact .inl ⟨hr, rfl⟩
    · exact .inr rfl

/-! ## The cache -/

/-- What a slot holds after a store: the pixel at its own hash, the old pixel elsewhere. -/
@[simp] theorem cacheSlot_cacheStore (cache : Vector Pixel 64) (px : Pixel) (k : BitVec 6) :
    cacheSlot (cacheStore cache px) k = if k = pixelHash px then px else cacheSlot cache k := by
  unfold cacheSlot cacheStore
  rw [Vector.getElem_set]
  by_cases h : k = pixelHash px
  · simp [h]
  · rw [if_neg h, if_neg (fun e => h (BitVec.eq_of_toNat_eq e.symm))]

/-- Every slot of the cleared cache is (0, 0, 0, 0). -/
@[simp] theorem cacheSlot_clearCache (k : BitVec 6) : cacheSlot clearCache k = Pixel.zero := by
  simp [cacheSlot, clearCache]

/-- Storing a pixel where it already stands changes nothing. -/
theorem cacheStore_of_hit {cache : Vector Pixel 64} {px : Pixel} (h : cacheSlot cache (pixelHash px) = px) :
    cacheStore cache px = cache := by
  unfold cacheStore
  refine Vector.ext (fun i hi => ?_)
  rw [Vector.getElem_set]
  split
  · rename_i e; subst e; exact h.symm
  · rfl

/-! ## Going on in a frame -/

/-- Where a decoder stands after a unit of a frame. -/
theorem decodeOnward_cases (next : Option Place) (s : State) :
    (∃ p, next = some p ∧ decodeOnward next s = { s with phase := .dec p }) ∨
    (next = none ∧ decodeOnward next s =
      { s with sp := advanceSamples s, bp := frameEndCursor s, phase := .dec .frame }) := by
  cases next with
  | some p => exact .inl ⟨p, rfl, rfl⟩
  | none => exact .inr ⟨rfl, rfl⟩

/-- Where an encoder stands after a unit of a frame. -/
theorem encodeOnward_cases (next : Option Place) (s : State) :
    (∃ p, next = some p ∧ encodeOnward next s = { s with search := Search.start, phase := .enc p }) ∨
    (next = none ∧ encodeOnward next s =
      { s with sp := advanceSamples s, search := Search.start, phase := .enc .frame }) := by
  cases next with
  | some p => exact .inl ⟨p, rfl, rfl⟩
  | none => exact .inr ⟨rfl, rfl⟩

/-- The cursor after a frame is where it stands or the declared end, as the configuration says. -/
theorem frameEndCursor_eq (s : State) :
    frameEndCursor s = if s.cfg.frameAdvance = .consumed then s.bp else s.fStart + s.fSize.setWidth 32 := by
  unfold frameEndCursor
  cases s.cfg.frameAdvance <;> rfl

/-- The cursor after a frame is one of the two. -/
theorem frameEndCursor_cases (s : State) :
    frameEndCursor s = s.bp ∨ frameEndCursor s = s.fStart + s.fSize.setWidth 32 := by
  rw [frameEndCursor_eq]
  split
  · exact .inl rfl
  · exact .inr rfl

end Sys2Proof.Machine
end

