-- ==== Sys2Proof/Laws/Decode.lean ====
section
/-! SUPPORT. What decoding at each place of a stream can answer. -/

namespace Sys2Proof

variable {f : ImageFormat}

/-- What a well-formed format says of its tags. -/
theorem ImageFormat.wf_iff : f.wf = true ↔
    [f.tagIndex, f.tagDiff, f.tagLuma, f.tagRun].Nodup ∧ f.tagRgb ≠ f.tagRgba ∧
      (opTag f.tagRgb = f.tagRun ∧ 62 ≤ (opLow f.tagRgb).toNat) ∧
      opTag f.tagRgba = f.tagRun ∧ 62 ≤ (opLow f.tagRgba).toNat := by
  simp only [ImageFormat.wf, Bool.and_eq_true, decide_eq_true_eq, List.all_cons, List.all_nil, and_true, and_assoc]

/-- A byte is its tag and its low six bits. -/
theorem byte_ext {x y : Byte} (h1 : opTag x = opTag y) (h2 : (opLow x).toNat = (opLow y).toNat) : x = y := by
  have h3 := congrArg BitVec.toNat h1
  simp only [opTag, opLow, BitVec.extractLsb'_toNat, Nat.shiftRight_eq_div_pow] at h2 h3
  exact BitVec.eq_of_toNat_eq (by omega)

/-- Four distinct 2-bit tags are all there are. -/
theorem tag_cases (hf : f.wf = true) (t : BitVec 2) :
    t = f.tagIndex ∨ t = f.tagDiff ∨ t = f.tagLuma ∨ t = f.tagRun := by
  have h := (ImageFormat.wf_iff.mp hf).1
  revert h
  generalize f.tagIndex = a
  generalize f.tagDiff = b
  generalize f.tagLuma = c
  generalize f.tagRun = d
  revert t a b c d
  decide +kernel

/-- What an opcode's bytes can decode to: one of the six opcodes, of the length its first byte tells; a RUN has 1 .. 62
units where the literal tags take the two other values of its field. -/
theorem decodeOpcode_cases {op : Byte} {bs rest : List Byte} {i : Instr}
    (h : decode f .opcode (op :: bs) = .ok i rest) :
    unitLength i = opcodeLength f op ∧
      ((∃ r g b, i = .rgb r g b) ∨ (∃ r g b a, i = .rgba r g b a) ∨ (∃ slot, i = .index slot) ∨
        (∃ dr dg db, i = .diff dr dg db) ∨ (∃ dg drg dbg, i = .luma dg drg dbg) ∨
        ∃ n, 1 ≤ n ∧ n ≤ 64 ∧ (f.wf = true → n ≤ 62) ∧ i = .run n) := by
  simp only [decode, decodeOpcode] at h
  split at h
  · rename_i h1
    split at h
    · cases h; exact ⟨by simp [opcodeLength, h1, rgbOf, unitLength], .inl ⟨_, _, _, rfl⟩⟩
    · cases h
  rename_i h1
  split at h
  · rename_i h2
    split at h
    · cases h; exact ⟨by simp [opcodeLength, h1, ← h2, rgbaOf, unitLength], .inr (.inl ⟨_, _, _, _, rfl⟩)⟩
    · cases h
  rename_i h2
  have hlen : opcodeLength f op =
      if opTag op = f.tagIndex ∨ opTag op = f.tagDiff then 1 else if opTag op = f.tagLuma then 2 else 1 := by
    simp [opcodeLength, h1, h2]
  split at h
  · rename_i h3
    cases h; rw [hlen, if_pos (.inl h3)]; exact ⟨rfl, .inr (.inr (.inl ⟨_, rfl⟩))⟩
  rename_i h3
  split at h
  · rename_i h4
    cases h; rw [hlen, if_pos (.inr h4)]; exact ⟨rfl, .inr (.inr (.inr (.inl ⟨_, _, _, rfl⟩)))⟩
  rename_i h4
  rw [if_neg (by simp [h3, h4])] at hlen
  split at h
  · rename_i h5
    split at h
    · cases h; rw [hlen, if_pos h5]; exact ⟨rfl, .inr (.inr (.inr (.inr (.inl ⟨_, _, _, rfl⟩))))⟩
    · cases h
  rename_i h5
  split at h
  · rename_i h6
    cases h; rw [hlen, if_neg h5]
    have h7 := (opLow op).isLt
    refine ⟨rfl, .inr (.inr (.inr (.inr (.inr ⟨_, by omega, by omega, fun hf => ?_, rfl⟩))))⟩
    obtain ⟨-, hne, ⟨ha, ha'⟩, hb, hb'⟩ := ImageFormat.wf_iff.mp hf
    have h8 := (opLow f.tagRgb).isLt
    have h9 := (opLow f.tagRgba).isLt
    by_contra hlong
    have e1 : (opLow op).toNat ≠ (opLow f.tagRgb).toNat := fun e => h1 (byte_ext (h6.trans ha.symm) e)
    have e2 : (opLow op).toNat ≠ (opLow f.tagRgba).toNat := fun e => h2 (byte_ext (h6.trans hb.symm) e)
    have e3 : (opLow f.tagRgb).toNat ≠ (opLow f.tagRgba).toNat := fun e => hne (byte_ext (ha.trans hb.symm) e)
    omega
  · cases h

/-- The length of an opcode is 1 to 5 bytes. -/
theorem opcodeLength_range (f : ImageFormat) (op : Byte) : 1 ≤ opcodeLength f op ∧ opcodeLength f op ≤ 5 := by
  unfold opcodeLength; split_ifs <;> omega

/-- An image header decodes to `QOIF` and nothing else. -/
theorem decode_imageHeader_ok {bs rest : List Byte} {i : Instr} (h : decode f .imageHeader bs = .ok i rest) :
    ∃ width height chtag cstag, i = .qoif width height chtag cstag := by
  simp only [decode, decodeImageHeader] at h
  split at h
  · cases h
  split at h
  · cases h
  split at h
  · split at h
    · cases h; exact ⟨_, _, _, _, rfl⟩
    · cases h
  · cases h

/-- Eight bytes are a word. -/
theorem takeWord64_of_length {bs : List Byte} (h : bs.length = 8) : ∃ w, takeWord64 bs = some (w, []) := by
  match bs, h with
  | [_, _, _, _, _, _, _, _], _ => exact ⟨_, rfl⟩

/-- An audio stream header decodes to `QOAF` and nothing else. -/
theorem decode_audioHeader_ok {bs rest : List Byte} {i : Instr} (h : decode f .audioHeader bs = .ok i rest) :
    ∃ samples, i = .qoaf samples := by
  simp only [decode, unitOfWord] at h
  split at h
  · cases h
  · split at h
    · cases h; exact ⟨_, rfl⟩
    · cases h

/-- Eight bytes at a frame header decode to `FRAME`. -/
theorem decode_frameHeader {bs : List Byte} (h : bs.length = 8) :
    ∃ channels rate fsamples fsize, decode f .frameHeader bs = .ok (.frame channels rate fsamples fsize) [] := by
  obtain ⟨w, hw⟩ := takeWord64_of_length h
  exact ⟨_, _, _, _, by simp only [decode, hw, unitOfWord, frameOfWord]; rfl⟩

/-- Eight bytes at a history word decode to `HIST`. -/
theorem decode_history {bs : List Byte} (h : bs.length = 8) :
    ∃ h0 h1 h2 h3, decode f .history bs = .ok (.hist h0 h1 h2 h3) [] := by
  obtain ⟨w, hw⟩ := takeWord64_of_length h
  exact ⟨_, _, _, _, by simp only [decode, hw, unitOfWord]; rfl⟩

/-- Eight bytes at a weights word decode to `WGHT`. -/
theorem decode_weights {bs : List Byte} (h : bs.length = 8) :
    ∃ w0 w1 w2 w3, decode f .weights bs = .ok (.wght w0 w1 w2 w3) [] := by
  obtain ⟨w, hw⟩ := takeWord64_of_length h
  exact ⟨_, _, _, _, by simp only [decode, hw, unitOfWord]; rfl⟩

/-- Eight bytes at a slice of `m` samples decode to `SLICE` with `m` codes. -/
theorem decode_slice {bs : List Byte} (m : Nat) (h : bs.length = 8) :
    ∃ sf codes, codes.length = m ∧ decode f (.slice m) bs = .ok (.slice sf codes) [] := by
  obtain ⟨w, hw⟩ := takeWord64_of_length h
  exact ⟨w.extractLsb' 60 4, sliceCodes w m, by simp [sliceCodes], by simp only [decode, hw, unitOfWord]⟩

end Sys2Proof
end

