-- ==== Sys2Proof/Laws/PerInstr.lean ====
section
/-! SUPPORT. A law of every instruction, one lemma per constructor: a well-formed instruction's encoding has the length
its row gives it (30_encoding.md R90, R98). -/

namespace Sys2Proof.Laws

/-- Under any image format a well-formed instruction encodes to as many bytes as its unit has. -/
def EncodeLength.Statement : Instr → Prop := fun i => ∀ f : ImageFormat, i.wf = true → (encode f i).length = unitLength i

theorem EncodeLength.rgb (r g b : Byte) : EncodeLength.Statement (.rgb r g b) := fun _ _ => rfl
theorem EncodeLength.rgba (r g b a : Byte) : EncodeLength.Statement (.rgba r g b a) := fun _ _ => rfl
theorem EncodeLength.index (slot : BitVec 6) : EncodeLength.Statement (.index slot) := fun _ _ => rfl
theorem EncodeLength.diff (dr dg db : Int) : EncodeLength.Statement (.diff dr dg db) := fun _ _ => rfl
theorem EncodeLength.luma (dg drg dbg : Int) : EncodeLength.Statement (.luma dg drg dbg) := fun _ _ => rfl
theorem EncodeLength.run (length : Nat) : EncodeLength.Statement (.run length) := fun _ _ => rfl
theorem EncodeLength.qoif (width height : BitVec 32) (chtag cstag : Byte) : EncodeLength.Statement (.qoif width height chtag cstag) := fun _ _ => rfl
theorem EncodeLength.footer : EncodeLength.Statement .footer := fun _ _ => rfl
theorem EncodeLength.qoaf (samples : BitVec 32) : EncodeLength.Statement (.qoaf samples) := fun _ _ => rfl
theorem EncodeLength.frame (channels : BitVec 8) (rate : BitVec 24) (fsamples fsize : BitVec 16) : EncodeLength.Statement (.frame channels rate fsamples fsize) := fun _ _ => rfl
theorem EncodeLength.hist (h0 h1 h2 h3 : BitVec 16) : EncodeLength.Statement (.hist h0 h1 h2 h3) := fun _ _ => rfl
theorem EncodeLength.wght (w0 w1 w2 w3 : BitVec 16) : EncodeLength.Statement (.wght w0 w1 w2 w3) := fun _ _ => rfl
theorem EncodeLength.slice (sf : BitVec 4) (codes : List (BitVec 3)) : EncodeLength.Statement (.slice sf codes) := fun _ _ => rfl
theorem EncodeLength.nop : EncodeLength.Statement .nop := fun _ _ => rfl
theorem EncodeLength.audEnc : EncodeLength.Statement .audEnc := fun _ _ => rfl
theorem EncodeLength.audDec : EncodeLength.Statement .audDec := fun _ _ => rfl
theorem EncodeLength.imgEnc : EncodeLength.Statement .imgEnc := fun _ _ => rfl
theorem EncodeLength.imgDec : EncodeLength.Statement .imgDec := fun _ _ => rfl
theorem EncodeLength.reserved5 : EncodeLength.Statement .reserved5 := fun _ _ => rfl
theorem EncodeLength.reserved6 : EncodeLength.Statement .reserved6 := fun _ _ => rfl
theorem EncodeLength.reserved7 : EncodeLength.Statement .reserved7 := fun _ _ => rfl

end Sys2Proof.Laws
end

