-- ==== Sys2Proof/Laws/Step.lean ====
section
/-! SUPPORT. What a step is: the turn it takes, and the unit a place can hold. -/

namespace Sys2Proof.Machine

variable {s t : State}

/-- A step runs an instruction or takes a quiet turn. -/
theorem step_cases (s : State) :
    (∃ i s1, turn s = .run i s1 ∧ step s = exec i s1) ∨ (∃ o, turn s = .quiet o ∧ step s = o) := by
  unfold step
  cases h : turn s with
  | run i s1 => exact .inl ⟨i, s1, rfl, rfl⟩
  | quiet o => exact .inr ⟨o, rfl, rfl⟩

/-- With the reset signal asserted a step is the reset. -/
theorem step_of_reset (h : s.resetLine = true) : step s = .next (applyReset s) := by
  simp [step, turn, h]

/-- Without it, an idle block takes the host's next move. -/
theorem turn_idle (hr : s.resetLine = false) (h : s.phase = .idle) : turn s = hostTurn s := by
  simp [turn, hr, h]

/-- A decoder takes the turn of its place. -/
theorem turn_dec {p : Place} (hr : s.resetLine = false) (h : s.phase = .dec p) : turn s = decodeTurn s p := by
  simp [turn, hr, h]

/-- An encoder takes the turn of its place. -/
theorem turn_enc {p : Place} (hr : s.resetLine = false) (h : s.phase = .enc p) : turn s = encodeTurn s p := by
  simp [turn, hr, h]

/-- What a fetched turn is. -/
theorem fetchedTurn_run {f : Fetched} {i : Instr} {s1 : State} (h : fetchedTurn s f = .run i s1) :
    f = .unit i ∧ s1 = s := by
  cases f <;> simp [fetchedTurn] at h
  exact ⟨by rw [h.1], h.2.symm⟩

/-- What a fetch of bytes answers when it answers a unit. -/
theorem fetchAt_unit {k : UnitKind} {a n : Nat} {i : Instr} (h : fetchAt s k a n = .unit i) :
    ∃ bs rest, readBytes s a n = .ok bs ∧ decode s.cfg.image k bs = .ok i rest := by
  unfold fetchAt at h
  split at h
  · cases h
  · rename_i bs hbs
    split at h
    · rename_i j rest hj; cases h; exact ⟨bs, rest, hbs, hj⟩
    · cases h

end Sys2Proof.Machine
end

