-- ==== Sys2Proof/Laws/Turns.lean ====
section
/-! SUPPORT. What a step does at each place of a stream: one lemma per place that says everything the next state can
be. -/

namespace Sys2Proof.Machine

variable {s t : State}

/-! ## Reading -/

/-- What remains of the input, as a number. -/
theorem hasBytes_iff (s : State) (n : Nat) : hasBytes s n = true ↔ s.bp.toNat + n ≤ s.bDesc.len.toNat := by
  simp [hasBytes]

/-- What room remains in the output, as a number. -/
theorem hasRoom_iff (s : State) (n : Nat) : hasRoom s n = true ↔ s.bp.toNat + n ≤ s.bDesc.cap.toNat := by
  simp [hasRoom]

/-- A fetched word is eight bytes that lie before the input's end. -/
theorem fetchAt_word {k : UnitKind} {i : Instr} (h : fetchAt s k s.bp.toNat 8 = .unit i) :
    s.bp.toNat + 8 ≤ s.bDesc.len.toNat ∧ ∃ bs rest, bs.length = 8 ∧ decode s.cfg.image k bs = .ok i rest := by
  obtain ⟨bs, rest, hb, hd⟩ := fetchAt_unit h
  obtain ⟨hl, hle⟩ := readBytes_ok hb
  exact ⟨hle (by omega), bs, rest, hl, hd⟩

/-- A fetched opcode: its length lies before the input's end, and it is one of the six. -/
theorem fetchOpcode_unit {i : Instr} (h : fetchOpcode s = .unit i) :
    s.bp.toNat + unitLength i ≤ s.bDesc.len.toNat ∧
      ((∃ r g b, i = .rgb r g b) ∨ (∃ r g b a, i = .rgba r g b a) ∨ (∃ slot, i = .index slot) ∨
        (∃ dr dg db, i = .diff dr dg db) ∨ (∃ dg drg dbg, i = .luma dg drg dbg) ∨
        ∃ n, 1 ≤ n ∧ n ≤ 64 ∧ (s.cfg.image.wf = true → n ≤ 62) ∧ i = .run n) := by
  unfold fetchOpcode at h
  split at h
  · split at h
    · cases h
    · rename_i op hop
      split at h
      · rename_i hlen
        obtain ⟨bs, rest, hb, hd⟩ := fetchAt_unit h
        have hl := (readBytes_ok hb).1
        have hr := opcodeLength_range s.cfg.image op
        have h1 := (readElem_ok hop).2
        have h2 := (readMany_ok hb).2
        obtain ⟨op', bs', rfl⟩ : ∃ op' bs', bs = op' :: bs' := by
          cases bs with
          | nil => simp at hl; omega
          | cons a b => exact ⟨a, b, rfl⟩
        obtain ⟨m, hm⟩ : ∃ m, opcodeLength s.cfg.image op = m + 1 := ⟨opcodeLength s.cfg.image op - 1, by omega⟩
        have h3 : op' = op := by
          rw [hm] at h2
          simp [indices, List.range_succ_eq_map, h1] at h2
          exact h2.1.symm
        subst h3
        obtain ⟨h4, h5⟩ := decodeOpcode_cases hd
        rw [h4]
        exact ⟨(hasBytes_iff s _).mp hlen, h5⟩
      · cases h
  · cases h

/-! ## Decoders -/

/-- A decoder's step: a run unit, the end of the frame loop, an error of the fetch, or the fetched unit. -/
theorem step_dec_cases {p : Place} (hr : s.resetLine = false) (hp : s.phase = .dec p) (h : step s = .next t) :
    (p = .pixel ∧ s.run ≠ 0 ∧ consumeRun s = .next t) ∨
    (p = .frame ∧ ¬(s.bp.toNat < s.bDesc.len.toNat ∧ s.sp.toNat < s.stSamples.toNat) ∧ finishAudioDecode s = .next t) ∨
    ((p = .pixel → s.run = 0) ∧ (p = .frame → s.bp.toNat < s.bDesc.len.toNat ∧ s.sp.toNat < s.stSamples.toNat) ∧
      ((∃ e, fetchUnit s p = .error e ∧ t = raiseErr e s) ∨ ∃ i, fetchUnit s p = .unit i ∧ exec i s = .next t)) := by
  simp only [step, turn_dec hr hp, decodeTurn] at h
  by_cases h1 : p = .pixel ∧ s.run ≠ 0
  · rw [if_pos h1] at h; exact .inl ⟨h1.1, h1.2, h⟩
  rw [if_neg h1] at h
  by_cases h2 : p = .frame ∧ ¬(s.bp.toNat < s.bDesc.len.toNat ∧ s.sp.toNat < s.stSamples.toNat)
  · rw [if_pos h2] at h; exact .inr (.inl ⟨h2.1, h2.2, h⟩)
  rw [if_neg h2] at h
  refine .inr (.inr ⟨fun e => by simpa [e] using h1, fun e => by simpa [e] using h2, ?_⟩)
  cases hf : fetchUnit s p with
  | unit i => rw [hf] at h; exact .inr ⟨i, rfl, h⟩
  | error e => rw [hf] at h; cases h; exact .inl ⟨e, rfl, rfl⟩
  | fault f => rw [hf] at h; cases h

/-- A decoder at the image header. -/
theorem step_dec_imageHeader (hr : s.resetLine = false) (hp : s.phase = .dec .imageHeader) (h : step s = .next t) :
    (∃ e, t = raiseErr e s) ∨
    ∃ width height chtag cstag, s.cfg.imageMinSize ≤ s.bDesc.len.toNat ∧
      firstError (imageHeaderChecks width height chtag cstag s) = none ∧ t = startPixels width height chtag cstag s := by
  rcases step_dec_cases hr hp h with ⟨hc, _⟩ | ⟨hc, _⟩ | ⟨-, -, ⟨e, -, ht⟩ | ⟨i, hu, hx⟩⟩
  · cases hc
  · cases hc
  · exact .inl ⟨e, ht⟩
  · simp only [fetchUnit] at hu
    split at hu
    · cases hu
    obtain ⟨bs, rest, -, hd⟩ := fetchAt_unit hu
    obtain ⟨width, height, chtag, cstag, rfl⟩ := decode_imageHeader_ok hd
    simp only [exec, execQoif, hp] at hx
    rcases checked_cases (imageHeaderChecks width height chtag cstag s) s
      (startPixels width height chtag cstag s) with ⟨e, -, he⟩ | ⟨hn, he⟩ <;> rw [he] at hx <;> cases hx
    · exact .inl ⟨e, rfl⟩
    · exact .inr ⟨width, height, chtag, cstag, by omega, hn, rfl⟩

/-- A decoder at a pixel: an error, a run unit, a colour, or a RUN opcode. -/
theorem step_dec_pixel (hr : s.resetLine = false) (hp : s.phase = .dec .pixel) (h : step s = .next t) :
    (∃ e, t = raiseErr e s) ∨
    (s.pp.toNat < s.pDesc.cap.toNat ∧
      ((s.run ≠ 0 ∧ t = pixelProduced { s with run := s.run - 1 }) ∨
       (s.run = 0 ∧ ∃ px n, 1 ≤ n ∧ n ≤ 5 ∧ s.bp.toNat + n ≤ s.bDesc.len.toNat ∧ t = pixelProduced (colourSet px n s)) ∨
       (s.run = 0 ∧ ∃ n, 1 ≤ n ∧ n ≤ 64 ∧ (s.cfg.image.wf = true → n ≤ 62) ∧ s.bp.toNat + 1 ≤ s.bDesc.len.toNat ∧
          t = pixelProduced { s with run := BitVec.ofNat 6 (n - 1), bp := s.bp + 1 }))) := by
  rcases step_dec_cases hr hp h with ⟨-, hrun, hx⟩ | ⟨hc, _⟩ | ⟨hrun, -, ⟨e, -, ht⟩ | ⟨i, hu, hx⟩⟩
  · obtain ⟨hcap, rfl⟩ := producePixel_next hx
    exact .inr ⟨hcap, .inl ⟨hrun, rfl⟩⟩
  · cases hc
  · exact .inl ⟨e, ht⟩
  · obtain ⟨hle, hi⟩ := fetchOpcode_unit hu
    have h0 := hrun rfl
    rcases hi with ⟨r, g, b, rfl⟩ | ⟨r, g, b, a, rfl⟩ | ⟨slot, rfl⟩ | ⟨dr, dg, db, rfl⟩ | ⟨dg, drg, dbg, rfl⟩ |
      ⟨n, h1, h2, h3, rfl⟩ <;>
      simp only [exec, execRgb, execRgba, execIndex, execDiff, execLuma, execRun, hp] at hx <;>
      obtain ⟨hcap, rfl⟩ := producePixel_next hx <;> refine .inr ⟨hcap, .inr ?_⟩
    · exact .inl ⟨h0, _, 4, by omega, by omega, hle, rfl⟩
    · exact .inl ⟨h0, _, 5, by omega, by omega, hle, rfl⟩
    · exact .inl ⟨h0, _, 1, by omega, by omega, hle, rfl⟩
    · exact .inl ⟨h0, _, 1, by omega, by omega, hle, rfl⟩
    · exact .inl ⟨h0, _, 2, by omega, by omega, hle, rfl⟩
    · exact .inr ⟨h0, n, h1, h2, h3, hle, rfl⟩

/-- A decoder at the image footer. -/
theorem step_dec_imageFooter (hr : s.resetLine = false) (hp : s.phase = .dec .imageFooter) (h : step s = .next t) :
    (∃ e, t = raiseErr e s) ∨ (s.bp.toNat + 8 ≤ s.bDesc.len.toNat ∧ t = imageResults s) := by
  rcases step_dec_cases hr hp h with ⟨hc, _⟩ | ⟨hc, _⟩ | ⟨-, -, ⟨e, -, ht⟩ | ⟨i, hu, hx⟩⟩
  · cases hc
  · cases hc
  · exact .inl ⟨e, ht⟩
  · simp only [fetchUnit] at hu
    split at hu
    · rename_i hb
      cases hu
      simp only [exec, execFooter, hp] at hx
      cases hx
      exact .inr ⟨(hasBytes_iff s 8).mp hb, rfl⟩
    · cases hu

/-- A decoder at the audio stream header: an error, or the stream-wide values of the header and of the peeked word. -/
theorem step_dec_audioHeader (hr : s.resetLine = false) (hp : s.phase = .dec .audioHeader) (h : step s = .next t) :
    (∃ e, t = raiseErr e s) ∨ (∃ e, t = raiseErr e { s with bp := s.bp + 8 }) ∨
    ∃ samples w, s.cfg.audioMinSize ≤ s.bDesc.len.toNat ∧ s.bp.toNat + 8 ≤ s.bDesc.len.toNat ∧ samples ≠ 0 ∧
      ((∃ e, t = raiseErr e (latchStream samples w { s with bp := s.bp + 8 })) ∨
       (firstError (peekChecks (latchStream samples w { s with bp := s.bp + 8 })) = none ∧
        t = { latchStream samples w { s with bp := s.bp + 8 } with phase := .dec .frame })) := by
  rcases step_dec_cases hr hp h with ⟨hc, _⟩ | ⟨hc, _⟩ | ⟨-, -, ⟨e, -, ht⟩ | ⟨i, hu, hx⟩⟩
  · cases hc
  · cases hc
  · exact .inl ⟨e, ht⟩
  · simp only [fetchUnit] at hu
    split at hu
    · cases hu
    rename_i hlen
    obtain ⟨hle, bs, rest, -, hd⟩ := fetchAt_word hu
    obtain ⟨samples, rfl⟩ := decode_audioHeader_ok hd
    have hex : exec (.qoaf samples) s = if samples = 0 then .next (raiseErr .eStreaming { s with bp := s.bp + 8 })
        else peekFrame samples { s with bp := s.bp + 8 } := by simp only [exec, execQoaf, hp]
    rw [hex] at hx
    split at hx
    · cases hx; exact .inr (.inl ⟨_, rfl⟩)
    · rename_i hne
      unfold peekFrame at hx
      split at hx
      · cases hx
      · split at hx
        · cases hx
        · rename_i w _ _
          refine .inr (.inr ⟨samples, w, by omega, hle, hne, ?_⟩)
          rcases checked_cases (peekChecks (latchStream samples w { s with bp := s.bp + 8 }))
            (latchStream samples w { s with bp := s.bp + 8 })
            { latchStream samples w { s with bp := s.bp + 8 } with phase := .dec .frame } with ⟨e, -, he⟩ | ⟨hn, he⟩ <;>
            rw [he] at hx <;> cases hx
          · exact .inl ⟨e, rfl⟩
          · exact .inr ⟨hn, rfl⟩

/-- A decoder at the frame loop's test: the end of the command, an error, or a validated frame. -/
theorem step_dec_frame (hr : s.resetLine = false) (hp : s.phase = .dec .frame) (h : step s = .next t) :
    (∃ e, t = raiseErr e s) ∨
    (s.sp = s.stSamples ∧ s.bp = s.bDesc.len ∧
      t = completeOk { s with
        aChannels := s.stChannels
        aRate := s.stRate
        aSamples := s.stSamples
        sDesc := { s.sDesc with len := BitVec.ofNat 32 (s.stSamples.toNat * s.stChannels.toNat) } }) ∨
    ∃ channels rate fsamples fsize s1, s1 = { latchFrame channels rate fsamples fsize s with bp := s.bp + 8 } ∧
      s.bp.toNat + 8 ≤ s.bDesc.len.toNat ∧ s.sp.toNat < s.stSamples.toNat ∧
      ((∃ e, t = raiseErr e s1) ∨
       (firstError (frameChecks s1) = none ∧ t = decodeOnward (afterFrameHeader s1) s1)) := by
  rcases step_dec_cases hr hp h with ⟨hc, _⟩ | ⟨-, -, hx⟩ | ⟨-, hloop, ⟨e, -, ht⟩ | ⟨i, hu, hx⟩⟩
  · cases hc
  · unfold finishAudioDecode at hx
    generalize hes : completeOk { s with
        aChannels := s.stChannels
        aRate := s.stRate
        aSamples := s.stSamples
        sDesc := { s.sDesc with len := BitVec.ofNat 32 (s.stSamples.toNat * s.stChannels.toNat) } } = effect at hx ⊢
    rcases checked_cases [(decide (s.sp ≠ s.stSamples) || decide (s.bp ≠ s.bDesc.len), ErrKind.eEof)] s effect with
      ⟨e, -, he⟩ | ⟨hn, he⟩ <;> rw [he] at hx <;> cases hx
    · exact .inl ⟨e, rfl⟩
    · have h1 := firstError_none.mp hn _ List.mem_cons_self
      simp at h1
      exact .inr (.inl ⟨h1.1, h1.2, rfl⟩)
  · exact .inl ⟨e, ht⟩
  · simp only [fetchUnit] at hu
    split at hu
    · rename_i hb
      obtain ⟨hle, bs, rest, hl, hd⟩ := fetchAt_word hu
      obtain ⟨channels, rate, fsamples, fsize, hd'⟩ := decode_frameHeader hl
      rw [hd'] at hd; cases hd
      refine .inr (.inr ⟨channels, rate, fsamples, fsize, _, rfl, hle, (hloop rfl).2, ?_⟩)
      generalize hs1 : { latchFrame channels rate fsamples fsize s with bp := s.bp + 8 } = s1
      have hex : exec (.frame channels rate fsamples fsize) s =
          checked (frameChecks s1) s1 (decodeOnward (afterFrameHeader s1) s1) := by
        subst hs1; simp only [exec, execFrame, hp]
      rw [hex] at hx
      rcases checked_cases (frameChecks s1) s1 (decodeOnward (afterFrameHeader s1) s1) with ⟨e, -, he⟩ | ⟨hn, he⟩ <;>
        rw [he] at hx <;> cases hx
      · exact .inl ⟨e, rfl⟩
      · exact .inr ⟨hn, rfl⟩
    · cases hu

/-- A fetch of eight bytes raises nothing at a word whose every pattern is legal. -/
theorem step_dec_word {p : Place} (hr : s.resetLine = false) (hp : s.phase = .dec p)
    (hw : (∃ c, p = .hist c) ∨ (∃ c, p = .wght c) ∨ ∃ k c, p = .slice k c) (h : step s = .next t) :
    ∃ i bs rest, s.bp.toNat + 8 ≤ s.bDesc.len.toNat ∧ bs.length = 8 ∧ decode s.cfg.image (placeKind s p) bs = .ok i rest ∧
      exec i s = .next t := by
  have hfu : fetchUnit s p = fetchAt s (placeKind s p) s.bp.toNat 8 := by
    rcases hw with ⟨c, rfl⟩ | ⟨c, rfl⟩ | ⟨k, c, rfl⟩ <;> rfl
  rcases step_dec_cases hr hp h with ⟨hc, _⟩ | ⟨hc, _⟩ | ⟨-, -, ⟨e, hf, -⟩ | ⟨i, hu, hx⟩⟩
  · subst hc; simp at hw
  · subst hc; simp at hw
  · exfalso
    rw [hfu] at hf
    unfold fetchAt at hf
    split at hf
    · cases hf
    · rename_i bs hbs
      have hl := (readBytes_ok hbs).1
      have : ∃ i, decode s.cfg.image (placeKind s p) bs = .ok i [] := by
        rcases hw with ⟨c, rfl⟩ | ⟨c, rfl⟩ | ⟨k, c, rfl⟩
        · obtain ⟨_, _, _, _, hd⟩ := decode_history hl; exact ⟨_, hd⟩
        · obtain ⟨_, _, _, _, hd⟩ := decode_weights hl; exact ⟨_, hd⟩
        · obtain ⟨_, _, _, hd⟩ := decode_slice (sliceSamples s k) hl; exact ⟨_, hd⟩
      obtain ⟨i, hd⟩ := this
      rw [hd] at hf
      cases hf
  · rw [hfu] at hu
    obtain ⟨hle, bs, rest, hl, hd⟩ := fetchAt_word hu
    exact ⟨i, bs, rest, hle, hl, hd, hx⟩

/-- A decoder at a history word. -/
theorem step_dec_hist {c : Fin 8} (hr : s.resetLine = false) (hp : s.phase = .dec (.hist c)) (h : step s = .next t) :
    s.bp.toNat + 8 ≤ s.bDesc.len.toNat ∧ ∃ h0 h1 h2 h3,
      t = { setPredictor s c (loadHistory s.pred[c.val] h0 h1 h2 h3) with bp := s.bp + 8, phase := .dec (.wght c) } := by
  obtain ⟨i, bs, rest, hle, hl, hd, hx⟩ := step_dec_word hr hp (.inl ⟨c, rfl⟩) h
  obtain ⟨h0, h1, h2, h3, hd'⟩ := decode_history hl
  rw [placeKind, hd'] at hd; cases hd
  simp only [exec, execHist, hp] at hx
  cases hx
  exact ⟨hle, h0, h1, h2, h3, rfl⟩

/-- A decoder at a weights word. -/
theorem step_dec_wght {c : Fin 8} (hr : s.resetLine = false) (hp : s.phase = .dec (.wght c)) (h : step s = .next t) :
    s.bp.toNat + 8 ≤ s.bDesc.len.toNat ∧ ∃ w0 w1 w2 w3,
      t = decodeOnward (afterWeights s c)
        { setPredictor s c (loadWeights s.cfg s.pred[c.val] w0 w1 w2 w3) with bp := s.bp + 8 } := by
  obtain ⟨i, bs, rest, hle, hl, hd, hx⟩ := step_dec_word hr hp (.inr (.inl ⟨c, rfl⟩)) h
  obtain ⟨w0, w1, w2, w3, hd'⟩ := decode_weights hl
  rw [placeKind, hd'] at hd; cases hd
  simp only [exec, execWght, hp] at hx
  cases hx
  exact ⟨hle, w0, w1, w2, w3, rfl⟩

/-- A decoder at a slice. -/
theorem step_dec_slice {k : Nat} {c : Fin 8} (hr : s.resetLine = false) (hp : s.phase = .dec (.slice k c))
    (h : step s = .next t) :
    s.bp.toNat + 8 ≤ s.bDesc.len.toNat ∧ ∃ sf codes, codes.length = sliceSamples s k ∧
      (∀ w ∈ sliceStores s k c (decodeSlice s.cfg s.pred[c.val] sf codes).2, w.1 < s.sDesc.cap.toNat) ∧
      t = decodeOnward (afterSlice s k c)
        { setPredictor
            { s with
              samples := Space.writeAll s.samples (sliceStores s k c (decodeSlice s.cfg s.pred[c.val] sf codes).2) }
            c (decodeSlice s.cfg s.pred[c.val] sf codes).1 with
          bp := s.bp + 8 } := by
  obtain ⟨i, bs, rest, hle, hl, hd, hx⟩ := step_dec_word hr hp (.inr (.inr ⟨k, c, rfl⟩)) h
  obtain ⟨sf, codes, hm, hd'⟩ := decode_slice (sliceSamples s k) hl
  rw [placeKind, hd'] at hd; cases hd
  simp only [exec, execSlice, hp, decodeSliceUnit] at hx
  split at hx
  · cases hx
  · rename_i s1 hs1
    obtain ⟨hcap, rfl⟩ := storeSamples_ok hs1
    cases hx
    exact ⟨hle, sf, codes, hm, hcap, rfl⟩

/-! ## Encoders -/

/-- An encoder at the image header. -/
theorem step_enc_imageHeader (hr : s.resetLine = false) (hp : s.phase = .enc .imageHeader) :
    ∃ bs : List Byte, bs.length = 14 ∧ bs = encode s.cfg.image (.qoif s.iWidth s.iHeight imgEncChtag imgEncCstag) ∧
      ((hasRoom s 14 = true ∧ step s = .next { emitted bs s with phase := .enc .pixel }) ∨
       (hasRoom s 14 = false ∧ step s = .next (raiseErr .eMemory s))) := by
  refine ⟨_, rfl, rfl, ?_⟩
  simp only [step, turn_enc hr hp, encodeTurn, exec, execQoif, hp]
  exact emitThen_cases (encode s.cfg.image (.qoif s.iWidth s.iHeight imgEncChtag imgEncCstag)) s
    (fun s1 => { s1 with phase := .enc .pixel })

/-- An encoder at the image footer. -/
theorem step_enc_imageFooter (hr : s.resetLine = false) (hp : s.phase = .enc .imageFooter) :
    (hasRoom s 8 = true ∧ step s = .next (streamResult (emitted (encode s.cfg.image .footer) s))) ∨
    (hasRoom s 8 = false ∧ step s = .next (raiseErr .eMemory s)) := by
  simp only [step, turn_enc hr hp, encodeTurn, exec, execFooter, hp]
  exact emitThen_cases (encode s.cfg.image .footer) s streamResult

/-- The opcodes an encoder selects on a cache miss, and their lengths. -/
theorem selectLiteral_cases (f : ImageFormat) (px prev : Pixel) :
    1 ≤ (encode f (selectLiteral px prev)).length ∧ (encode f (selectLiteral px prev)).length ≤ 5 ∧
      ∀ s, s.phase = .enc .pixel → exec (selectLiteral px prev) s = emitMissedPixel (selectLiteral px prev) s := by
  unfold selectLiteral
  simp only
  split_ifs <;> refine ⟨?_, ?_, ?_⟩ <;> try { simp [encode, rgbBytes, rgbaBytes, lumaBytes] }
  all_goals intro s hp; simp only [exec, execRgb, execRgba, execDiff, execLuma, hp]

/-- An encoder at a pixel: a pixel that joins the run silently, a RUN opcode, an INDEX or a literal. -/
theorem step_enc_pixel (hr : s.resetLine = false) (hp : s.phase = .enc .pixel) (h : step s = .next t) :
    ∃ px, readPixel s = .ok px ∧
      ((px = s.pxPrev ∧ s.run.toNat + 1 ≠ runMax ∧ s.pp.toNat + 1 ≠ encPixelCount s ∧ t = extendRun s) ∨
       (px = s.pxPrev ∧ (s.run.toNat + 1 = runMax ∨ s.pp.toNat + 1 = encPixelCount s) ∧
          flushRun (.run (s.run.toNat + 1)) s = .next t) ∨
       (px ≠ s.pxPrev ∧ s.run ≠ 0 ∧ flushRun (.run s.run.toNat) s = .next t) ∨
       (px ≠ s.pxPrev ∧ s.run = 0 ∧ cacheSlot s.cache (pixelHash px) = px ∧
          emitPixel (.index (pixelHash px)) s = .next t) ∨
       (px ≠ s.pxPrev ∧ s.run = 0 ∧ cacheSlot s.cache (pixelHash px) ≠ px ∧
          emitMissedPixel (selectLiteral px s.pxPrev) s = .next t)) := by
  simp only [step, turn_enc hr hp, encodeTurn, pixelTurn] at h
  cases hpx : readPixel s with
  | error f => rw [hpx] at h; cases h
  | ok px =>
    refine ⟨px, rfl, ?_⟩
    rw [hpx] at h
    by_cases h1 : px = s.pxPrev
    · simp only [h1, if_true] at h
      by_cases h2 : s.run.toNat + 1 = runMax ∨ s.pp.toNat + 1 = encPixelCount s
      · rw [if_pos h2] at h
        simp only [exec, execRun, hp] at h
        exact .inr (.inl ⟨h1, h2, h⟩)
      · rw [if_neg h2] at h
        cases h
        exact .inl ⟨h1, fun e => h2 (.inl e), fun e => h2 (.inr e), rfl⟩
    · simp only [h1, if_false] at h
      by_cases h2 : s.run = 0
      · simp only [h2, ne_eq, not_true_eq_false, if_false, selectOpcode] at h
        by_cases h3 : cacheSlot s.cache (pixelHash px) = px
        · rw [if_pos h3] at h
          simp only [exec, execIndex, hp] at h
          exact .inr (.inr (.inr (.inl ⟨h1, h2, h3, h⟩)))
        · rw [if_neg h3] at h
          rw [(selectLiteral_cases s.cfg.image px s.pxPrev).2.2 s hp] at h
          exact .inr (.inr (.inr (.inr ⟨h1, h2, h3, h⟩)))
      · rw [if_pos h2] at h
        simp only [exec, execRun, hp] at h
        exact .inr (.inr (.inl ⟨h1, h2, h⟩))

/-- An encoder at the audio stream header. -/
theorem step_enc_audioHeader (hr : s.resetLine = false) (hp : s.phase = .enc .audioHeader) :
    (hasRoom s 8 = true ∧ step s = .next { emitted (encode s.cfg.image (.qoaf s.stSamples)) s with phase := .enc .frame }) ∨
    (hasRoom s 8 = false ∧ step s = .next (raiseErr .eMemory s)) := by
  simp only [step, turn_enc hr hp, encodeTurn, exec, execQoaf, hp]
  exact emitThen_cases (encode s.cfg.image (.qoaf s.stSamples)) s (fun s1 => { s1 with phase := .enc .frame })

/-- The frame header an audio encode emits, latched. -/
def frameLatched (s : State) : State :=
  latchFrame s.stChannels s.stRate (BitVec.ofNat 16 (nextFrameLen s))
    (BitVec.ofNat 16 (frameBytes (nextFrameLen s) s.stChannels.toNat)) s

/-- An encoder at the frame loop's test. -/
theorem step_enc_frame (hr : s.resetLine = false) (hp : s.phase = .enc .frame) :
    (s.stSamples.toNat ≤ s.sp.toNat ∧ step s = .next (streamResult s)) ∨
    (s.sp.toNat < s.stSamples.toNat ∧ hasRoom s 8 = true ∧
      step s = .next (encodeOnward (afterFrameHeader (emitted (encode s.cfg.image (frameUnit s)) (frameLatched s)))
        (emitted (encode s.cfg.image (frameUnit s)) (frameLatched s)))) ∨
    (s.sp.toNat < s.stSamples.toNat ∧ hasRoom s 8 = false ∧ step s = .next (raiseErr .eMemory (frameLatched s))) := by
  simp only [step, turn_enc hr hp, encodeTurn]
  by_cases h1 : s.sp.toNat < s.stSamples.toNat
  · rw [if_pos h1]
    simp only [frameUnit, exec, execFrame, hp]
    rcases emitThen_cases (encode s.cfg.image (frameUnit s)) (frameLatched s) (fun s1 => encodeOnward (afterFrameHeader s1) s1) with
      ⟨hroom, he⟩ | ⟨hroom, he⟩
    · exact .inr (.inl ⟨h1, hroom, he⟩)
    · exact .inr (.inr ⟨h1, hroom, he⟩)
  · rw [if_neg h1]
    exact .inl ⟨by omega, rfl⟩

/-- An encoder at a history word. -/
theorem step_enc_hist {c : Fin 8} (hr : s.resetLine = false) (hp : s.phase = .enc (.hist c)) :
    (hasRoom s 8 = true ∧
      step s = .next { emitted (encode s.cfg.image (historyUnit s.pred[c.val])) s with phase := .enc (.wght c) }) ∨
    (hasRoom s 8 = false ∧ step s = .next (raiseErr .eMemory s)) := by
  simp only [step, turn_enc hr hp, encodeTurn, historyUnit, exec, execHist, hp]
  exact emitThen_cases (encode s.cfg.image (historyUnit s.pred[c.val])) s (fun s1 => { s1 with phase := .enc (.wght c) })

/-- An encoder at a weights word. -/
theorem step_enc_wght {c : Fin 8} (hr : s.resetLine = false) (hp : s.phase = .enc (.wght c)) :
    (hasRoom s 8 = true ∧
      step s = .next (encodeOnward (afterWeights (emitted (encode s.cfg.image (weightsUnit s.pred[c.val])) s) c)
        (emitted (encode s.cfg.image (weightsUnit s.pred[c.val])) s))) ∨
    (hasRoom s 8 = false ∧ step s = .next (raiseErr .eMemory s)) := by
  simp only [step, turn_enc hr hp, encodeTurn, weightsUnit, exec, execWght, hp]
  exact emitThen_cases (encode s.cfg.image (weightsUnit s.pred[c.val])) s (fun s1 => encodeOnward (afterWeights s1 c) s1)

/-- An encoder at a slice: a turn of the search, or the winner's word and the commit. -/
theorem step_enc_slice {k : Nat} {c : Fin 8} (hr : s.resetLine = false) (hp : s.phase = .enc (.slice k c))
    (h : step s = .next t) :
    (s.search.index < scaleCount ∧ ∃ xs, readSlice s k c = .ok xs ∧
      t = { s with search := searchTurn s.cfg s.pred[c.val] s.prevSf[c.val] xs s.search }) ∨
    (scaleCount ≤ s.search.index ∧ ∃ best bs, s.search.best = some best ∧ bs.length = 8 ∧
      bs = encode s.cfg.image (.slice best.sf (sliceCodes best.word (sliceSamples s k))) ∧
      ((hasRoom s 8 = true ∧
          t = encodeOnward (afterSlice (emitted bs s) k c) (commitSearch c best.sf best (emitted bs s))) ∨
       (hasRoom s 8 = false ∧ t = raiseErr .eMemory s))) := by
  simp only [step, turn_enc hr hp, encodeTurn, sliceTurn] at h
  by_cases h1 : s.search.index < scaleCount
  · rw [if_pos h1] at h
    cases hx : readSlice s k c with
    | error f => rw [hx] at h; cases h
    | ok xs => rw [hx] at h; cases h; exact .inl ⟨h1, xs, rfl, rfl⟩
  · rw [if_neg h1] at h
    cases hb : s.search.best with
    | none => rw [hb] at h; cases h
    | some best =>
      rw [hb] at h
      simp only [exec, execSlice, hp, encodeSliceUnit, hb] at h
      refine .inr ⟨by omega, best, _, rfl, rfl, rfl, ?_⟩
      rcases emitThen_cases (encode s.cfg.image (.slice best.sf (sliceCodes best.word (sliceSamples s k)))) s
        (fun s1 => encodeOnward (afterSlice s1 k c) (commitSearch c best.sf best s1)) with ⟨hroom, he⟩ | ⟨hroom, he⟩ <;>
        rw [he] at h <;> cases h
      · exact .inl ⟨hroom, rfl⟩
      · exact .inr ⟨hroom, rfl⟩

/-! ## The idle block -/

/-- An idle block's step: nothing, a register or buffer write, or a command. -/
theorem step_idle_cases (hr : s.resetLine = false) (hp : s.phase = .idle) (h : step s = .next t) :
    t = s ∨ (∃ m rest, s.host = m :: rest ∧ t = applyMove m { s with host := rest }) ∨
    ∃ code rest, s.host = .writeCmd code :: rest ∧ exec (decodeCommand code) { s with host := rest } = .next t := by
  simp only [step, turn_idle hr hp, hostTurn] at h
  cases hh : s.host with
  | nil => rw [hh] at h; cases h; exact .inl rfl
  | cons m rest =>
    rw [hh] at h
    cases m with
    | writeCmd code => exact .inr (.inr ⟨code, rest, rfl, h⟩)
    | _ => cases h; exact .inr (.inl ⟨_, _, rfl, rfl⟩)

/-- What a command does when it runs: it completes at once, raises, or starts. -/
theorem exec_command_next {code : BitVec 3} (h : exec (decodeCommand code) s = .next t) :
    s.busy = false ∧
    ((∃ e : ErrKind, t = flagsAtOnce code e s) ∨ (∃ e, t = raiseErr e (beginCommand code s)) ∨
     (code = 1 ∧ firstError (audEncChecks (beginCommand 1 s)) = none ∧ t = audEncStart (beginCommand 1 s)) ∨
     (code = 2 ∧ t = { beginCommand 2 s with phase := .dec .audioHeader }) ∨
     (code = 3 ∧ firstError (imgEncChecks (beginCommand 3 s)) = none ∧
        t = { seedPixelCoder (beginCommand 3 s) with phase := .enc .imageHeader }) ∨
     (code = 4 ∧ t = { beginCommand 4 s with phase := .dec .imageHeader })) := by
  have hcode : ∀ code : BitVec 3,
      code = 0 ∨ code = 1 ∨ code = 2 ∨ code = 3 ∨ code = 4 ∨ code = 5 ∨ code = 6 ∨ code = 7 := by decide
  rcases hcode code with rfl | rfl | rfl | rfl | rfl | rfl | rfl | rfl <;> simp only [decodeCommand] at h <;>
    simp only [BitVec.reduceEq, if_true, if_false, exec, execNop, execAudEnc, execAudDec, execImgEnc, execImgDec,
      execReserved5, execReserved6, execReserved7] at h <;>
    obtain ⟨hb, hx⟩ := whenIdle_next h <;> refine ⟨hb, ?_⟩
  · cases hx; exact .inl ⟨_, rfl⟩
  · rcases checked_cases (audEncChecks (beginCommand 1 s)) (beginCommand 1 s) (audEncStart (beginCommand 1 s)) with
      ⟨e, -, he⟩ | ⟨hn, he⟩ <;> rw [he] at hx <;> cases hx
    · exact .inr (.inl ⟨e, rfl⟩)
    · exact .inr (.inr (.inl ⟨rfl, hn, rfl⟩))
  · rcases checked_cases [(!s.bDesc.present || !s.sDesc.present, ErrKind.eInvalidArgs)] (beginCommand 2 s)
      { beginCommand 2 s with phase := .dec .audioHeader } with ⟨e, -, he⟩ | ⟨hn, he⟩ <;> rw [he] at hx <;> cases hx
    · exact .inr (.inl ⟨e, rfl⟩)
    · exact .inr (.inr (.inr (.inl ⟨rfl, rfl⟩)))
  · rcases checked_cases (imgEncChecks (beginCommand 3 s)) (beginCommand 3 s)
      { seedPixelCoder (beginCommand 3 s) with phase := .enc .imageHeader } with ⟨e, -, he⟩ | ⟨hn, he⟩ <;>
      rw [he] at hx <;> cases hx
    · exact .inr (.inl ⟨e, rfl⟩)
    · exact .inr (.inr (.inr (.inr (.inl ⟨rfl, hn, rfl⟩))))
  · rcases checked_cases [(!s.bDesc.present || !s.pDesc.present, ErrKind.eInvalidArgs)] (beginCommand 4 s)
      { beginCommand 4 s with phase := .dec .imageHeader } with ⟨e, -, he⟩ | ⟨hn, he⟩ <;> rw [he] at hx <;> cases hx
    · exact .inr (.inl ⟨e, rfl⟩)
    · exact .inr (.inr (.inr (.inr (.inr ⟨rfl, rfl⟩))))
  · cases hx; exact .inl ⟨_, rfl⟩
  · cases hx; exact .inl ⟨_, rfl⟩
  · cases hx; exact .inl ⟨_, rfl⟩

end Sys2Proof.Machine
end

