-- ==== Sys2Proof/Tests/Slice0.lean ====
section
/-! SUPPORT. Tests of the model against values the spec gives (95_test_vectors.md, the vector named at each test, or an
encoding of 30_encoding.md written out), and a witness for each statement that has hypotheses: a concrete state and
operands that meet them together, at a boundary of their range where they have one. -/

namespace Sys2Proof.Tests

open Sys2Proof Sys2Proof.Machine

set_option Elab.async false

/-! ## Helpers -/

/-- A value of the next state, if there is one. -/
def got {α : Type} (o : Out) (f : State → α) : Option α :=
  match o with
  | .next s => some (f s)
  | .fault _ => none
  | .refused _ => none

/-- A predictor state from eight integers, weights first. -/
def lms (w0 w1 w2 w3 h0 h1 h2 h3 : Int) : Predictor :=
  ⟨w0, w1, w2, w3, .ofInt 32 h0, .ofInt 32 h1, .ofInt 32 h2, .ofInt 32 h3⟩

/-- `IMG_DEC` at a pixel of a 3 × 3 image whose opcodes start at offset 14. -/
def pixelDecoder (prev : Pixel) (bs : List Byte) : State :=
  { State.reset with
    cmd := 4, busy := true, phase := .dec .pixel
    bDesc := ⟨true, BitVec.ofNat 32 (14 + bs.length), 0⟩, bytes := placed 14 bs, bp := 14
    pDesc := ⟨true, 0, 9⟩, hdr := ⟨3, 3, 4, 0⟩, pxPrev := prev }

/-- `IMG_ENC` at pixel 3 of a 3 × 3 image, with room for 5 more bytes. -/
def pixelEncoder (prev px : Pixel) (run : BitVec 6) : State :=
  { State.reset with
    cmd := 3, busy := true, phase := .enc .pixel
    bDesc := ⟨true, 0, 19⟩, bp := 14
    pDesc := ⟨true, 9, 0⟩, pixels := [(3, px)], pp := 3, iWidth := 3, iHeight := 3, pxPrev := prev, run := run }

/-- A decoder at the head of a stream. -/
def headDecoder (cmd : BitVec 3) (p : Place) (bs : List Byte) (cap : BitVec 32) : State :=
  { State.reset with
    cmd := cmd, busy := true, phase := .dec p
    bDesc := ⟨true, BitVec.ofNat 32 bs.length, 0⟩, bytes := placed 0 bs
    sDesc := ⟨true, 0, cap⟩, pDesc := ⟨true, 0, cap⟩ }

/-- `AUD_DEC` behind the header of a stream of `ch` channels and `n` samples, at offset 8. -/
def wordDecoder (p : Place) (ch : BitVec 8) (rate : BitVec 24) (n : BitVec 32) (fn fs : BitVec 16) (bs : List Byte) :
    State :=
  { State.reset with
    cmd := 2, busy := true, phase := .dec p
    bDesc := ⟨true, BitVec.ofNat 32 (8 + bs.length), 0⟩, bytes := placed 8 bs, bp := 8
    sDesc := ⟨true, 0, 100⟩, stChannels := ch, stRate := rate, stSamples := n
    fChannels := ch, fRate := rate, fSamples := fn, fSize := fs, fStart := 8 }

/-- `AUD_ENC` with `room` bytes of output left at offset 8. -/
def wordEncoder (p : Place) (ch : BitVec 8) (rate : BitVec 24) (n : BitVec 32) (fn : BitVec 16) (room : BitVec 32) :
    State :=
  { State.reset with
    cmd := 1, busy := true, phase := .enc p
    bDesc := ⟨true, 0, 8 + room⟩, bp := 8
    sDesc := ⟨true, n * ch.setWidth 32, 0⟩, stChannels := ch, stRate := rate, stSamples := n, fSamples := fn }

/-- An idle block with operands of each command: programs P1 and P3. -/
def ready : State :=
  { State.reset with
    aChannels := 1, aRate := 8000, aSamples := 10, iWidth := 2, iHeight := 1
    bDesc := ⟨true, 0, 40⟩, sDesc := ⟨true, 10, 10⟩, pDesc := ⟨true, 2, 2⟩ }

/-! ## Well-formedness: each check refuses an ill-formed term -/

theorem test_wf_diff_red : (Instr.diff 2 0 0).wf = false := by decide
theorem test_wf_diff_green : (Instr.diff 0 (-3) 0).wf = false := by decide
theorem test_wf_diff_blue : (Instr.diff 0 0 2).wf = false := by decide
theorem test_wf_luma_green : (Instr.luma 32 0 0).wf = false := by decide
theorem test_wf_luma_red : (Instr.luma 0 (-9) 0).wf = false := by decide
theorem test_wf_luma_blue : (Instr.luma 0 0 8).wf = false := by decide
theorem test_wf_run_short : (Instr.run 0).wf = false := by decide
theorem test_wf_run_long : (Instr.run 63).wf = false := by decide
theorem test_wf_slice_short : (Instr.slice 0 []).wf = false := by decide
theorem test_wf_slice_long : (Instr.slice 0 (List.replicate 21 0)).wf = false := by decide

/-! ## Decoding: words written out from the encodings -/

/-- R104: 11111110 rrrrrrrr gggggggg bbbbbbbb. -/
theorem test_decode_rgb : decode defaultImageFormat .opcode [0b11111110, 0b00001010, 0b00010100, 0b00011110] = .ok (.rgb 10 20 30) [] := by
  decide
/-- R104: 11111111 rrrrrrrr gggggggg bbbbbbbb aaaaaaaa. -/
theorem test_decode_rgba :
    decode defaultImageFormat .opcode [0b11111111, 0b11001000, 0b01100100, 0b00110010, 0b10000000] = .ok (.rgba 200 100 50 128) [] := by
  decide
/-- R103: 00 slot. -/
theorem test_decode_index : decode defaultImageFormat .opcode [0b00_001001] = .ok (.index 9) [] := by decide
/-- R101: 01 dr+2 dg+2 db+2. -/
theorem test_decode_diff : decode defaultImageFormat .opcode [0b01_01_11_00] = .ok (.diff (-1) 1 (-2)) [] := by decide
/-- R102: 10 dg+32, dr-dg+8 db-dg+8. -/
theorem test_decode_luma : decode defaultImageFormat .opcode [0b10_100011, 0b0111_0110] = .ok (.luma 3 (-1) (-2)) [] := by decide
/-- R103: 11 length-1. -/
theorem test_decode_run : decode defaultImageFormat .opcode [0b11_111101] = .ok (.run 62) [] := by decide
/-- R96: magic, width 3, height 258, tags 3 and 1. -/
theorem test_decode_qoif :
    decode defaultImageFormat .imageHeader [0x71, 0x6F, 0x69, 0x66, 0, 0, 0, 3, 0, 0, 1, 2, 3, 1] = .ok (.qoif 3 258 3 1) [] := by decide
/-- R97. -/
theorem test_decode_footer : decode defaultImageFormat .imageFooter [0, 0, 0, 0, 0, 0, 0, 1] = .ok .footer [] := by decide
/-- V50. -/
theorem test_decode_qoaf :
    decode defaultImageFormat .audioHeader [0x71, 0x6F, 0x61, 0x66, 0, 0, 0, 0x0A] = .ok (.qoaf 10) [] := by decide
/-- V52. -/
theorem test_decode_frame :
    decode defaultImageFormat .frameHeader [0x02, 0x00, 0xAC, 0x44, 0x00, 0x19, 0x00, 0x48] = .ok (.frame 2 44100 25 72) [] := by decide
/-- V55, the history word: 210, 250, 288, 322. -/
theorem test_decode_hist :
    decode defaultImageFormat .history [0x00, 0xD2, 0x00, 0xFA, 0x01, 0x20, 0x01, 0x42] = .ok (.hist 210 250 288 322) [] := by decide
/-- V55, the weights word: -485, -349, 619, 7663. -/
theorem test_decode_wght :
    decode defaultImageFormat .weights [0xFE, 0x1B, 0xFE, 0xA3, 0x02, 0x6B, 0x1D, 0xEF] =
      .ok (.wght (-485) (-349) 619 7663) [] := by decide
/-- V59: 0011 001 011 101 111 111 and fill. -/
theorem test_decode_slice :
    decode defaultImageFormat (.slice 5) [0x32, 0xEF, 0xE0, 0, 0, 0, 0, 0] = .ok (.slice 3 [1, 3, 5, 7, 7]) [] := by decide
/-- R120, R121: the eight codes. -/
theorem test_decode_commands :
    [0, 1, 2, 3, 4, 5, 6, 7].map (fun b => decode defaultImageFormat .command [b]) =
      [Instr.nop, .audEnc, .audDec, .imgEnc, .imgDec, .reserved5, .reserved6, .reserved7].map (Decoded.ok · []) := by
  decide
/-- R120: the register has 3 bits. -/
theorem test_decode_command_width : decode defaultImageFormat .command [8] = .reject .notACommand := by decide
/-- V72 and V81: the other format's magic. -/
theorem test_decode_foreign_magic :
    decode defaultImageFormat .audioHeader [0x71, 0x6F, 0x69, 0x66, 0, 0, 0, 0x0A] = .reject .badMagic ∧
    decode defaultImageFormat .imageHeader [0x71, 0x6F, 0x61, 0x66, 0, 0, 0, 2, 0, 0, 0, 1, 4, 0] = .reject .badMagic := by decide
/-- V57. -/
theorem test_encode_slice :
    encode defaultImageFormat (.slice 5 [0, 0, 0, 2, 2, 4, 4, 4, 4, 6, 6, 6, 4, 4, 2, 2, 2, 0, 0, 1]) =
      [0x50, 0x02, 0x52, 0x49, 0xB6, 0x91, 0x24, 0x01] := by decide
/-- V58: ten codes, left-justified, zeros below. -/
theorem test_encode_short_slice :
    encode defaultImageFormat (.slice 0 [0, 3, 2, 1, 0, 3, 2, 0, 1, 0]) = [0x00, 0xD1, 0x0D, 0x02, 0, 0, 0, 0] := by decide

/-! ## Table words -/

theorem test_table_words :
    decodeTableWord 8 0xFE = some (.rgb 0 0 0) ∧ decodeTableWord 40 0xFF = some (.rgba 0 0 0 0) ∧
    decodeTableWord 8 0x3F = some (.index 63) ∧ decodeTableWord 16 0x7680 = some (.luma (-32) (-1) (-2)) ∧
    decodeTableWord 64 0x716F61660000000A = some (.qoaf 10) ∧ decodeTableWord 64 1 = some .footer ∧
    decodeTableWord 64 0x01001F40000A0020 = some (.frame 1 8000 10 32) ∧
    decodeTableWord 112 0x716F696600000003000000020400 = some (.qoif 3 2 4 0) ∧
    decodeTableWord 8 4 = some .imgDec := by decide

/-- The next step runs a placed opcode: V6B-like, a literal on the reset state. -/
theorem test_fetch_word_rgb :
    got (step (State.reset.withFetchWord 32 0x1E140AFE)) (fun t => (t.pxPrev, t.bp)) =
      some (⟨10, 20, 30, 0⟩, 4) := by decide +kernel
/-- The next step runs a placed command. -/
theorem test_fetch_word_command :
    got (step (State.reset.withFetchWord 8 6)) (fun t => (t.cmd, t.err, t.done)) = some (6, 1, true) := by decide +kernel

/-! ## Predictor, quantizer and pixel functions -/

/-- V10, V11, V13, V14, V15, V16, V17. -/
theorem test_predict :
    [lms 0 0 (-8192) 16384 0 0 100 200, lms 1 1 1 1 (-1) 0 0 0, lms 8192 0 0 0 1 0 0 0,
     lms 32767 32767 32767 32767 32767 32767 32767 32767,
     lms (-32768) (-32768) (-32768) (-32768) 32767 32767 32767 32767,
     lms (-32768) (-32768) (-32768) (-32768) (-32768) (-32768) (-32768) (-32768),
     lms 3 (-5) 7 11 (-100) 200 (-300) 400].map predict = [300, -1, 1, 524256, -524272, 524288, 0] := by decide
/-- V20, V22, V23, V24. -/
theorem test_update :
    update defaultConfig (lms 0 0 (-8192) 16384 (-5) 0 100 200) 310 53 = lms (-3) 3 (-8189) 16387 0 100 200 310 ∧
    update defaultConfig (lms 0 0 0 0 0 0 0 0) (-5) (-5) = lms (-1) (-1) (-1) (-1) 0 0 0 (-5) ∧
    update defaultConfig (lms (-1) (-1) (-1) (-1) 0 0 0 (-5)) (-5) (-5) = lms (-2) (-2) (-2) 0 0 0 (-5) (-5) ∧
    update defaultConfig (lms 2147483647 0 0 0 1 0 0 0) 0 16 = lms (-2147483648) 1 1 1 0 0 0 0 := by decide
/-- V34, V35, V38, V39, V3C, V3D, V3E, V3G, V3H, V3J: `DIV`. -/
theorem test_div :
    [((-2 : Int), (0 : BitVec 4)), (3, 1), (11, 1), (-11, 1), (-1000, 7), (32767, 15), (-32768, 15), (1, 15), (-1, 15),
      (3072, 15)].map (fun p => divScale defaultConfig p.1 p.2) = [-2, 1, 2, -2, -3, 16, -16, 1, -1, 2] := by decide
/-- The same vectors: the code. -/
theorem test_quantize :
    [((-2 : Int), (0 : BitVec 4)), (3, 1), (11, 1), (-11, 1), (-1000, 7), (32767, 15), (-32768, 15), (1, 15), (-1, 15),
      (3072, 15)].map (fun p => quantize defaultConfig p.1 p.2) = [3, 0, 2, 3, 3, 6, 7, 0, 1, 2] := by decide
/-- RECONSTRUCT rows of section 2.3. -/
theorem test_reconstruct :
    [(300, 2, 3), (32760, 1, 6), (-600000, 0, 6), (-32768, 15, 7), (0, 0, 0)].map
      (fun p : Int × BitVec 4 × BitVec 3 => reconstruct defaultConfig p.1 p.2.1 p.2.2) =
      [247, 32767, -32768, -32768, 1] := by decide
/-- PENALTY rows of section 2.3. -/
theorem test_penalty :
    [lms 12287 12288 12288 12288 0 0 0 0, lms 12288 12288 12288 12288 0 0 0 0,
     lms 32767 (-32768) 32767 (-32768) 0 0 0 0,
     lms (-2147483648) (-2147483648) (-2147483648) (-2147483648) 0 0 0 0].map penalty =
      [0, 1, 14080, 70368744175361] := by decide
/-- V41: rank, word and state of a candidate. -/
theorem test_slice_sim :
    sliceSim defaultConfig Predictor.zero (List.replicate 10 0) 0 = ⟨lms 0 0 0 0 1 1 1 1, 10, 0, 0⟩ := by decide +kernel
/-- V42: the word, the rank and the final state of the candidate of scale factor 5. -/
theorem test_slice_sim_trace :
    sliceSim defaultConfig Predictor.zero
      [0, 100, 200, 300, 400, 500, 600, 700, 800, 900, 1000, 900, 800, 700, 600, 500, 400, 300, 200, 100] 5 =
      ⟨lms 536 536 536 536 515 262 227 (-2), 171192, 0x50025249B6912401, 5⟩ := by decide +kernel
/-- V44: the tie-break, on two previous scale factors. -/
theorem test_slice_search_tie :
    [0, 1, 15].map (fun sf => (sliceSearch defaultConfig Predictor.zero sf [5]).best.map fun b => (b.sf, b.rank, b.word)) =
      [some (0, 0, 0x0800000000000000), some (1, 0, 0x1000000000000000), some (0, 0, 0x0800000000000000)] := by
  decide +kernel
/-- V46: a chain of `DECODE_SAMPLE`. -/
theorem test_decode_samples :
    decodeSlice defaultConfig (lms 0 0 (-8192) 16384 0 0 0 0) 7 [6, 6, 7] =
      (lms 133 133 (-8059) 16517 0 2128 6418 8857, [2128, 6418, 8857]) := by decide +kernel
/-- P1 and P2: hashes. -/
theorem test_hash :
    [pixelHash ⟨255, 0, 0, 255⟩, pixelHash ⟨10, 20, 30, 255⟩, pixelHash ⟨12, 23, 31, 255⟩, pixelHash ⟨200, 100, 50, 255⟩,
      pixelHash ⟨200, 100, 50, 128⟩, pixelHash ⟨0, 0, 0, 255⟩] = [50, 9, 37, 31, 42, 53] := by decide
/-- Section 2.5: frame sizes and P5's stream length. -/
theorem test_geometry :
    frameBytes 25 2 = 72 ∧ frameBytes 5120 8 = 16520 ∧ frameBytes 21 1 = 40 ∧ streamBytes 5121 1 = 2112 := by decide

/-! ## One step of each unit: program P2 (image), V54, V55, V45 and P4 (audio) -/

theorem test_step_rgb_decode :
    got (step (pixelDecoder ⟨0, 0, 0, 255⟩ [0xFE, 0x0A, 0x14, 0x1E])) (fun t =>
      (t.bp, cacheSlot t.cache 9, t.pixels)) =
      some (18, ⟨10, 20, 30, 255⟩, [(0, ⟨10, 20, 30, 255⟩)]) := by decide +kernel
theorem test_step_rgb_encode :
    got (step (pixelEncoder ⟨0, 0, 0, 255⟩ ⟨10, 20, 30, 255⟩ 0)) (fun t => (t.bytes, t.bp, cacheSlot t.cache 9)) =
      some (placed 14 [0xFE, 0x0A, 0x14, 0x1E], 18, ⟨10, 20, 30, 255⟩) := by decide +kernel
theorem test_step_rgba_decode :
    got (step (pixelDecoder ⟨200, 100, 50, 255⟩ [0xFF, 0xC8, 0x64, 0x32, 0x80])) (fun t =>
      (t.pxPrev, t.bp, cacheSlot t.cache 42)) =
      some (⟨200, 100, 50, 128⟩, 19, ⟨200, 100, 50, 128⟩) := by decide +kernel
theorem test_step_rgba_encode :
    got (step (pixelEncoder ⟨200, 100, 50, 255⟩ ⟨200, 100, 50, 128⟩ 0)) (fun t => (t.bytes, t.bp)) =
      some (placed 14 [0xFF, 0xC8, 0x64, 0x32, 0x80], 19) := by decide +kernel
/-- V6I: INDEX of an unwritten slot writes slot 0. -/
theorem test_step_index_decode :
    got (step { pixelDecoder ⟨64, 0, 0, 0⟩ [0x05] with cache := clearCache.set 0 ⟨64, 0, 0, 0⟩ }) (fun t =>
      (t.pxPrev, cacheSlot t.cache 0)) = some (⟨0, 0, 0, 0⟩, ⟨0, 0, 0, 0⟩) := by decide +kernel
theorem test_step_index_encode :
    got (step { pixelEncoder ⟨200, 100, 50, 128⟩ ⟨10, 20, 30, 255⟩ 0 with cache := clearCache.set 9 ⟨10, 20, 30, 255⟩ })
      (fun t => (t.bytes, t.pxPrev)) = some ([(14, 0x09)], ⟨10, 20, 30, 255⟩) := by decide +kernel
/-- P1: the 8-bit wrap-around of the red channel. -/
theorem test_step_diff_decode :
    got (step (pixelDecoder ⟨0, 0, 0, 255⟩ [0x5A])) (fun t => (t.pxPrev, cacheSlot t.cache 50)) =
      some (⟨255, 0, 0, 255⟩, ⟨255, 0, 0, 255⟩) := by decide +kernel
theorem test_step_diff_encode :
    got (step (pixelEncoder ⟨0, 0, 0, 255⟩ ⟨255, 0, 0, 255⟩ 0)) (fun t => (t.bytes, t.bp)) =
      some ([(14, 0x5A)], 15) := by decide +kernel
theorem test_step_luma_decode :
    got (step (pixelDecoder ⟨10, 20, 30, 255⟩ [0xA3, 0x76])) (fun t => (t.pxPrev, t.bp)) =
      some (⟨12, 23, 31, 255⟩, 16) := by decide +kernel
theorem test_step_luma_encode :
    got (step (pixelEncoder ⟨10, 20, 30, 255⟩ ⟨12, 23, 31, 255⟩ 0)) (fun t => (t.bytes, t.bp)) =
      some (placed 14 [0xA3, 0x76], 16) := by decide +kernel
theorem test_step_run_decode :
    got (step (pixelDecoder ⟨0, 0, 0, 255⟩ [0xC1])) (fun t => (t.run, t.pxPrev, t.bp, cacheSlot t.cache 53)) =
      some (1, ⟨0, 0, 0, 255⟩, 15, ⟨0, 0, 0, 0⟩) := by decide +kernel
theorem test_step_run_encode :
    got (step (pixelEncoder ⟨0, 0, 0, 255⟩ ⟨10, 20, 30, 255⟩ 2)) (fun t => (t.bytes, t.run, t.pp)) =
      some ([(14, 0xC1)], 0, 3) := by decide +kernel
theorem test_step_qoif_decode :
    got (step (headDecoder 4 .imageHeader ([0x71, 0x6F, 0x69, 0x66, 0, 0, 0, 2, 0, 0, 0, 1, 3, 1] ++ List.replicate 8 0) 2))
      (fun t => (t.hdr, t.bp, t.pxPrev, t.phase)) =
      some (⟨2, 1, 3, 1⟩, 14, ⟨0, 0, 0, 255⟩, .dec .pixel) := by decide +kernel
theorem test_step_qoif_encode :
    got (step { ready with cmd := 3, busy := true, phase := .enc .imageHeader }) (fun t => (t.bytes, t.bp)) =
      some (placed 0 [0x71, 0x6F, 0x69, 0x66, 0, 0, 0, 2, 0, 0, 0, 1, 4, 0], 14) := by decide +kernel
/-- V6J and V6K: the footer's bytes are not checked, the tags become results. -/
theorem test_step_footer_decode :
    got (step { pixelDecoder ⟨0, 0, 0, 255⟩ (List.replicate 8 0x55) with phase := .dec .imageFooter, hdr := ⟨2, 1, 3, 1⟩ })
      (fun t => ((t.iWidth, t.iHeight, t.iChtag, t.iCstag), t.pDesc.len, t.bp, t.done, t.err)) =
      some ((2, 1, 3, 1), 2, 14, true, 0) := by decide +kernel
theorem test_step_footer_encode :
    got (step { ready with cmd := 3, busy := true, phase := .enc .imageFooter, bp := 16 }) (fun t =>
      (t.bytes, t.bDesc.len, t.busy, t.err)) =
      some (placed 16 [0, 0, 0, 0, 0, 0, 0, 1], 24, false, 0) := by decide +kernel
theorem test_step_qoaf_decode :
    got (step (headDecoder 2 .audioHeader
        ([0x71, 0x6F, 0x61, 0x66, 0, 0, 0, 0x0A] ++ [0x01, 0, 0x1F, 0x40, 0, 0x0A, 0, 0x20]) 10)) (fun t =>
      (t.stSamples, t.stChannels, t.stRate, t.bp, t.phase)) = some (10, 1, 8000, 8, .dec .frame) := by decide +kernel
theorem test_step_qoaf_encode :
    got (step { wordEncoder .audioHeader 1 8000 10 0 32 with bp := 0 }) (fun t => (t.bytes, t.bp, t.phase)) =
      some (placed 0 [0x71, 0x6F, 0x61, 0x66, 0, 0, 0, 0x0A], 8, .enc .frame) := by decide +kernel
theorem test_step_frame_decode :
    got (step (wordDecoder .frame 2 44100 25 0 0 ([0x02, 0x00, 0xAC, 0x44, 0x00, 0x19, 0x00, 0x48] ++ List.replicate 64 0)))
      (fun t => (t.fSamples, t.fSize, t.fStart, t.bp, t.phase)) = some (25, 72, 8, 16, .dec (.hist 0)) := by decide +kernel
theorem test_step_frame_encode :
    got (step (wordEncoder .frame 2 44100 25 0 8)) (fun t => (t.bytes, t.phase)) =
      some (placed 8 [0x02, 0x00, 0xAC, 0x44, 0x00, 0x19, 0x00, 0x48], .enc (.hist 0)) := by decide +kernel
theorem test_step_hist_decode :
    got (step (wordDecoder (.hist 1) 2 44100 25 25 72 [0, 0, 0, 1, 0x80, 0, 0xFF, 0xFF])) (fun t =>
      (t.pred[1], t.phase)) = some (lms 0 0 0 0 0 1 (-32768) (-1), .dec (.wght 1)) := by decide +kernel
theorem test_step_hist_encode :
    got (step { wordEncoder (.hist 0) 1 22050 1 1 8 with pred := Vector.replicate 8 (lms (-485) (-349) 619 7663 210 250 288 322) })
      (fun t => t.bytes) = some (placed 8 [0x00, 0xD2, 0x00, 0xFA, 0x01, 0x20, 0x01, 0x42]) := by decide +kernel
/-- V54. -/
theorem test_step_wght_decode :
    got (step (wordDecoder (.wght 0) 1 8000 10 10 32 [0xFF, 0xFE, 0xFF, 0xFE, 0xDF, 0xFE, 0x3F, 0xFC])) (fun t =>
      (t.pred[0], t.phase)) = some (lms (-2) (-2) (-8194) 16380 0 0 0 0, .dec (.slice 0 0)) := by decide +kernel
/-- V56: a weight outside 16 bits is truncated, and stays as it is. -/
theorem test_step_wght_encode :
    got (step { wordEncoder (.wght 0) 1 8000 10 10 8 with pred := Vector.replicate 8 (lms 40000 (-40000) 0 0 0 0 0 0) })
      (fun t => (t.bytes, t.pred[0])) =
      some (placed 8 [0x9C, 0x40, 0x63, 0xC0, 0, 0, 0, 0], lms 40000 (-40000) 0 0 0 0 0 0) := by decide +kernel
/-- V45: ten samples of a slice, the last of its frame. -/
theorem test_step_slice_decode :
    got (step { wordDecoder (.slice 0 0) 1 8000 10 10 8 [0x00, 0xD1, 0x0D, 0x02, 0, 0, 0, 0] with
        pred := Vector.replicate 8 (lms 0 0 (-8192) 16384 0 0 0 0) }) (fun t =>
      (t.samples.map (·.2.toInt), t.pred[0], t.sp, t.bp, t.phase)) =
      some ([1, -1, 0, 0, 1, -1, 0, 1, 0, 0], lms (-2) (-2) (-8194) 16380 0 1 0 0, 10, 16, .dec .frame) := by decide +kernel
/-- V44 with `PREV_SF` 1: the winner's word and the commit. -/
theorem test_step_slice_encode :
    got (step { wordEncoder (.slice 0 0) 1 8000 1 1 8 with
        search := sliceSearch defaultConfig Predictor.zero 1 [5], prevSf := Vector.replicate 8 1 }) (fun t =>
      (t.bytes, t.pred[0], t.prevSf[0], t.sp, t.phase)) =
      some (placed 8 [0x10, 0, 0, 0, 0, 0, 0, 0], lms 0 0 0 0 0 0 0 5, 1, 1, .enc .frame) := by decide +kernel
/-- P6 step 6. -/
theorem test_exec_nop : got (exec .nop { ready with err := 1 }) (fun t => (t.cmd, t.busy, t.done, t.err)) =
    some (0, false, true, 0) := by decide +kernel
theorem test_exec_aud_enc : got (exec .audEnc ready) (fun t => (t.busy, t.stSamples, t.phase)) =
    some (true, 10, .enc .audioHeader) := by decide +kernel
/-- Section 2.8: a capacity of 39 is one byte short. -/
theorem test_exec_aud_enc_memory : got (exec .audEnc { ready with bDesc := ⟨true, 0, 39⟩ }) (fun t => (t.err, t.done)) =
    some (2, true) := by decide +kernel
theorem test_exec_aud_dec : got (exec .audDec ready) (fun t => (t.busy, t.done, t.phase)) =
    some (true, false, .dec .audioHeader) := by decide +kernel
/-- V70. -/
theorem test_exec_aud_dec_detached : got (exec .audDec { ready with bDesc := ⟨false, 0, 0⟩ }) (fun t => (t.err, t.sDesc.len)) =
    some (1, 0) := by decide +kernel
theorem test_exec_img_enc : got (exec .imgEnc ready) (fun t => (t.busy, t.pxPrev, t.phase)) =
    some (true, ⟨0, 0, 0, 255⟩, .enc .imageHeader) := by decide +kernel
/-- Section 2.9: height 16385, and `P_LEN` 1 where 2 is needed. -/
theorem test_exec_img_enc_rejects :
    got (exec .imgEnc { ready with iHeight := 16385 }) (fun t => t.err) = some 9 ∧
    got (exec .imgEnc { ready with pDesc := ⟨true, 1, 2⟩ }) (fun t => t.err) = some 1 := by decide +kernel
theorem test_exec_img_dec : got (exec .imgDec ready) (fun t => (t.busy, t.phase)) = some (true, .dec .imageHeader) := by
  decide +kernel
/-- P6 step 2. -/
theorem test_exec_img_dec_detached : got (exec .imgDec State.reset) (fun t => (t.done, t.err, t.pDesc.len)) =
    some (true, 1, 0) := by decide +kernel
/-- P6 step 5: no other effect. -/
theorem test_exec_reserved5 : got (exec .reserved5 ready) (fun t => (t.cmd, t.err, t.sDesc.len, t.aChannels)) =
    some (5, 1, 10, 1) := by decide +kernel
theorem test_exec_reserved6 : got (exec .reserved6 ready) (fun t => (t.cmd, t.err, t.sDesc.len, t.aChannels)) =
    some (6, 1, 10, 1) := by decide +kernel
theorem test_exec_reserved7 : got (exec .reserved7 ready) (fun t => (t.cmd, t.err, t.sDesc.len, t.aChannels)) =
    some (7, 1, 10, 1) := by decide +kernel

/-! ## Configurations (00_scope.md R6, R7) -/

/-- An image format with other tags, field orders and literal orders (30_encoding.md R100 to R104). -/
def otherFormat : ImageFormat := ⟨3, 2, 1, 0, 0x3F, 0x3E, .brg, false, .bgr, .gbr, 1⟩

/-- R6 and R7: the defaults, read off the spec's tables. -/
theorem test_default_config :
    defaultConfig.wf = true ∧ State.reset.cfg = defaultConfig ∧ defaultConfig.frameAdvance = .consumed ∧
    (defaultConfig.initW, defaultConfig.initH, defaultConfig.initSf) = (#v[0, 0, 0, 0], #v[0, 0, 0, 0], 0) ∧
    (defaultConfig.wBits, defaultConfig.audioMinSize, defaultConfig.imageMinSize) = (32, 16, 22) ∧
    (List.finRange 16).all (fun s => (List.finRange 4).all fun j =>
      defaultConfig.dequant[s][2 * j.val + 1] == -defaultConfig.dequant[s][2 * j.val]) = true := by decide +kernel
/-- Colliding tags (93_implementation_defined.md X6), and sizes and widths below their ranges, are no configuration. -/
theorem test_config_wf :
    [{ defaultImageFormat with tagRun := 2 }, { defaultImageFormat with tagRgb := 0xFF },
      { defaultImageFormat with tagRgb := 0xFC }].any ImageFormat.wf = false ∧
    [{ defaultConfig with wBits := 16 }, { defaultConfig with audioMinSize := 15 },
      { defaultConfig with imageMinSize := 13 }, { defaultConfig with recip := Vector.replicate 16 0 }].any Config.wf =
      false := by decide +kernel
/-- DIFF, LUMA, RGB and RGBA written out under the other format, by the layouts of R101, R102 and R104. -/
theorem test_other_format :
    encode otherFormat (.diff (-1) 1 0) = [0b10_10_01_11] ∧
    decode otherFormat .opcode [0b10_10_01_11] = .ok (.diff (-1) 1 0) [] ∧
    decode otherFormat .opcode [0b01_100011, 0b0110_0111] = .ok (.luma 3 (-1) (-2)) [] ∧
    decode otherFormat .opcode [0x3F, 30, 20, 10] = .ok (.rgb 10 20 30) [] ∧
    encode otherFormat (.rgba 200 100 50 128) = [0x3E, 100, 128, 50, 200] ∧
    decode otherFormat .opcode [0x3E, 100, 128, 50, 200] = .ok (.rgba 200 100 50 128) [] := by decide +kernel
/-- R22 and R133 with `W_BITS` 17: a weight wraps at 65536. -/
theorem test_weight_width :
    update { defaultConfig with wBits := 17 } (lms 65535 (-65536) 0 0 0 (-1) 0 0) 5 16 =
      lms (-65536) 65535 1 1 (-1) 0 0 5 := by decide +kernel
/-- R38 with other start values: `INIT_W`, `INIT_H` and `INIT_SF` reach the used channel, and no other. -/
theorem test_init_values :
    got (exec .audEnc { ready with cfg := { defaultConfig with initW := #v[0, 0, -8192, 16384], initH := #v[1, 2, 3, -4], initSf := 9 } })
      (fun t => (t.pred[0], t.prevSf[0], t.pred[1], t.prevSf[1])) =
      some (lms 0 0 (-8192) 16384 1 2 3 (-4), 9, lms 0 0 0 0 0 0 0 0, 0) := by decide +kernel
/-- V7E: the last slice of a frame that declares eight surplus bytes; the cursor stays behind the slice word, or goes to
the declared end. -/
theorem test_frame_advance :
    ([FrameAdvance.consumed, .declared].map fun adv =>
      got (step { wordDecoder (.slice 0 0) 1 8000 10 10 0x28
          ([0x01, 0, 0x1F, 0x40, 0, 0x0A, 0, 0x28] ++ List.replicate 32 0) with
        bp := 32, cfg := { defaultConfig with frameAdvance := adv } }) (fun t => (t.bp, t.sp, t.phase))) =
      [some (40, 10, .dec .frame), some (48, 10, .dec .frame)] := by decide +kernel

/-! ## Witnesses of the statements' hypotheses -/

/-- A state after, if there is one. -/
theorem next_of_got {o : Out} (h : got o (fun _ => ()) = some ()) : ∃ t, o = .next t := by
  cases o with
  | next s => exact ⟨s, rfl⟩
  | fault f => cases h
  | refused r => cases h

/-- O1, O3: the default format is well-formed, and so is one with other tags and orders. -/
theorem witness_encodings :
    defaultImageFormat.wf = true ∧ otherFormat.wf = true ∧
    [Instr.diff (-2) 1 1, .luma (-32) 7 (-8), .luma 31 (-8) 7, .run 1, .run 62, .slice 15 [7],
      .slice 0 (List.replicate 20 5)].all Instr.wf = true ∧ 4 ≤ [(0 : Byte), 0, 0, 0].length := by decide
/-- O2. -/
theorem witness_DecodedUnitReencodes :
    UnitKind.slice 20 ≠ .imageFooter ∧ (∀ m, UnitKind.slice 20 = .slice m → m = 20) ∧
    decode defaultImageFormat (.slice 20) [0x0B, 0x6D, 0xB6, 0xDB, 0x6D, 0xB6, 0xDB, 0x6D, 1] = .ok (.slice 0 (List.replicate 20 5)) [1] ∧
    (∀ m, UnitKind.opcode = .slice m → m = 20) ∧ decode defaultImageFormat .opcode [0xFD, 7] = .ok (.run 62) [7] := by
  refine ⟨by decide, ?_, by decide, ?_, by decide⟩ <;> intro m h <;> cases h; rfl
/-- O5: 20 codes, and 5 codes with fill bits that are not zero. -/
theorem witness_SliceWordLayout :
    (List.replicate 20 (5 : BitVec 3)).length ≤ 20 ∧ [(1 : BitVec 3), 3, 5, 7, 7].length ≤ 20 ∧
    (packSlice 3 [1, 3, 5, 7, 7]).toNat / 2 ^ (60 - 3 * 5) = (0x32EFFFFFFFFFFFFF : Word64).toNat / 2 ^ (60 - 3 * 5) := by
  decide
/-- O7, O15. -/
theorem witness_history :
    |(lms (-2147483648) 0 0 0 0 0 0 0).w0| ≤ 2 ^ 31 ∧ defaultConfig.wf = true ∧
    (lms (-32768) 0 0 32767 (-32768) 32767 0 (-1)).historyLegal ∧
    storedRange (lms (-32768) 0 0 32767 (-32768) 32767 0 (-1)).w0 ∧
    storedRange (lms (-32768) 0 0 32767 (-32768) 32767 0 (-1)).w3 := by
  unfold Predictor.historyLegal sampleRange storedRange; decide
/-- O8. -/
theorem witness_UpdateRegisters : (-32768 : Int) ≤ -32768 ∧ (-32768 : Int) ≤ 32767 ∧ (32767 : Int) ≤ 32767 := by decide
/-- O9, each clause. -/
theorem witness_DivRoundsAwayFromZero :
    defaultConfig.wf = true ∧ defaultConfig.div = .reciprocal ∧
    ((3 : Int) * recip defaultConfig 1 + 32768) / 65536 = 0 ∧
    ((-3 : Int) * recip defaultConfig 1 + 32768) / 65536 = 0 ∧
    ((4 : Int) * recip defaultConfig 1 + 32768) / 65536 ≠ 0 := by decide
/-- O10, each clause. -/
theorem witness_QuantizeAndReconstruct :
    defaultConfig.wf = true ∧ defaultConfig.div = .reciprocal ∧ defaultConfig.quant = defaultQuant ∧
    ((16 : Fin 17).val : Int) = max (-8) (min 8 (divScale defaultConfig 9 0)) + 8 ∧
    divScale defaultConfig 6 0 = 6 ∧ divScale defaultConfig (-6) 0 = -6 := by decide
/-- O11: the largest magnitude of the last clause. -/
theorem witness_PenaltyThreshold : |(lms 12287 (-12287) 12287 12287 0 0 0 0).w1| < 12288 ∧
    |(lms (-2147483648) 0 0 0 0 0 0 0).w0| ≤ 2 ^ 31 := by decide
/-- O12: the shortest and the longest slice. -/
theorem witness_DecoderFollowsCandidate :
    1 ≤ [(5 : Int)].length ∧ [(5 : Int)].length ≤ 20 ∧ (List.replicate 20 (5 : Int)).length ≤ 20 := by decide

/-- `AUD_ENC` at the slice of a one-sample mono stream, with the eight bytes left that it needs. -/
def sliceEncoder : State :=
  { wordEncoder (.slice 0 0) 1 8000 1 1 32 with
    bp := 32, bDesc := ⟨true, 0, 40⟩, samples := [(0, 5)], fChannels := 1, fSize := 32, fStart := 8 }

/-- O14. -/
theorem witness_SixteenStepsSearchASlice :
    sliceEncoder.resetLine = false ∧ sliceEncoder.phase = .enc (.slice 0 0) ∧ sliceEncoder.search = Search.start ∧
    readSlice sliceEncoder 0 0 = .ok [5] := ⟨rfl, rfl, rfl, rfl⟩

/-- O16 to O18: the last element of each bound. -/
theorem witness_opcodes_decode :
    (∀ n ≤ 5, 1 ≤ n → let s := pixelDecoder ⟨0, 0, 0, 255⟩ (List.replicate n 0);
      s.phase = .dec .pixel ∧ s.pp.toNat < s.pDesc.cap.toNat ∧ s.bp.toNat + n ≤ s.bDesc.len.toNat) ∧
    (let s := { pixelDecoder ⟨0, 0, 0, 255⟩ [] with run := 61, pp := 8 };
      s.phase = .dec .pixel ∧ s.pp.toNat < s.pDesc.cap.toNat ∧ s.resetLine = false ∧ s.run ≠ 0) := by decide +kernel

/-- O19, O20: room for exactly the opcode. -/
theorem witness_opcodes_emit :
    let s := pixelEncoder ⟨0, 0, 0, 255⟩ ⟨1, 2, 3, 4⟩ 1
    s.phase = .enc .pixel ∧ readPixel s = .ok ⟨1, 2, 3, 4⟩ ∧ s.bp.toNat + unitLength (.rgba 1 2 3 4) ≤ s.bDesc.cap.toNat ∧
    s.bp.toNat + 1 ≤ s.bDesc.cap.toNat ∧ ⟨1, 2, 3, 4⟩ ≠ s.pxPrev ∧
    readPixel (pixelEncoder ⟨1, 2, 3, 4⟩ ⟨1, 2, 3, 4⟩ 1) = .ok (pixelEncoder ⟨1, 2, 3, 4⟩ ⟨1, 2, 3, 4⟩ 1).pxPrev :=
  ⟨rfl, rfl, by decide, by decide, by decide, rfl⟩

/-- O21: one byte of room is missing, at a pixel and at a slice. -/
theorem witness_EmitWithoutRoomRaisesMemory :
    (let s := { pixelEncoder ⟨0, 0, 0, 255⟩ ⟨1, 2, 3, 4⟩ 0 with bDesc := ⟨true, 0, 18⟩ };
      s.phase = .enc .pixel ∧ kindOf (.rgba 1 2 3 4) = placeKind s .pixel ∧ (∃ px, readPixel s = .ok px) ∧
      s.bDesc.cap.toNat < s.bp.toNat + (encode defaultImageFormat (.rgba 1 2 3 4)).length) ∧
    (let s := { sliceEncoder with bDesc := ⟨true, 0, 39⟩, search := sliceSearch defaultConfig Predictor.zero 0 [5] };
      kindOf (.slice 0 [4]) = placeKind s (.slice 0 0) ∧ s.search.best.isSome = true ∧
      s.bDesc.cap.toNat < s.bp.toNat + (encode defaultImageFormat (.slice 0 [4])).length) :=
  ⟨⟨rfl, rfl, ⟨_, rfl⟩, by decide⟩, by decide +kernel⟩

/-- O22, each clause: a full run, the last pixel, a run in progress, its end, a hit, and deltas at the ends of the DIFF
and LUMA ranges and just past them. -/
theorem witness_SelectorPriority :
    let prev : Pixel := ⟨10, 10, 10, 255⟩
    let deltas := fun px : Pixel => (colourDelta px.r prev.r, colourDelta px.g prev.g, colourDelta px.b prev.b)
    ((pixelEncoder prev prev 61).run.toNat + 1 = 62 ∧ (pixelEncoder prev prev 60).run.toNat + 1 ≠ 62 ∧
      (pixelEncoder prev prev 60).pp.toNat + 1 ≠ encPixelCount (pixelEncoder prev prev 60)) ∧
    (pixelEncoder prev ⟨1, 2, 3, 4⟩ 1).run ≠ 0 ∧ cacheSlot clearCache (pixelHash ⟨0, 0, 0, 0⟩) = ⟨0, 0, 0, 0⟩ ∧
    cacheSlot clearCache (pixelHash ⟨8, 11, 8, 255⟩) ≠ ⟨8, 11, 8, 255⟩ ∧
    deltas ⟨8, 11, 8, 255⟩ = (-2, 1, -2) ∧ deltas ⟨12, 10, 10, 255⟩ = (2, 0, 0) ∧
    deltas ⟨226, 234, 225, 255⟩ = (-40, -32, -41) ∧ deltas ⟨34, 41, 48, 255⟩ = (24, 31, 38) ∧
    deltas ⟨42, 42, 42, 255⟩ = (32, 32, 32) := by decide +kernel

/-- O23: a LUMA; a full run, whose 62 pixels are the decoder's last; a flushed run; a pixel that extends a run. -/
theorem witness_DecoderFollowsPixelEncoder :
    (let e := pixelEncoder ⟨10, 20, 30, 255⟩ ⟨12, 23, 31, 255⟩ 0
     let d := pixelDecoder ⟨10, 20, 30, 255⟩ []
     e.resetLine = false ∧ d.resetLine = false ∧ e.phase = .enc .pixel ∧ d.phase = .dec .pixel ∧
     readPixel e = .ok ⟨12, 23, 31, 255⟩ ∧ e.cfg.image = d.cfg.image ∧ e.cfg.image.wf = true ∧ e.pxPrev = d.pxPrev ∧
     e.cache = d.cache ∧ CacheLegal e.cache ∧ e.run.toNat ≤ 61 ∧ d.run = 0 ∧ ⟨12, 23, 31, 255⟩ ≠ e.pxPrev ∧ e.run = 0 ∧
     turn e = .run (.luma 3 (-1) (-2)) e ∧ e.bp.toNat + unitLength (.luma 3 (-1) (-2)) ≤ e.bDesc.cap.toNat ∧
     d.pp.toNat < d.pDesc.cap.toNat) ∧
    (let e := pixelEncoder ⟨10, 20, 30, 255⟩ ⟨10, 20, 30, 255⟩ 61
     let d := { pixelDecoder ⟨10, 20, 30, 255⟩ [] with pp := 2, pDesc := ⟨true, 0, 64⟩, hdr := ⟨8, 8, 4, 0⟩ }
     readPixel e = .ok e.pxPrev ∧ e.run.toNat ≤ 61 ∧ turn e = .run (.run 62) e ∧
     e.bp.toNat + 1 ≤ e.bDesc.cap.toNat ∧ d.pp.toNat + 62 ≤ d.pDesc.cap.toNat ∧ d.pp.toNat + 62 ≤ decPixelCount d) ∧
    (let e := pixelEncoder ⟨10, 20, 30, 255⟩ ⟨1, 2, 3, 4⟩ 2
     readPixel e = .ok ⟨1, 2, 3, 4⟩ ∧ turn e = .run (.run 2) e) ∧
    (let e := pixelEncoder ⟨10, 20, 30, 255⟩ ⟨10, 20, 30, 255⟩ 0
     readPixel e = .ok e.pxPrev ∧ ¬∃ n, turn e = .run (.run n) e) :=
  ⟨⟨rfl, rfl, rfl, rfl, rfl, rfl, by decide, rfl, rfl,
      fun k => .inl (by simp [cacheSlot, pixelEncoder, State.reset, State.resetWith]), by decide, rfl, by decide, rfl,
      rfl, by decide, by decide⟩,
    ⟨rfl, by decide, rfl, by decide, by decide, by decide⟩, ⟨rfl, rfl⟩, rfl, fun ⟨n, h⟩ => by cases h⟩

/-- A good state, from its parts: the configuration and registers as after reset, and the rest evaluated. -/
theorem good_of {s : State} (hm : MemoryOk s) (hc : ControlOk s) (hf : s.cfg = defaultConfig)
    (hp : s.pred = State.reset.pred) (hs : s.search = Search.start) (hr : s.run.toNat ≤ 61)
    (hk : s.cache = State.reset.cache) (hpl : PlaceOk s) : Good s := by
  refine ⟨by rw [hf]; decide +kernel, hm, hc, ⟨?_, ?_, ?_⟩, ⟨?_, ?_, ?_⟩, ⟨hr, ?_⟩, hpl⟩
  · intro c; rw [hp]; simp only [State.reset, State.resetWith, Vector.getElem_replicate]
    unfold Predictor.historyLegal sampleRange; decide
  · rw [hs]; unfold Predictor.historyLegal sampleRange; decide
  · rw [hs]; intro b hb; cases hb
  · intro c; rw [hp, hf]; simp only [State.reset, State.resetWith, Vector.getElem_replicate]
    unfold Predictor.weightsLegal weightRange; decide
  · rw [hs, hf]; unfold Predictor.weightsLegal weightRange; decide
  · rw [hs]; intro b hb; cases hb
  · rw [hk]; exact fun k => .inl (by simp [cacheSlot, State.reset, State.resetWith])

/-- A good state of each of the four commands; each has a next state. -/
theorem witness_good_pixel_decoder : Good (pixelDecoder ⟨0, 0, 0, 255⟩ [0x5A]) :=
  good_of ⟨by decide, by decide, by decide⟩ ⟨by decide, by decide, by decide⟩ rfl rfl rfl (by decide) rfl
    (by unfold PlaceOk; exact ⟨by unfold ImageDecodeOk goodDimension; decide, by decide⟩)
theorem witness_good_pixel_encoder : Good (pixelEncoder ⟨0, 0, 0, 255⟩ ⟨255, 0, 0, 255⟩ 3) :=
  good_of ⟨by decide, by decide, by decide⟩ ⟨by decide, by decide, by decide⟩ rfl rfl rfl (by decide) rfl
    (by unfold PlaceOk; exact ⟨by unfold ImageEncodeOk goodDimension; decide, by decide, by decide⟩)
theorem witness_good_slice_encoder : Good sliceEncoder :=
  good_of ⟨by decide, by decide, by decide⟩ ⟨by decide, by decide, by decide⟩ rfl rfl rfl (by decide) rfl
    (by unfold PlaceOk; exact ⟨by unfold AudioEncodeOk; decide, by unfold streamLeft; decide⟩)
theorem witness_good_frame_decoder :
    Good (wordDecoder .frame 1 8000 10 0 0 [0x01, 0, 0x1F, 0x40, 0, 0x0A, 0, 0x20]) :=
  good_of ⟨by decide, by decide, by decide⟩ ⟨by decide, by decide, by decide⟩ rfl rfl rfl (by decide) rfl
    (by unfold PlaceOk; exact ⟨by unfold AudioDecodeOk; decide, by decide⟩)
/-- O51 to O54, O56, O57, O59, O60: the hypotheses of the invariants and of the run statements, with the states above. -/
theorem witness_steps :
    (∃ t, step (pixelDecoder ⟨0, 0, 0, 255⟩ [0x5A]) = .next t) ∧
    (∃ t, step (pixelEncoder ⟨0, 0, 0, 255⟩ ⟨255, 0, 0, 255⟩ 3) = .next t) ∧ (∃ t, step sliceEncoder = .next t) ∧
    (pixelDecoder ⟨0, 0, 0, 255⟩ [0x5A]).busy = true ∧ sliceEncoder.busy = true := by
  exact ⟨next_of_got (by decide +kernel), next_of_got (by decide +kernel), next_of_got (by decide +kernel), rfl, rfl⟩
/-- O24: an encoder's turn at a good state. -/
theorem witness_EncoderSelectsWellFormedUnit :
    turn (pixelEncoder ⟨0, 0, 0, 255⟩ ⟨255, 0, 0, 255⟩ 3) =
      .run (.run 3) (pixelEncoder ⟨0, 0, 0, 255⟩ ⟨255, 0, 0, 255⟩ 3) := rfl

/-- O25, O26: dimensions 1 and 16384 are good, 0 and 16385 are not; the capacity is met exactly, or one short. -/
theorem witness_headers_image :
    goodDimension 1 ∧ goodDimension 16384 ∧ ¬goodDimension 0 ∧ ¬goodDimension 16385 ∧
    (headDecoder 4 .imageHeader [] 2).phase = .dec .imageHeader ∧
    (2 : BitVec 32).toNat * (1 : BitVec 32).toNat ≤ (headDecoder 4 .imageHeader [] 2).pDesc.cap.toNat ∧
    (headDecoder 4 .imageHeader [] 1).pDesc.cap.toNat < (2 : BitVec 32).toNat * (1 : BitVec 32).toNat := by
  unfold goodDimension; decide
/-- O27, O29: room for exactly the header, or the footer. -/
theorem witness_headers_emit :
    (let s := { ready with phase := .enc .imageHeader, bDesc := ⟨true, 0, 14⟩ };
      s.phase = .enc .imageHeader ∧ s.bp.toNat + 14 ≤ s.bDesc.cap.toNat) ∧
    (let s := { ready with phase := .enc .audioHeader, bDesc := ⟨true, 0, 8⟩ };
      s.phase = .enc .audioHeader ∧ s.bp.toNat + 8 ≤ s.bDesc.cap.toNat) ∧
    (let s := { ready with phase := .enc .imageFooter, bp := 32 };
      s.phase = .enc .imageFooter ∧ s.bp.toNat + 8 ≤ s.bDesc.cap.toNat) := by decide
/-- O28. -/
theorem witness_FooterEndsImageDecode :
    let s := { pixelDecoder ⟨0, 0, 0, 255⟩ [] with phase := .dec .imageFooter, hdr := ⟨16384, 16384, 4, 0⟩ }
    s.phase = .dec .imageFooter ∧ decPixelCount s < 2 ^ 32 := by decide
/-- O30, O31: 8 and 9 channels, an output that is met exactly or one short, and streaming mode. -/
theorem witness_headers_audio :
    let s := fun (ch : Byte) (cap : BitVec 32) => headDecoder 2 .audioHeader
      ([0x71, 0x6F, 0x61, 0x66, 0, 0, 0, 2] ++ [ch, 0, 0x1F, 0x40, 0, 0x0A, 0, 0x20]) cap
    (s 8 16).phase = .dec .audioHeader ∧ (2 : BitVec 32) ≠ 0 ∧
    readBytes (s 8 16) 8 8 = .ok (bytes64 ((8 : BitVec 8) ++ (8000 : BitVec 24) ++ (0x000A0020 : BitVec 32))) ∧
    (2 : BitVec 32).toNat * (8 : BitVec 8).toNat ≤ (s 8 16).sDesc.cap.toNat ∧
    readBytes (s 9 16) 8 8 = .ok (bytes64 ((9 : BitVec 8) ++ (8000 : BitVec 24) ++ (0x000A0020 : BitVec 32))) ∧
    8 < (9 : BitVec 8).toNat ∧ (s 8 15).sDesc.cap.toNat < (2 : BitVec 32).toNat * (8 : BitVec 8).toNat :=
  ⟨rfl, by decide, rfl, by decide, rfl, by decide, by decide⟩

/-- O32: the checks are met exactly, with one channel and with none. -/
theorem witness_FrameDecodes :
    (let s := wordDecoder .frame 1 8000 10 0 0 (List.replicate 32 0);
      s.phase = .dec .frame ∧ (1 : BitVec 8) = s.stChannels ∧ (8000 : BitVec 24) = s.stRate ∧
      8 + 16 * (1 : BitVec 8).toNat ≤ (32 : BitVec 16).toNat ∧
      ((10 : BitVec 16).toNat + 19) / 20 * (1 : BitVec 8).toNat ≤
        ((32 : BitVec 16).toNat - 8 - 16 * (1 : BitVec 8).toNat) / 8 ∧
      s.bp.toNat + (32 : BitVec 16).toNat ≤ s.bDesc.len.toNat ∧ s.sp.toNat + (10 : BitVec 16).toNat ≤ s.stSamples.toNat) ∧
    (let s := wordDecoder .frame 0 8000 10 0 0 (List.replicate 8 0);
      (0 : BitVec 8) = s.stChannels ∧ 8 + 16 * (0 : BitVec 8).toNat ≤ (8 : BitVec 16).toNat ∧
      s.bp.toNat + (8 : BitVec 16).toNat ≤ s.bDesc.len.toNat) := by decide
/-- O33, each clause: another rate, a size one short of the snapshots (V78), one slice word short (V79), a frame one byte
longer than the input (V7A), one sample more than the output lacks (V7B). -/
theorem witness_FrameRejects :
    let s := wordDecoder .frame 1 8000 10 0 0 (List.replicate 31 0)
    s.phase = .dec .frame ∧ (8001 : BitVec 24) ≠ s.stRate ∧ ¬8 + 16 * s.stChannels.toNat ≤ (0x17 : BitVec 16).toNat ∧
    ¬((21 : BitVec 16).toNat + 19) / 20 * s.stChannels.toNat ≤
      ((32 : BitVec 16).toNat - 8 - 16 * s.stChannels.toNat) / 8 ∧
    ¬s.bp.toNat + (32 : BitVec 16).toNat ≤ s.bDesc.len.toNat ∧
    ¬s.sp.toNat + (11 : BitVec 16).toNat ≤ s.stSamples.toNat := by decide
/-- O34, O36, O38: room for exactly the word. -/
theorem witness_words_emit :
    (let s := wordEncoder .frame 1 8000 10 0 8;
      s.phase = .enc .frame ∧ s.bp.toNat + 8 ≤ s.bDesc.cap.toNat ∧ 1 ≤ s.stChannels.toNat) ∧
    (let s := wordEncoder (.hist 7) 8 8000 10 10 8;
      s.phase = .enc (.hist 7) ∧ s.bp.toNat + 8 ≤ s.bDesc.cap.toNat) ∧
    (let s := wordEncoder (.wght 6) 8 8000 10 10 8;
      s.phase = .enc (.wght 6) ∧ (7 : Fin 8).val = (6 : Fin 8).val + 1 ∧ (7 : Fin 8).val < s.stChannels.toNat) ∧
    (let s := wordEncoder (.wght 7) 8 8000 10 10 8;
      s.phase = .enc (.wght 7) ∧ s.stChannels.toNat ≤ (7 : Fin 8).val + 1 ∧ 0 < s.fSamples.toNat) ∧
    (let s := { wordEncoder (.slice 0 0) 1 8000 21 21 8 with search := sliceSearch defaultConfig Predictor.zero 0 [5] };
      s.phase = .enc (.slice 0 0) ∧ s.search.best = some (sliceSim defaultConfig Predictor.zero [5] 0) ∧
      s.bp.toNat + 8 ≤ s.bDesc.cap.toNat ∧ (0 : Fin 8).val < s.stChannels.toNat ∧ s.stChannels.toNat ≤ 8 ∧
      s.stChannels.toNat = (0 : Fin 8).val + 1 ∧ 20 * (0 + 1) < s.fSamples.toNat) := by decide +kernel
/-- O35: a snapshot's two words, at the first and the last channel, and a frame of no samples. -/
theorem witness_SnapshotWordsLoad :
    (let s := wordDecoder (.hist 7) 8 8000 10 10 200 (List.replicate 8 0);
      s.cfg.wf = true ∧ s.phase = .dec (.hist 7) ∧ s.bp.toNat + 8 ≤ s.bDesc.len.toNat) ∧
    (let s := wordDecoder (.wght 6) 8 8000 10 10 200 (List.replicate 8 0);
      s.phase = .dec (.wght 6) ∧ (7 : Fin 8).val = (6 : Fin 8).val + 1 ∧ (7 : Fin 8).val < s.stChannels.toNat) ∧
    (let s := wordDecoder (.wght 7) 8 8000 10 1 200 (List.replicate 8 0);
      s.phase = .dec (.wght 7) ∧ s.stChannels.toNat ≤ (7 : Fin 8).val + 1 ∧ 0 < s.fSamples.toNat) ∧
    (let s := wordDecoder (.wght 0) 1 8000 10 0 24 (List.replicate 8 0);
      s.phase = .dec (.wght 0) ∧ s.stChannels.toNat ≤ (0 : Fin 8).val + 1 ∧ s.fSamples.toNat = 0) := by decide
/-- O37, each end: another channel follows, another slice follows, the frame ends; the output's last element is met. -/
theorem witness_SliceDecodes :
    (let s := wordDecoder (.slice 0 0) 2 8000 50 25 72 (List.replicate 8 0);
      s.phase = .dec (.slice 0 0) ∧ s.bp.toNat + 8 ≤ s.bDesc.len.toNat ∧ (0 : Fin 8).val < s.stChannels.toNat ∧
      s.stChannels.toNat ≤ 8 ∧ (1 : Fin 8).val = (0 : Fin 8).val + 1 ∧ (1 : Fin 8).val < s.stChannels.toNat) ∧
    (let s := wordDecoder (.slice 0 1) 2 8000 50 25 72 (List.replicate 8 0);
      s.stChannels.toNat = (1 : Fin 8).val + 1 ∧ 20 * (0 + 1) < s.fSamples.toNat ∧
      ∀ j < 20, (s.sp.toNat + 20 * 0 + j) * s.stChannels.toNat + (1 : Fin 8).val < 40) ∧
    (let s := wordDecoder (.slice 0 0) 1 8000 20 20 32 (List.replicate 8 0);
      s.stChannels.toNat = (0 : Fin 8).val + 1 ∧ s.fSamples.toNat ≤ 20 * (0 + 1) ∧
      ∀ j < 20, (s.sp.toNat + 20 * 0 + j) * s.stChannels.toNat + (0 : Fin 8).val < s.sDesc.cap.toNat) := by decide
/-- O39, each clause. -/
theorem witness_AudioCommandsEnd :
    (let s := { wordDecoder .frame 1 8000 10 10 32 [] with sp := 10 };
      s.resetLine = false ∧ s.phase = .dec .frame ∧ s.sp = s.stSamples ∧ s.bp = s.bDesc.len ∧
      s.stSamples.toNat * s.stChannels.toNat < 2 ^ 32) ∧
    (let s := { wordDecoder .frame 1 8000 10 10 32 [0] with sp := 10 };
      ¬(s.bp.toNat < s.bDesc.len.toNat ∧ s.sp.toNat < s.stSamples.toNat) ∧ ¬(s.sp = s.stSamples ∧ s.bp = s.bDesc.len)) ∧
    (let s := { wordEncoder .frame 1 8000 10 10 0 with sp := 10 };
      s.phase = .enc .frame ∧ s.stSamples.toNat ≤ s.sp.toNat) := by decide

/-- O40 to O43: an idle block. -/
theorem witness_commands : ready.busy = false ∧ ready.phase = .idle ∧ ready.aChannels.toNat ≤ 8 ∧
    ready.sDesc.len.toNat = ready.aSamples.toNat * ready.aChannels.toNat ∧
    8 + (ready.aSamples.toNat + 5119) / 5120 * (8 + 16 * 1) + 8 * 1 * ((ready.aSamples.toNat + 19) / 20) =
      ready.bDesc.cap.toNat ∧
    ready.pDesc.len.toNat = ready.iWidth.toNat * ready.iHeight.toNat := by decide
/-- O41 to O43, the rejecting clauses: nothing attached, a capacity one short, a width of 0, one pixel missing. -/
theorem witness_commands_reject :
    ¬State.reset.bDesc.present = true ∧ { ready with bDesc := ⟨true, 0, 39⟩ }.bDesc.cap.toNat < 40 ∧
    ¬1 ≤ { ready with iWidth := 0 }.iWidth.toNat ∧
    { ready with pDesc := ⟨true, 1, 2⟩ }.pDesc.len.toNat ≠ ready.iWidth.toNat * ready.iHeight.toNat := by decide

/-- O45, each clause: the lengths are one short, or the magic is the other format's. -/
theorem witness_ShortOrForeignInputRaises :
    (headDecoder 2 .audioHeader (List.replicate 15 0) 9).bDesc.len.toNat < 16 ∧
    (headDecoder 4 .imageHeader (List.replicate 21 0) 9).bDesc.len.toNat < 22 ∧
    (readBytes (headDecoder 2 .audioHeader (List.replicate 16 7) 9) 0 8 = .ok (List.replicate 8 7) ∧
      16 ≤ (headDecoder 2 .audioHeader (List.replicate 16 7) 9).bDesc.len.toNat) ∧
    (readBytes (headDecoder 4 .imageHeader (List.replicate 22 7) 9) 0 14 = .ok (List.replicate 14 7) ∧
      22 ≤ (headDecoder 4 .imageHeader (List.replicate 22 7) 9).bDesc.len.toNat) ∧
    (let s := wordDecoder .frame 1 8000 10 0 0 (List.replicate 7 0);
      s.bp.toNat < s.bDesc.len.toNat ∧ s.sp.toNat < s.stSamples.toNat ∧ s.bDesc.len.toNat < s.bp.toNat + 8) ∧
    (let s := pixelDecoder ⟨0, 0, 0, 255⟩ [];
      s.run = 0 ∧ s.bDesc.len.toNat ≤ s.bp.toNat) ∧
    (let s := pixelDecoder ⟨0, 0, 0, 255⟩ [0xFF, 1, 2, 3];
      s.bp.toNat < s.bDesc.len.toNat ∧ Space.read s.bytes s.bp.toNat = some 0xFF ∧
      s.bDesc.len.toNat < s.bp.toNat + opcodeLength defaultImageFormat 0xFF) ∧
    (let s := { pixelDecoder ⟨0, 0, 0, 255⟩ (List.replicate 7 0) with phase := .dec .imageFooter };
      s.bDesc.len.toNat < s.bp.toNat + 8) :=
  ⟨by decide, by decide, ⟨rfl, by decide⟩, ⟨rfl, by decide⟩, by decide, by decide, by decide, by decide⟩
/-- O53 to O56: another configuration in the ranges, and a state of it. -/
theorem witness_configurations :
    { defaultConfig with wBits := 17, imageMinSize := 14, image := otherFormat }.wf = true ∧
    (State.resetWith { defaultConfig with wBits := 17 }).cfg.wf = true := by decide
/-- O46: reset during an image decode, and while idle. -/
theorem witness_ResetEffects :
    { pixelDecoder ⟨0, 0, 0, 255⟩ [] with resetLine := true }.resetLine = true ∧
    ¬({ ready with resetLine := true }.busy = true ∧ outputOf ready.cmd = some .bytes) := by decide

/-- O47: the opcode of P1's first pixel. -/
theorem witness_StepRunsDecodedUnit :
    let s := pixelDecoder ⟨0, 0, 0, 255⟩ [0x5A]
    s.resetLine = false ∧ s.phase = .dec .pixel ∧ s.run = 0 ∧
    readBytes s s.bp.toNat (unitLength (.diff (-1) 0 0)) = .ok [0x5A] ∧
    decode defaultImageFormat (placeKind s .pixel) [0x5A] = .ok (.diff (-1) 0 0) [] := ⟨rfl, rfl, rfl, rfl, by decide⟩
/-- O48: the places of the two encoders. -/
theorem witness_StepRunsSelectedUnit :
    (wordEncoder .frame 8 8000 5121 0 8).phase = .enc .frame ∧
    (wordEncoder .frame 8 8000 5121 0 8).sp.toNat < (wordEncoder .frame 8 8000 5121 0 8).stSamples.toNat ∧
    (wordEncoder (.hist 7) 8 8000 10 10 8).phase = .enc (.hist 7) ∧
    (let s := { sliceEncoder with search := sliceSearch defaultConfig Predictor.zero 0 [5] };
      s.search.index = 16 ∧ s.search.best = some (sliceSim defaultConfig Predictor.zero [5] 0)) := by decide +kernel
/-- O49: a host with moves to come, of every kind. -/
theorem witness_IdleStepTakesHostMove :
    let s := { ready with host := [.writeCmd 7, .fillByte 0xFFFFFFFF 1] }
    s.resetLine = false ∧ s.phase = .idle ∧ s.host = .writeCmd 7 :: [.fillByte 0xFFFFFFFF 1] ∧
    kindOf .reserved7 = .command ∧ ∀ m : HostMove, { ready with host := [m] }.host = m :: [] :=
  ⟨rfl, rfl, rfl, rfl, fun _ => rfl⟩
/-- O50. -/
theorem witness_UnitsOutOfPlaceAreRefused :
    kindOf .footer ≠ .command ∧ ready.phase = .idle ∧ kindOf .nop = .command ∧
    (pixelDecoder ⟨0, 0, 0, 255⟩ []).busy = true ∧
    (let s := { pixelDecoder ⟨0, 0, 0, 255⟩ [] with pp := 9 };
      s.phase = .dec .pixel ∧ s.pDesc.cap.toNat ≤ s.pp.toNat) := by decide

/-- The end of an audio encode: P3's shape with one sample. -/
def audioEncodeEnd : State :=
  { sliceEncoder with phase := .enc .frame, bp := 40, sp := 1 }
/-- The footer of a 1 × 1 image encode, with the largest stream such an image has. -/
def imageEncodeEnd : State :=
  { pixelEncoder ⟨0, 0, 0, 255⟩ ⟨0, 0, 0, 255⟩ 0 with
    phase := .enc .imageFooter, iWidth := 1, iHeight := 1, pp := 1, bp := 19, bDesc := ⟨true, 0, 27⟩
    pDesc := ⟨true, 1, 0⟩, pixels := [] }
/-- O58, each clause. -/
theorem witness_EncodersFit :
    Good audioEncodeEnd ∧ got (step audioEncodeEnd) (·.busy) = some false ∧ Good imageEncodeEnd ∧
    got (step imageEncodeEnd) (·.busy) = some false ∧
    22 + 5 * (imageEncodeEnd.iWidth.toNat * imageEncodeEnd.iHeight.toNat) ≤ imageEncodeEnd.bDesc.cap.toNat := by
  refine ⟨good_of ⟨by decide, by decide, by decide⟩ ⟨by decide, by decide, by decide⟩ rfl rfl rfl (by decide) rfl ?_,
    by decide +kernel, good_of ⟨by decide, by decide, by decide⟩ ⟨by decide, by decide, by decide⟩ rfl rfl rfl (by decide) rfl ?_,
    by decide +kernel, by decide⟩
  · unfold PlaceOk; exact ⟨by unfold AudioEncodeOk; decide, by decide, by unfold streamLeft; decide⟩
  · unfold PlaceOk; exact ⟨by unfold ImageEncodeOk goodDimension; decide, by decide, by decide⟩

end Sys2Proof.Tests
end

/-! SUPPORT. A decoder's step is `exec` of the unit its place holds (O47), and the state after reset is good (O55). -/

namespace Sys2Proof.Machine

/-! ## The length of a decoded unit -/

/-- A unit read as a 64-bit word has eight bytes (30_encoding.md R90). -/
theorem unitLength_of_unitOfWord {k : UnitKind} {w : Word64} {bs rest : List Byte} {i : Instr}
    (h : unitOfWord k w bs = .ok i rest) : unitLength i = 8 := by
  cases k with
  | audioHeader =>
    simp only [unitOfWord] at h
    split at h <;> cases h
    rfl
  | frameHeader | history | weights | slice _ | imageFooter => cases h; rfl
  | command | imageHeader | opcode => cases h

/-- The eight bytes of the image footer decode to `END`, whatever they are (45_pixel_decoder.md R280). -/
theorem decode_imageFooter_ok {f : ImageFormat} {bs rest : List Byte} {i : Instr}
    (h : decode f .imageFooter bs = .ok i rest) : i = .footer := by
  simp only [decode] at h
  split at h <;> cases h
  rfl

/-- A unit decoded at a place that holds a 64-bit word has eight bytes. -/
theorem unitLength_of_decode_word {s : State} {p : Place} {bs rest : List Byte} {i : Instr}
    (hh : p ≠ .imageHeader) (hx : p ≠ .pixel) (h : decode s.cfg.image (placeKind s p) bs = .ok i rest) :
    unitLength i = 8 := by
  cases p with
  | imageHeader => exact absurd rfl hh
  | pixel => exact absurd rfl hx
  | imageFooter | audioHeader | frame | hist _ | wght _ | slice _ _ =>
    simp only [placeKind, decode] at h
    split at h
    · cases h
    · exact unitLength_of_unitOfWord h

/-! ## Fetching a unit that decodes -/

/-- An element below the length that was written is read. -/
theorem readElem_of_read {α : Type} {m : Space α} {len : BitVec 32} {i : Nat} {v : α} (hi : i < len.toNat)
    (hv : Space.read m i = some v) : readElem m len i = .ok v := by
  simp [readElem, hi, hv]

/-- The first of the bytes read stands at the address itself. -/
theorem readElem_of_readBytes_cons {s : State} {a n : Nat} {op : Byte} {bs : List Byte}
    (h : readBytes s a n = .ok (op :: bs)) : readElem s.bytes s.bDesc.len a = .ok op := by
  obtain ⟨hlen, hbound⟩ := readBytes_ok h
  obtain ⟨m, rfl⟩ : ∃ m, n = m + 1 := ⟨bs.length, by simpa using hlen.symm⟩
  have hread := (readMany_ok h).2
  simp only [indices, List.range_succ_eq_map, List.map_cons, Nat.add_zero, List.cons.injEq] at hread
  exact readElem_of_read (by omega) hread.1

/-- Bytes that are there and decode are fetched as their unit. -/
theorem fetchAt_of_decode {s : State} {k : UnitKind} {a n : Nat} {bs rest : List Byte} {i : Instr}
    (hb : readBytes s a n = .ok bs) (hd : decode s.cfg.image k bs = .ok i rest) : fetchAt s k a n = .unit i := by
  simp only [fetchAt, hb, hd]

/-- An opcode that is there is fetched: its first byte tells the length that was read (30_encoding.md R98). -/
theorem fetchOpcode_of_decode {s : State} {bs rest : List Byte} {i : Instr}
    (hb : readBytes s s.bp.toNat (unitLength i) = .ok bs) (hd : decode s.cfg.image .opcode bs = .ok i rest) :
    fetchOpcode s = .unit i := by
  cases bs with
  | nil => cases hd
  | cons op tail =>
    have hlen : unitLength i = opcodeLength s.cfg.image op := (decodeOpcode_cases hd).1
    have hpos := (opcodeLength_range s.cfg.image op).1
    have hroom := (readBytes_ok hb).2 (by omega)
    have hfirst : hasBytes s 1 = true := (hasBytes_iff s 1).mpr (by omega)
    have hwhole : hasBytes s (opcodeLength s.cfg.image op) = true := (hasBytes_iff s _).mpr (by omega)
    rw [fetchOpcode, if_pos hfirst, readElem_of_readBytes_cons hb]
    exact (if_pos hwhole).trans (fetchAt_of_decode (hlen ▸ hb) hd)

/-- The bytes at a decoder's place that decode to a unit are fetched as it, once the header minimums hold. -/
theorem fetchUnit_of_decode {s : State} {p : Place} {bs rest : List Byte} {i : Instr}
    (himage : p = .imageHeader → s.cfg.imageMinSize ≤ s.bDesc.len.toNat)
    (haudio : p = .audioHeader → s.cfg.audioMinSize ≤ s.bDesc.len.toNat)
    (hb : readBytes s (if p = .imageHeader then 0 else s.bp.toNat) (unitLength i) = .ok bs)
    (hd : decode s.cfg.image (placeKind s p) bs = .ok i rest) : fetchUnit s p = .unit i := by
  cases p with
  | imageHeader =>
    obtain ⟨_, _, _, _, rfl⟩ := decode_imageHeader_ok hd
    exact (if_neg (not_lt.mpr (himage rfl))).trans (fetchAt_of_decode hb hd)
  | pixel => exact fetchOpcode_of_decode hb hd
  | imageFooter =>
    obtain rfl := decode_imageFooter_ok hd
    exact if_pos ((hasBytes_iff s 8).mpr ((readBytes_ok hb).2 (by decide)))
  | audioHeader =>
    rw [unitLength_of_decode_word (by simp) (by simp) hd] at hb
    exact (if_neg (not_lt.mpr (haudio rfl))).trans (fetchAt_of_decode hb hd)
  | frame =>
    rw [unitLength_of_decode_word (by simp) (by simp) hd] at hb
    exact (if_pos ((hasBytes_iff s 8).mpr ((readBytes_ok hb).2 (by decide)))).trans (fetchAt_of_decode hb hd)
  | hist _ | wght _ | slice _ _ =>
    rw [unitLength_of_decode_word (by simp) (by simp) hd] at hb
    exact fetchAt_of_decode hb hd

/-- A decoder's step runs the unit fetched at its place, outside a run and where the frame loop goes on. -/
theorem step_of_fetchUnit {s : State} {p : Place} {i : Instr} (hr : s.resetLine = false) (hp : s.phase = .dec p)
    (hrun : p = .pixel → s.run = 0)
    (hloop : p = .frame → s.bp.toNat < s.bDesc.len.toNat ∧ s.sp.toNat < s.stSamples.toNat)
    (hf : fetchUnit s p = .unit i) : step s = exec i s := by
  have hnoRun : ¬(p = .pixel ∧ s.run ≠ 0) := fun h => h.2 (hrun h.1)
  have hnoEnd : ¬(p = .frame ∧ ¬(s.bp.toNat < s.bDesc.len.toNat ∧ s.sp.toNat < s.stSamples.toNat)) :=
    fun h => h.2 (hloop h.1)
  simp only [step, turn_dec hr hp, decodeTurn, if_neg hnoRun, if_neg hnoEnd, hf, fetchedTurn]

/-- Settles O47: the frame loop's condition on `BP` follows from the eight bytes read at the place. -/
theorem stepRunsDecodedUnit : Obligations.StepRunsDecodedUnit := by
  intro s p i bs rest hr hp hrun hsp himage haudio hb hd
  refine step_of_fetchUnit hr hp hrun (fun hframe => ?_) (fetchUnit_of_decode himage haudio hb hd)
  subst hframe
  have hlen := unitLength_of_decode_word (by simp) (by simp) hd
  have hroom : s.bp.toNat + unitLength i ≤ s.bDesc.len.toNat := (readBytes_ok hb).2 (by omega)
  exact ⟨by omega, hsp rfl⟩

/-! ## The state after reset -/

/-- Zero history registers hold 16-bit values. -/
theorem historyLegal_zero : Predictor.zero.historyLegal := by
  have h : sampleRange 0 := ⟨by decide, by decide⟩
  exact ⟨h, h, h, h⟩

/-- Zero weight registers hold values of any width. -/
theorem weightsLegal_zero (bits : Nat) : Predictor.zero.weightsLegal bits := by
  have hpos : (0 : Int) < 2 ^ bits := by positivity
  have h : weightRange bits 0 := ⟨by omega, by omega⟩
  exact ⟨h, h, h, h⟩

/-- Every channel's predictor state after reset is the zero one. -/
theorem resetWith_pred (cfg : Config) (c : Fin 8) : (State.resetWith cfg).pred[c.val] = Predictor.zero :=
  Vector.getElem_replicate ..

theorem memoryOk_resetWith (cfg : Config) : MemoryOk (State.resetWith cfg) := ⟨⟨rfl, rfl⟩, ⟨rfl, rfl⟩, rfl, rfl⟩

theorem controlOk_resetWith (cfg : Config) : ControlOk (State.resetWith cfg) :=
  ⟨⟨nofun, fun h => absurd rfl h⟩, nofun, Nat.zero_le _⟩

theorem historyOk_resetWith (cfg : Config) : HistoryOk (State.resetWith cfg) :=
  ⟨fun c => (resetWith_pred cfg c).symm ▸ historyLegal_zero, historyLegal_zero, nofun⟩

theorem weightsOk_resetWith (cfg : Config) : WeightsOk (State.resetWith cfg) :=
  ⟨fun c => (resetWith_pred cfg c).symm ▸ weightsLegal_zero _, weightsLegal_zero _, nofun⟩

theorem pixelCoderOk_resetWith (cfg : Config) : PixelCoderOk (State.resetWith cfg) :=
  ⟨Nat.zero_le _, fun k => .inl (cacheSlot_clearCache k)⟩

/-- A block is good after reset whenever its parameters lie in the ranges (93_implementation_defined.md 1.1). -/
theorem good_resetWith {cfg : Config} (h : cfg.wf = true) : Good (State.resetWith cfg) :=
  ⟨h, memoryOk_resetWith cfg, controlOk_resetWith cfg, historyOk_resetWith cfg, weightsOk_resetWith cfg,
    pixelCoderOk_resetWith cfg, trivial⟩

/-- The spec's default parameters lie in the ranges (00_scope.md R6, R7). -/
theorem defaultConfig_wf : defaultConfig.wf = true := by decide

/-- Settles O55: the default configuration is one of those within the ranges. -/
theorem resetIsGood : Obligations.ResetIsGood :=
  ⟨good_resetWith defaultConfig_wf, fun _ => good_resetWith⟩

end Sys2Proof.Machine

/-! SUPPORT. Everything a step can lead to, as one relation: the invariants and the frame of a running command are then
case analyses over it. -/

namespace Sys2Proof.Machine

variable {s t : State}

/-! ## What a step can lead to -/

/-- The state in which a unit of a running command raises its error: as it was, or with the registers set that the unit
writes before the failing check. -/
inductive Attempted (s : State) : State → Prop
  | untouched : Attempted s s
  | headerRead : Attempted s { s with bp := s.bp + 8 }
  | streamLatched (samples : BitVec 32) (w : Word64) :
    Attempted s (latchStream samples w { s with bp := s.bp + 8 })
  | frameRead (channels : BitVec 8) (rate : BitVec 24) (fsamples fsize : BitVec 16) :
    Attempted s { latchFrame channels rate fsamples fsize s with bp := s.bp + 8 }
  | frameSelected : Attempted s (frameLatched s)
  | pixelCached (px : Pixel) : Attempted s { s with cache := cacheStore s.cache px }
  | runTaken : Attempted s { s with run := 0 }

/-- The state a slice word of `AUD_DEC` leaves (43_audio_commands.md R225). -/
def sliceDecodedState (k : Nat) (c : Fin 8) (sf : BitVec 4) (codes : List (BitVec 3)) (s : State) : State :=
  { setPredictor
      { s with samples := Space.writeAll s.samples (sliceStores s k c (decodeSlice s.cfg s.pred[c.val] sf codes).2) }
      c (decodeSlice s.cfg s.pred[c.val] sf codes).1 with
    bp := s.bp + 8 }

/-- The results of a successful `AUD_DEC` (43_audio_commands.md R227). -/
def audioResults (s : State) : State :=
  completeOk { s with
    aChannels := s.stChannels
    aRate := s.stRate
    aSamples := s.stSamples
    sDesc := { s.sDesc with len := BitVec.ofNat 32 (s.stSamples.toNat * s.stChannels.toNat) } }

/-- What a step of `AUD_DEC` leads to where it raises nothing (43_audio_commands.md R221 to R227). -/
inductive AudioDecoded (s : State) : State → Prop
  | header (samples : BitVec 32) (w : Word64) (hp : s.phase = .dec .audioHeader) (hb : s.bp.toNat + 8 ≤ s.bDesc.len.toNat)
      (hc : firstError (peekChecks (latchStream samples w { s with bp := s.bp + 8 })) = none) :
    AudioDecoded s { latchStream samples w { s with bp := s.bp + 8 } with phase := .dec .frame }
  | frame (channels : BitVec 8) (rate : BitVec 24) (fsamples fsize : BitVec 16) (s1 : State) (hp : s.phase = .dec .frame)
      (hs1 : s1 = { latchFrame channels rate fsamples fsize s with bp := s.bp + 8 })
      (hb : s.bp.toNat + 8 ≤ s.bDesc.len.toNat) (hc : firstError (frameChecks s1) = none) :
    AudioDecoded s (decodeOnward (afterFrameHeader s1) s1)
  | history (c : Fin 8) (h0 h1 h2 h3 : BitVec 16) (hp : s.phase = .dec (.hist c)) (hb : s.bp.toNat + 8 ≤ s.bDesc.len.toNat) :
    AudioDecoded s
      { setPredictor s c (loadHistory s.pred[c.val] h0 h1 h2 h3) with bp := s.bp + 8, phase := .dec (.wght c) }
  | weights (c : Fin 8) (w0 w1 w2 w3 : BitVec 16) (hp : s.phase = .dec (.wght c)) (hb : s.bp.toNat + 8 ≤ s.bDesc.len.toNat) :
    AudioDecoded s (decodeOnward (afterWeights s c)
      { setPredictor s c (loadWeights s.cfg s.pred[c.val] w0 w1 w2 w3) with bp := s.bp + 8 })
  | slice (k : Nat) (c : Fin 8) (sf : BitVec 4) (codes : List (BitVec 3)) (hp : s.phase = .dec (.slice k c))
      (hb : s.bp.toNat + 8 ≤ s.bDesc.len.toNat) :
    AudioDecoded s (decodeOnward (afterSlice s k c) (sliceDecodedState k c sf codes s))
  | finish (hp : s.phase = .dec .frame) : AudioDecoded s (audioResults s)

/-- What a step of `IMG_DEC` leads to where it raises nothing (45_pixel_decoder.md R270 to R281). -/
inductive ImageDecoded (s : State) : State → Prop
  | header (width height : BitVec 32) (chtag cstag : Byte) (hp : s.phase = .dec .imageHeader)
      (hlen : s.cfg.imageMinSize ≤ s.bDesc.len.toNat)
      (hc : firstError (imageHeaderChecks width height chtag cstag s) = none) :
    ImageDecoded s (startPixels width height chtag cstag s)
  | runUnit (hp : s.phase = .dec .pixel) (hrun : s.run ≠ 0) : ImageDecoded s (pixelProduced { s with run := s.run - 1 })
  | colour (px : Pixel) (n : Nat) (hp : s.phase = .dec .pixel) (hb : s.bp.toNat + n ≤ s.bDesc.len.toNat) :
    ImageDecoded s (pixelProduced (colourSet px n s))
  | run (n : Nat) (hp : s.phase = .dec .pixel) (hn : s.cfg.image.wf = true → n ≤ 62)
      (hb : s.bp.toNat + 1 ≤ s.bDesc.len.toNat) :
    ImageDecoded s (pixelProduced { s with run := BitVec.ofNat 6 (n - 1), bp := s.bp + 1 })
  | finish (hp : s.phase = .dec .imageFooter) : ImageDecoded s (imageResults s)

/-- What a step of `IMG_ENC` leads to where it raises nothing (44_pixel_encoder.md R242 to R254). -/
inductive ImageEncoded (s : State) : State → Prop
  | header (bs : List Byte) (hp : s.phase = .enc .imageHeader) (hlen : bs.length = 14) (hroom : hasRoom s bs.length = true) :
    ImageEncoded s { emitted bs s with phase := .enc .pixel }
  | silent (hp : s.phase = .enc .pixel) (hfull : s.run.toNat + 1 ≠ runMax) (hlast : s.pp.toNat + 1 ≠ encPixelCount s) :
    ImageEncoded s (extendRun s)
  | lastOfRun (bs : List Byte) (px : Pixel) (hp : s.phase = .enc .pixel) (hlen : bs.length = 1)
      (hroom : hasRoom s bs.length = true) : ImageEncoded s (pixelCoded px (emitted bs { s with run := 0 }))
  | flush (bs : List Byte) (hp : s.phase = .enc .pixel) (hrun : s.run ≠ 0) (hlen : bs.length = 1)
      (hroom : hasRoom s bs.length = true) : ImageEncoded s (emitted bs { s with run := 0 })
  | index (bs : List Byte) (px : Pixel) (hp : s.phase = .enc .pixel) (hrun : s.run = 0) (hlen : bs.length = 1)
      (hroom : hasRoom s bs.length = true) : ImageEncoded s (pixelCoded px (emitted bs s))
  | literal (bs : List Byte) (px : Pixel) (hp : s.phase = .enc .pixel) (hrun : s.run = 0) (hlen : bs.length ≤ 5)
      (hroom : hasRoom s bs.length = true) :
    ImageEncoded s (pixelCoded px (emitted bs { s with cache := cacheStore s.cache px }))
  | finish (bs : List Byte) (hp : s.phase = .enc .imageFooter) : ImageEncoded s (streamResult (emitted bs s))

/-- What a step of `AUD_ENC` leads to where it raises nothing (43_audio_commands.md R212). -/
inductive AudioEncoded (s : State) : State → Prop
  | header (bs : List Byte) (hp : s.phase = .enc .audioHeader) (hlen : bs.length = 8) (hroom : hasRoom s bs.length = true) :
    AudioEncoded s { emitted bs s with phase := .enc .frame }
  | frame (bs : List Byte) (s1 : State) (hp : s.phase = .enc .frame) (hlen : bs.length = 8)
      (hroom : hasRoom s bs.length = true) (hmore : s.sp.toNat < s.stSamples.toNat) (hs1 : s1 = emitted bs (frameLatched s)) :
    AudioEncoded s (encodeOnward (afterFrameHeader s1) s1)
  | history (bs : List Byte) (c : Fin 8) (hp : s.phase = .enc (.hist c)) (hlen : bs.length = 8)
      (hroom : hasRoom s bs.length = true) : AudioEncoded s { emitted bs s with phase := .enc (.wght c) }
  | weights (bs : List Byte) (c : Fin 8) (hp : s.phase = .enc (.wght c)) (hlen : bs.length = 8)
      (hroom : hasRoom s bs.length = true) : AudioEncoded s (encodeOnward (afterWeights s c) (emitted bs s))
  | search (k : Nat) (c : Fin 8) (xs : List Int) (hp : s.phase = .enc (.slice k c)) (hi : s.search.index < scaleCount) :
    AudioEncoded s { s with search := searchTurn s.cfg s.pred[c.val] s.prevSf[c.val] xs s.search }
  | slice (bs : List Byte) (k : Nat) (c : Fin 8) (best : Candidate) (hp : s.phase = .enc (.slice k c))
      (hbest : s.search.best = some best) (hlen : bs.length = 8) (hroom : hasRoom s bs.length = true) :
    AudioEncoded s (encodeOnward (afterSlice s k c) (commitSearch c best.sf best (emitted bs s)))
  | finish (hp : s.phase = .enc .frame) : AudioEncoded s (streamResult s)

/-- What a step of an idle block leads to (10_state.md R35, 60_exceptions.md R321). -/
inductive IdleStepped (s : State) : State → Prop
  | stay : IdleStepped s s
  | move (m : HostMove) (rest : List HostMove) : IdleStepped s (applyMove m { s with host := rest })
  | atOnce (code : BitVec 3) (e : ErrKind) (rest : List HostMove) :
    IdleStepped s (flagsAtOnce code e { s with host := rest })
  | rejected (code : BitVec 3) (e : ErrKind) (rest : List HostMove) :
    IdleStepped s (raiseErr e (beginCommand code { s with host := rest }))
  | audEnc (rest : List HostMove) (hc : firstError (audEncChecks (beginCommand 1 { s with host := rest })) = none) :
    IdleStepped s (audEncStart (beginCommand 1 { s with host := rest }))
  | audDec (rest : List HostMove) :
    IdleStepped s { beginCommand 2 { s with host := rest } with phase := .dec .audioHeader }
  | imgEnc (rest : List HostMove) (hc : firstError (imgEncChecks (beginCommand 3 { s with host := rest })) = none) :
    IdleStepped s { seedPixelCoder (beginCommand 3 { s with host := rest }) with phase := .enc .imageHeader }
  | imgDec (rest : List HostMove) :
    IdleStepped s { beginCommand 4 { s with host := rest } with phase := .dec .imageHeader }

/-- What a step of a running command leads to: an error completion, or what its unit does. -/
inductive RunningStepped (s : State) : State → Prop
  | raised (e : ErrKind) {s1 : State} (h : Attempted s s1) : RunningStepped s (raiseErr e s1)
  | imageDecoded {t : State} (h : ImageDecoded s t) : RunningStepped s t
  | audioDecoded {t : State} (h : AudioDecoded s t) : RunningStepped s t
  | imageEncoded {t : State} (h : ImageEncoded s t) : RunningStepped s t
  | audioEncoded {t : State} (h : AudioEncoded s t) : RunningStepped s t

/-! ## Every step is one of these -/

theorem RunningStepped.untouched (e : ErrKind) : RunningStepped s (raiseErr e s) := .raised e .untouched

theorem runningStepped_dec_imageHeader (hr : s.resetLine = false) (hp : s.phase = .dec .imageHeader) (h : step s = .next t) :
    RunningStepped s t := by
  rcases step_dec_imageHeader hr hp h with ⟨e, rfl⟩ | ⟨width, height, chtag, cstag, hlen, hc, rfl⟩
  · exact .untouched e
  · exact .imageDecoded (.header width height chtag cstag hp hlen hc)

theorem runningStepped_dec_pixel (hr : s.resetLine = false) (hp : s.phase = .dec .pixel) (h : step s = .next t) :
    RunningStepped s t := by
  rcases step_dec_pixel hr hp h with
    ⟨e, rfl⟩ | ⟨-, ⟨hrun, rfl⟩ | ⟨-, px, n, -, -, hb, rfl⟩ | ⟨-, n, -, -, hn, hb, rfl⟩⟩
  · exact .untouched e
  · exact .imageDecoded (.runUnit hp hrun)
  · exact .imageDecoded (.colour px n hp hb)
  · exact .imageDecoded (.run n hp hn hb)

theorem runningStepped_dec_imageFooter (hr : s.resetLine = false) (hp : s.phase = .dec .imageFooter) (h : step s = .next t) :
    RunningStepped s t := by
  rcases step_dec_imageFooter hr hp h with ⟨e, rfl⟩ | ⟨-, rfl⟩
  · exact .untouched e
  · exact .imageDecoded (.finish hp)

theorem runningStepped_dec_audioHeader (hr : s.resetLine = false) (hp : s.phase = .dec .audioHeader) (h : step s = .next t) :
    RunningStepped s t := by
  rcases step_dec_audioHeader hr hp h with ⟨e, rfl⟩ | ⟨e, rfl⟩ | ⟨samples, w, -, hb, -, ⟨e, rfl⟩ | ⟨hc, rfl⟩⟩
  · exact .untouched e
  · exact .raised e .headerRead
  · exact .raised e (.streamLatched samples w)
  · exact .audioDecoded (.header samples w hp hb hc)

theorem runningStepped_dec_frame (hr : s.resetLine = false) (hp : s.phase = .dec .frame) (h : step s = .next t) :
    RunningStepped s t := by
  rcases step_dec_frame hr hp h with
    ⟨e, rfl⟩ | ⟨-, -, rfl⟩ | ⟨channels, rate, fsamples, fsize, s1, hs1, hb, -, ⟨e, rfl⟩ | ⟨hc, rfl⟩⟩
  · exact .untouched e
  · exact .audioDecoded (.finish hp)
  · exact .raised e (hs1 ▸ .frameRead channels rate fsamples fsize)
  · exact .audioDecoded (.frame channels rate fsamples fsize s1 hp hs1 hb hc)

/-- A step of a decoder. -/
theorem runningStepped_dec {p : Place} (hr : s.resetLine = false) (hp : s.phase = .dec p) (h : step s = .next t) :
    RunningStepped s t := by
  cases p with
  | imageHeader => exact runningStepped_dec_imageHeader hr hp h
  | pixel => exact runningStepped_dec_pixel hr hp h
  | imageFooter => exact runningStepped_dec_imageFooter hr hp h
  | audioHeader => exact runningStepped_dec_audioHeader hr hp h
  | frame => exact runningStepped_dec_frame hr hp h
  | hist c =>
    obtain ⟨hb, h0, h1, h2, h3, rfl⟩ := step_dec_hist hr hp h
    exact .audioDecoded (.history c h0 h1 h2 h3 hp hb)
  | wght c =>
    obtain ⟨hb, w0, w1, w2, w3, rfl⟩ := step_dec_wght hr hp h
    exact .audioDecoded (.weights c w0 w1 w2 w3 hp hb)
  | slice k c =>
    obtain ⟨hb, sf, codes, -, -, rfl⟩ := step_dec_slice hr hp h
    exact .audioDecoded (.slice k c sf codes hp hb)

/-- A RUN opcode of an encoder: without room an error, else the pixel at the cursor is coded with it or left. -/
theorem runningStepped_flushRun {n : Nat} (hp : s.phase = .enc .pixel) (hrun : s.run = 0 → readPixel s = .ok s.pxPrev)
    (h : flushRun (.run n) s = .next t) : RunningStepped s t := by
  obtain ⟨px, hpx, ⟨hroom, rfl⟩ | rfl⟩ := flushRun_next h
  · split
    · exact .imageEncoded (.lastOfRun _ px hp rfl hroom)
    · next hne =>
      exact .imageEncoded (.flush _ hp (fun h0 => hne (Except.ok.inj (hpx.symm.trans (hrun h0)))) rfl hroom)
  · exact .raised _ .runTaken

theorem runningStepped_enc_pixel (hr : s.resetLine = false) (hp : s.phase = .enc .pixel) (h : step s = .next t) :
    RunningStepped s t := by
  obtain ⟨px, hpx, ⟨-, hfull, hlast, rfl⟩ | ⟨heq, -, hf⟩ | ⟨-, hrun, hf⟩ | ⟨-, hrun, -, hi⟩ | ⟨-, hrun, -, hm⟩⟩ :=
    step_enc_pixel hr hp h
  · exact .imageEncoded (.silent hp hfull hlast)
  · exact runningStepped_flushRun hp (fun _ => heq ▸ hpx) hf
  · exact runningStepped_flushRun hp (fun h0 => absurd h0 hrun) hf
  · obtain ⟨px, -, ⟨hroom, rfl⟩ | rfl⟩ := emitPixel_next hi
    · exact .imageEncoded (.index _ px hp hrun rfl hroom)
    · exact .untouched _
  · obtain ⟨px', -, ⟨hroom, rfl⟩ | rfl⟩ := emitMissedPixel_next hm
    · exact .imageEncoded (.literal _ px' hp hrun (selectLiteral_cases s.cfg.image px s.pxPrev).2.1 hroom)
    · exact .raised _ (.pixelCached px')

theorem runningStepped_enc_frame (hr : s.resetLine = false) (hp : s.phase = .enc .frame) (h : step s = .next t) :
    RunningStepped s t := by
  rcases step_enc_frame hr hp with ⟨-, he⟩ | ⟨hmore, hroom, he⟩ | ⟨-, -, he⟩ <;> rw [he] at h <;> cases h
  · exact .audioEncoded (.finish hp)
  · exact .audioEncoded (.frame (encode s.cfg.image (frameUnit s)) _ hp rfl hroom hmore rfl)
  · exact .raised _ .frameSelected

/-- A step of an encoder. -/
theorem runningStepped_enc {p : Place} (hr : s.resetLine = false) (hp : s.phase = .enc p) (h : step s = .next t) :
    RunningStepped s t := by
  cases p with
  | imageHeader =>
    obtain ⟨bs, hlen, -, ⟨hroom, he⟩ | ⟨-, he⟩⟩ := step_enc_imageHeader hr hp <;> rw [he] at h <;> cases h
    · exact .imageEncoded (.header bs hp hlen (hlen ▸ hroom))
    · exact .untouched _
  | pixel => exact runningStepped_enc_pixel hr hp h
  | imageFooter =>
    rcases step_enc_imageFooter hr hp with ⟨-, he⟩ | ⟨-, he⟩ <;> rw [he] at h <;> cases h
    · exact .imageEncoded (.finish _ hp)
    · exact .untouched _
  | audioHeader =>
    rcases step_enc_audioHeader hr hp with ⟨hroom, he⟩ | ⟨-, he⟩ <;> rw [he] at h <;> cases h
    · exact .audioEncoded (.header _ hp rfl hroom)
    · exact .untouched _
  | frame => exact runningStepped_enc_frame hr hp h
  | hist c =>
    rcases step_enc_hist hr hp with ⟨hroom, he⟩ | ⟨-, he⟩ <;> rw [he] at h <;> cases h
    · exact .audioEncoded (.history _ c hp rfl hroom)
    · exact .untouched _
  | wght c =>
    rcases step_enc_wght hr hp with ⟨hroom, he⟩ | ⟨-, he⟩ <;> rw [he] at h <;> cases h
    · exact .audioEncoded (.weights _ c hp rfl hroom)
    · exact .untouched _
  | slice k c =>
    rcases step_enc_slice hr hp h with ⟨hi, xs, -, rfl⟩ | ⟨-, best, bs, hbest, hlen, -, ⟨hroom, rfl⟩ | ⟨-, rfl⟩⟩
    · exact .audioEncoded (.search k c xs hp hi)
    · exact .audioEncoded (.slice bs k c best hp hbest hlen (hlen ▸ hroom))
    · exact .untouched _

/-- A step of an idle block. -/
theorem idleStepped_of_step (hr : s.resetLine = false) (hp : s.phase = .idle) (h : step s = .next t) : IdleStepped s t := by
  rcases step_idle_cases hr hp h with rfl | ⟨m, rest, -, rfl⟩ | ⟨code, rest, -, hx⟩
  · exact .stay
  · exact .move m rest
  · rcases (exec_command_next hx).2 with
      ⟨e, rfl⟩ | ⟨e, rfl⟩ | ⟨-, hc, rfl⟩ | ⟨-, rfl⟩ | ⟨-, hc, rfl⟩ | ⟨-, rfl⟩
    · exact .atOnce code e rest
    · exact .rejected code e rest
    · exact .audEnc rest hc
    · exact .audDec rest
    · exact .imgEnc rest hc
    · exact .imgDec rest

/-- A step of a running command. -/
theorem runningStepped_of_step (hr : s.resetLine = false) (hp : s.phase ≠ .idle) (h : step s = .next t) :
    RunningStepped s t := by
  cases hphase : s.phase with
  | idle => exact absurd hphase hp
  | dec p => exact runningStepped_dec hr hphase h
  | enc p => exact runningStepped_enc hr hphase h

/-- A step is the reset, a step of an idle block or a step of a running command. -/
theorem step_next_cases (h : step s = .next t) :
    t = applyReset s ∨ (s.phase = .idle ∧ IdleStepped s t) ∨ (s.phase ≠ .idle ∧ RunningStepped s t) := by
  cases hr : s.resetLine with
  | true => rw [step_of_reset hr] at h; cases h; exact .inl rfl
  | false =>
    by_cases hp : s.phase = .idle
    · exact .inr (.inl ⟨hp, idleStepped_of_step hr hp h⟩)
    · exact .inr (.inr ⟨hp, runningStepped_of_step hr hp h⟩)

end Sys2Proof.Machine


/-! SUPPORT. The host's side of a running command: what its steps leave alone until it completes (O59), and the handshake
registers (O52). -/

namespace Sys2Proof.Machine

variable {s t : State}

/-! ## The host's side -/

/-- The registers the host sets or sees, the configuration and the host's moves: all that a running command leaves alone
until it completes (10_state.md R28, R29, R31, R35). -/
structure HostSide where
  cfg : Config
  cmd : BitVec 3
  busy : Bool
  done : Bool
  err : BitVec 4
  aChannels : BitVec 8
  aRate : BitVec 24
  aSamples : BitVec 32
  iWidth : BitVec 32
  iHeight : BitVec 32
  iChtag : Byte
  iCstag : Byte
  bDesc : Descriptor
  sDesc : Descriptor
  pDesc : Descriptor
  host : List HostMove

/-- A state's registers on the host's side. -/
def State.hostSide (s : State) : HostSide :=
  ⟨s.cfg, s.cmd, s.busy, s.done, s.err, s.aChannels, s.aRate, s.aSamples, s.iWidth, s.iHeight, s.iChtag, s.iCstag,
    s.bDesc, s.sDesc, s.pDesc, s.host⟩

/-- Going on in a frame moves a decoder's cursors and its place only. -/
theorem decodeOnward_frame (next : Option Place) (s : State) :
    ∃ sp bp p, decodeOnward next s = { s with sp := sp, bp := bp, phase := .dec p } ∧ (next = some p ∨ p = .frame) := by
  rcases decodeOnward_cases next s with ⟨p, hn, he⟩ | ⟨-, he⟩
  · exact ⟨s.sp, s.bp, p, he, .inl hn⟩
  · exact ⟨_, _, .frame, he, .inr rfl⟩

/-- Going on in a frame moves an encoder's sample cursor, its place and its search only. -/
theorem encodeOnward_frame (next : Option Place) (s : State) :
    ∃ sp p, encodeOnward next s = { s with sp := sp, search := Search.start, phase := .enc p } ∧
      (next = some p ∨ p = .frame) := by
  rcases encodeOnward_cases next s with ⟨p, hn, he⟩ | ⟨-, he⟩
  · exact ⟨s.sp, p, he, .inl hn⟩
  · exact ⟨_, .frame, he, .inr rfl⟩

/-- The place after a word of a frame is one of the audio stream. -/
theorem afterFrameHeader_isImage {p : Place} (h : afterFrameHeader s = some p) : p.isImage = false := by
  unfold afterFrameHeader at h
  split at h <;> cases h
  rfl

theorem afterWeights_isImage {c : Fin 8} {p : Place} (h : afterWeights s c = some p) : p.isImage = false := by
  unfold afterWeights at h
  split at h
  · cases h; rfl
  · split at h <;> cases h
    rfl

theorem afterSlice_isImage {k : Nat} {c : Fin 8} {p : Place} (h : afterSlice s k c = some p) : p.isImage = false := by
  unfold afterSlice at h
  split at h
  · cases h; rfl
  · split at h <;> cases h
    rfl

/-- A unit of a running decoder that does not end the command: the host's side and the input stay, and the next place is
of the same stream. -/
def DecoderGoesOn (s t : State) : Prop :=
  t.hostSide = s.hostSide ∧ t.bytes = s.bytes ∧
    ∃ p q : Place, s.phase = .dec p ∧ t.phase = .dec q ∧ q.isImage = p.isImage

/-- The same of a running encoder, whose inputs are `S` and `P`. -/
def EncoderGoesOn (s t : State) : Prop :=
  t.hostSide = s.hostSide ∧ t.samples = s.samples ∧ t.pixels = s.pixels ∧
    ∃ p q : Place, s.phase = .enc p ∧ t.phase = .enc q ∧ q.isImage = p.isImage

/-- A decoder that goes on in a frame from a state that differs from `s` in nothing of the host's. -/
theorem decoderGoesOn_decodeOnward {p : Place} {next : Option Place} {s1 : State} (hp : s.phase = .dec p)
    (himage : p.isImage = false) (hnext : ∀ q, next = some q → q.isImage = false) (hside : s1.hostSide = s.hostSide)
    (hbytes : s1.bytes = s.bytes) : DecoderGoesOn s (decodeOnward next s1) := by
  obtain ⟨sp, bp, q, he, hq⟩ := decodeOnward_frame next s1
  have hqimage : q.isImage = false := hq.elim (hnext q) (fun h => h ▸ rfl)
  rw [he]
  exact ⟨hside, hbytes, p, q, hp, rfl, hqimage.trans himage.symm⟩

/-- An encoder that goes on in a frame, likewise. -/
theorem encoderGoesOn_encodeOnward {p : Place} {next : Option Place} {s1 : State} (hp : s.phase = .enc p)
    (himage : p.isImage = false) (hnext : ∀ q, next = some q → q.isImage = false) (hside : s1.hostSide = s.hostSide)
    (hsamples : s1.samples = s.samples) (hpixels : s1.pixels = s.pixels) :
    EncoderGoesOn s (encodeOnward next s1) := by
  obtain ⟨sp, q, he, hq⟩ := encodeOnward_frame next s1
  have hqimage : q.isImage = false := hq.elim (hnext q) (fun h => h ▸ rfl)
  rw [he]
  exact ⟨hside, hsamples, hpixels, p, q, hp, rfl, hqimage.trans himage.symm⟩

/-- A produced pixel is followed by another one or by the footer. -/
theorem decoderGoesOn_pixelProduced {s1 : State} (hp : s.phase = .dec .pixel) (hside : s1.hostSide = s.hostSide)
    (hbytes : s1.bytes = s.bytes) : DecoderGoesOn s (pixelProduced s1) := by
  refine ⟨hside, hbytes, .pixel, ?_⟩
  rw [pixelProduced_phase]
  split
  · exact ⟨.pixel, hp, rfl, rfl⟩
  · exact ⟨.imageFooter, hp, rfl, rfl⟩

/-- A coded pixel likewise. -/
theorem encoderGoesOn_pixelCoded {px : Pixel} {s1 : State} (hp : s.phase = .enc .pixel)
    (hside : s1.hostSide = s.hostSide) (hsamples : s1.samples = s.samples) (hpixels : s1.pixels = s.pixels) :
    EncoderGoesOn s (pixelCoded px s1) := by
  refine ⟨hside, hsamples, hpixels, .pixel, ?_⟩
  rw [pixelCoded_phase]
  split
  · exact ⟨.pixel, hp, rfl, rfl⟩
  · exact ⟨.imageFooter, hp, rfl, rfl⟩

/-- A step of `IMG_DEC` ends the command or goes on. -/
theorem ImageDecoded.goesOn (h : ImageDecoded s t) :
    DecoderGoesOn s t ∨ (s.phase = .dec .imageFooter ∧ t = imageResults s) := by
  cases h with
  | header width height chtag cstag hp => exact .inl ⟨rfl, rfl, .imageHeader, .pixel, hp, rfl, rfl⟩
  | runUnit hp => exact .inl (decoderGoesOn_pixelProduced hp rfl rfl)
  | colour px n hp => exact .inl (decoderGoesOn_pixelProduced hp rfl rfl)
  | run n hp => exact .inl (decoderGoesOn_pixelProduced hp rfl rfl)
  | finish hp => exact .inr ⟨hp, rfl⟩

/-- A step of `AUD_DEC` ends the command or goes on. -/
theorem AudioDecoded.goesOn (h : AudioDecoded s t) :
    DecoderGoesOn s t ∨ (s.phase = .dec .frame ∧ t = audioResults s) := by
  cases h with
  | header samples w hp => exact .inl ⟨rfl, rfl, .audioHeader, .frame, hp, rfl, rfl⟩
  | frame channels rate fsamples fsize s1 hp hs1 =>
    subst hs1
    exact .inl (decoderGoesOn_decodeOnward hp rfl (fun q => afterFrameHeader_isImage) rfl rfl)
  | history c h0 h1 h2 h3 hp => exact .inl ⟨rfl, rfl, .hist c, .wght c, hp, rfl, rfl⟩
  | weights c w0 w1 w2 w3 hp => exact .inl (decoderGoesOn_decodeOnward hp rfl (fun q => afterWeights_isImage) rfl rfl)
  | slice k c sf codes hp => exact .inl (decoderGoesOn_decodeOnward hp rfl (fun q => afterSlice_isImage) rfl rfl)
  | finish hp => exact .inr ⟨hp, rfl⟩

/-- A step of `IMG_ENC` ends the command or goes on. -/
theorem ImageEncoded.goesOn (h : ImageEncoded s t) :
    EncoderGoesOn s t ∨ (s.phase = .enc .imageFooter ∧ ∃ bs, t = streamResult (emitted bs s)) := by
  cases h with
  | header bs hp => exact .inl ⟨rfl, rfl, rfl, .imageHeader, .pixel, hp, rfl, rfl⟩
  | silent hp => exact .inl (encoderGoesOn_pixelCoded hp rfl rfl rfl)
  | lastOfRun bs px hp => exact .inl (encoderGoesOn_pixelCoded hp rfl rfl rfl)
  | flush bs hp => exact .inl ⟨rfl, rfl, rfl, .pixel, .pixel, hp, hp, rfl⟩
  | index bs px hp => exact .inl (encoderGoesOn_pixelCoded hp rfl rfl rfl)
  | literal bs px hp => exact .inl (encoderGoesOn_pixelCoded hp rfl rfl rfl)
  | finish bs hp => exact .inr ⟨hp, bs, rfl⟩

/-- A step of `AUD_ENC` ends the command or goes on. -/
theorem AudioEncoded.goesOn (h : AudioEncoded s t) :
    EncoderGoesOn s t ∨ (s.phase = .enc .frame ∧ t = streamResult s) := by
  cases h with
  | header bs hp => exact .inl ⟨rfl, rfl, rfl, .audioHeader, .frame, hp, rfl, rfl⟩
  | frame bs s1 hp _ _ _ hs1 =>
    subst hs1
    exact .inl (encoderGoesOn_encodeOnward hp rfl (fun q => afterFrameHeader_isImage) rfl rfl rfl)
  | history bs c hp => exact .inl ⟨rfl, rfl, rfl, .hist c, .wght c, hp, rfl, rfl⟩
  | weights bs c hp => exact .inl (encoderGoesOn_encodeOnward hp rfl (fun q => afterWeights_isImage) rfl rfl rfl)
  | search k c xs hp => exact .inl ⟨rfl, rfl, rfl, .slice k c, .slice k c, hp, hp, rfl⟩
  | slice bs k c best hp => exact .inl (encoderGoesOn_encodeOnward hp rfl (fun q => afterSlice_isImage) rfl rfl rfl)
  | finish hp => exact .inr ⟨hp, rfl⟩

/-- A unit that raises has changed nothing on the host's side and in no buffer. -/
theorem Attempted.hostSide {s1 : State} (h : Attempted s s1) :
    s1.hostSide = s.hostSide ∧ s1.bytes = s.bytes ∧ s1.samples = s.samples ∧ s1.pixels = s.pixels := by
  cases h <;> exact ⟨rfl, rfl, rfl, rfl⟩

/-! ## The handshake -/

/-- Every error code is one of the eleven (60_exceptions.md R300). -/
theorem ErrKind.code_le (e : ErrKind) : e.code.toNat ≤ 10 := by
  cases e <;> decide

/-- The handshake after a completion. -/
theorem controlOk_of_ended (hphase : t.phase = .idle) (hbusy : t.busy = false) (herr : t.err.toNat ≤ 10) :
    ControlOk t :=
  ⟨by simp [hphase, hbusy], by simp [hbusy], herr⟩

theorem controlOk_flagsEnd (e : ErrKind) (s : State) : ControlOk (flagsEnd e s) :=
  controlOk_of_ended rfl rfl e.code_le

theorem controlOk_raiseErr (e : ErrKind) (s : State) : ControlOk (raiseErr e s) :=
  controlOk_of_ended rfl rfl e.code_le

/-- The handshake after the start of a command at a place of its stream. -/
theorem controlOk_of_started (hphase : t.phase ≠ .idle) (hbusy : t.busy = true) (hdone : t.done = false)
    (hcmd : t.cmd = t.phase.command) (herr : t.err.toNat ≤ 10) : ControlOk t :=
  ⟨⟨fun _ => hphase, fun _ => hbusy⟩, fun _ => ⟨hdone, hcmd⟩, herr⟩

/-- The handshake is a matter of the host's side, of whether a command runs and of which it is. -/
theorem ControlOk.of_hostSide (h : ControlOk s) (hside : t.hostSide = s.hostSide) (hs : s.phase ≠ .idle)
    (ht : t.phase ≠ .idle) (hcommand : t.phase.command = s.phase.command) : ControlOk t := by
  obtain ⟨hbusy, hrun, herr⟩ := h
  obtain ⟨hdone, hcmd⟩ := hrun (hbusy.mpr hs)
  have herr' : t.err = s.err := congrArg HostSide.err hside
  exact controlOk_of_started ht ((congrArg HostSide.busy hside).trans (hbusy.mpr hs))
    ((congrArg HostSide.done hside).trans hdone)
    ((congrArg HostSide.cmd hside).trans (hcmd.trans hcommand.symm)) (herr' ▸ herr)

theorem DecoderGoesOn.controlOk (h : DecoderGoesOn s t) (hc : ControlOk s) : ControlOk t := by
  obtain ⟨hside, -, p, q, hp, hq, himage⟩ := h
  exact hc.of_hostSide hside (by simp [hp]) (by simp [hq]) (by simp [hp, hq, Phase.command, himage])

theorem EncoderGoesOn.controlOk (h : EncoderGoesOn s t) (hc : ControlOk s) : ControlOk t := by
  obtain ⟨hside, -, -, p, q, hp, hq, himage⟩ := h
  exact hc.of_hostSide hside (by simp [hp]) (by simp [hq]) (by simp [hp, hq, Phase.command, himage])

/-- A step of a running command keeps the handshake and the configuration. -/
theorem RunningStepped.controlOk (h : RunningStepped s t) : (ControlOk s → ControlOk t) ∧ t.cfg = s.cfg := by
  cases h with
  | raised e ha => exact ⟨fun _ => controlOk_raiseErr e _, congrArg HostSide.cfg ha.hostSide.1⟩
  | imageDecoded hd =>
    rcases hd.goesOn with hg | ⟨-, rfl⟩
    · exact ⟨hg.controlOk, congrArg HostSide.cfg hg.1⟩
    · exact ⟨fun _ => controlOk_flagsEnd .eNone _, rfl⟩
  | audioDecoded hd =>
    rcases hd.goesOn with hg | ⟨-, rfl⟩
    · exact ⟨hg.controlOk, congrArg HostSide.cfg hg.1⟩
    · exact ⟨fun _ => controlOk_flagsEnd .eNone _, rfl⟩
  | imageEncoded hd =>
    rcases hd.goesOn with hg | ⟨-, bs, rfl⟩
    · exact ⟨hg.controlOk, congrArg HostSide.cfg hg.1⟩
    · exact ⟨fun _ => controlOk_flagsEnd .eNone _, rfl⟩
  | audioEncoded hd =>
    rcases hd.goesOn with hg | ⟨-, rfl⟩
    · exact ⟨hg.controlOk, congrArg HostSide.cfg hg.1⟩
    · exact ⟨fun _ => controlOk_flagsEnd .eNone _, rfl⟩

/-- The host's moves are neither the handshake's nor the configuration's. -/
theorem applyMove_control (m : HostMove) (s : State) :
    (applyMove m s).cfg = s.cfg ∧ (applyMove m s).busy = s.busy ∧ (applyMove m s).err = s.err ∧
      (applyMove m s).phase = s.phase := by
  cases m with
  | setPresent x v | setLen x v | setCap x v => cases x <;> exact ⟨rfl, rfl, rfl, rfl⟩
  | _ => exact ⟨rfl, rfl, rfl, rfl⟩

/-- A step of an idle block keeps the handshake and the configuration. -/
theorem IdleStepped.controlOk (h : IdleStepped s t) (hp : s.phase = .idle) :
    (ControlOk s → ControlOk t) ∧ t.cfg = s.cfg := by
  cases h with
  | stay => exact ⟨id, rfl⟩
  | move m rest =>
    obtain ⟨hcfg, hbusy, herr, hphase⟩ := applyMove_control m { s with host := rest }
    refine ⟨fun ⟨hidle, _, hle⟩ => ?_, hcfg⟩
    have hnotBusy : s.busy = false := by simpa [hp] using hidle
    exact controlOk_of_ended (hphase.trans hp) (hbusy.trans hnotBusy) ((congrArg BitVec.toNat herr).trans_le hle)
  | atOnce code e rest => exact ⟨fun _ => controlOk_flagsEnd e _, rfl⟩
  | rejected code e rest => exact ⟨fun _ => controlOk_raiseErr e _, rfl⟩
  | audEnc rest => exact ⟨fun ⟨_, _, herr⟩ => controlOk_of_started nofun rfl rfl rfl herr, rfl⟩
  | audDec rest => exact ⟨fun ⟨_, _, herr⟩ => controlOk_of_started nofun rfl rfl rfl herr, rfl⟩
  | imgEnc rest => exact ⟨fun ⟨_, _, herr⟩ => controlOk_of_started nofun rfl rfl rfl herr, rfl⟩
  | imgDec rest => exact ⟨fun ⟨_, _, herr⟩ => controlOk_of_started nofun rfl rfl rfl herr, rfl⟩

/-- Settles O52: reset, the idle block's steps and the running command's, each by its own lemma. -/
theorem stepKeepsControl : Obligations.StepKeepsControl := by
  intro s t h
  rcases step_next_cases h with rfl | ⟨hp, hidle⟩ | ⟨-, hrun⟩
  · exact ⟨fun _ => controlOk_of_ended rfl rfl (Nat.zero_le _), rfl⟩
  · exact hidle.controlOk hp
  · exact hrun.controlOk

/-! ## The frame of a running command -/

/-- A running command's code is its phase's. -/
theorem ControlOk.cmd_of_running (h : ControlOk s) (hp : s.phase ≠ .idle) : s.cmd = s.phase.command :=
  (h.2.1 (h.1.mpr hp)).2

/-- The output of a decoder is not `B` (10_state.md R29). -/
theorem outputOf_dec (p : Place) : outputOf (Phase.dec p).command ≠ some .bytes := by
  simp only [Phase.command]
  split <;> decide

/-- The output of an encoder is `B` (10_state.md R29). -/
theorem outputOf_enc (p : Place) : outputOf (Phase.enc p).command = some .bytes := by
  simp only [Phase.command]
  split <;> decide

/-- What a decoder's step leaves of the host's side: the input, and until the completion everything. -/
def DecoderKeeps (s t : State) : Prop :=
  t.host = s.host ∧ t.cmd = s.cmd ∧ t.bytes = s.bytes ∧ t.bDesc = s.bDesc ∧ (t.busy = true → t.hostSide = s.hostSide)

/-- What an encoder's step leaves of it: the inputs and the operands, and until the completion everything. -/
def EncoderKeeps (s t : State) : Prop :=
  t.host = s.host ∧ t.cmd = s.cmd ∧
  (t.samples = s.samples ∧ t.pixels = s.pixels ∧ t.sDesc = s.sDesc ∧ t.pDesc = s.pDesc ∧
    t.aChannels = s.aChannels ∧ t.aRate = s.aRate ∧ t.aSamples = s.aSamples ∧ t.iWidth = s.iWidth ∧
    t.iHeight = s.iHeight ∧ t.iChtag = s.iChtag ∧ t.iCstag = s.iCstag) ∧
  (t.busy = true → t.hostSide = s.hostSide)

theorem DecoderGoesOn.keeps (h : DecoderGoesOn s t) : DecoderKeeps s t := by
  obtain ⟨hside, hbytes, -⟩ := h
  exact ⟨congrArg HostSide.host hside, congrArg HostSide.cmd hside, hbytes, congrArg HostSide.bDesc hside, fun _ => hside⟩

theorem EncoderGoesOn.keeps (h : EncoderGoesOn s t) : EncoderKeeps s t := by
  obtain ⟨hside, hsamples, hpixels, -⟩ := h
  have field {α : Type} (f : HostSide → α) : f t.hostSide = f s.hostSide := congrArg f hside
  exact ⟨field HostSide.host, field HostSide.cmd,
    ⟨hsamples, hpixels, field HostSide.sDesc, field HostSide.pDesc, field HostSide.aChannels, field HostSide.aRate,
      field HostSide.aSamples, field HostSide.iWidth, field HostSide.iHeight, field HostSide.iChtag,
      field HostSide.iCstag⟩, fun _ => hside⟩

/-- An error completion of a decoder leaves its input alone. -/
theorem decoderKeeps_raiseErr {e : ErrKind} {s1 : State} (h : Attempted s s1) (hout : outputOf s.cmd ≠ some .bytes) :
    DecoderKeeps s (raiseErr e s1) := by
  obtain ⟨hside, hbytes, -⟩ := h.hostSide
  have hcmd : s1.cmd = s.cmd := congrArg HostSide.cmd hside
  have hdesc : s1.bDesc = s.bDesc := congrArg HostSide.bDesc hside
  exact ⟨congrArg HostSide.host hside, hcmd, by simpa [hcmd, hout] using hbytes, by simpa [hcmd, hout] using hdesc, nofun⟩

/-- An error completion of an encoder leaves its inputs and the operands alone. -/
theorem encoderKeeps_raiseErr {e : ErrKind} {s1 : State} (h : Attempted s s1) (hout : outputOf s.cmd = some .bytes) :
    EncoderKeeps s (raiseErr e s1) := by
  obtain ⟨hside, -, hsamples, hpixels⟩ := h.hostSide
  have field {α : Type} (f : HostSide → α) : f s1.hostSide = f s.hostSide := congrArg f hside
  have hcmd : s1.cmd = s.cmd := field HostSide.cmd
  refine ⟨field HostSide.host, hcmd, ?_, nofun⟩
  simp only [raiseErr_samples, raiseErr_pixels, raiseErr_sDesc, raiseErr_pDesc, raiseErr_aChannels, raiseErr_aRate,
    raiseErr_aSamples, raiseErr_iWidth, raiseErr_iHeight, raiseErr_iChtag, raiseErr_iCstag, hcmd, hout,
    Option.some.injEq, reduceCtorEq, if_false]
  exact ⟨hsamples, hpixels, field HostSide.sDesc, field HostSide.pDesc, field HostSide.aChannels, field HostSide.aRate,
    field HostSide.aSamples, field HostSide.iWidth, field HostSide.iHeight, field HostSide.iChtag, field HostSide.iCstag⟩

/-- An encoder's step is none of a decoder's, and a decoder's none of an encoder's. -/
theorem ImageEncoded.phase_ne_dec (h : ImageEncoded s t) (p : Place) : s.phase ≠ .dec p := by
  rcases h.goesOn with ⟨-, -, -, q, _, hq, -⟩ | ⟨hq, -⟩ <;> simp [hq]

theorem AudioEncoded.phase_ne_dec (h : AudioEncoded s t) (p : Place) : s.phase ≠ .dec p := by
  rcases h.goesOn with ⟨-, -, -, q, _, hq, -⟩ | ⟨hq, -⟩ <;> simp [hq]

theorem ImageDecoded.phase_ne_enc (h : ImageDecoded s t) (p : Place) : s.phase ≠ .enc p := by
  rcases h.goesOn with ⟨-, -, q, _, hq, -⟩ | ⟨hq, -⟩ <;> simp [hq]

theorem AudioDecoded.phase_ne_enc (h : AudioDecoded s t) (p : Place) : s.phase ≠ .enc p := by
  rcases h.goesOn with ⟨-, -, q, _, hq, -⟩ | ⟨hq, -⟩ <;> simp [hq]

/-- A decoder's step never changes its input, and before the completion nothing of the host's. -/
theorem RunningStepped.decoderKeeps {p : Place} (h : RunningStepped s t) (hc : ControlOk s) (hp : s.phase = .dec p) :
    DecoderKeeps s t := by
  have hcmd : s.cmd = (Phase.dec p).command := hp ▸ hc.cmd_of_running (by simp [hp])
  cases h with
  | raised e ha => exact decoderKeeps_raiseErr ha (hcmd ▸ outputOf_dec p)
  | imageDecoded hd =>
    rcases hd.goesOn with hg | ⟨-, rfl⟩
    · exact hg.keeps
    · exact ⟨rfl, rfl, rfl, rfl, nofun⟩
  | audioDecoded hd =>
    rcases hd.goesOn with hg | ⟨-, rfl⟩
    · exact hg.keeps
    · exact ⟨rfl, rfl, rfl, rfl, nofun⟩
  | imageEncoded he => exact absurd hp (he.phase_ne_dec p)
  | audioEncoded he => exact absurd hp (he.phase_ne_dec p)

/-- An encoder's step never changes its inputs or an operand, and before the completion nothing of the host's. -/
theorem RunningStepped.encoderKeeps {p : Place} (h : RunningStepped s t) (hc : ControlOk s) (hp : s.phase = .enc p) :
    EncoderKeeps s t := by
  have hcmd : s.cmd = (Phase.enc p).command := hp ▸ hc.cmd_of_running (by simp [hp])
  cases h with
  | raised e ha => exact encoderKeeps_raiseErr ha (hcmd ▸ outputOf_enc p)
  | imageDecoded hd => exact absurd hp (hd.phase_ne_enc p)
  | audioDecoded hd => exact absurd hp (hd.phase_ne_enc p)
  | imageEncoded he =>
    rcases he.goesOn with hg | ⟨-, bs, rfl⟩
    · exact hg.keeps
    · exact ⟨rfl, rfl, ⟨rfl, rfl, rfl, rfl, rfl, rfl, rfl, rfl, rfl, rfl, rfl⟩, nofun⟩
  | audioEncoded he =>
    rcases he.goesOn with hg | ⟨-, rfl⟩
    · exact hg.keeps
    · exact ⟨rfl, rfl, ⟨rfl, rfl, rfl, rfl, rfl, rfl, rfl, rfl, rfl, rfl, rfl⟩, nofun⟩

/-- The descriptors, the error code and the operands are of the host's side. -/
theorem operands_of_hostSide (h : t.hostSide = s.hostSide) :
    t.bDesc = s.bDesc ∧ t.sDesc = s.sDesc ∧ t.pDesc = s.pDesc ∧ t.err = s.err ∧
      t.aChannels = s.aChannels ∧ t.aRate = s.aRate ∧ t.aSamples = s.aSamples ∧ t.iWidth = s.iWidth ∧
      t.iHeight = s.iHeight ∧ t.iChtag = s.iChtag ∧ t.iCstag = s.iCstag := by
  have field {α : Type} (f : HostSide → α) : f t.hostSide = f s.hostSide := congrArg f h
  exact ⟨field HostSide.bDesc, field HostSide.sDesc, field HostSide.pDesc, field HostSide.err, field HostSide.aChannels,
    field HostSide.aRate, field HostSide.aSamples, field HostSide.iWidth, field HostSide.iHeight, field HostSide.iChtag,
    field HostSide.iCstag⟩

/-- Settles O59: a decoder's step by what it keeps, an encoder's by what it keeps. -/
theorem busyStepKeepsTheHostsSide : Obligations.BusyStepKeepsTheHostsSide := by
  intro s t p hc hr hp h
  rcases hp with hp | hp
  · have hstep := runningStepped_dec hr hp h
    obtain ⟨hhost, hcmd, hbytes, hdesc, hside⟩ := hstep.decoderKeeps hc hp
    exact ⟨hhost, hcmd, fun _ => ⟨hbytes, hdesc⟩, by simp [hp], fun hb => operands_of_hostSide (hside hb)⟩
  · have hstep := runningStepped_enc hr hp h
    obtain ⟨hhost, hcmd, hinputs, hside⟩ := hstep.encoderKeeps hc hp
    exact ⟨hhost, hcmd, by simp [hp], fun _ => hinputs, fun hb => operands_of_hostSide (hside hb)⟩

end Sys2Proof.Machine


/-! SUPPORT. The predictor registers, the run counter and the cache stay in range (O53). -/

namespace Sys2Proof.Machine

variable {s t : State}

/-! ## A property of every predictor state -/

/-- Every channel's predictor state, and the scratch copies of a search, have a property (10_state.md R21, R33). -/
def PredictorsSatisfy (P : Predictor → Prop) (s : State) : Prop :=
  (∀ c : Fin 8, P s.pred[c.val]) ∧ P s.search.cand.pred ∧ ∀ b ∈ s.search.best, P b.pred

theorem weightsOk_iff : WeightsOk s ↔ PredictorsSatisfy (Predictor.weightsLegal s.cfg.wBits) s := Iff.rfl

/-- The property holds of every predictor state the block writes: the cleared one, the configured start values, and what
`UPDATE` and the snapshot words make of a state that has it. -/
structure KeptByPredictor (cfg : Config) (P : Predictor → Prop) : Prop where
  zero : P Predictor.zero
  init : P (initPredictor cfg)
  update : ∀ st p sf code resid, P st → P (update cfg st (reconstruct cfg p sf code) resid)
  history : ∀ st h0 h1 h2 h3, P st → P (loadHistory st h0 h1 h2 h3)
  weights : ∀ st w0 w1 w2 w3, P st → P (loadWeights cfg st w0 w1 w2 w3)

section
variable {cfg : Config} {P : Predictor → Prop}

/-- The samples of a candidate are `UPDATE`s (41_quantizer_slice.md R157). -/
theorem KeptByPredictor.foldl_simSample (h : KeptByPredictor cfg P) (xs : List Int) (cand : Candidate) (hc : P cand.pred) :
    P (xs.foldl (simSample cfg) cand).pred := by
  induction xs generalizing cand with
  | nil => exact hc
  | cons x xs ih => exact ih _ (h.update _ _ _ _ _ hc)

theorem KeptByPredictor.sliceSim (h : KeptByPredictor cfg P) {st : Predictor} (hst : P st) (xs : List Int) (sf : BitVec 4) :
    P (sliceSim cfg st xs sf).pred :=
  h.foldl_simSample xs (simStart st sf) hst

/-- The codes of a decoded slice are `UPDATE`s (41_quantizer_slice.md R162). -/
theorem KeptByPredictor.decodeSlice (h : KeptByPredictor cfg P) (sf : BitVec 4) (codes : List (BitVec 3)) (st : Predictor)
    (hst : P st) : P (decodeSlice cfg st sf codes).1 := by
  induction codes generalizing st with
  | nil => exact hst
  | cons code codes ih => exact ih _ (h.update _ _ _ _ _ hst)

end

/-- The best candidate is an old one or the new one. -/
theorem better_cases {best : Option Candidate} {cand b : Candidate} (h : b ∈ better best cand) : b ∈ best ∨ b = cand := by
  cases best with
  | none => exact .inr (Option.some.inj h).symm
  | some b' =>
    simp only [better] at h
    split at h
    · exact .inr (Option.some.inj h).symm
    · exact .inl h

section
variable {P : Predictor → Prop}

/-- The property is one of the predictor registers and of the search alone. -/
theorem PredictorsSatisfy.of_eq (h : PredictorsSatisfy P s) (hpred : t.pred = s.pred) (hsearch : t.search = s.search) :
    PredictorsSatisfy P t := by
  unfold PredictorsSatisfy
  rw [hpred, hsearch]
  exact h

/-- One channel's registers replaced by a state that has the property. -/
theorem PredictorsSatisfy.set {c : Fin 8} {st : Predictor} (h : PredictorsSatisfy P s) (hst : P st)
    (hpred : t.pred = s.pred.set c.val st c.isLt) (hsearch : t.search = s.search) : PredictorsSatisfy P t := by
  obtain ⟨hregs, hcand, hbest⟩ := h
  refine ⟨fun d => ?_, hsearch ▸ hcand, hsearch ▸ hbest⟩
  simp only [hpred, Vector.getElem_set]
  split
  · exact hst
  · exact hregs d

/-- A search at its start has no candidate to answer for. -/
theorem PredictorsSatisfy.of_searchStart (h : PredictorsSatisfy P s) (hzero : P Predictor.zero) (hpred : t.pred = s.pred)
    (hsearch : t.search = Search.start) : PredictorsSatisfy P t :=
  ⟨hpred ▸ h.1, hsearch ▸ hzero, hsearch ▸ nofun⟩

theorem PredictorsSatisfy.decodeOnward (h : PredictorsSatisfy P s) (next : Option Place) :
    PredictorsSatisfy P (decodeOnward next s) := by
  obtain ⟨sp, bp, p, he, -⟩ := decodeOnward_frame next s
  rw [he]
  exact h.of_eq rfl rfl

theorem PredictorsSatisfy.encodeOnward (h : PredictorsSatisfy P s) (hzero : P Predictor.zero) (next : Option Place) :
    PredictorsSatisfy P (encodeOnward next s) := by
  obtain ⟨sp, p, he, -⟩ := encodeOnward_frame next s
  rw [he]
  exact h.of_searchStart hzero rfl rfl

/-- The units of an image touch no predictor register and no search (10_state.md R21, R33). -/
theorem ImageDecoded.predictors (h : ImageDecoded s t) : t.pred = s.pred ∧ t.search = s.search := by
  cases h <;> exact ⟨rfl, rfl⟩

theorem ImageEncoded.predictors (h : ImageEncoded s t) : t.pred = s.pred ∧ t.search = s.search := by
  cases h <;> exact ⟨rfl, rfl⟩

theorem Attempted.predictors {s1 : State} (h : Attempted s s1) : s1.pred = s.pred ∧ s1.search = s.search := by
  cases h <;> exact ⟨rfl, rfl⟩

/-- The units of `AUD_DEC` keep the property: snapshots load it, slices update it. -/
theorem AudioDecoded.predictorsSatisfy (hd : AudioDecoded s t) (hP : KeptByPredictor s.cfg P) (h : PredictorsSatisfy P s) :
    PredictorsSatisfy P t := by
  cases hd with
  | header samples w => exact h.of_eq rfl rfl
  | frame channels rate fsamples fsize s1 _ hs1 =>
    have h1 : PredictorsSatisfy P s1 := h.of_eq (hs1 ▸ rfl) (hs1 ▸ rfl)
    exact h1.decodeOnward _
  | history c h0 h1 h2 h3 => exact h.set (hP.history _ h0 h1 h2 h3 (h.1 c)) rfl rfl
  | weights c w0 w1 w2 w3 =>
    refine PredictorsSatisfy.decodeOnward ?_ _
    exact h.set (hP.weights _ w0 w1 w2 w3 (h.1 c)) rfl rfl
  | slice k c sf codes =>
    refine PredictorsSatisfy.decodeOnward ?_ _
    exact h.set (hP.decodeSlice sf codes _ (h.1 c)) rfl rfl
  | finish => exact h.of_eq rfl rfl

/-- The units of `AUD_ENC` keep it: the search simulates it, a slice commits the winner's. -/
theorem AudioEncoded.predictorsSatisfy (he : AudioEncoded s t) (hP : KeptByPredictor s.cfg P) (h : PredictorsSatisfy P s) :
    PredictorsSatisfy P t := by
  cases he with
  | header bs => exact h.of_eq rfl rfl
  | frame bs s1 _ _ _ _ hs1 =>
    have h1 : PredictorsSatisfy P s1 := h.of_eq (hs1 ▸ rfl) (hs1 ▸ rfl)
    exact h1.encodeOnward hP.zero _
  | history bs c => exact h.of_eq rfl rfl
  | weights bs c =>
    refine PredictorsSatisfy.encodeOnward ?_ hP.zero _
    exact h.of_eq rfl rfl
  | search k c xs =>
    have hcand : P (sliceSim s.cfg s.pred[c.val] xs (visited s.prevSf[c.val] s.search.index)).pred := hP.sliceSim (h.1 c) _ _
    refine ⟨h.1, hcand, fun b hb => ?_⟩
    rcases better_cases hb with hold | rfl
    · exact h.2.2 b hold
    · exact hcand
  | slice bs k c best _ hbest =>
    refine PredictorsSatisfy.encodeOnward ?_ hP.zero _
    exact h.set (h.2.2 best hbest) rfl rfl
  | finish => exact h.of_eq rfl rfl

/-- A host move touches no register but the operands and the descriptors. -/
theorem applyMove_registers (m : HostMove) (s : State) :
    (applyMove m s).pred = s.pred ∧ (applyMove m s).search = s.search ∧ (applyMove m s).run = s.run ∧
      (applyMove m s).cache = s.cache := by
  cases m with
  | setPresent x v | setLen x v | setCap x v => cases x <;> exact ⟨rfl, rfl, rfl, rfl⟩
  | _ => exact ⟨rfl, rfl, rfl, rfl⟩

/-- The idle block's steps keep it: `AUD_ENC` starts its channels at the configured values. -/
theorem IdleStepped.predictorsSatisfy (hi : IdleStepped s t) (hP : KeptByPredictor s.cfg P) (h : PredictorsSatisfy P s) :
    PredictorsSatisfy P t := by
  cases hi with
  | stay => exact h
  | move m rest =>
    obtain ⟨hpred, hsearch, -⟩ := applyMove_registers m { s with host := rest }
    exact h.of_eq hpred hsearch
  | audEnc rest =>
    refine ⟨fun c => ?_, h.2⟩
    simp only [audEncStart_pred, Vector.getElem_ofFn]
    split
    · exact hP.init
    · exact h.1 c
  | atOnce | rejected | audDec | imgEnc | imgDec => exact h.of_eq rfl rfl

/-- Every step keeps a property of the predictor states the block writes. -/
theorem predictorsSatisfy_of_step (hP : KeptByPredictor s.cfg P) (hstep : step s = .next t) (h : PredictorsSatisfy P s) :
    PredictorsSatisfy P t := by
  rcases step_next_cases hstep with rfl | ⟨-, hi⟩ | ⟨-, hr⟩
  · exact ⟨fun c => (resetWith_pred s.cfg c).symm ▸ hP.zero, hP.zero, nofun⟩
  · exact hi.predictorsSatisfy hP h
  · cases hr with
    | raised e ha => exact h.of_eq ha.predictors.1 ha.predictors.2
    | imageDecoded hd => exact h.of_eq hd.predictors.1 hd.predictors.2
    | audioDecoded hd => exact hd.predictorsSatisfy hP h
    | imageEncoded he => exact h.of_eq he.predictors.1 he.predictors.2
    | audioEncoded he => exact he.predictorsSatisfy hP h

end

/-! ## History and weights -/

theorem clamp16_range (v : Int) : -32768 ≤ clamp16 v ∧ clamp16 v ≤ 32767 := by
  unfold clamp16 clamp
  split_ifs <;> omega

/-- A history register that takes a 16-bit value holds it. -/
theorem sampleRange_historyReg {v : Int} (h : -32768 ≤ v ∧ v ≤ 32767) : sampleRange (historyReg v) := by
  have hv : (historyReg v).toInt = v := by
    rw [historyReg, BitVec.toInt_ofInt, Int.bmod_eq_of_le] <;> omega
  unfold sampleRange
  rw [hv]
  exact h

/-- A stored 16-bit value is loaded with its sign (42_audio_bitstream.md R186). -/
theorem toInt_sext16 (v : BitVec 16) : (sext16 v).toInt = v.toInt := BitVec.toInt_signExtend_of_le (by decide)

/-- A stored 16-bit field loads as a 16-bit value. -/
theorem sampleRange_sext16 (v : BitVec 16) : sampleRange (sext16 v) := by
  have hlo := BitVec.le_toInt v
  have hhi := BitVec.toInt_lt (x := v)
  unfold sampleRange
  rw [toInt_sext16]
  omega

/-- The block writes 16-bit history values only: `UPDATE` takes a clamped sample, a snapshot stored ones. -/
theorem keptByPredictor_historyLegal (cfg : Config) : KeptByPredictor cfg Predictor.historyLegal where
  zero := historyLegal_zero
  init := ⟨sampleRange_sext16 _, sampleRange_sext16 _, sampleRange_sext16 _, sampleRange_sext16 _⟩
  update _ _ _ _ _ := fun ⟨_, h1, h2, h3⟩ => ⟨h1, h2, h3, sampleRange_historyReg (clamp16_range _)⟩
  history _ _ _ _ _ _ := ⟨sampleRange_sext16 _, sampleRange_sext16 _, sampleRange_sext16 _, sampleRange_sext16 _⟩
  weights _ _ _ _ _ h := h

/-- A wrapped value has the width it was wrapped to (10_state.md R22). -/
theorem weightRange_wrapTo (bits : Nat) (v : Int) : weightRange bits (wrapTo bits v) := by
  have hpos : 0 < 2 ^ bits := Nat.two_pow_pos bits
  have hlo := Int.le_bmod (x := v) hpos
  have hhi := Int.bmod_lt (x := v) hpos
  push_cast at hlo hhi
  unfold weightRange wrapTo
  constructor <;> omega

/-- The block writes weight values of `W_BITS` only: every write of a weight register wraps. -/
theorem keptByPredictor_weightsLegal (cfg : Config) : KeptByPredictor cfg (Predictor.weightsLegal cfg.wBits) where
  zero := weightsLegal_zero _
  init := ⟨weightRange_wrapTo _ _, weightRange_wrapTo _ _, weightRange_wrapTo _ _, weightRange_wrapTo _ _⟩
  update _ _ _ _ _ _ := ⟨weightRange_wrapTo _ _, weightRange_wrapTo _ _, weightRange_wrapTo _ _, weightRange_wrapTo _ _⟩
  history _ _ _ _ _ h := h
  weights _ _ _ _ _ _ := ⟨weightRange_wrapTo _ _, weightRange_wrapTo _ _, weightRange_wrapTo _ _, weightRange_wrapTo _ _⟩

/-! ## The run counter and the cache -/

theorem cacheLegal_clearCache : CacheLegal clearCache := fun k => .inl (cacheSlot_clearCache k)

/-- A pixel is stored at its own hash (44_pixel_encoder.md R246). -/
theorem CacheLegal.store {cache : Vector Pixel 64} (h : CacheLegal cache) (px : Pixel) : CacheLegal (cacheStore cache px) := by
  intro k
  rw [cacheSlot_cacheStore]
  split
  · next hk => exact .inr hk.symm
  · exact h k

/-- The invariant is one of the run counter and of the cache alone. -/
theorem PixelCoderOk.of_eq (h : PixelCoderOk s) (hrun : t.run = s.run) (hcache : t.cache = s.cache) : PixelCoderOk t :=
  ⟨hrun ▸ h.1, hcache ▸ h.2⟩

theorem decodeOnward_pixelCoder (next : Option Place) (s : State) :
    (decodeOnward next s).run = s.run ∧ (decodeOnward next s).cache = s.cache := by
  obtain ⟨sp, bp, p, he, -⟩ := decodeOnward_frame next s
  rw [he]
  exact ⟨rfl, rfl⟩

theorem encodeOnward_pixelCoder (next : Option Place) (s : State) :
    (encodeOnward next s).run = s.run ∧ (encodeOnward next s).cache = s.cache := by
  obtain ⟨sp, p, he, -⟩ := encodeOnward_frame next s
  rw [he]
  exact ⟨rfl, rfl⟩

/-- The units of an audio stream touch neither (10_state.md R26, R27). -/
theorem AudioDecoded.pixelCoder (h : AudioDecoded s t) : t.run = s.run ∧ t.cache = s.cache := by
  cases h with
  | frame channels rate fsamples fsize s1 _ hs1 => subst hs1; exact decodeOnward_pixelCoder _ _
  | weights | slice => exact decodeOnward_pixelCoder _ _
  | header | history | finish => exact ⟨rfl, rfl⟩

theorem AudioEncoded.pixelCoder (h : AudioEncoded s t) : t.run = s.run ∧ t.cache = s.cache := by
  cases h with
  | frame bs s1 _ _ _ _ hs1 => subst hs1; exact encodeOnward_pixelCoder _ _
  | weights | slice => exact encodeOnward_pixelCoder _ _
  | header | history | search | finish => exact ⟨rfl, rfl⟩

theorem Attempted.pixelCoderOk {s1 : State} (ha : Attempted s s1) (h : PixelCoderOk s) : PixelCoderOk s1 := by
  cases ha with
  | pixelCached px => exact ⟨h.1, h.2.store px⟩
  | runTaken => exact ⟨Nat.zero_le _, h.2⟩
  | untouched | headerRead | streamLatched | frameRead | frameSelected => exact h.of_eq rfl rfl

theorem ImageDecoded.pixelCoderOk (hd : ImageDecoded s t) (hcfg : s.cfg.wf = true) (h : PixelCoderOk s) : PixelCoderOk t := by
  cases hd with
  | header => exact ⟨Nat.zero_le _, cacheLegal_clearCache⟩
  | runUnit _ hrun =>
    refine ⟨?_, h.2⟩
    have hle := h.1
    have hpos : s.run.toNat ≠ 0 := fun h0 => hrun (BitVec.eq_of_toNat_eq h0)
    simp only [pixelProduced_run]
    bv_omega
  | colour px n => exact ⟨h.1, h.2.store px⟩
  | run n _ hn =>
    have himage : s.cfg.image.wf = true := by
      simp only [Config.wf, Bool.and_eq_true] at hcfg
      exact hcfg.1.1.1.2
    have hle := hn himage
    refine ⟨?_, h.2⟩
    simp only [pixelProduced_run, BitVec.toNat_ofNat]
    omega
  | finish => exact h.of_eq rfl rfl

theorem ImageEncoded.pixelCoderOk (he : ImageEncoded s t) (h : PixelCoderOk s) : PixelCoderOk t := by
  cases he with
  | silent _ hfull =>
    refine ⟨?_, h.2⟩
    have hle := h.1
    simp only [runMax] at hfull
    simp only [extendRun_run]
    bv_omega
  | lastOfRun | flush => exact ⟨Nat.zero_le _, h.2⟩
  | literal bs px => exact ⟨h.1, h.2.store px⟩
  | header | index | finish => exact h.of_eq rfl rfl

theorem IdleStepped.pixelCoderOk (hi : IdleStepped s t) (h : PixelCoderOk s) : PixelCoderOk t := by
  cases hi with
  | stay => exact h
  | move m rest =>
    obtain ⟨-, -, hrun, hcache⟩ := applyMove_registers m { s with host := rest }
    exact h.of_eq hrun hcache
  | imgEnc => exact ⟨Nat.zero_le _, cacheLegal_clearCache⟩
  | atOnce | rejected | audEnc | audDec | imgDec => exact h.of_eq rfl rfl

/-- Every step keeps the run counter at most 61 and every cached pixel at its own hash. -/
theorem pixelCoderOk_of_step (hcfg : s.cfg.wf = true) (hstep : step s = .next t) (h : PixelCoderOk s) : PixelCoderOk t := by
  rcases step_next_cases hstep with rfl | ⟨-, hi⟩ | ⟨-, hr⟩
  · exact (pixelCoderOk_resetWith s.cfg).of_eq rfl rfl
  · exact hi.pixelCoderOk h
  · cases hr with
    | raised e ha => exact (ha.pixelCoderOk h).of_eq rfl rfl
    | imageDecoded hd => exact hd.pixelCoderOk hcfg h
    | audioDecoded hd => exact h.of_eq hd.pixelCoder.1 hd.pixelCoder.2
    | imageEncoded he => exact he.pixelCoderOk h
    | audioEncoded he => exact h.of_eq he.pixelCoder.1 he.pixelCoder.2

/-- Settles O53: the two predictor invariants by one induction over what the block writes, the pixel coder's by its own
units. -/
theorem stepKeepsRegisterRanges : Obligations.StepKeepsRegisterRanges := by
  intro s t hstep
  refine ⟨predictorsSatisfy_of_step (keptByPredictor_historyLegal s.cfg) hstep, fun h => ?_,
    fun hcfg => pixelCoderOk_of_step hcfg hstep⟩
  rw [weightsOk_iff, (stepKeepsControl s t hstep).2]
  exact predictorsSatisfy_of_step (keptByPredictor_weightsLegal s.cfg) hstep h

end Sys2Proof.Machine


/-! SUPPORT. The cursors stay where the stream's geometry puts them (O54). -/

namespace Sys2Proof.Machine

variable {s t : State}

/-! ## The invariant at each place -/

theorem placeOk_of_idle (hp : s.phase = .idle) : PlaceOk s := by
  unfold PlaceOk
  rw [hp]
  trivial

theorem placeOk_dec_imageHeader (hp : s.phase = .dec .imageHeader) : PlaceOk s ↔ s.bp.toNat = 0 ∧ s.pp.toNat = 0 := by
  unfold PlaceOk
  rw [hp]

theorem placeOk_dec_pixel (hp : s.phase = .dec .pixel) : PlaceOk s ↔ ImageDecodeOk s ∧ s.pp.toNat < decPixelCount s := by
  unfold PlaceOk
  rw [hp]

theorem placeOk_dec_imageFooter (hp : s.phase = .dec .imageFooter) :
    PlaceOk s ↔ ImageDecodeOk s ∧ s.pp.toNat = decPixelCount s := by
  unfold PlaceOk
  rw [hp]

theorem placeOk_dec_audioHeader (hp : s.phase = .dec .audioHeader) : PlaceOk s ↔ s.bp.toNat = 0 ∧ s.sp.toNat = 0 := by
  unfold PlaceOk
  rw [hp]

theorem placeOk_dec_frame (hp : s.phase = .dec .frame) :
    PlaceOk s ↔ AudioDecodeOk s ∧ s.bp.toNat ≤ s.bDesc.len.toNat ∧ s.sp.toNat ≤ s.stSamples.toNat := by
  unfold PlaceOk
  rw [hp]

theorem placeOk_dec_hist {c : Fin 8} (hp : s.phase = .dec (.hist c)) :
    PlaceOk s ↔ FrameDecodeOk s ∧ c.val < s.stChannels.toNat ∧ s.bp.toNat = s.fStart.toNat + 8 + 16 * c.val := by
  unfold PlaceOk
  rw [hp]

theorem placeOk_dec_wght {c : Fin 8} (hp : s.phase = .dec (.wght c)) :
    PlaceOk s ↔ FrameDecodeOk s ∧ c.val < s.stChannels.toNat ∧ s.bp.toNat = s.fStart.toNat + 16 + 16 * c.val := by
  unfold PlaceOk
  rw [hp]

theorem placeOk_dec_slice {k : Nat} {c : Fin 8} (hp : s.phase = .dec (.slice k c)) :
    PlaceOk s ↔ FrameDecodeOk s ∧ c.val < s.stChannels.toNat ∧ k < sliceCount s.fSamples.toNat ∧
      s.bp.toNat = s.fStart.toNat + 8 + 16 * s.stChannels.toNat + 8 * (k * s.stChannels.toNat + c.val) := by
  unfold PlaceOk
  rw [hp]

theorem placeOk_enc_imageHeader (hp : s.phase = .enc .imageHeader) :
    PlaceOk s ↔ ImageEncodeOk s ∧ s.bp.toNat = 0 ∧ s.pp.toNat = 0 ∧ s.run.toNat = 0 := by
  unfold PlaceOk
  rw [hp]

theorem placeOk_enc_pixel (hp : s.phase = .enc .pixel) :
    PlaceOk s ↔
      ImageEncodeOk s ∧ s.pp.toNat < encPixelCount s ∧ s.bp.toNat + 5 * s.run.toNat ≤ 14 + 5 * s.pp.toNat := by
  unfold PlaceOk
  rw [hp]

theorem placeOk_enc_imageFooter (hp : s.phase = .enc .imageFooter) :
    PlaceOk s ↔ ImageEncodeOk s ∧ s.pp.toNat = encPixelCount s ∧ s.bp.toNat ≤ 14 + 5 * encPixelCount s := by
  unfold PlaceOk
  rw [hp]

theorem placeOk_enc_audioHeader (hp : s.phase = .enc .audioHeader) :
    PlaceOk s ↔ AudioEncodeOk s ∧ s.bp.toNat = 0 ∧ s.sp.toNat = 0 := by
  unfold PlaceOk
  rw [hp]

theorem placeOk_enc_frame (hp : s.phase = .enc .frame) :
    PlaceOk s ↔ AudioEncodeOk s ∧ s.sp.toNat ≤ s.stSamples.toNat ∧
      streamLeft s (framesBytes (s.stSamples.toNat - s.sp.toNat) s.stChannels.toNat) := by
  unfold PlaceOk
  rw [hp]

theorem placeOk_enc_hist {c : Fin 8} (hp : s.phase = .enc (.hist c)) :
    PlaceOk s ↔ AudioEncodeOk s ∧ c.val < s.stChannels.toNat ∧ s.sp.toNat + s.fSamples.toNat ≤ s.stSamples.toNat ∧
      streamLeft s (16 * (s.stChannels.toNat - c.val) + 8 * s.stChannels.toNat * sliceCount s.fSamples.toNat +
        laterBytes s) := by
  unfold PlaceOk
  rw [hp]

theorem placeOk_enc_wght {c : Fin 8} (hp : s.phase = .enc (.wght c)) :
    PlaceOk s ↔ AudioEncodeOk s ∧ c.val < s.stChannels.toNat ∧ s.sp.toNat + s.fSamples.toNat ≤ s.stSamples.toNat ∧
      streamLeft s (8 + 16 * (s.stChannels.toNat - (c.val + 1)) +
        8 * s.stChannels.toNat * sliceCount s.fSamples.toNat + laterBytes s) := by
  unfold PlaceOk
  rw [hp]

theorem placeOk_enc_slice {k : Nat} {c : Fin 8} (hp : s.phase = .enc (.slice k c)) :
    PlaceOk s ↔ AudioEncodeOk s ∧ c.val < s.stChannels.toNat ∧ s.sp.toNat + s.fSamples.toNat ≤ s.stSamples.toNat ∧
      k < sliceCount s.fSamples.toNat ∧
      streamLeft s (8 * (s.stChannels.toNat - c.val) +
        8 * s.stChannels.toNat * (sliceCount s.fSamples.toNat - (k + 1)) + laterBytes s) ∧
      s.search.index ≤ scaleCount ∧ (s.search.index = 0 ∨ s.search.best.isSome = true) := by
  unfold PlaceOk
  rw [hp]

/-! ## Cursors -/

/-- A cursor that stays within a 32-bit bound does not wrap. -/
theorem toNat_add_of_le {a len : BitVec 32} {n : Nat} (h : a.toNat + n ≤ len.toNat) :
    (a + BitVec.ofNat 32 n).toNat = a.toNat + n := by
  have hlen := len.isLt
  rw [BitVec.toNat_add, BitVec.toNat_ofNat]
  omega

/-- The input cursor past a word that lies within the input. -/
theorem toNat_bp_add_word (h : s.bp.toNat + 8 ≤ s.bDesc.len.toNat) : (s.bp + 8).toNat = s.bp.toNat + 8 :=
  toNat_add_of_le h

/-- The pixel cursor past a pixel of the image. -/
theorem toNat_succ_of_lt {a cap : BitVec 32} (h : a.toNat < cap.toNat) : (a + 1).toNat = a.toNat + 1 :=
  toNat_add_of_le (len := cap) h

/-- The sample cursor past a frame that lies within the stream. -/
theorem toNat_advanceSamples (h : s.sp.toNat + s.fSamples.toNat ≤ s.stSamples.toNat) :
    (advanceSamples s).toNat = s.sp.toNat + s.fSamples.toNat := by
  have hn := s.stSamples.isLt
  rw [advanceSamples, BitVec.toNat_add, BitVec.toNat_setWidth]
  omega

/-! ## The place after a unit -/

theorem nextChannel_of_lt {c : Fin 8} (hch : s.stChannels.toNat ≤ 8) (h : c.val + 1 < s.stChannels.toNat) :
    nextChannel s c = some ⟨c.val + 1, by omega⟩ := by
  rw [nextChannel, dif_pos (by omega), if_pos h]

theorem nextChannel_of_last {c : Fin 8} (h : s.stChannels.toNat ≤ c.val + 1) : nextChannel s c = none := by
  unfold nextChannel
  split
  · exact if_neg (by omega)
  · rfl

/-- After the weights of a channel: the next channel's history, the first slice, or the end of a frame without
samples. -/
theorem afterWeights_cases {c : Fin 8} (hch : s.stChannels.toNat ≤ 8) :
    (∃ d : Fin 8, d.val = c.val + 1 ∧ d.val < s.stChannels.toNat ∧ afterWeights s c = some (.hist d)) ∨
    (s.stChannels.toNat ≤ c.val + 1 ∧ 0 < sliceCount s.fSamples.toNat ∧ afterWeights s c = some (.slice 0 0)) ∨
    (s.stChannels.toNat ≤ c.val + 1 ∧ sliceCount s.fSamples.toNat = 0 ∧ afterWeights s c = none) := by
  by_cases hlast : s.stChannels.toNat ≤ c.val + 1
  · refine .inr ?_
    simp only [afterWeights, nextChannel_of_last hlast]
    by_cases hn : sliceCount s.fSamples.toNat = 0
    · exact .inr ⟨hlast, hn, if_pos hn⟩
    · exact .inl ⟨hlast, by omega, if_neg hn⟩
  · refine .inl ⟨⟨c.val + 1, by omega⟩, rfl, by simpa using hlast, ?_⟩
    simp only [afterWeights, nextChannel_of_lt hch (not_le.mp hlast)]

/-- After a slice: the same slice of the next channel, the next slice of the first one, or the end of the frame
(42_audio_bitstream.md R191). -/
theorem afterSlice_cases {k : Nat} {c : Fin 8} (hch : s.stChannels.toNat ≤ 8) :
    (∃ d : Fin 8, d.val = c.val + 1 ∧ d.val < s.stChannels.toNat ∧ afterSlice s k c = some (.slice k d)) ∨
    (s.stChannels.toNat ≤ c.val + 1 ∧ k + 1 < sliceCount s.fSamples.toNat ∧
      afterSlice s k c = some (.slice (k + 1) 0)) ∨
    (s.stChannels.toNat ≤ c.val + 1 ∧ sliceCount s.fSamples.toNat ≤ k + 1 ∧ afterSlice s k c = none) := by
  by_cases hlast : s.stChannels.toNat ≤ c.val + 1
  · refine .inr ?_
    simp only [afterSlice, nextChannel_of_last hlast]
    by_cases hn : k + 1 < sliceCount s.fSamples.toNat
    · exact .inl ⟨hlast, hn, if_pos hn⟩
    · exact .inr ⟨hlast, by omega, if_neg hn⟩
  · refine .inl ⟨⟨c.val + 1, by omega⟩, rfl, by simpa using hlast, ?_⟩
    simp only [afterSlice, nextChannel_of_lt hch (not_le.mp hlast)]

/-! ## Images -/

theorem badDimension_eq_false {v : BitVec 32} : badDimension v = false ↔ goodDimension v := by
  simp only [badDimension, goodDimension, Bool.or_eq_false_iff, decide_eq_false_iff_not]
  omega

theorem decPixelCount_pos (hw : goodDimension s.hdr.width) (hh : goodDimension s.hdr.height) : 0 < decPixelCount s :=
  Nat.mul_pos hw.1 hh.1

theorem encPixelCount_pos (hw : goodDimension s.iWidth) (hh : goodDimension s.iHeight) : 0 < encPixelCount s :=
  Nat.mul_pos hw.1 hh.1

/-- An accepted header starts the pixel loop inside the input, which the configured minimum covers (R270). -/
theorem placeOk_startPixels {width height : BitVec 32} {chtag cstag : Byte} (hcfg : s.cfg.wf = true)
    (hlen : s.cfg.imageMinSize ≤ s.bDesc.len.toNat) (hc : firstError (imageHeaderChecks width height chtag cstag s) = none) :
    PlaceOk (startPixels width height chtag cstag s) := by
  simp only [firstError_none, imageHeaderChecks, List.forall_mem_cons, Bool.or_eq_false_iff, badDimension_eq_false,
    Bool.not_eq_false', Bool.or_eq_true, decide_eq_true_eq, decide_eq_false_iff_not, not_lt] at hc
  obtain ⟨⟨hw, hh⟩, ⟨hchtag, hcstag⟩, hcap, -⟩ := hc
  have hmin : 14 ≤ s.cfg.imageMinSize := by
    simp only [Config.wf, Bool.and_eq_true, decide_eq_true_eq] at hcfg
    exact hcfg.2
  exact (placeOk_dec_pixel rfl).mpr
    ⟨⟨hw, hh, hchtag, hcstag, hcap, hmin.trans hlen⟩, decPixelCount_pos (s := startPixels width height chtag cstag s) hw hh⟩

/-- A produced pixel leaves the cursor at the next one, or behind the last (R271). -/
theorem placeOk_pixelProduced (h : ImageDecodeOk s) (hpp : s.pp.toNat < decPixelCount s) : PlaceOk (pixelProduced s) := by
  have hcap : decPixelCount s ≤ s.pDesc.cap.toNat := h.2.2.2.2.1
  have hnext : (s.pp + 1).toNat = s.pp.toNat + 1 := toNat_succ_of_lt (hpp.trans_le hcap)
  by_cases hmore : s.pp.toNat + 1 < decPixelCount s
  · exact (placeOk_dec_pixel (if_pos hmore)).mpr ⟨h, hnext.trans_lt hmore⟩
  · have hlast : s.pp.toNat + 1 = decPixelCount s := by omega
    exact (placeOk_dec_imageFooter (if_neg hmore)).mpr ⟨h, hnext.trans hlast⟩

/-- What `IMG_DEC` knows, with the input cursor further on within the input. -/
theorem ImageDecodeOk.of_bp (h : ImageDecodeOk s) (hhdr : t.hdr = s.hdr) (hp : t.pDesc = s.pDesc)
    (hbp : t.bp.toNat ≤ t.bDesc.len.toNat) : ImageDecodeOk t := by
  obtain ⟨hw, hh, hchtag, hcstag, hcap, -⟩ := h
  unfold ImageDecodeOk decPixelCount
  rw [hhdr, hp]
  exact ⟨hw, hh, hchtag, hcstag, hcap, hbp⟩

theorem ImageDecoded.placeOk (hd : ImageDecoded s t) (hcfg : s.cfg.wf = true) (h : PlaceOk s) : PlaceOk t := by
  cases hd with
  | header width height chtag cstag _ hlen hc => exact placeOk_startPixels hcfg hlen hc
  | runUnit hp =>
    obtain ⟨himage, hpp⟩ := (placeOk_dec_pixel hp).mp h
    exact placeOk_pixelProduced (s := { s with run := s.run - 1 }) himage hpp
  | colour px n hp hb =>
    obtain ⟨himage, hpp⟩ := (placeOk_dec_pixel hp).mp h
    have hbp : (colourSet px n s).bp.toNat ≤ (colourSet px n s).bDesc.len.toNat := (toNat_add_of_le hb).trans_le hb
    exact placeOk_pixelProduced (himage.of_bp rfl rfl hbp) hpp
  | run n hp _ hb =>
    obtain ⟨himage, hpp⟩ := (placeOk_dec_pixel hp).mp h
    have hbp : (s.bp + 1).toNat ≤ s.bDesc.len.toNat := (toNat_add_of_le hb).trans_le hb
    exact placeOk_pixelProduced (s := { s with run := BitVec.ofNat 6 (n - 1), bp := s.bp + 1 })
      (himage.of_bp rfl rfl hbp) hpp
  | finish => exact placeOk_of_idle rfl

/-- A coded pixel leaves the cursor at the next one, or behind the last; a pixel needs at most five bytes, and those of a
run are still to come (44_pixel_encoder.md R253). -/
theorem placeOk_pixelCoded {px : Pixel} (h : ImageEncodeOk s) (hpp : s.pp.toNat < encPixelCount s)
    (hbp : s.bp.toNat + 5 * s.run.toNat ≤ 14 + 5 * (s.pp.toNat + 1)) : PlaceOk (pixelCoded px s) := by
  have hlen : s.pDesc.len.toNat = encPixelCount s := h.2.2.1
  have hnext : (s.pp + 1).toNat = s.pp.toNat + 1 := toNat_succ_of_lt (hlen.symm ▸ hpp)
  by_cases hmore : s.pp.toNat + 1 < encPixelCount s
  · refine (placeOk_enc_pixel (if_pos hmore)).mpr ⟨h, hnext.trans_lt hmore, ?_⟩
    simp only [pixelCoded_pp, pixelCoded_bp, pixelCoded_run, hnext]
    exact hbp
  · have hlast : s.pp.toNat + 1 = encPixelCount s := by omega
    refine (placeOk_enc_imageFooter (if_neg hmore)).mpr ⟨h, hnext.trans hlast, ?_⟩
    have hcount : encPixelCount (pixelCoded px s) = encPixelCount s := rfl
    rw [hcount, ← hlast, pixelCoded_bp]
    omega

/-- What `IMG_ENC` knows, behind bytes it had room for. -/
theorem ImageEncodeOk.of_bp (h : ImageEncodeOk s) (hw : t.iWidth = s.iWidth) (hh : t.iHeight = s.iHeight)
    (hp : t.pDesc = s.pDesc) (hbp : t.bp.toNat ≤ t.bDesc.cap.toNat) : ImageEncodeOk t := by
  obtain ⟨hwidth, hheight, hlen, -⟩ := h
  unfold ImageEncodeOk encPixelCount
  rw [hw, hh, hp]
  exact ⟨hwidth, hheight, hlen, hbp⟩

theorem ImageEncoded.placeOk (he : ImageEncoded s t) (h : PlaceOk s) : PlaceOk t := by
  cases he with
  | header bs hp hlen hroom =>
    obtain ⟨himage, hbp0, hpp0, hrun0⟩ := (placeOk_enc_imageHeader hp).mp h
    obtain ⟨hbp, hcap⟩ := bp_emitted hroom
    have hpos := encPixelCount_pos himage.1 himage.2.1
    refine (placeOk_enc_pixel rfl).mpr ⟨himage.of_bp rfl rfl rfl hcap, hpp0.trans_lt hpos, ?_⟩
    simp only [emitted_run, emitted_pp, hbp]
    omega
  | silent hp hfull hlast =>
    obtain ⟨himage, hpp, hbp⟩ := (placeOk_enc_pixel hp).mp h
    have hrun : (s.run + 1).toNat ≤ s.run.toNat + 1 := by bv_omega
    exact placeOk_pixelCoded (s := { s with run := s.run + 1 }) himage hpp (by simp only; omega)
  | lastOfRun bs px hp hlen hroom =>
    obtain ⟨himage, hpp, hbp⟩ := (placeOk_enc_pixel hp).mp h
    obtain ⟨hbp', hcap⟩ := bp_emitted (s := { s with run := 0 }) hroom
    refine placeOk_pixelCoded (himage.of_bp rfl rfl rfl hcap) hpp ?_
    rw [hbp', emitted_run, emitted_pp]
    simp only [BitVec.toNat_zero, BitVec.ofNat_eq_ofNat]
    omega
  | flush bs hp hrun hlen hroom =>
    obtain ⟨himage, hpp, hbp⟩ := (placeOk_enc_pixel hp).mp h
    obtain ⟨hbp', hcap⟩ := bp_emitted (s := { s with run := 0 }) hroom
    have hpos : s.run.toNat ≠ 0 := fun h0 => hrun (BitVec.eq_of_toNat_eq h0)
    refine (placeOk_enc_pixel (s := emitted bs { s with run := 0 }) hp).mpr ⟨himage.of_bp rfl rfl rfl hcap, hpp, ?_⟩
    rw [hbp', emitted_run, emitted_pp]
    simp only [BitVec.toNat_zero, BitVec.ofNat_eq_ofNat]
    omega
  | index bs px hp hrun hlen hroom =>
    obtain ⟨himage, hpp, hbp⟩ := (placeOk_enc_pixel hp).mp h
    obtain ⟨hbp', hcap⟩ := bp_emitted hroom
    refine placeOk_pixelCoded (himage.of_bp rfl rfl rfl hcap) hpp ?_
    rw [hbp', emitted_run, emitted_pp]
    omega
  | literal bs px hp hrun hlen hroom =>
    obtain ⟨himage, hpp, hbp⟩ := (placeOk_enc_pixel hp).mp h
    obtain ⟨hbp', hcap⟩ := bp_emitted (s := { s with cache := cacheStore s.cache px }) hroom
    refine placeOk_pixelCoded (himage.of_bp rfl rfl rfl hcap) hpp ?_
    rw [hbp', emitted_run, emitted_pp]
    simp only
    omega
  | finish => exact placeOk_of_idle rfl

/-! ## Audio decodes -/

/-- The end of a frame: the sample cursor past it, the input cursor past its words or past its declared size, both within
what the header's checks established (43_audio_commands.md R223, R224). -/
theorem placeOk_decodeOnward_none (h : FrameDecodeOk s) (hbp : s.bp.toNat ≤ s.bDesc.len.toNat) :
    PlaceOk (decodeOnward none s) := by
  obtain ⟨haudio, -, hsize, hsamples⟩ := h
  refine (placeOk_dec_frame rfl).mpr ⟨haudio, ?_, (toNat_advanceSamples hsamples).trans_le hsamples⟩
  have hlen := s.bDesc.len.isLt
  change (frameEndCursor s).toNat ≤ s.bDesc.len.toNat
  rcases frameEndCursor_cases s with he | he <;> rw [he]
  · exact hbp
  · rw [BitVec.toNat_add, BitVec.toNat_setWidth]
    omega

/-- What the checks of a frame header establish (43_audio_commands.md R224). -/
theorem frameDecodeOk_of_checks (haudio : AudioDecodeOk s) (hc : firstError (frameChecks s) = none) : FrameDecodeOk s := by
  simp only [firstError_none, frameChecks, List.forall_mem_cons, decide_eq_false_iff_not, not_lt] at hc
  obtain ⟨-, hsmall, hsize, hsamples, -⟩ := hc
  exact ⟨haudio, hsmall, hsize, hsamples⟩

theorem placeOk_afterFrameHeader_dec (h : FrameDecodeOk s) (hbp : s.bp.toNat = s.fStart.toNat + 8)
    (hlen : s.bp.toNat ≤ s.bDesc.len.toNat) : PlaceOk (decodeOnward (afterFrameHeader s) s) := by
  unfold afterFrameHeader
  split
  · exact placeOk_decodeOnward_none h hlen
  · next hch =>
    exact (placeOk_dec_hist (c := 0) rfl).mpr ⟨h, Nat.pos_of_ne_zero hch, hbp⟩

theorem placeOk_afterWeights_dec {c : Fin 8} (h : FrameDecodeOk s) (hc : c.val < s.stChannels.toNat)
    (hbp : s.bp.toNat = s.fStart.toNat + 24 + 16 * c.val) (hlen : s.bp.toNat ≤ s.bDesc.len.toNat) :
    PlaceOk (decodeOnward (afterWeights s c) s) := by
  rcases afterWeights_cases (c := c) h.1.1 with ⟨d, hd, hch, he⟩ | ⟨hch, hn, he⟩ | ⟨-, -, he⟩ <;> rw [he]
  · refine (placeOk_dec_hist rfl).mpr ⟨h, hch, hbp.trans ?_⟩
    change s.fStart.toNat + 24 + 16 * c.val = s.fStart.toNat + 8 + 16 * d.val
    omega
  · refine (placeOk_dec_slice rfl).mpr ⟨h, Nat.zero_lt_of_lt hc, hn, hbp.trans ?_⟩
    change s.fStart.toNat + 24 + 16 * c.val =
      s.fStart.toNat + 8 + 16 * s.stChannels.toNat + 8 * (0 * s.stChannels.toNat + 0)
    omega
  · exact placeOk_decodeOnward_none h hlen

theorem placeOk_afterSlice_dec {k : Nat} {c : Fin 8} (h : FrameDecodeOk s) (hc : c.val < s.stChannels.toNat)
    (hk : k < sliceCount s.fSamples.toNat)
    (hbp : s.bp.toNat = s.fStart.toNat + 16 + 16 * s.stChannels.toNat + 8 * (k * s.stChannels.toNat + c.val))
    (hlen : s.bp.toNat ≤ s.bDesc.len.toNat) : PlaceOk (decodeOnward (afterSlice s k c) s) := by
  rcases afterSlice_cases (k := k) (c := c) h.1.1 with ⟨d, hd, hch, he⟩ | ⟨hch, hn, he⟩ | ⟨-, -, he⟩ <;> rw [he]
  · refine (placeOk_dec_slice rfl).mpr ⟨h, hch, hk, hbp.trans ?_⟩
    change s.fStart.toNat + 16 + 16 * s.stChannels.toNat + 8 * (k * s.stChannels.toNat + c.val) =
      s.fStart.toNat + 8 + 16 * s.stChannels.toNat + 8 * (k * s.stChannels.toNat + d.val)
    omega
  · refine (placeOk_dec_slice rfl).mpr ⟨h, Nat.zero_lt_of_lt hc, hn, hbp.trans ?_⟩
    change s.fStart.toNat + 16 + 16 * s.stChannels.toNat + 8 * (k * s.stChannels.toNat + c.val) =
      s.fStart.toNat + 8 + 16 * s.stChannels.toNat + 8 * ((k + 1) * s.stChannels.toNat + 0)
    have hlast : s.stChannels.toNat = c.val + 1 := by omega
    rw [Nat.add_one_mul k]
    omega
  · exact placeOk_decodeOnward_none h hlen

theorem AudioDecoded.placeOk (hd : AudioDecoded s t) (h : PlaceOk s) : PlaceOk t := by
  cases hd with
  | header samples w hp hb hc =>
    obtain ⟨-, hsp⟩ := (placeOk_dec_audioHeader hp).mp h
    simp only [firstError_none, peekChecks, List.forall_mem_cons, decide_eq_false_iff_not, not_lt] at hc
    obtain ⟨hch, hcap, -⟩ := hc
    exact (placeOk_dec_frame rfl).mpr ⟨⟨hch, hcap⟩, (toNat_bp_add_word hb).trans_le hb, hsp.trans_le (Nat.zero_le _)⟩
  | frame channels rate fsamples fsize s1 hp hs1 hb hc =>
    obtain ⟨haudio, -, -⟩ := (placeOk_dec_frame hp).mp h
    subst hs1
    have hbp := toNat_bp_add_word hb
    exact placeOk_afterFrameHeader_dec (frameDecodeOk_of_checks haudio hc) hbp (hbp.trans_le hb)
  | history c h0 h1 h2 h3 hp hb =>
    obtain ⟨hframe, hc, hbp⟩ := (placeOk_dec_hist hp).mp h
    refine (placeOk_dec_wght rfl).mpr ⟨hframe, hc, (toNat_bp_add_word hb).trans ?_⟩
    change s.bp.toNat + 8 = s.fStart.toNat + 16 + 16 * c.val
    omega
  | weights c w0 w1 w2 w3 hp hb =>
    obtain ⟨hframe, hc, hbp⟩ := (placeOk_dec_wght hp).mp h
    have hnext := toNat_bp_add_word hb
    exact placeOk_afterWeights_dec
      (s := { setPredictor s c (loadWeights s.cfg s.pred[c.val] w0 w1 w2 w3) with bp := s.bp + 8 })
      hframe hc (hnext.trans (by simp only [setPredictor_fStart]; omega)) (hnext.trans_le hb)
  | slice k c sf codes hp hb =>
    obtain ⟨hframe, hc, hk, hbp⟩ := (placeOk_dec_slice hp).mp h
    have hnext := toNat_bp_add_word hb
    refine placeOk_afterSlice_dec (s := sliceDecodedState k c sf codes s) hframe hc hk (hnext.trans ?_) (hnext.trans_le hb)
    change s.bp.toNat + 8 =
      s.fStart.toNat + 16 + 16 * s.stChannels.toNat + 8 * (k * s.stChannels.toNat + c.val)
    omega
  | finish => exact placeOk_of_idle rfl

/-! ## Audio encodes -/

/-- The frames of some samples: the first one, and those of the samples behind it (43_audio_commands.md R213). -/
theorem framesBytes_eq_first_add {m : Nat} (ch : Nat) (hm : 0 < m) :
    framesBytes m ch =
      8 + 16 * ch + 8 * ch * sliceCount (min frameLen m) + framesBytes (m - min frameLen m) ch := by
  have hframes : ceilDiv m frameLen = 1 + ceilDiv (m - min frameLen m) frameLen := by
    simp only [ceilDiv, frameLen]
    omega
  have hslices : sliceCount m = sliceCount (min frameLen m) + sliceCount (m - min frameLen m) := by
    simp only [sliceCount, ceilDiv, sliceLen, frameLen]
    omega
  unfold framesBytes
  rw [hframes, hslices]
  ring

theorem streamBytes_eq (n ch : Nat) : streamBytes n ch = 8 + framesBytes n ch := by
  unfold streamBytes framesBytes
  omega

/-- A unit of `n` bytes leaves `n` bytes fewer of the stream to come. -/
theorem streamLeft_of_emit {n m : Nat} (h : streamLeft s (n + m)) (hbp : t.bp.toNat = s.bp.toNat + n)
    (hsamples : t.stSamples = s.stSamples) (hch : t.stChannels = s.stChannels) : streamLeft t m := by
  unfold streamLeft at h ⊢
  rw [hsamples, hch, hbp, ← h]
  omega

/-- The end of a frame: the sample cursor past it, the later frames still to come. -/
theorem placeOk_encodeOnward_none (h : AudioEncodeOk s) (hsp : s.sp.toNat + s.fSamples.toNat ≤ s.stSamples.toNat)
    (hleft : streamLeft s (laterBytes s)) : PlaceOk (encodeOnward none s) := by
  have hnext := toNat_advanceSamples hsp
  refine (placeOk_enc_frame rfl).mpr ⟨h, hnext.trans_le hsp, ?_⟩
  change streamLeft s (framesBytes (s.stSamples.toNat - (advanceSamples s).toNat) s.stChannels.toNat)
  rw [hnext]
  exact hleft

theorem placeOk_afterWeights_enc {c : Fin 8} (h : AudioEncodeOk s) (hc : c.val < s.stChannels.toNat)
    (hsp : s.sp.toNat + s.fSamples.toNat ≤ s.stSamples.toNat)
    (hleft : streamLeft s (16 * (s.stChannels.toNat - (c.val + 1)) +
      8 * s.stChannels.toNat * sliceCount s.fSamples.toNat + laterBytes s)) :
    PlaceOk (encodeOnward (afterWeights s c) s) := by
  rcases afterWeights_cases (c := c) h.2.1 with ⟨d, hd, hch, he⟩ | ⟨hch, hn, he⟩ | ⟨hch, hn, he⟩ <;> rw [he]
  · exact (placeOk_enc_hist rfl).mpr ⟨h, hch, hsp, hd ▸ hleft⟩
  · refine (placeOk_enc_slice rfl).mpr ⟨h, Nat.zero_lt_of_lt hc, hsp, hn, ?_, Nat.zero_le _, .inl rfl⟩
    change streamLeft s (8 * (s.stChannels.toNat - 0) +
      8 * s.stChannels.toNat * (sliceCount s.fSamples.toNat - (0 + 1)) + laterBytes s)
    convert hleft using 2
    obtain ⟨m, hm⟩ := Nat.exists_eq_add_of_lt hn
    rw [hm, Nat.sub_eq_zero_of_le hch, Nat.zero_add, Nat.zero_add, Nat.add_sub_cancel, Nat.mul_succ]
    omega
  · refine placeOk_encodeOnward_none h hsp ?_
    convert hleft using 1
    rw [hn, Nat.sub_eq_zero_of_le hch]
    omega

theorem placeOk_afterSlice_enc {k : Nat} {c : Fin 8} (h : AudioEncodeOk s) (hc : c.val < s.stChannels.toNat)
    (hsp : s.sp.toNat + s.fSamples.toNat ≤ s.stSamples.toNat) (hk : k < sliceCount s.fSamples.toNat)
    (hleft : streamLeft s (8 * (s.stChannels.toNat - (c.val + 1)) +
      8 * s.stChannels.toNat * (sliceCount s.fSamples.toNat - (k + 1)) + laterBytes s)) :
    PlaceOk (encodeOnward (afterSlice s k c) s) := by
  rcases afterSlice_cases (k := k) (c := c) h.2.1 with ⟨d, hd, hch, he⟩ | ⟨hch, hn, he⟩ | ⟨hch, hn, he⟩ <;> rw [he]
  · exact (placeOk_enc_slice rfl).mpr ⟨h, hch, hsp, hk, hd ▸ hleft, Nat.zero_le _, .inl rfl⟩
  · refine (placeOk_enc_slice rfl).mpr ⟨h, Nat.zero_lt_of_lt hc, hsp, hn, ?_, Nat.zero_le _, .inl rfl⟩
    change streamLeft s (8 * (s.stChannels.toNat - 0) +
      8 * s.stChannels.toNat * (sliceCount s.fSamples.toNat - (k + 1 + 1)) + laterBytes s)
    convert hleft using 2
    obtain ⟨m, hm⟩ : ∃ m, sliceCount s.fSamples.toNat - (k + 1) = m + 1 := ⟨_, (Nat.succ_pred (by omega)).symm⟩
    rw [← Nat.sub_sub _ (k + 1) 1, hm, Nat.sub_eq_zero_of_le hch, Nat.add_sub_cancel, Nat.mul_succ]
    omega
  · refine placeOk_encodeOnward_none h hsp ?_
    convert hleft using 1
    rw [Nat.sub_eq_zero_of_le hch, Nat.sub_eq_zero_of_le hn]
    omega

/-- The next frame of an audio encode has a sample, lies within the stream and is what its latch says. -/
theorem toNat_frameLatched_fSamples : (frameLatched s).fSamples.toNat = nextFrameLen s := by
  have hle : nextFrameLen s ≤ frameLen := min_le_left _ _
  simp only [frameLen] at hle
  change (BitVec.ofNat 16 (nextFrameLen s)).toNat = _
  rw [BitVec.toNat_ofNat]
  omega

/-- A frame header is followed by the first snapshot; the frame's other words and the later frames are still to come. -/
theorem placeOk_afterFrameHeader_enc {bs : List Byte} {s1 : State} (h : PlaceOk s) (hp : s.phase = .enc .frame)
    (hlen : bs.length = 8) (hroom : hasRoom s bs.length = true) (hmore : s.sp.toNat < s.stSamples.toNat)
    (hs1 : s1 = emitted bs (frameLatched s)) : PlaceOk (encodeOnward (afterFrameHeader s1) s1) := by
  obtain ⟨haudio, hsp, hleft⟩ := (placeOk_enc_frame hp).mp h
  subst hs1
  have hbp := (bp_emitted (s := frameLatched s) hroom).1
  have hn : (emitted bs (frameLatched s)).fSamples.toNat = nextFrameLen s := toNat_frameLatched_fSamples
  have hle : nextFrameLen s ≤ s.stSamples.toNat - s.sp.toNat := min_le_right _ _
  have hch : s.stChannels.toNat ≠ 0 := Nat.ne_of_gt haudio.1
  have hnext : afterFrameHeader (emitted bs (frameLatched s)) = some (.hist 0) := if_neg hch
  rw [hnext]
  refine (placeOk_enc_hist rfl).mpr ⟨haudio, Nat.pos_of_ne_zero hch, ?_, ?_⟩
  · change s.sp.toNat + (emitted bs (frameLatched s)).fSamples.toNat ≤ s.stSamples.toNat
    omega
  · refine streamLeft_of_emit (s := s) (n := 8) ?_ (hbp.trans (by rw [hlen]; rfl)) rfl rfl
    change streamLeft s (8 + (16 * (s.stChannels.toNat - 0) +
      8 * s.stChannels.toNat * sliceCount (emitted bs (frameLatched s)).fSamples.toNat +
      framesBytes (s.stSamples.toNat - (s.sp.toNat + (emitted bs (frameLatched s)).fSamples.toNat)) s.stChannels.toNat))
    rw [hn, ← Nat.sub_sub]
    rw [framesBytes_eq_first_add _ (Nat.sub_pos_of_lt hmore)] at hleft
    convert hleft using 1
    rw [nextFrameLen]
    omega

theorem AudioEncoded.placeOk (he : AudioEncoded s t) (h : PlaceOk s) : PlaceOk t := by
  cases he with
  | header bs hp hlen hroom =>
    obtain ⟨haudio, hbp, hsp⟩ := (placeOk_enc_audioHeader hp).mp h
    have hnext := (bp_emitted hroom).1
    refine (placeOk_enc_frame rfl).mpr ⟨haudio, hsp.trans_le (Nat.zero_le _), ?_⟩
    have hleft : streamLeft s (8 + framesBytes (s.stSamples.toNat - s.sp.toNat) s.stChannels.toNat) := by
      rw [streamLeft, streamBytes_eq, hbp, hsp, Nat.sub_zero, Nat.zero_add]
    exact streamLeft_of_emit hleft (hnext.trans (by rw [hlen])) rfl rfl
  | frame bs s1 hp hlen hroom hmore hs1 => exact placeOk_afterFrameHeader_enc h hp hlen hroom hmore hs1
  | history bs c hp hlen hroom =>
    obtain ⟨haudio, hc, hsp, hleft⟩ := (placeOk_enc_hist hp).mp h
    have hnext := (bp_emitted hroom).1
    refine (placeOk_enc_wght rfl).mpr ⟨haudio, hc, hsp, ?_⟩
    refine streamLeft_of_emit (s := s) (n := 8) ?_ (hnext.trans (by rw [hlen])) rfl rfl
    convert hleft using 1
    change 8 + (8 + 16 * (s.stChannels.toNat - (c.val + 1)) + 8 * s.stChannels.toNat * sliceCount s.fSamples.toNat +
      laterBytes s) = _
    omega
  | weights bs c hp hlen hroom =>
    obtain ⟨haudio, hc, hsp, hleft⟩ := (placeOk_enc_wght hp).mp h
    have hnext := (bp_emitted hroom).1
    refine placeOk_afterWeights_enc (s := emitted bs s) haudio hc hsp ?_
    refine streamLeft_of_emit (s := s) (n := 8) ?_ (hnext.trans (by rw [hlen])) rfl rfl
    convert hleft using 1
    change 8 + (16 * (s.stChannels.toNat - (c.val + 1)) + 8 * s.stChannels.toNat * sliceCount s.fSamples.toNat +
      laterBytes s) = _
    omega
  | search k c xs hp hi =>
    obtain ⟨haudio, hc, hsp, hk, hleft, -, -⟩ := (placeOk_enc_slice hp).mp h
    refine (placeOk_enc_slice (s := { s with search := searchTurn s.cfg s.pred[c.val] s.prevSf[c.val] xs s.search })
      hp).mpr ⟨haudio, hc, hsp, hk, hleft, hi, .inr ?_⟩
    change (better s.search.best _).isSome = true
    unfold better
    split
    · rfl
    · split <;> rfl
  | slice bs k c best hp hbest hlen hroom =>
    obtain ⟨haudio, hc, hsp, hk, hleft, -, -⟩ := (placeOk_enc_slice hp).mp h
    have hnext := (bp_emitted hroom).1
    refine placeOk_afterSlice_enc (s := commitSearch c best.sf best (emitted bs s)) haudio hc hsp hk ?_
    refine streamLeft_of_emit (s := s) (n := 8) ?_ (hnext.trans (by rw [hlen])) rfl rfl
    convert hleft using 1
    change 8 + (8 * (s.stChannels.toNat - (c.val + 1)) +
      8 * s.stChannels.toNat * (sliceCount s.fSamples.toNat - (k + 1)) + laterBytes s) = _
    omega
  | finish => exact placeOk_of_idle rfl

/-! ## The idle block -/

/-- An accepted `AUD_ENC` stands at its stream header with the whole stream to come (43_audio_commands.md R211). -/
theorem placeOk_audEncStart (hc : firstError (audEncChecks s) = none) (hbp : s.bp = 0) (hsp : s.sp = 0) :
    PlaceOk (audEncStart s) := by
  simp only [firstError_none, audEncChecks, List.forall_mem_cons, Bool.or_eq_false_iff, decide_eq_false_iff_not, not_lt,
    not_not] at hc
  obtain ⟨-, ⟨hch, hmax⟩, -, hlen, hcap, -⟩ := hc
  exact (placeOk_enc_audioHeader rfl).mpr
    ⟨⟨Nat.pos_of_ne_zero hch, hmax, hlen, hcap⟩, congrArg BitVec.toNat hbp, congrArg BitVec.toNat hsp⟩

/-- An accepted `IMG_ENC` stands at its stream header (44_pixel_encoder.md R241). -/
theorem placeOk_imgEncStart (hc : firstError (imgEncChecks s) = none) (hbp : s.bp = 0) (hpp : s.pp = 0) :
    PlaceOk { seedPixelCoder s with phase := .enc .imageHeader } := by
  simp only [firstError_none, imgEncChecks, List.forall_mem_cons, Bool.or_eq_false_iff, badDimension_eq_false,
    decide_eq_false_iff_not, not_not] at hc
  obtain ⟨-, ⟨hw, hh⟩, hlen, -⟩ := hc
  have hbp0 : s.bp.toNat = 0 := congrArg BitVec.toNat hbp
  exact (placeOk_enc_imageHeader rfl).mpr
    ⟨⟨hw, hh, hlen, hbp0.trans_le (Nat.zero_le _)⟩, hbp0, congrArg BitVec.toNat hpp, rfl⟩

theorem IdleStepped.placeOk (hi : IdleStepped s t) (hp : s.phase = .idle) : PlaceOk t := by
  cases hi with
  | stay => exact placeOk_of_idle hp
  | move m rest => exact placeOk_of_idle ((applyMove_control m _).2.2.2.trans hp)
  | atOnce | rejected => exact placeOk_of_idle rfl
  | audEnc rest hc => exact placeOk_audEncStart hc rfl rfl
  | audDec => exact (placeOk_dec_audioHeader rfl).mpr ⟨rfl, rfl⟩
  | imgEnc rest hc => exact placeOk_imgEncStart hc rfl rfl
  | imgDec => exact (placeOk_dec_imageHeader rfl).mpr ⟨rfl, rfl⟩

/-- Settles O54: each command's units by their own geometry; an idle block has no place. -/
theorem stepKeepsPlace : Obligations.StepKeepsPlace := by
  intro s t hcfg h hstep
  rcases step_next_cases hstep with rfl | ⟨hp, hi⟩ | ⟨-, hr⟩
  · exact placeOk_of_idle rfl
  · exact hi.placeOk hp
  · cases hr with
    | raised => exact placeOk_of_idle rfl
    | imageDecoded hd => exact hd.placeOk hcfg h
    | audioDecoded hd => exact hd.placeOk h
    | imageEncoded he => exact he.placeOk h
    | audioEncoded he => exact he.placeOk h

end Sys2Proof.Machine


/-! SUPPORT. Image and audio commands use registers of their own (O60): a step commutes with setting the other side's
registers to fixed values. -/

namespace Sys2Proof.Machine

variable {s s1 s2 t : State}

/-! ## Outcomes and turns under a change of state -/

/-- An outcome with its next state changed. -/
def mapState (w : State → State) : Out → Out
  | .next s => .next (w s)
  | .fault f => .fault f
  | .refused r => .refused r

/-- A turn with its state, or the state of its outcome, changed. -/
def Turn.mapState (w : State → State) : Turn → Turn
  | .run i s => .run i (w s)
  | .quiet o => .quiet (Machine.mapState w o)

/-- What the operations of both streams need of a change of registers: it commutes with an error completion and with an
emission, and the output's room is not among those registers. -/
structure Commutes (w : State → State) : Prop where
  raise : ∀ e s, raiseErr e (w s) = w (raiseErr e s)
  emit : ∀ bs s, emitted bs (w s) = w (emitted bs s)
  room : ∀ s n, hasRoom (w s) n = hasRoom s n

theorem commutes_withoutAudio : Commutes withoutAudio where
  raise _ _ := rfl
  emit _ _ := rfl
  room _ _ := rfl

theorem commutes_withoutPixels : Commutes withoutPixels where
  raise _ _ := rfl
  emit _ _ := rfl
  room _ _ := rfl

section
variable {w : State → State}

theorem Commutes.checked (hw : Commutes w) {checks checks' : List (Bool × ErrKind)} {effect effect' : State}
    (hs : s2 = w s1) (hchecks : checks' = checks) (heffect : effect' = w effect) :
    checked checks' s2 effect' = mapState w (checked checks s1 effect) := by
  subst hs hchecks heffect
  unfold Machine.checked
  cases firstError checks' with
  | some e => exact congrArg Host.Outcome.next (hw.raise e s1)
  | none => rfl

theorem Commutes.emitThen (hw : Commutes w) {bs : List Byte} {effect effect' : State → State} (hs : s2 = w s1)
    (heffect : effect' (w (emitted bs s1)) = w (effect (emitted bs s1))) :
    emitThen bs s2 effect' = mapState w (emitThen bs s1 effect) := by
  subst hs
  unfold Machine.emitThen
  rw [hw.room, hw.emit, heffect, hw.raise]
  cases hasRoom s1 bs.length <;> rfl

theorem Commutes.fetchedTurn (hw : Commutes w) (f : Fetched) (s : State) :
    fetchedTurn (w s) f = (fetchedTurn s f).mapState w := by
  cases f with
  | unit i => rfl
  | error e => exact congrArg (fun u => Turn.quiet (.next u)) (hw.raise e s)
  | fault f => rfl

/-- A step commutes with a change of registers when its turn and the unit it runs do. -/
theorem step_mapState (hturn : turn (w s) = (turn s).mapState w)
    (hexec : ∀ i s1, turn s = .run i s1 → exec i (w s1) = mapState w (exec i s1)) :
    step (w s) = mapState w (step s) := by
  unfold step
  rw [hturn]
  cases ht : turn s with
  | run i s1 => exact hexec i s1 ht
  | quiet o => rfl

end

/-! ## The unit a place selects -/

/-- A 64-bit word is a unit of the kind it is read as. -/
theorem kindOf_of_unitOfWord {k : UnitKind} {w : Word64} {bs rest : List Byte} {i : Instr}
    (h : unitOfWord k w bs = .ok i rest) : kindOf i = k := by
  cases k with
  | audioHeader =>
    simp only [unitOfWord] at h
    split at h <;> cases h
    rfl
  | slice m => cases h; simp [kindOf, sliceCodes]
  | frameHeader | history | weights | imageFooter => cases h; rfl
  | command | imageHeader | opcode => cases h

/-- What is fetched at a place that holds a 64-bit word is a unit of that place. -/
theorem kindOf_of_fetchAt_word {p : Place} {a n : Nat} {i : Instr} (hheader : p ≠ .imageHeader) (hpixel : p ≠ .pixel)
    (h : fetchAt s (placeKind s p) a n = .unit i) : kindOf i = placeKind s p := by
  obtain ⟨bs, rest, -, hd⟩ := fetchAt_unit h
  cases p with
  | imageHeader => exact absurd rfl hheader
  | pixel => exact absurd rfl hpixel
  | imageFooter | audioHeader | frame | hist | wght | slice =>
    simp only [placeKind, decode] at hd
    split at hd
    · cases hd
    · exact kindOf_of_unitOfWord hd

/-- What a decoder fetches is a unit of its place. -/
theorem kindOf_of_fetchUnit {p : Place} {i : Instr} (h : fetchUnit s p = .unit i) : kindOf i = placeKind s p := by
  cases p with
  | imageHeader =>
    simp only [fetchUnit] at h
    split at h
    · cases h
    · obtain ⟨bs, rest, -, hd⟩ := fetchAt_unit h
      obtain ⟨width, height, chtag, cstag, rfl⟩ := decode_imageHeader_ok hd
      rfl
  | pixel =>
    obtain ⟨-, ⟨_, _, _, rfl⟩ | ⟨_, _, _, _, rfl⟩ | ⟨_, rfl⟩ | ⟨_, _, _, rfl⟩ | ⟨_, _, _, rfl⟩ | ⟨_, -, -, -, rfl⟩⟩ :=
      fetchOpcode_unit h <;> rfl
  | imageFooter =>
    simp only [fetchUnit] at h
    split at h <;> cases h
    rfl
  | audioHeader =>
    simp only [fetchUnit] at h
    split at h
    · cases h
    · exact kindOf_of_fetchAt_word (p := .audioHeader) nofun nofun h
  | frame =>
    simp only [fetchUnit] at h
    split at h
    · exact kindOf_of_fetchAt_word (p := .frame) nofun nofun h
    · cases h
  | hist c => exact kindOf_of_fetchAt_word (p := .hist c) nofun nofun h
  | wght c => exact kindOf_of_fetchAt_word (p := .wght c) nofun nofun h
  | slice k c => exact kindOf_of_fetchAt_word (p := .slice k c) nofun nofun h

theorem kindOf_selectOpcode (px prev : Pixel) (cache : Vector Pixel 64) : kindOf (selectOpcode px prev cache) = .opcode := by
  simp only [selectOpcode, selectLiteral]
  split_ifs <;> rfl

/-- What an encoder selects is a unit of its place. -/
theorem kindOf_of_encodeTurn {p : Place} {i : Instr} (h : encodeTurn s p = .run i s1) :
    kindOf i = placeKind s p ∧ s1 = s := by
  cases p with
  | imageHeader | imageFooter | audioHeader | hist | wght => cases h; exact ⟨rfl, rfl⟩
  | pixel =>
    simp only [encodeTurn, pixelTurn] at h
    split at h
    · cases h
    · split_ifs at h <;> cases h
      · exact ⟨rfl, rfl⟩
      · exact ⟨rfl, rfl⟩
      · exact ⟨kindOf_selectOpcode _ _ _, rfl⟩
  | frame =>
    simp only [encodeTurn] at h
    split at h <;> cases h
    exact ⟨rfl, rfl⟩
  | slice k c =>
    simp only [encodeTurn, sliceTurn] at h
    split at h
    · split at h <;> cases h
    · split at h <;> cases h
      exact ⟨by simp [kindOf, placeKind, sliceCodes], rfl⟩

/-- What a running command runs is a unit of its place, on the state it is in. -/
theorem kindOf_of_turn {p : Place} {i : Instr} (hr : s.resetLine = false) (hp : s.phase = .dec p ∨ s.phase = .enc p)
    (h : turn s = .run i s1) : kindOf i = placeKind s p ∧ s1 = s := by
  rcases hp with hp | hp
  · rw [turn_dec hr hp] at h
    simp only [decodeTurn] at h
    split_ifs at h
    obtain ⟨hf, rfl⟩ := fetchedTurn_run h
    exact ⟨kindOf_of_fetchUnit hf, rfl⟩
  · rw [turn_enc hr hp] at h
    exact kindOf_of_encodeTurn h

/-! ## Image units without the audio registers -/

theorem producePixel_withoutAudio (h : s2 = withoutAudio s1) :
    producePixel s2 = mapState withoutAudio (producePixel s1) := by
  subst h
  unfold producePixel
  change (if s1.pDesc.cap.toNat ≤ s1.pp.toNat then _ else _) = _
  split <;> rfl

theorem emitPixel_withoutAudio (i : Instr) (s : State) :
    emitPixel i (withoutAudio s) = mapState withoutAudio (emitPixel i s) := by
  have hread : readPixel (withoutAudio s) = readPixel s := rfl
  unfold emitPixel
  rw [hread]
  cases readPixel s with
  | error f => rfl
  | ok px => exact commutes_withoutAudio.emitThen rfl rfl

theorem emitMissedPixel_withoutAudio (i : Instr) (s : State) :
    emitMissedPixel i (withoutAudio s) = mapState withoutAudio (emitMissedPixel i s) := by
  have hread : readPixel (withoutAudio s) = readPixel s := rfl
  unfold emitMissedPixel
  rw [hread]
  cases readPixel s with
  | error f => rfl
  | ok px => exact commutes_withoutAudio.emitThen rfl rfl

theorem flushRun_withoutAudio (i : Instr) (s : State) :
    flushRun i (withoutAudio s) = mapState withoutAudio (flushRun i s) := by
  have hread : readPixel (withoutAudio s) = readPixel s := rfl
  unfold flushRun
  rw [hread]
  cases readPixel s with
  | error f => rfl
  | ok px =>
    refine commutes_withoutAudio.emitThen rfl ?_
    change (if px = s.pxPrev then _ else _) = withoutAudio (if px = s.pxPrev then _ else _)
    split <;> rfl

/-- An opcode that a decoder executes. -/
theorem exec_opcode_dec_withoutAudio {i : Instr} (hp : s.phase = .dec .pixel) (hk : kindOf i = .opcode) :
    exec i (withoutAudio s) = mapState withoutAudio (exec i s) := by
  have hp' : (withoutAudio s).phase = .dec .pixel := hp
  cases i with
  | rgb r g b => simp only [exec, execRgb, hp, hp']; exact producePixel_withoutAudio rfl
  | rgba r g b a => simp only [exec, execRgba, hp, hp']; exact producePixel_withoutAudio rfl
  | index slot => simp only [exec, execIndex, hp, hp']; exact producePixel_withoutAudio rfl
  | diff dr dg db => simp only [exec, execDiff, hp, hp']; exact producePixel_withoutAudio rfl
  | luma dg drg dbg => simp only [exec, execLuma, hp, hp']; exact producePixel_withoutAudio rfl
  | run n => simp only [exec, execRun, hp, hp']; exact producePixel_withoutAudio rfl
  | _ => cases hk

/-- An opcode that an encoder emits. -/
theorem exec_opcode_enc_withoutAudio {i : Instr} (hp : s.phase = .enc .pixel) (hk : kindOf i = .opcode) :
    exec i (withoutAudio s) = mapState withoutAudio (exec i s) := by
  have hp' : (withoutAudio s).phase = .enc .pixel := hp
  cases i with
  | rgb r g b => simp only [exec, execRgb, hp, hp']; exact emitMissedPixel_withoutAudio _ _
  | rgba r g b a => simp only [exec, execRgba, hp, hp']; exact emitMissedPixel_withoutAudio _ _
  | index slot => simp only [exec, execIndex, hp, hp']; exact emitPixel_withoutAudio _ _
  | diff dr dg db => simp only [exec, execDiff, hp, hp']; exact emitMissedPixel_withoutAudio _ _
  | luma dg drg dbg => simp only [exec, execLuma, hp, hp']; exact emitMissedPixel_withoutAudio _ _
  | run n => simp only [exec, execRun, hp, hp']; exact flushRun_withoutAudio _ _
  | _ => cases hk

theorem exec_qoif_withoutAudio (width height : BitVec 32) (chtag cstag : Byte)
    (hp : s.phase = .dec .imageHeader ∨ s.phase = .enc .imageHeader) :
    exec (.qoif width height chtag cstag) (withoutAudio s) =
      mapState withoutAudio (exec (.qoif width height chtag cstag) s) := by
  rcases hp with hp | hp
  · have hp' : (withoutAudio s).phase = .dec .imageHeader := hp
    simp only [exec, execQoif, hp, hp']
    exact commutes_withoutAudio.checked rfl rfl rfl
  · have hp' : (withoutAudio s).phase = .enc .imageHeader := hp
    simp only [exec, execQoif, hp, hp']
    exact commutes_withoutAudio.emitThen rfl rfl

theorem exec_footer_withoutAudio (hp : s.phase = .dec .imageFooter ∨ s.phase = .enc .imageFooter) :
    exec .footer (withoutAudio s) = mapState withoutAudio (exec .footer s) := by
  rcases hp with hp | hp
  · have hp' : (withoutAudio s).phase = .dec .imageFooter := hp
    simp only [exec, execFooter, hp, hp']
    rfl
  · have hp' : (withoutAudio s).phase = .enc .imageFooter := hp
    simp only [exec, execFooter, hp, hp']
    exact commutes_withoutAudio.emitThen rfl rfl

/-- A unit of an image stream, at its place. -/
theorem exec_withoutAudio {p : Place} {i : Instr} (himage : p.isImage = true) (hp : s.phase = .dec p ∨ s.phase = .enc p)
    (hk : kindOf i = placeKind s p) : exec i (withoutAudio s) = mapState withoutAudio (exec i s) := by
  cases p with
  | imageHeader =>
    cases i with
    | qoif width height chtag cstag => exact exec_qoif_withoutAudio width height chtag cstag hp
    | _ => cases hk
  | pixel =>
    rcases hp with hp | hp
    · exact exec_opcode_dec_withoutAudio hp hk
    · exact exec_opcode_enc_withoutAudio hp hk
  | imageFooter =>
    cases i with
    | footer => exact exec_footer_withoutAudio hp
    | _ => cases hk
  | audioHeader | frame | hist | wght | slice => cases himage

theorem pixelTurn_withoutAudio (s : State) : pixelTurn (withoutAudio s) = (pixelTurn s).mapState withoutAudio := by
  have hread : readPixel (withoutAudio s) = readPixel s := rfl
  unfold pixelTurn
  rw [hread]
  cases readPixel s with
  | error f => rfl
  | ok px =>
    change (if px = s.pxPrev then
        if s.run.toNat + 1 = runMax ∨ s.pp.toNat + 1 = encPixelCount s then _ else _
      else if s.run ≠ 0 then _ else _) = _
    simp only
    split_ifs <;> rfl

/-- The turn of an image command. -/
theorem turn_withoutAudio {p : Place} (himage : p.isImage = true) (hr : s.resetLine = false)
    (hp : s.phase = .dec p ∨ s.phase = .enc p) : turn (withoutAudio s) = (turn s).mapState withoutAudio := by
  have hr' : (withoutAudio s).resetLine = false := hr
  rcases hp with hp | hp
  · rw [turn_dec (s := withoutAudio s) hr' hp, turn_dec hr hp]
    have hframe : p ≠ .frame := fun h => by simp [h, Place.isImage] at himage
    have hfetch : fetchUnit (withoutAudio s) p = fetchUnit s p := by
      cases p with
      | slice => cases himage
      | _ => rfl
    have hrun : (withoutAudio s).run = s.run := rfl
    simp only [decodeTurn, hframe, false_and, if_false, hfetch, hrun, commutes_withoutAudio.fetchedTurn]
    split
    · exact congrArg Turn.quiet (producePixel_withoutAudio rfl)
    · rfl
  · rw [turn_enc (s := withoutAudio s) hr' hp, turn_enc hr hp]
    cases p with
    | imageHeader | imageFooter => rfl
    | pixel => exact pixelTurn_withoutAudio s
    | audioHeader | frame | hist | wght | slice => cases himage

/-! ## Audio units without the pixel coder's registers -/

theorem decodeOnward_withoutPixels {next next' : Option Place} (hnext : next' = next) (hs : s2 = withoutPixels s1) :
    decodeOnward next' s2 = withoutPixels (decodeOnward next s1) := by
  subst hnext hs
  cases next' <;> rfl

theorem encodeOnward_withoutPixels {next next' : Option Place} (hnext : next' = next) (hs : s2 = withoutPixels s1) :
    encodeOnward next' s2 = withoutPixels (encodeOnward next s1) := by
  subst hnext hs
  cases next' <;> rfl

theorem peekFrame_withoutPixels (samples : BitVec 32) (h : s2 = withoutPixels s1) :
    peekFrame samples s2 = mapState withoutPixels (peekFrame samples s1) := by
  subst h
  have hread : readBytes (withoutPixels s1) 8 8 = readBytes s1 8 8 := rfl
  unfold peekFrame
  rw [hread]
  cases readBytes s1 8 8 with
  | error f => rfl
  | ok bs =>
    simp only
    cases takeWord64 bs with
    | none => rfl
    | some w => exact commutes_withoutPixels.checked rfl rfl rfl

theorem storeSamples_withoutPixels (ws : List (Nat × BitVec 16)) (s : State) :
    storeSamples ws (withoutPixels s) = (storeSamples ws s).map withoutPixels := by
  unfold storeSamples
  change (if ws.all (fun w => decide (w.1 < s.sDesc.cap.toNat)) then _ else _) = _
  split <;> rfl

theorem exec_qoaf_withoutPixels (samples : BitVec 32) (hp : s.phase = .dec .audioHeader ∨ s.phase = .enc .audioHeader) :
    exec (.qoaf samples) (withoutPixels s) = mapState withoutPixels (exec (.qoaf samples) s) := by
  rcases hp with hp | hp
  · have hp' : (withoutPixels s).phase = .dec .audioHeader := hp
    simp only [exec, execQoaf, hp, hp']
    split
    · rfl
    · exact peekFrame_withoutPixels samples rfl
  · have hp' : (withoutPixels s).phase = .enc .audioHeader := hp
    simp only [exec, execQoaf, hp, hp']
    exact commutes_withoutPixels.emitThen rfl rfl

theorem exec_frame_withoutPixels (channels : BitVec 8) (rate : BitVec 24) (fsamples fsize : BitVec 16)
    (hp : s.phase = .dec .frame ∨ s.phase = .enc .frame) :
    exec (.frame channels rate fsamples fsize) (withoutPixels s) =
      mapState withoutPixels (exec (.frame channels rate fsamples fsize) s) := by
  rcases hp with hp | hp
  · have hp' : (withoutPixels s).phase = .dec .frame := hp
    simp only [exec, execFrame, hp, hp']
    exact commutes_withoutPixels.checked rfl rfl (decodeOnward_withoutPixels rfl rfl)
  · have hp' : (withoutPixels s).phase = .enc .frame := hp
    simp only [exec, execFrame, hp, hp']
    exact commutes_withoutPixels.emitThen rfl (encodeOnward_withoutPixels rfl rfl)

theorem exec_hist_withoutPixels {c : Fin 8} (h0 h1 h2 h3 : BitVec 16)
    (hp : s.phase = .dec (.hist c) ∨ s.phase = .enc (.hist c)) :
    exec (.hist h0 h1 h2 h3) (withoutPixels s) = mapState withoutPixels (exec (.hist h0 h1 h2 h3) s) := by
  rcases hp with hp | hp
  · have hp' : (withoutPixels s).phase = .dec (.hist c) := hp
    simp only [exec, execHist, hp, hp']
    rfl
  · have hp' : (withoutPixels s).phase = .enc (.hist c) := hp
    simp only [exec, execHist, hp, hp']
    exact commutes_withoutPixels.emitThen rfl rfl

theorem exec_wght_withoutPixels {c : Fin 8} (w0 w1 w2 w3 : BitVec 16)
    (hp : s.phase = .dec (.wght c) ∨ s.phase = .enc (.wght c)) :
    exec (.wght w0 w1 w2 w3) (withoutPixels s) = mapState withoutPixels (exec (.wght w0 w1 w2 w3) s) := by
  rcases hp with hp | hp
  · have hp' : (withoutPixels s).phase = .dec (.wght c) := hp
    simp only [exec, execWght, hp, hp']
    exact congrArg Host.Outcome.next (decodeOnward_withoutPixels rfl rfl)
  · have hp' : (withoutPixels s).phase = .enc (.wght c) := hp
    simp only [exec, execWght, hp, hp']
    exact commutes_withoutPixels.emitThen rfl (encodeOnward_withoutPixels rfl rfl)

theorem decodeSliceUnit_withoutPixels (sf : BitVec 4) (codes : List (BitVec 3)) (k : Nat) (c : Fin 8) (s : State) :
    decodeSliceUnit sf codes k c (withoutPixels s) = mapState withoutPixels (decodeSliceUnit sf codes k c s) := by
  simp only [decodeSliceUnit, storeSamples_withoutPixels]
  change (match (storeSamples (sliceStores s k c (decodeSlice s.cfg s.pred[c.val] sf codes).2) s).map withoutPixels with
    | .error f => _
    | .ok s1 => _) = _
  cases storeSamples (sliceStores s k c (decodeSlice s.cfg s.pred[c.val] sf codes).2) s with
  | error f => rfl
  | ok s1 => exact congrArg Host.Outcome.next (decodeOnward_withoutPixels rfl rfl)

theorem encodeSliceUnit_withoutPixels (sf : BitVec 4) (codes : List (BitVec 3)) (k : Nat) (c : Fin 8) (s : State) :
    encodeSliceUnit sf codes k c (withoutPixels s) = mapState withoutPixels (encodeSliceUnit sf codes k c s) := by
  have hsearch : (withoutPixels s).search = s.search := rfl
  unfold encodeSliceUnit
  rw [hsearch]
  cases s.search.best with
  | none => rfl
  | some best => exact commutes_withoutPixels.emitThen rfl (encodeOnward_withoutPixels rfl rfl)

/-- A unit of an audio stream, at its place. -/
theorem exec_withoutPixels {p : Place} {i : Instr} (haudio : p.isImage = false) (hp : s.phase = .dec p ∨ s.phase = .enc p)
    (hk : kindOf i = placeKind s p) : exec i (withoutPixels s) = mapState withoutPixels (exec i s) := by
  cases p with
  | audioHeader =>
    cases i with
    | qoaf samples => exact exec_qoaf_withoutPixels samples hp
    | _ => cases hk
  | frame =>
    cases i with
    | frame channels rate fsamples fsize => exact exec_frame_withoutPixels channels rate fsamples fsize hp
    | _ => cases hk
  | hist c =>
    cases i with
    | hist h0 h1 h2 h3 => exact exec_hist_withoutPixels h0 h1 h2 h3 hp
    | _ => cases hk
  | wght c =>
    cases i with
    | wght w0 w1 w2 w3 => exact exec_wght_withoutPixels w0 w1 w2 w3 hp
    | _ => cases hk
  | slice k c =>
    cases i with
    | slice sf codes =>
      rcases hp with hp | hp
      · have hp' : (withoutPixels s).phase = .dec (.slice k c) := hp
        simp only [exec, execSlice, hp, hp']
        exact decodeSliceUnit_withoutPixels sf codes k c s
      · have hp' : (withoutPixels s).phase = .enc (.slice k c) := hp
        simp only [exec, execSlice, hp, hp']
        exact encodeSliceUnit_withoutPixels sf codes k c s
    | _ => cases hk
  | imageHeader | pixel | imageFooter => cases haudio

theorem finishAudioDecode_withoutPixels (s : State) :
    finishAudioDecode (withoutPixels s) = mapState withoutPixels (finishAudioDecode s) :=
  commutes_withoutPixels.checked rfl rfl rfl

theorem sliceTurn_withoutPixels (k : Nat) (c : Fin 8) (s : State) :
    sliceTurn (withoutPixels s) k c = (sliceTurn s k c).mapState withoutPixels := by
  have hsearch : (withoutPixels s).search = s.search := rfl
  have hread : readSlice (withoutPixels s) k c = readSlice s k c := rfl
  unfold sliceTurn
  rw [hsearch, hread]
  split
  · cases readSlice s k c <;> rfl
  · cases s.search.best <;> rfl

/-- The turn of an audio command. -/
theorem turn_withoutPixels {p : Place} (haudio : p.isImage = false) (hr : s.resetLine = false)
    (hp : s.phase = .dec p ∨ s.phase = .enc p) : turn (withoutPixels s) = (turn s).mapState withoutPixels := by
  have hr' : (withoutPixels s).resetLine = false := hr
  rcases hp with hp | hp
  · rw [turn_dec (s := withoutPixels s) hr' hp, turn_dec hr hp]
    have hpixel : p ≠ .pixel := fun h => by simp [h, Place.isImage] at haudio
    have hfetch : fetchUnit (withoutPixels s) p = fetchUnit s p := by cases p <;> rfl
    have hbp : (withoutPixels s).bp = s.bp := rfl
    have hdesc : (withoutPixels s).bDesc = s.bDesc := rfl
    have hsp : (withoutPixels s).sp = s.sp := rfl
    have hsamples : (withoutPixels s).stSamples = s.stSamples := rfl
    simp only [decodeTurn, hpixel, false_and, if_false, hfetch, hbp, hdesc, hsp, hsamples,
      commutes_withoutPixels.fetchedTurn, finishAudioDecode_withoutPixels]
    split <;> rfl
  · rw [turn_enc (s := withoutPixels s) hr' hp, turn_enc hr hp]
    cases p with
    | audioHeader | hist | wght => rfl
    | frame =>
      change (if s.sp.toNat < s.stSamples.toNat then _ else _) =
        Turn.mapState _ (if s.sp.toNat < s.stSamples.toNat then _ else _)
      split <;> rfl
    | slice k c => exact sliceTurn_withoutPixels k c s
    | imageHeader | pixel | imageFooter => cases haudio

/-- Settles O60: the turn of a running command commutes with the change of registers, and so does the unit it runs. -/
theorem commandsUseTheirOwnRegisters : Obligations.CommandsUseTheirOwnRegisters := by
  intro s t p hr hp h
  constructor
  · intro himage
    rw [step_mapState (turn_withoutAudio himage hr hp), h]
    · rfl
    · intro i s1 hrun
      obtain ⟨hk, rfl⟩ := kindOf_of_turn hr hp hrun
      exact exec_withoutAudio himage hp hk
  · intro haudio
    rw [step_mapState (turn_withoutPixels haudio hr hp), h]
    · rfl
    · intro i s1 hrun
      obtain ⟨hk, rfl⟩ := kindOf_of_turn hr hp hrun
      exact exec_withoutPixels haudio hp hk

end Sys2Proof.Machine


/-! SUPPORT. The slice search as steps (O14), the host's commands (O40 to O43), reset (O46), the host's moves (O49) and the
refusals (O50). -/

namespace Sys2Proof.Machine

variable {s t : State}

/-! ## The slice search -/

/-- A run whose first step has a next state goes on from there. -/
theorem run_succ_of_step {k : Nat} (h : step s = .next t) :
    Host.Core.run Sys2Proof.core (k + 1) s = Host.Core.run Sys2Proof.core k t := by
  have hcore : Sys2Proof.core.step s = .next t := h
  simp only [Host.Core.run, hcore]

/-- Before its sixteen turns are over, an encoder's step at a slice is a turn of the search (41_quantizer_slice.md R158). -/
theorem step_search {k : Nat} {c : Fin 8} {xs : List Int} (hr : s.resetLine = false) (hp : s.phase = .enc (.slice k c))
    (hi : s.search.index < scaleCount) (hx : readSlice s k c = .ok xs) :
    step s = .next { s with search := searchTurn s.cfg s.pred[c.val] s.prevSf[c.val] xs s.search } := by
  simp only [step, turn_enc hr hp, encodeTurn, sliceTurn, if_pos hi, hx]

/-- As many turns as are left of the sixteen, one a step. -/
theorem run_search {k : Nat} {c : Fin 8} {xs : List Int} (n : Nat) (hr : s.resetLine = false)
    (hp : s.phase = .enc (.slice k c)) (hx : readSlice s k c = .ok xs) (hn : s.search.index + n ≤ scaleCount) :
    Host.Core.run Sys2Proof.core n s =
      .next { s with search := (searchTurn s.cfg s.pred[c.val] s.prevSf[c.val] xs)^[n] s.search } := by
  induction n generalizing s with
  | zero => rfl
  | succ n ih =>
    rw [run_succ_of_step (step_search hr hp (by omega) hx)]
    refine ih (s := { s with search := searchTurn s.cfg s.pred[c.val] s.prevSf[c.val] xs s.search }) hr hp hx ?_
    simp only [searchTurn]
    omega

/-- The whole search is sixteen turns from its start. -/
theorem sliceSearch_eq_iterate (cfg : Config) (st : Predictor) (prevSf : BitVec 4) (xs : List Int) :
    sliceSearch cfg st prevSf xs = (searchTurn cfg st prevSf xs)^[16] Search.start := by
  rw [sliceSearch, List.foldl_const, List.length_range, scaleCount]

/-- Settles O14: sixteen turns, one a step. -/
theorem sixteenStepsSearchASlice : Obligations.SixteenStepsSearchASlice := by
  intro s k c xs hr hp hstart hx
  have hn : s.search.index + 16 ≤ scaleCount := by simp [hstart, Search.start, scaleCount]
  rw [run_search 16 hr hp hx hn, hstart, sliceSearch_eq_iterate]

/-! ## Commands -/

/-- An error completion is the relation the statements share (60_exceptions.md R310). -/
theorem raised_raiseErr (e : ErrKind) (s : State) : Raised e s (raiseErr e s) :=
  ⟨rfl, rfl, rfl, rfl, rfl, rfl, rfl, rfl, rfl, fun h => if_neg h,
    fun h => ⟨if_neg h, if_neg h, if_neg h, if_neg h⟩, fun h => ⟨if_neg h, if_neg h, if_neg h, if_neg h, if_neg h⟩⟩

/-- A rejected command raises on a state that has its code in `CMD`, and is otherwise the one the host left. -/
theorem raised_beginCommand (code : BitVec 3) (e : ErrKind) (s : State) :
    Raised e { s with cmd := code } (raiseErr e (beginCommand code s)) := raised_raiseErr e (beginCommand code s)

theorem whenIdle_of_not_busy (hb : s.busy = false) (o : Out) : whenIdle s o = o := by
  rw [whenIdle, hb]
  rfl

theorem whenIdle_of_busy (hb : s.busy = true) (o : Out) : whenIdle s o = .refused .commandWhileBusy := by
  rw [whenIdle, hb]
  rfl

theorem checked_of_error {checks : List (Bool × ErrKind)} {e : ErrKind} {effect : State} (h : firstError checks = some e) :
    checked checks s effect = .next (raiseErr e s) := by
  rw [checked, h]

theorem checked_of_none {checks : List (Bool × ErrKind)} {effect : State} (h : firstError checks = none) :
    checked checks s effect = .next effect := by
  rw [checked, h]

/-- A command that completes at once on an idle block. -/
theorem flagsAtOnce_of_idle (code : BitVec 3) (e : ErrKind) (hb : s.busy = false) (hp : s.phase = .idle) :
    flagsAtOnce code e s = { s with cmd := code, done := true, err := e.code } := by
  simp only [flagsAtOnce, flagsEnd, flagsStart]
  rw [← hb, ← hp]

/-- Settles O40. -/
theorem atOnceCommandsComplete : Obligations.AtOnceCommandsComplete := by
  intro s hb hp
  simp only [exec, execNop, execReserved5, execReserved6, execReserved7, whenIdle_of_not_busy hb,
    flagsAtOnce_of_idle _ _ hb hp]
  exact ⟨rfl, rfl, rfl, rfl⟩

/-- The one check of a decode command: both its buffers are attached. -/
theorem firstError_attached (x y : Bool) :
    firstError [(!x || !y, ErrKind.eInvalidArgs)] =
      if x = true ∧ y = true then none else some .eInvalidArgs := by
  cases x <;> cases y <;> rfl

/-- Settles O43: the check on the two buffers decides. -/
theorem decodeCommandsStart : Obligations.DecodeCommandsStart := by
  intro s hb
  simp only [exec, execAudDec, execImgDec, whenIdle_of_not_busy hb]
  refine ⟨fun h => ⟨_, checked_of_error ?_, raised_beginCommand 2 _ s⟩, fun h1 h2 => checked_of_none ?_,
    fun h => ⟨_, checked_of_error ?_, raised_beginCommand 4 _ s⟩, fun h1 h2 => checked_of_none ?_⟩
  · rw [firstError_attached, if_neg h]
  · rw [firstError_attached, if_pos ⟨h1, h2⟩]
  · rw [firstError_attached, if_neg h]
  · rw [firstError_attached, if_pos ⟨h1, h2⟩]

/-! ### AUD_ENC -/

/-- The operands `AUD_ENC` accepts (43_audio_commands.md R211, 1 to 4). -/
def AudEncOperands (s : State) : Prop :=
  (s.sDesc.present = true ∧ s.bDesc.present = true) ∧
    1 ≤ s.aChannels.toNat ∧ s.aChannels.toNat ≤ 8 ∧ s.aSamples.toNat ≠ 0 ∧
    s.sDesc.len.toNat = s.aSamples.toNat * s.aChannels.toNat

/-- Operands that are not accepted fail one of the first four checks, which raise the same error. -/
theorem firstError_audEnc_operands (h : ¬AudEncOperands s) : firstError (audEncChecks s) = some .eInvalidArgs := by
  simp only [audEncChecks, firstError]
  split
  · rfl
  next hattached =>
  split
  · rfl
  next hchannels =>
  split
  · rfl
  next hsamples =>
  split
  · rfl
  next hlen =>
  simp only [Bool.or_eq_true, Bool.not_eq_true', decide_eq_true_eq, not_or, Bool.not_eq_false, ne_eq, not_not,
    not_lt] at hattached hchannels hsamples hlen
  exact absurd ⟨hattached, Nat.pos_of_ne_zero hchannels.1, hchannels.2, hsamples, hlen⟩ h

/-- Accepted operands leave the check on the output's capacity. -/
theorem firstError_audEnc_capacity (h : AudEncOperands s) :
    firstError (audEncChecks s) =
      if s.bDesc.cap.toNat < streamBytes s.aSamples.toNat s.aChannels.toNat then some .eMemory else none := by
  obtain ⟨⟨hs, hb⟩, hlo, hhi, hn, hlen⟩ := h
  have hzero : s.aChannels.toNat ≠ 0 := Nat.ne_of_gt hlo
  simp [audEncChecks, firstError, hs, hb, hzero, hn, hlen, maxChannels, not_lt.mpr hhi]

/-- The configured start values (10_state.md R38). -/
theorem initialPredictor_initPredictor (cfg : Config) : InitialPredictor cfg (initPredictor cfg) :=
  ⟨rfl, rfl, rfl, rfl, toInt_sext16 _, toInt_sext16 _, toInt_sext16 _, toInt_sext16 _⟩

/-- They are all 0 by default (log 9). -/
theorem initPredictor_defaultConfig : initPredictor defaultConfig = Predictor.zero := by decide

theorem audEncStart_used {c : Fin 8} (h : c.val < s.aChannels.toNat) :
    (audEncStart s).pred[c.val] = initPredictor s.cfg ∧ (audEncStart s).prevSf[c.val] = s.cfg.initSf := by
  simp [h]

theorem audEncStart_unused {c : Fin 8} (h : s.aChannels.toNat ≤ c.val) :
    (audEncStart s).pred[c.val] = s.pred[c.val] ∧ (audEncStart s).prevSf[c.val] = s.prevSf[c.val] := by
  simp [not_lt.mpr h]

/-- Settles O41: the operand checks, the capacity check, the start. -/
theorem audEncStartsOrRejects : Obligations.AudEncStartsOrRejects := by
  intro s hb ch n attached operands length
  have hexec : exec .audEnc s =
      checked (audEncChecks (beginCommand 1 s)) (beginCommand 1 s) (audEncStart (beginCommand 1 s)) := by
    rw [exec, execAudEnc, whenIdle_of_not_busy hb]
  rw [hexec]
  refine ⟨fun h => ?_, fun ha ho hcap => ?_, fun ha ho hcap => ?_⟩
  · exact ⟨_, checked_of_error (firstError_audEnc_operands (s := beginCommand 1 s) h), raised_beginCommand 1 _ s⟩
  · have hfirst := firstError_audEnc_capacity (s := beginCommand 1 s) ⟨ha, ho⟩
    exact ⟨_, checked_of_error (hfirst.trans (if_pos hcap)), raised_beginCommand 1 _ s⟩
  · have hfirst := firstError_audEnc_capacity (s := beginCommand 1 s) ⟨ha, ho⟩
    refine ⟨_, checked_of_none (hfirst.trans (if_neg (not_lt.mpr hcap))), rfl, rfl, rfl, rfl, rfl, rfl, rfl, rfl, rfl,
      fun c hc => ?_, fun hcfg c hc => ?_, fun c hc => audEncStart_unused (s := beginCommand 1 s) hc, rfl, rfl⟩
    · obtain ⟨hpred, hsf⟩ := audEncStart_used (s := beginCommand 1 s) hc
      exact ⟨hpred ▸ initialPredictor_initPredictor s.cfg, hsf⟩
    · obtain ⟨hpred, hsf⟩ := audEncStart_used (s := beginCommand 1 s) hc
      rw [hpred, hsf, beginCommand_cfg, hcfg]
      exact ⟨initPredictor_defaultConfig, rfl⟩

/-! ### IMG_ENC -/

theorem badDimensions_eq_false {v w : BitVec 32} :
    (badDimension v || badDimension w) = false ↔ goodDimension v ∧ goodDimension w := by
  rw [Bool.or_eq_false_iff, badDimension_eq_false, badDimension_eq_false]

/-- The first failing check of `IMG_ENC` (44_pixel_encoder.md R241): the buffers, the dimensions, the input's length. -/
theorem firstError_imgEnc_detached (h : ¬(s.pDesc.present = true ∧ s.bDesc.present = true)) :
    firstError (imgEncChecks s) = some .eInvalidArgs := by
  refine if_pos ?_
  rw [not_and_or, Bool.not_eq_true, Bool.not_eq_true] at h
  simpa using h

theorem firstError_imgEnc_attached (h : s.pDesc.present = true ∧ s.bDesc.present = true) :
    firstError (imgEncChecks s) =
      if badDimension s.iWidth || badDimension s.iHeight then some .eInvalidDimensions
      else if s.pDesc.len.toNat ≠ encPixelCount s then some .eInvalidArgs else none := by
  simp [imgEncChecks, firstError, h.1, h.2]

/-- Settles O42: the three checks in order, the start. -/
theorem imgEncStartsOrRejects : Obligations.ImgEncStartsOrRejects := by
  intro s hb attached dimensions
  have hexec : exec .imgEnc s = checked (imgEncChecks (beginCommand 3 s)) (beginCommand 3 s)
      { seedPixelCoder (beginCommand 3 s) with phase := .enc .imageHeader } := by
    rw [exec, execImgEnc, whenIdle_of_not_busy hb]
  have hfirst (ha : attached) := firstError_imgEnc_attached (s := beginCommand 3 s) ha
  have hgood (hd : dimensions) : (badDimension s.iWidth || badDimension s.iHeight) = false :=
    badDimensions_eq_false.mpr hd
  rw [hexec]
  refine ⟨fun ha => ?_, fun ha hd => ?_, fun ha hd hlen => ?_, fun ha hd hlen => ?_⟩
  · exact ⟨_, checked_of_error (firstError_imgEnc_detached (s := beginCommand 3 s) ha), raised_beginCommand 3 _ s⟩
  · have hbad : (badDimension s.iWidth || badDimension s.iHeight) = true := by
      rw [← Bool.not_eq_false, badDimensions_eq_false]
      exact hd
    exact ⟨_, checked_of_error ((hfirst ha).trans (if_pos hbad)), raised_beginCommand 3 _ s⟩
  · refine ⟨_, checked_of_error ((hfirst ha).trans ?_), raised_beginCommand 3 _ s⟩
    rw [beginCommand_iWidth, beginCommand_iHeight, hgood hd, if_neg Bool.false_ne_true]
    exact if_pos hlen
  · refine ⟨_, checked_of_none ((hfirst ha).trans ?_), rfl, rfl, rfl, rfl, rfl, rfl, rfl, cacheSlot_clearCache, rfl, rfl,
      rfl⟩
    rw [beginCommand_iWidth, beginCommand_iHeight, hgood hd, if_neg Bool.false_ne_true]
    exact if_neg (not_not.mpr hlen)

/-! ## Reset -/

/-- Settles O46: every register as after reset, the buffer spaces but an abandoned output as they were. -/
theorem resetEffects : Obligations.ResetEffects := by
  intro s hr
  exact ⟨applyReset s, step_of_reset hr, rfl, rfl, rfl, rfl, rfl, rfl, rfl, rfl, rfl, rfl, fun h => if_neg h,
    fun h => if_neg h, fun h => if_neg h⟩

/-! ## The host's moves -/

/-- An idle block takes a move that is no command. -/
theorem step_move {m : HostMove} {rest : List HostMove} (hr : s.resetLine = false) (hp : s.phase = .idle)
    (hh : s.host = m :: rest) (hm : ∀ code, m ≠ .writeCmd code) :
    step s = .next (applyMove m { s with host := rest }) := by
  cases m with
  | writeCmd code => exact absurd rfl (hm code)
  | _ => simp only [step, turn_idle hr hp, hostTurn, hh]

/-- An idle block runs the command a write of `CMD` names. -/
theorem step_writeCmd {code : BitVec 3} {rest : List HostMove} (hr : s.resetLine = false) (hp : s.phase = .idle)
    (hh : s.host = .writeCmd code :: rest) : step s = exec (decodeCommand code) { s with host := rest } := by
  simp only [step, turn_idle hr hp, hostTurn, hh]

/-- Every command has a code, which is its byte and decodes to it (30_encoding.md R120, R121). -/
theorem exists_code_of_command {i : Instr} (h : kindOf i = .command) :
    ∃ code : BitVec 3, decodeCommand code = i ∧ ∀ f, encode f i = [code.setWidth 8] := by
  cases i with
  | nop => exact ⟨0, rfl, fun _ => rfl⟩
  | audEnc => exact ⟨1, rfl, fun _ => rfl⟩
  | audDec => exact ⟨2, rfl, fun _ => rfl⟩
  | imgEnc => exact ⟨3, rfl, fun _ => rfl⟩
  | imgDec => exact ⟨4, rfl, fun _ => rfl⟩
  | reserved5 => exact ⟨5, rfl, fun _ => rfl⟩
  | reserved6 => exact ⟨6, rfl, fun _ => rfl⟩
  | reserved7 => exact ⟨7, rfl, fun _ => rfl⟩
  | _ => cases h

/-- One element written is one element stored. -/
theorem storedAt_write {α : Type} (m : Space α) (k : Nat) (v : α) : StoredAt m (Space.write m k v) k [v] := by
  intro a
  rw [Space.read_write]
  by_cases h : a = k
  · simp [h]
  · rw [if_neg h, if_neg (by simp only [List.length_singleton]; omega)]

/-- Settles O49: each kind of move by the one lemma on the idle block's step. -/
theorem idleStepTakesHostMove : Obligations.IdleStepTakesHostMove := by
  intro s rest hr hp
  have move {m : HostMove} (hh : s.host = m :: rest) (hm : ∀ code, m ≠ .writeCmd code) := step_move hr hp hh hm
  refine ⟨fun hh => ?_, fun i hi => ?_, fun _ hh => move hh nofun, fun _ hh => move hh nofun,
    fun _ hh => move hh nofun, fun _ hh => move hh nofun, fun _ hh => move hh nofun, fun _ hh => move hh nofun,
    fun _ hh => move hh nofun, fun _ hh => move hh nofun, fun _ hh => move hh nofun, fun _ hh => move hh nofun,
    fun _ hh => move hh nofun, fun _ hh => move hh nofun, fun _ hh => move hh nofun, fun _ hh => move hh nofun,
    fun a v hh => ?_, fun k v hh => ?_, fun k v hh => ?_⟩
  · simp only [step, turn_idle hr hp, hostTurn, hh]
  · obtain ⟨code, rfl, hbytes⟩ := exists_code_of_command hi
    exact ⟨code, hbytes _, step_writeCmd hr hp⟩
  · exact ⟨_, move hh nofun, storedAt_write _ _ _, rfl, rfl⟩
  · exact ⟨_, move hh nofun, storedAt_write _ _ _, rfl, rfl⟩
  · exact ⟨_, move hh nofun, storedAt_write _ _ _, rfl, rfl⟩

/-! ## Refusals -/

/-- A stream unit has no meaning on an idle block (log 16). -/
theorem exec_unit_idle {i : Instr} (hk : kindOf i ≠ .command) (hp : s.phase = .idle) :
    exec i s = .refused .unitOutOfPlace := by
  cases i with
  | rgb => simp only [exec, execRgb, hp]
  | rgba => simp only [exec, execRgba, hp]
  | index => simp only [exec, execIndex, hp]
  | diff => simp only [exec, execDiff, hp]
  | luma => simp only [exec, execLuma, hp]
  | run => simp only [exec, execRun, hp]
  | qoif => simp only [exec, execQoif, hp]
  | footer => simp only [exec, execFooter, hp]
  | qoaf => simp only [exec, execQoaf, hp]
  | frame => simp only [exec, execFrame, hp]
  | hist => simp only [exec, execHist, hp]
  | wght => simp only [exec, execWght, hp]
  | slice => simp only [exec, execSlice, hp]
  | _ => exact absurd rfl hk

/-- A command has no meaning on a busy block (60_exceptions.md R321, log 16). -/
theorem exec_command_busy {i : Instr} (hk : kindOf i = .command) (hb : s.busy = true) :
    exec i s = .refused .commandWhileBusy := by
  cases i with
  | nop | audEnc | audDec | imgEnc | imgDec | reserved5 | reserved6 | reserved7 => exact whenIdle_of_busy hb _
  | _ => cases hk

/-- Settles O50: the refusals of units and of commands, and the pixel without room. -/
theorem unitsOutOfPlaceAreRefused : Obligations.UnitsOutOfPlaceAreRefused := by
  refine ⟨fun i s => exec_unit_idle, fun i s => exec_command_busy, fun r g b s hp hfull => ?_⟩
  simp only [exec, execRgb, hp]
  exact if_pos hfull

end Sys2Proof.Machine


/-! SUPPORT. The buffer spaces stay canonical and within 32-bit indices (O51). -/

namespace Sys2Proof.Machine

variable {s t : State}

/-! ## One space -/

/-- A space in canonical form that lists 32-bit indices only: what `MemoryOk` says of each of the three. -/
def SpaceOk {α : Type} (m : Space α) : Prop := Space.wf m = true ∧ Space.below m (2 ^ 32) = true

theorem memoryOk_iff : MemoryOk s ↔ SpaceOk s.bytes ∧ SpaceOk s.samples ∧ SpaceOk s.pixels := Iff.rfl

section
variable {α : Type} {m : Space α}

theorem Space.below_iff {n : Nat} : Space.below m n = true ↔ ∀ e ∈ m, e.1 < n := by
  simp only [Space.below, List.all_eq_true, decide_eq_true_eq]

theorem spaceOk_nil : SpaceOk ([] : Space α) := ⟨rfl, rfl⟩

/-- Writes to 32-bit indices keep a space so. -/
theorem SpaceOk.writeAll (h : SpaceOk m) {ws : List (Nat × α)} (hws : ∀ w ∈ ws, w.1 < 2 ^ 32) :
    SpaceOk (Space.writeAll m ws) :=
  ⟨Space.wf_writeAll ws m h.1,
    Space.below_iff.mpr fun e he => (Space.mem_writeAll ws m e he).elim (hws e) (Space.below_iff.mp h.2 e)⟩

/-- One write likewise. -/
theorem SpaceOk.write (h : SpaceOk m) (a : BitVec 32) (v : α) : SpaceOk (Space.write m a.toNat v) :=
  h.writeAll (ws := [(a.toNat, v)]) (by simpa using a.isLt)

/-- A space that is dropped or kept. -/
theorem SpaceOk.drop (h : SpaceOk m) (p : Prop) [Decidable p] : SpaceOk (if p then [] else m) := by
  split
  · exact spaceOk_nil
  · exact h

end

/-! ## Operations -/

/-- The invariant is one of the three spaces alone. -/
theorem MemoryOk.of_eq (h : MemoryOk s) (hbytes : t.bytes = s.bytes) (hsamples : t.samples = s.samples)
    (hpixels : t.pixels = s.pixels) : MemoryOk t := by
  rw [memoryOk_iff, hbytes, hsamples, hpixels]
  exact h

/-- Emitted bytes lie below the capacity (20_memory.md R79). -/
theorem MemoryOk.emitted (h : MemoryOk s) {bs : List Byte} (hroom : hasRoom s bs.length = true) :
    MemoryOk (emitted bs s) := by
  obtain ⟨hbytes, hsamples, hpixels⟩ := h
  refine ⟨SpaceOk.writeAll hbytes fun w hw => ?_, hsamples, hpixels⟩
  have hindex : w.1 ∈ indices s.bp.toNat bs.length := map_fst_placed s.bp.toNat bs ▸ List.mem_map_of_mem hw
  have hlt := ((mem_indices _ _ _).mp hindex).2
  have hcap := (hasRoom_iff s _).mp hroom
  have := s.bDesc.cap.isLt
  omega

/-- A decoded pixel is written at the pixel cursor, a 32-bit index. -/
theorem MemoryOk.pixelProduced (h : MemoryOk s) : MemoryOk (pixelProduced s) := by
  obtain ⟨hbytes, hsamples, hpixels⟩ := h
  exact ⟨hbytes, hsamples, SpaceOk.write hpixels s.pp s.pxPrev⟩

/-- An error completion drops the output's contents. -/
theorem MemoryOk.raiseErr (h : MemoryOk s) (e : ErrKind) : MemoryOk (raiseErr e s) := by
  obtain ⟨hbytes, hsamples, hpixels⟩ := h
  exact ⟨SpaceOk.drop hbytes _, SpaceOk.drop hsamples _, SpaceOk.drop hpixels _⟩

/-- So does a reset during a command. -/
theorem MemoryOk.applyReset (h : MemoryOk s) : MemoryOk (applyReset s) := by
  obtain ⟨hbytes, hsamples, hpixels⟩ := h
  exact ⟨SpaceOk.drop hbytes _, SpaceOk.drop hsamples _, SpaceOk.drop hpixels _⟩

theorem MemoryOk.decodeOnward (h : MemoryOk s) (next : Option Place) : MemoryOk (decodeOnward next s) := by
  obtain ⟨sp, bp, p, he, -⟩ := decodeOnward_frame next s
  rw [he]
  exact h.of_eq rfl rfl rfl

theorem MemoryOk.encodeOnward (h : MemoryOk s) (next : Option Place) : MemoryOk (encodeOnward next s) := by
  obtain ⟨sp, p, he, -⟩ := encodeOnward_frame next s
  rw [he]
  exact h.of_eq rfl rfl rfl

/-- A host's fill is at a 32-bit index. -/
theorem MemoryOk.applyMove (h : MemoryOk s) (m : HostMove) : MemoryOk (applyMove m s) := by
  obtain ⟨hbytes, hsamples, hpixels⟩ := h
  cases m with
  | fillByte a v => exact ⟨SpaceOk.write hbytes a v, hsamples, hpixels⟩
  | fillSample i v => exact ⟨hbytes, SpaceOk.write hsamples i v, hpixels⟩
  | fillPixel i v => exact ⟨hbytes, hsamples, SpaceOk.write hpixels i v⟩
  | setPresent x v | setLen x v | setCap x v => cases x <;> exact ⟨hbytes, hsamples, hpixels⟩
  | _ => exact ⟨hbytes, hsamples, hpixels⟩

/-! ## Steps -/

theorem Attempted.memoryOk {s1 : State} (ha : Attempted s s1) (h : MemoryOk s) : MemoryOk s1 := by
  obtain ⟨-, hbytes, hsamples, hpixels⟩ := ha.hostSide
  exact h.of_eq hbytes hsamples hpixels

theorem ImageDecoded.memoryOk (hd : ImageDecoded s t) (h : MemoryOk s) : MemoryOk t := by
  cases hd with
  | runUnit => exact MemoryOk.pixelProduced (s := { s with run := s.run - 1 }) h
  | colour px n => exact MemoryOk.pixelProduced (s := colourSet px n s) h
  | run n => exact MemoryOk.pixelProduced (s := { s with run := BitVec.ofNat 6 (n - 1), bp := s.bp + 1 }) h
  | header | finish => exact h.of_eq rfl rfl rfl

/-- A slice word stores below the capacity, which its own step checks (20_memory.md R62). -/
theorem AudioDecoded.memoryOk (hd : AudioDecoded s t) (hr : s.resetLine = false) (hstep : step s = .next t)
    (h : MemoryOk s) : MemoryOk t := by
  cases hd with
  | frame channels rate fsamples fsize s1 _ hs1 =>
    subst hs1
    refine MemoryOk.decodeOnward ?_ _
    exact h.of_eq rfl rfl rfl
  | weights =>
    refine MemoryOk.decodeOnward ?_ _
    exact h.of_eq rfl rfl rfl
  | slice k c _ _ hp =>
    obtain ⟨-, sf, codes, -, hcap, ht⟩ := step_dec_slice hr hp hstep
    rw [ht]
    obtain ⟨hbytes, hsamples, hpixels⟩ := h
    have hstored := SpaceOk.writeAll hsamples fun w hw => (hcap w hw).trans s.sDesc.cap.isLt
    refine MemoryOk.decodeOnward ?_ _
    exact ⟨hbytes, hstored, hpixels⟩
  | header | history | finish => exact h.of_eq rfl rfl rfl

/-- The image footer too is emitted with room, which its own step checks. -/
theorem ImageEncoded.memoryOk (he : ImageEncoded s t) (hr : s.resetLine = false) (hstep : step s = .next t)
    (h : MemoryOk s) : MemoryOk t := by
  cases he with
  | silent => exact h.of_eq rfl rfl rfl
  | header bs _ _ hroom | index bs px _ _ _ hroom => exact (h.emitted hroom).of_eq rfl rfl rfl
  | lastOfRun bs px _ _ hroom => exact (MemoryOk.emitted (s := { s with run := 0 }) h hroom).of_eq rfl rfl rfl
  | flush bs _ _ _ hroom => exact MemoryOk.emitted (s := { s with run := 0 }) h hroom
  | literal bs px _ _ _ hroom =>
    exact (MemoryOk.emitted (s := { s with cache := cacheStore s.cache px }) h hroom).of_eq rfl rfl rfl
  | finish bs hp =>
    rcases step_enc_imageFooter hr hp with ⟨hroom, hnext⟩ | ⟨-, hnext⟩ <;>
      rw [Host.Outcome.next.inj (hstep.symm.trans hnext)]
    · exact (h.emitted (bs := encode s.cfg.image .footer) hroom).of_eq rfl rfl rfl
    · exact h.raiseErr _

theorem AudioEncoded.memoryOk (he : AudioEncoded s t) (h : MemoryOk s) : MemoryOk t := by
  cases he with
  | header bs _ _ hroom | history bs _ _ _ hroom => exact (h.emitted hroom).of_eq rfl rfl rfl
  | frame bs s1 _ _ hroom _ hs1 =>
    subst hs1
    exact MemoryOk.encodeOnward (MemoryOk.emitted (s := frameLatched s) h hroom) _
  | weights bs c _ _ hroom => exact (h.emitted hroom).encodeOnward _
  | slice bs k c best _ _ _ hroom =>
    refine MemoryOk.encodeOnward ?_ _
    exact (h.emitted hroom).of_eq rfl rfl rfl
  | search | finish => exact h.of_eq rfl rfl rfl

theorem IdleStepped.memoryOk (hi : IdleStepped s t) (h : MemoryOk s) : MemoryOk t := by
  cases hi with
  | stay => exact h
  | move m rest => exact MemoryOk.applyMove (s := { s with host := rest }) h m
  | rejected code e rest => exact MemoryOk.raiseErr (s := beginCommand code { s with host := rest }) h e
  | atOnce | audEnc | audDec | imgEnc | imgDec => exact h.of_eq rfl rfl rfl

/-- Settles O51: reset and errors drop contents, a step of an idle block or of a running command writes 32-bit indices
only. -/
theorem stepKeepsMemory : Obligations.StepKeepsMemory := by
  intro s t h hstep
  cases hr : s.resetLine with
  | true =>
    rw [step_of_reset hr] at hstep
    cases hstep
    exact h.applyReset
  | false =>
    by_cases hp : s.phase = .idle
    · exact (idleStepped_of_step hr hp hstep).memoryOk h
    · cases runningStepped_of_step hr hp hstep with
      | raised e ha => exact (ha.memoryOk h).raiseErr e
      | imageDecoded hd => exact hd.memoryOk h
      | audioDecoded hd => exact hd.memoryOk hr hstep h
      | imageEncoded he => exact he.memoryOk hr hstep h
      | audioEncoded he => exact he.memoryOk h

end Sys2Proof.Machine


/-! SUPPORT. A unit of an encoder is an emission (O21). -/

namespace Sys2Proof.Machine

variable {s t : State}

/-! ## Units that emit -/

/-- The state a unit emits from: as it was but for registers that are neither the host's, nor the output cursor, nor a
buffer's. -/
def EmitsFrom (s s1 : State) : Prop :=
  s1.hostSide = s.hostSide ∧ s1.bp = s.bp ∧ s1.bytes = s.bytes ∧ s1.samples = s.samples ∧ s1.pixels = s.pixels

/-- A unit's outcome is the emission of its bytes (20_memory.md R79). -/
def Emits (i : Instr) (s : State) (o : Out) : Prop :=
  ∃ s1 effect, EmitsFrom s s1 ∧ o = emitThen (encode s.cfg.image i) s1 effect

theorem emits_emitThen (i : Instr) (s : State) (effect : State → State) :
    Emits i s (emitThen (encode s.cfg.image i) s effect) :=
  ⟨s, effect, ⟨rfl, rfl, rfl, rfl, rfl⟩, rfl⟩

/-- An emission has a next state, with room and without. -/
theorem Emits.exists_next {i : Instr} {o : Out} (h : Emits i s o) : ∃ t, o = .next t := by
  obtain ⟨s1, effect, -, rfl⟩ := h
  rcases emitThen_cases (encode s.cfg.image i) s1 effect with ⟨-, he⟩ | ⟨-, he⟩
  · exact ⟨_, he⟩
  · exact ⟨_, he⟩

/-- An error completion is one of the state the unit began in too: what it set before is not what the relation speaks
of. -/
theorem Raised.of_emitsFrom {e : ErrKind} {s1 : State} (h : Raised e s1 t) (hfrom : EmitsFrom s s1) : Raised e s t := by
  obtain ⟨hside, -, hbytes, hsamples, hpixels⟩ := hfrom
  have hcmd : s1.cmd = s.cmd := congrArg HostSide.cmd hside
  have hhost : s1.host = s.host := congrArg HostSide.host hside
  have hbDesc : s1.bDesc = s.bDesc := congrArg HostSide.bDesc hside
  have hsDesc : s1.sDesc = s.sDesc := congrArg HostSide.sDesc hside
  have hpDesc : s1.pDesc = s.pDesc := congrArg HostSide.pDesc hside
  have hch : s1.aChannels = s.aChannels := congrArg HostSide.aChannels hside
  have hrate : s1.aRate = s.aRate := congrArg HostSide.aRate hside
  have hn : s1.aSamples = s.aSamples := congrArg HostSide.aSamples hside
  have hw : s1.iWidth = s.iWidth := congrArg HostSide.iWidth hside
  have hh : s1.iHeight = s.iHeight := congrArg HostSide.iHeight hside
  have hchtag : s1.iChtag = s.iChtag := congrArg HostSide.iChtag hside
  have hcstag : s1.iCstag = s.iCstag := congrArg HostSide.iCstag hside
  unfold Raised at h ⊢
  rwa [hcmd, hhost, hbDesc, hsDesc, hpDesc, hbytes, hsamples, hpixels, hch, hrate, hn, hw, hh, hchtag, hcstag] at h

/-- Without room for its bytes a unit raises `E_MEMORY` (20_memory.md R79, 60_exceptions.md R304). -/
theorem Emits.raises {i : Instr} {o : Out} (h : Emits i s o)
    (hfull : s.bDesc.cap.toNat < s.bp.toNat + (encode s.cfg.image i).length) :
    ∃ t, o = .next t ∧ Raised .eMemory s t := by
  obtain ⟨s1, effect, hfrom, rfl⟩ := h
  have hbp : s1.bp = s.bp := hfrom.2.1
  have hbDesc : s1.bDesc = s.bDesc := congrArg HostSide.bDesc hfrom.1
  have hroom : hasRoom s1 (encode s.cfg.image i).length ≠ true := by
    rw [ne_eq, hasRoom_iff, hbp, hbDesc]
    omega
  rcases emitThen_cases (encode s.cfg.image i) s1 effect with ⟨hyes, -⟩ | ⟨-, he⟩
  · exact absurd hyes hroom
  · exact ⟨_, he, (raised_raiseErr .eMemory s1).of_emitsFrom hfrom⟩

/-! ## The units of each place -/

theorem emits_emitPixel {px : Pixel} (i : Instr) (hpx : readPixel s = .ok px) : Emits i s (emitPixel i s) :=
  ⟨s, pixelCoded px, ⟨rfl, rfl, rfl, rfl, rfl⟩, by simp only [emitPixel, hpx]⟩

theorem emits_emitMissedPixel {px : Pixel} (i : Instr) (hpx : readPixel s = .ok px) : Emits i s (emitMissedPixel i s) :=
  ⟨{ s with cache := cacheStore s.cache px }, pixelCoded px, ⟨rfl, rfl, rfl, rfl, rfl⟩,
    by simp only [emitMissedPixel, hpx]⟩

theorem emits_flushRun {px : Pixel} (i : Instr) (hpx : readPixel s = .ok px) : Emits i s (flushRun i s) :=
  ⟨{ s with run := 0 }, fun s1 => if px = s.pxPrev then pixelCoded px s1 else s1, ⟨rfl, rfl, rfl, rfl, rfl⟩,
    by simp only [flushRun, hpx]⟩

/-- An opcode of an encoder emits where the pixel at the cursor is readable (44_pixel_encoder.md R243 to R249). -/
theorem emits_exec_opcode {i : Instr} {px : Pixel} (hp : s.phase = .enc .pixel) (hk : kindOf i = .opcode)
    (hpx : readPixel s = .ok px) : Emits i s (exec i s) := by
  cases i with
  | rgb => simp only [exec, execRgb, hp]; exact emits_emitMissedPixel _ hpx
  | rgba => simp only [exec, execRgba, hp]; exact emits_emitMissedPixel _ hpx
  | index => simp only [exec, execIndex, hp]; exact emits_emitPixel _ hpx
  | diff => simp only [exec, execDiff, hp]; exact emits_emitMissedPixel _ hpx
  | luma => simp only [exec, execLuma, hp]; exact emits_emitMissedPixel _ hpx
  | run => simp only [exec, execRun, hp]; exact emits_flushRun _ hpx
  | _ => cases hk

/-- A slice of an encoder emits once its search has a winner (41_quantizer_slice.md R158). -/
theorem emits_exec_slice {k : Nat} {c : Fin 8} {sf : BitVec 4} {codes : List (BitVec 3)}
    (hp : s.phase = .enc (.slice k c)) (hbest : s.search.best.isSome = true) :
    Emits (.slice sf codes) s (exec (.slice sf codes) s) := by
  obtain ⟨best, hbest⟩ := Option.isSome_iff_exists.mp hbest
  simp only [exec, execSlice, hp, encodeSliceUnit, hbest]
  exact emits_emitThen _ s _

/-- A frame header of an encoder emits, its latches set before (43_audio_commands.md R212). -/
theorem emits_exec_frame (channels : BitVec 8) (rate : BitVec 24) (fsamples fsize : BitVec 16)
    (hp : s.phase = .enc .frame) :
    Emits (.frame channels rate fsamples fsize) s (exec (.frame channels rate fsamples fsize) s) := by
  simp only [exec, execFrame, hp]
  exact ⟨latchFrame channels rate fsamples fsize s, _, ⟨rfl, rfl, rfl, rfl, rfl⟩, rfl⟩

/-- Every unit of an encoder's place emits. -/
theorem emits_exec {p : Place} {i : Instr} (hp : s.phase = .enc p) (hk : kindOf i = placeKind s p)
    (hpx : p = .pixel → ∃ px, readPixel s = .ok px)
    (hbest : ∀ k c, p = .slice k c → s.search.best.isSome = true) : Emits i s (exec i s) := by
  cases p with
  | imageHeader =>
    cases i with
    | qoif => simp only [exec, execQoif, hp]; exact emits_emitThen _ s _
    | _ => cases hk
  | pixel =>
    obtain ⟨px, hpx⟩ := hpx rfl
    exact emits_exec_opcode hp hk hpx
  | imageFooter =>
    cases i with
    | footer => simp only [exec, execFooter, hp]; exact emits_emitThen _ s _
    | _ => cases hk
  | audioHeader =>
    cases i with
    | qoaf => simp only [exec, execQoaf, hp]; exact emits_emitThen _ s _
    | _ => cases hk
  | frame =>
    cases i with
    | frame channels rate fsamples fsize => exact emits_exec_frame channels rate fsamples fsize hp
    | _ => cases hk
  | hist c =>
    cases i with
    | hist => simp only [exec, execHist, hp]; exact emits_emitThen _ s _
    | _ => cases hk
  | wght c =>
    cases i with
    | wght => simp only [exec, execWght, hp]; exact emits_emitThen _ s _
    | _ => cases hk
  | slice k c =>
    cases i with
    | slice => exact emits_exec_slice hp (hbest k c rfl)
    | _ => cases hk

/-- Settles O21: the unit is an emission, and an emission without room raises. -/
theorem emitWithoutRoomRaisesMemory : Obligations.EmitWithoutRoomRaisesMemory := by
  intro s p i hp hk hpx hbest hfull
  exact (emits_exec hp hk hpx hbest).raises hfull

end Sys2Proof.Machine


/-! SUPPORT. Input that ends too early or starts with another magic (O45). -/

namespace Sys2Proof

/-! ## Magics -/

/-- The first four bytes of a 32-bit field, compared bit by bit. -/
theorem take_four_of_takeWord32 {bs rest : List Byte} {w : BitVec 32} (h : takeWord32 bs = some (w, rest)) :
    bs.take 4 = bytes32 w := by
  match bs, h with
  | b0 :: b1 :: b2 :: b3 :: _, h =>
    cases h
    simp only [List.take_succ_cons, List.take_zero, bytes32, List.cons.injEq, and_true]
    refine ⟨?_, ?_, ?_, ?_⟩ <;> ext i hi <;> simp only [BitVec.getElem_extractLsb', BitVec.getLsbD_append] <;> grind

/-- The first four bytes of a 64-bit word are those of its high half. -/
theorem take_four_of_takeWord64 {bs rest : List Byte} {w : Word64} (h : takeWord64 bs = some (w, rest)) :
    bs.take 4 = bytes32 (w.extractLsb' 32 32) := by
  match bs, h with
  | b0 :: b1 :: b2 :: b3 :: _ :: _ :: _ :: _ :: _, h =>
    cases h
    simp only [List.take_succ_cons, List.take_zero, bytes32, List.cons.injEq, and_true]
    refine ⟨?_, ?_, ?_, ?_⟩ <;> ext i hi <;>
      simp only [BitVec.getElem_extractLsb', BitVec.getLsbD_extractLsb', BitVec.getLsbD_append] <;> grind

theorem bytes32_audioMagic : bytes32 audioMagic = [0x71, 0x6F, 0x61, 0x66] := by decide

theorem bytes32_imageMagic : bytes32 imageMagic = [0x71, 0x6F, 0x69, 0x66] := by decide

/-- Eight bytes that start with another magic are no audio header (30_encoding.md R107). -/
theorem decode_audioHeader_of_foreign {f : ImageFormat} {bs : List Byte} (hlen : bs.length = 8)
    (hforeign : bs.take 4 ≠ [0x71, 0x6F, 0x61, 0x66]) : decode f .audioHeader bs = .reject .badMagic := by
  obtain ⟨w, hw⟩ := takeWord64_of_length hlen
  have hmagic : w.extractLsb' 32 32 ≠ audioMagic := fun h =>
    hforeign ((take_four_of_takeWord64 hw).trans (h ▸ bytes32_audioMagic))
  simp only [decode, hw, unitOfWord, if_neg hmagic]

/-- Fourteen bytes that start with another magic are no image header (30_encoding.md R107). -/
theorem decode_imageHeader_of_foreign {f : ImageFormat} {bs : List Byte} (hlen : bs.length = 14)
    (hforeign : bs.take 4 ≠ [0x71, 0x6F, 0x69, 0x66]) : decode f .imageHeader bs = .reject .badMagic := by
  match bs, hlen with
  | [b0, b1, b2, b3, _, _, _, _, _, _, _, _, _, _], _ =>
    have hmagic : b0 ++ b1 ++ b2 ++ b3 ≠ imageMagic := fun h =>
      hforeign ((take_four_of_takeWord32 rfl).trans (h ▸ bytes32_imageMagic))
    simp only [decode, decodeImageHeader, takeWord32, if_neg hmagic]

end Sys2Proof

namespace Sys2Proof.Machine

variable {s : State}

/-! ## Fetches that fail -/

theorem not_hasBytes {n : Nat} (h : s.bDesc.len.toNat < s.bp.toNat + n) : ¬hasBytes s n = true := by
  rw [hasBytes_iff]
  omega

/-- Bytes that are there and decode to no unit raise the rejection's error. -/
theorem fetchAt_of_reject {k : UnitKind} {a n : Nat} {bs : List Byte} {e : DecodeError}
    (hb : readBytes s a n = .ok bs) (hd : decode s.cfg.image k bs = .reject e) :
    fetchAt s k a n = .error (rejectionError e) := by
  simp only [fetchAt, hb, hd]

theorem fetchOpcode_of_end (h : s.bDesc.len.toNat ≤ s.bp.toNat) : fetchOpcode s = .error .eEof :=
  if_neg (not_hasBytes (by omega))

/-- An opcode byte whose opcode is longer than the rest of the input (45_pixel_decoder.md R279). -/
theorem fetchOpcode_of_cut {op : Byte} (h : s.bp.toNat < s.bDesc.len.toNat) (hop : Space.read s.bytes s.bp.toNat = some op)
    (hcut : s.bDesc.len.toNat < s.bp.toNat + opcodeLength s.cfg.image op) : fetchOpcode s = .error .eEof := by
  have hfirst : hasBytes s 1 = true := (hasBytes_iff s 1).mpr h
  simp only [fetchOpcode, if_pos hfirst, readElem_of_read h hop, if_neg (not_hasBytes hcut)]

/-- A decoder's step raises the error of its fetch, outside a run and where the frame loop goes on. -/
theorem raised_of_fetchUnit {p : Place} {e : ErrKind} (hr : s.resetLine = false) (hp : s.phase = .dec p)
    (hrun : p = .pixel → s.run = 0)
    (hloop : p = .frame → s.bp.toNat < s.bDesc.len.toNat ∧ s.sp.toNat < s.stSamples.toNat)
    (hf : fetchUnit s p = .error e) : ∃ t, step s = .next t ∧ Raised e s t := by
  refine ⟨raiseErr e s, ?_, raised_raiseErr e s⟩
  have hnoRun : ¬(p = .pixel ∧ s.run ≠ 0) := fun h => h.2 (hrun h.1)
  have hnoEnd : ¬(p = .frame ∧ ¬(s.bp.toNat < s.bDesc.len.toNat ∧ s.sp.toNat < s.stSamples.toNat)) :=
    fun h => h.2 (hloop h.1)
  simp only [step, turn_dec hr hp, decodeTurn, if_neg hnoRun, if_neg hnoEnd, hf, fetchedTurn]

/-- Settles O45: at each place the fetch answers the error, and the step raises it. -/
theorem shortOrForeignInputRaises : Obligations.ShortOrForeignInputRaises := by
  intro s hr
  refine ⟨fun hp hshort => ?_, fun hp hshort => ?_, fun bs hp hmin hb hforeign => ?_, fun bs hp hmin hb hforeign => ?_,
    fun hp hbp hsp hshort => ?_, fun hp hrun hend => ?_, fun op hp hrun hbp hop hcut => ?_, fun hp hshort => ?_⟩
  · exact raised_of_fetchUnit hr hp nofun nofun (if_pos hshort)
  · exact raised_of_fetchUnit hr hp nofun nofun (if_pos hshort)
  · have hf := fetchAt_of_reject hb (decode_audioHeader_of_foreign (readBytes_ok hb).1 hforeign)
    exact raised_of_fetchUnit hr hp nofun nofun ((if_neg (not_lt.mpr hmin)).trans hf)
  · have hf := fetchAt_of_reject hb (decode_imageHeader_of_foreign (readBytes_ok hb).1 hforeign)
    exact raised_of_fetchUnit hr hp nofun nofun ((if_neg (not_lt.mpr hmin)).trans hf)
  · exact raised_of_fetchUnit hr hp nofun (fun _ => ⟨hbp, hsp⟩) (if_neg (not_hasBytes hshort))
  · exact raised_of_fetchUnit hr hp (fun _ => hrun) nofun (fetchOpcode_of_end hend)
  · exact raised_of_fetchUnit hr hp (fun _ => hrun) nofun (fetchOpcode_of_cut hbp hop hcut)
  · exact raised_of_fetchUnit hr hp nofun nofun (if_neg (not_hasBytes hshort))

end Sys2Proof.Machine


/-! SUPPORT. From a good state a step stops at an unfilled input element only (O56). -/

namespace Sys2Proof.Machine

variable {s t : State}

/-! ## Outcomes -/

/-- The outcomes that a good state's step may have: a next state, or the stop at an input element that the host never
filled (log 2). -/
def Proceeds (o : Out) : Prop := (∃ t, o = .next t) ∨ o = .fault .unfilledBuffer

theorem proceeds_next (t : State) : Proceeds (.next t) := .inl ⟨t, rfl⟩

theorem proceeds_checked (checks : List (Bool × ErrKind)) (s effect : State) : Proceeds (checked checks s effect) := by
  rcases checked_cases checks s effect with ⟨e, -, he⟩ | ⟨-, he⟩ <;> rw [he]
  · exact proceeds_next _
  · exact proceeds_next _

/-- A fault that is not the one of bounds is the one of an unfilled element. -/
theorem proceeds_fault {f : Fault} (h : f ≠ .outsideBuffer) : Proceeds (.fault f) := by
  cases f with
  | unfilledBuffer => exact .inr rfl
  | outsideBuffer => exact absurd rfl h

/-! ## Reads within bounds -/

section
variable {α : Type} {m : Space α} {len : BitVec 32}

theorem readElem_inBounds {i : Nat} (h : i < len.toNat) : readElem m len i ≠ .error .outsideBuffer := by
  rw [readElem, if_neg (not_le.mpr h)]
  split <;> nofun

theorem readMany_inBounds {is : List Nat} (h : ∀ i ∈ is, i < len.toNat) : readMany m len is ≠ .error .outsideBuffer := by
  induction is with
  | nil => nofun
  | cons i is ih =>
    obtain ⟨hi, his⟩ := List.forall_mem_cons.mp h
    rw [readMany]
    split
    · next f hf => exact fun he => readElem_inBounds hi (hf.trans (congrArg _ (Except.error.inj he)))
    · split
      · next f hf => exact fun he => ih his (hf.trans (congrArg _ (Except.error.inj he)))
      · nofun

end

theorem readBytes_inBounds {a n : Nat} (h : a + n ≤ s.bDesc.len.toNat) : readBytes s a n ≠ .error .outsideBuffer :=
  readMany_inBounds fun i hi => by
    have := (mem_indices a n i).mp hi
    omega

theorem fetchAt_inBounds {k : UnitKind} {a n : Nat} (h : a + n ≤ s.bDesc.len.toNat) :
    fetchAt s k a n ≠ .fault .outsideBuffer := by
  unfold fetchAt
  split
  · next f hf => exact fun he => readBytes_inBounds h (hf.trans (congrArg _ (Fetched.fault.inj he)))
  · split <;> nofun

/-- The opcode's fetch makes its own checks (20_memory.md R78). -/
theorem fetchOpcode_inBounds : fetchOpcode s ≠ .fault .outsideBuffer := by
  unfold fetchOpcode
  split
  · next hfirst =>
    have hlt : s.bp.toNat < s.bDesc.len.toNat := (hasBytes_iff s 1).mp hfirst
    split
    · next f hf => exact fun he => readElem_inBounds hlt (hf.trans (congrArg _ (Fetched.fault.inj he)))
    · split
      · next hwhole => exact fetchAt_inBounds ((hasBytes_iff s _).mp hwhole)
      · nofun
  · nofun

/-! ## Frames -/

/-- A validated frame's header, snapshots and slices lie within the input (43_audio_commands.md R224). -/
theorem FrameDecodeOk.words_le (h : FrameDecodeOk s) :
    s.fStart.toNat + 8 + 16 * s.stChannels.toNat + 8 * (sliceCount s.fSamples.toNat * s.stChannels.toNat) ≤
      s.bDesc.len.toNat := by
  obtain ⟨-, hsmall, hsize, -⟩ := h
  simp only [frameTooSmall, Bool.or_eq_false_iff, decide_eq_false_iff_not, not_lt] at hsmall
  omega

/-- So does the next word of a running frame. -/
theorem word_inBounds {p : Place} (hp : s.phase = .dec p) (h : PlaceOk s)
    (hw : (∃ c, p = .hist c) ∨ (∃ c, p = .wght c) ∨ ∃ k c, p = .slice k c) : s.bp.toNat + 8 ≤ s.bDesc.len.toNat := by
  rcases hw with ⟨c, rfl⟩ | ⟨c, rfl⟩ | ⟨k, c, rfl⟩
  · obtain ⟨hframe, hc, hbp⟩ := (placeOk_dec_hist hp).mp h
    have := hframe.words_le
    omega
  · obtain ⟨hframe, hc, hbp⟩ := (placeOk_dec_wght hp).mp h
    have := hframe.words_le
    omega
  · obtain ⟨hframe, hc, hk, hbp⟩ := (placeOk_dec_slice hp).mp h
    have hle := hframe.words_le
    have hslices : (k + 1) * s.stChannels.toNat ≤ sliceCount s.fSamples.toNat * s.stChannels.toNat :=
      Nat.mul_le_mul_right _ hk
    rw [Nat.add_one_mul] at hslices
    omega

/-- A sample of a frame lies among the stream's samples (20_memory.md R62). -/
theorem sampleIndex_lt {k : Nat} {c : Fin 8} {j : Nat} (hj : j < sliceSamples s k) (hc : c.val < s.stChannels.toNat)
    (hframe : s.sp.toNat + s.fSamples.toNat ≤ s.stSamples.toNat) :
    sampleIndex s k c j < s.stSamples.toNat * s.stChannels.toNat := by
  have hrow : s.sp.toNat + sliceLen * k + j + 1 ≤ s.stSamples.toNat := by
    have := hj.trans_le (min_le_right _ _)
    omega
  have hle := Nat.mul_le_mul_right s.stChannels.toNat hrow
  rw [Nat.add_one_mul] at hle
  rw [sampleIndex]
  omega

/-- An encoder's slice reads samples of its input only (43_audio_commands.md R211, R212). -/
theorem readSlice_inBounds {k : Nat} {c : Fin 8} (haudio : AudioEncodeOk s) (hc : c.val < s.stChannels.toNat)
    (hframe : s.sp.toNat + s.fSamples.toNat ≤ s.stSamples.toNat) : readSlice s k c ≠ .error .outsideBuffer := by
  have hread : readMany s.samples s.sDesc.len (sampleIndices s k c (sliceSamples s k)) ≠ .error .outsideBuffer :=
    readMany_inBounds fun i hi => by
      obtain ⟨j, hj, rfl⟩ := List.mem_map.mp hi
      rw [haudio.2.2.1]
      exact sampleIndex_lt (List.mem_range.mp hj) hc hframe
  unfold readSlice
  split
  · next f hf => exact fun he => hread (hf.trans (congrArg _ (Except.error.inj he)))
  · nofun

theorem length_decodeSlice (cfg : Config) (sf : BitVec 4) (codes : List (BitVec 3)) (st : Predictor) :
    (decodeSlice cfg st sf codes).2.length = codes.length := by
  induction codes generalizing st with
  | nil => rfl
  | cons code rest ih => exact congrArg (· + 1) (ih _)

/-- A decoder's slice stores below the output's capacity (43_audio_commands.md R222, R225). -/
theorem proceeds_decodeSliceUnit {k : Nat} {c : Fin 8} {sf : BitVec 4} {codes : List (BitVec 3)}
    (hframe : FrameDecodeOk s) (hc : c.val < s.stChannels.toNat) (hlen : codes.length = sliceSamples s k) :
    Proceeds (decodeSliceUnit sf codes k c s) := by
  obtain ⟨⟨-, hcap⟩, -, -, hsamples⟩ := hframe
  have hstores : ∀ w ∈ sliceStores s k c (decodeSlice s.cfg s.pred[c.val] sf codes).2, w.1 < s.sDesc.cap.toNat := by
    intro w hw
    obtain ⟨j, hj, hindex⟩ := List.mem_map.mp (List.of_mem_zip (a := w.1) (b := w.2) hw).1
    rw [length_decodeSlice, hlen, List.mem_range] at hj
    exact hindex ▸ (sampleIndex_lt hj hc hsamples).trans_le hcap
  have hall : (sliceStores s k c (decodeSlice s.cfg s.pred[c.val] sf codes).2).all
      (fun w => decide (w.1 < s.sDesc.cap.toNat)) = true := by simpa using hstores
  simp only [decodeSliceUnit, storeSamples, if_pos hall]
  exact proceeds_next _

/-! ## Decoders -/

/-- A decoder at a pixel has room for it (45_pixel_decoder.md R270). -/
theorem proceeds_producePixel (h : s.pp.toNat < s.pDesc.cap.toNat) : Proceeds (producePixel s) := by
  rw [producePixel, if_neg (not_le.mpr h)]
  exact proceeds_next _

theorem pp_lt_cap_of_placeOk (hp : s.phase = .dec .pixel) (h : PlaceOk s) : s.pp.toNat < s.pDesc.cap.toNat := by
  obtain ⟨⟨-, -, -, -, hcap, -⟩, hpp⟩ := (placeOk_dec_pixel hp).mp h
  exact hpp.trans_le hcap

theorem proceeds_exec_opcode {i : Instr} (hp : s.phase = .dec .pixel) (h : PlaceOk s) (hk : kindOf i = .opcode) :
    Proceeds (exec i s) := by
  have hpp := pp_lt_cap_of_placeOk hp h
  cases i with
  | rgb => simp only [exec, execRgb, hp]; exact proceeds_producePixel hpp
  | rgba => simp only [exec, execRgba, hp]; exact proceeds_producePixel hpp
  | index => simp only [exec, execIndex, hp]; exact proceeds_producePixel hpp
  | diff => simp only [exec, execDiff, hp]; exact proceeds_producePixel hpp
  | luma => simp only [exec, execLuma, hp]; exact proceeds_producePixel hpp
  | run => simp only [exec, execRun, hp]; exact proceeds_producePixel hpp
  | _ => cases hk

/-- The word at offset 8 lies within an input of the least size (43_audio_commands.md R221). -/
theorem proceeds_peekFrame (samples : BitVec 32) (h : 16 ≤ s.bDesc.len.toNat) : Proceeds (peekFrame samples s) := by
  unfold peekFrame
  split
  · next f hf => exact proceeds_fault fun he => readBytes_inBounds (a := 8) (n := 8) h (hf.trans (congrArg _ he))
  · next bs hbs =>
    obtain ⟨w, hw⟩ := takeWord64_of_length (readBytes_ok hbs).1
    rw [hw]
    exact proceeds_checked _ _ _

/-- The unit of a decoder's place runs. -/
theorem proceeds_exec_dec {p : Place} {i : Instr} (hp : s.phase = .dec p) (h : PlaceOk s) (hk : kindOf i = placeKind s p)
    (hmin : p = .audioHeader → 16 ≤ s.bDesc.len.toNat) : Proceeds (exec i s) := by
  cases p with
  | imageHeader =>
    cases i with
    | qoif => simp only [exec, execQoif, hp]; exact proceeds_checked _ _ _
    | _ => cases hk
  | pixel => exact proceeds_exec_opcode hp h hk
  | imageFooter =>
    cases i with
    | footer => simp only [exec, execFooter, hp]; exact proceeds_next _
    | _ => cases hk
  | audioHeader =>
    cases i with
    | qoaf samples =>
      simp only [exec, execQoaf, hp]
      split
      · exact proceeds_next _
      · exact proceeds_peekFrame samples (s := { s with bp := s.bp + 8 }) (hmin rfl)
    | _ => cases hk
  | frame =>
    cases i with
    | frame => simp only [exec, execFrame, hp]; exact proceeds_checked _ _ _
    | _ => cases hk
  | hist c =>
    cases i with
    | hist => simp only [exec, execHist, hp]; exact proceeds_next _
    | _ => cases hk
  | wght c =>
    cases i with
    | wght => simp only [exec, execWght, hp]; exact proceeds_next _
    | _ => cases hk
  | slice k c =>
    cases i with
    | slice sf codes =>
      obtain ⟨hframe, hc, -, -⟩ := (placeOk_dec_slice hp).mp h
      simp only [exec, execSlice, hp]
      exact proceeds_decodeSliceUnit hframe hc (UnitKind.slice.inj hk)
    | _ => cases hk

/-- The least sizes that a well-formed configuration gives its streams cover what is read behind their checks (log 23). -/
theorem minSizes_of_wf {cfg : Config} (h : cfg.wf = true) : 16 ≤ cfg.audioMinSize ∧ 14 ≤ cfg.imageMinSize := by
  simp only [Config.wf, Bool.and_eq_true, decide_eq_true_eq] at h
  exact ⟨h.1.2, h.2⟩

/-- The unit of a decoder's place is fetched within the input (20_memory.md R78). -/
theorem fetchUnit_inBounds {p : Place} (hcfg : s.cfg.wf = true) (hp : s.phase = .dec p) (h : PlaceOk s) :
    fetchUnit s p ≠ .fault .outsideBuffer := by
  obtain ⟨haudio, himage⟩ := minSizes_of_wf hcfg
  cases p with
  | imageHeader =>
    rw [fetchUnit]
    split
    · nofun
    · exact fetchAt_inBounds (by omega)
  | pixel => exact fetchOpcode_inBounds
  | imageFooter =>
    rw [fetchUnit]
    split <;> nofun
  | audioHeader =>
    have hbp := ((placeOk_dec_audioHeader hp).mp h).1
    rw [fetchUnit]
    split
    · nofun
    · exact fetchAt_inBounds (by omega)
  | frame =>
    rw [fetchUnit]
    split
    · next hb => exact fetchAt_inBounds ((hasBytes_iff s 8).mp hb)
    · nofun
  | hist c => exact fetchAt_inBounds (word_inBounds hp h (.inl ⟨c, rfl⟩))
  | wght c => exact fetchAt_inBounds (word_inBounds hp h (.inr (.inl ⟨c, rfl⟩)))
  | slice k c => exact fetchAt_inBounds (word_inBounds hp h (.inr (.inr ⟨k, c, rfl⟩)))

/-- A decoder's step. -/
theorem proceeds_step_dec {p : Place} (hcfg : s.cfg.wf = true) (h : PlaceOk s) (hr : s.resetLine = false)
    (hp : s.phase = .dec p) : Proceeds (step s) := by
  simp only [step, turn_dec hr hp, decodeTurn]
  by_cases hrun : p = .pixel ∧ s.run ≠ 0
  · rw [if_pos hrun]
    have hpp := pp_lt_cap_of_placeOk (hrun.1 ▸ hp) h
    exact proceeds_producePixel (s := { s with run := s.run - 1 }) hpp
  rw [if_neg hrun]
  by_cases hend : p = .frame ∧ ¬(s.bp.toNat < s.bDesc.len.toNat ∧ s.sp.toNat < s.stSamples.toNat)
  · rw [if_pos hend]
    exact proceeds_checked _ _ _
  rw [if_neg hend]
  cases hf : fetchUnit s p with
  | unit i =>
    refine proceeds_exec_dec hp h (kindOf_of_fetchUnit hf) fun haudio => ?_
    subst haudio
    have hmin := (minSizes_of_wf hcfg).1
    by_contra hshort
    rw [fetchUnit, if_pos (by omega)] at hf
    cases hf
  | error e => exact proceeds_next _
  | fault f => exact proceeds_fault fun he => fetchUnit_inBounds hcfg hp h (he ▸ hf)

/-! ## Encoders -/

/-- An encoder's step that runs a unit of its place. -/
theorem proceeds_step_of_encodeTurn {p : Place} {i : Instr} {s1 : State} (hr : s.resetLine = false)
    (hp : s.phase = .enc p) (ht : encodeTurn s p = .run i s1) (hpx : p = .pixel → ∃ px, readPixel s = .ok px)
    (hbest : ∀ k c, p = .slice k c → s.search.best.isSome = true) : Proceeds (step s) := by
  obtain ⟨hk, rfl⟩ := kindOf_of_encodeTurn ht
  simp only [step, turn_enc hr hp, ht]
  exact .inl (emits_exec hp hk hpx hbest).exists_next

/-- The pixel at the cursor lies within the input (44_pixel_encoder.md R241). -/
theorem readPixel_inBounds (hp : s.phase = .enc .pixel) (h : PlaceOk s) : readPixel s ≠ .error .outsideBuffer := by
  obtain ⟨⟨-, -, hlen, -⟩, hpp, -⟩ := (placeOk_enc_pixel hp).mp h
  exact readElem_inBounds (hlen ▸ hpp)

theorem proceeds_step_enc_pixel (h : PlaceOk s) (hr : s.resetLine = false) (hp : s.phase = .enc .pixel) :
    Proceeds (step s) := by
  cases hpx : readPixel s with
  | error f =>
    simp only [step, turn_enc hr hp, encodeTurn, pixelTurn, hpx]
    exact proceeds_fault fun he => readPixel_inBounds hp h (he ▸ hpx)
  | ok px =>
    cases ht : encodeTurn s .pixel with
    | run i s1 => exact proceeds_step_of_encodeTurn hr hp ht (fun _ => ⟨px, hpx⟩) nofun
    | quiet o =>
      simp only [step, turn_enc hr hp, ht]
      simp only [encodeTurn, pixelTurn, hpx] at ht
      split_ifs at ht
      cases ht
      exact proceeds_next _

/-- A slice's search reads its samples, and has a winner when its turns are over (41_quantizer_slice.md R158). -/
theorem proceeds_step_enc_slice {k : Nat} {c : Fin 8} (h : PlaceOk s) (hr : s.resetLine = false)
    (hp : s.phase = .enc (.slice k c)) : Proceeds (step s) := by
  obtain ⟨haudio, hc, hframe, -, -, -, hsearch⟩ := (placeOk_enc_slice hp).mp h
  by_cases hi : s.search.index < scaleCount
  · cases hx : readSlice s k c with
    | error f =>
      simp only [step, turn_enc hr hp, encodeTurn, sliceTurn, if_pos hi, hx]
      exact proceeds_fault fun he => readSlice_inBounds haudio hc hframe (he ▸ hx)
    | ok xs =>
      rw [step_search hr hp hi hx]
      exact proceeds_next _
  · have hbest : s.search.best.isSome = true := by
      simp only [scaleCount] at hi
      exact hsearch.resolve_left (by omega)
    obtain ⟨best, hb⟩ := Option.isSome_iff_exists.mp hbest
    have ht : encodeTurn s (.slice k c) = .run (.slice best.sf (sliceCodes best.word (sliceSamples s k))) s := by
      simp only [encodeTurn, sliceTurn, if_neg hi, hb]
    exact proceeds_step_of_encodeTurn hr hp ht nofun fun _ _ _ => hbest

/-- An encoder's step. -/
theorem proceeds_step_enc {p : Place} (h : PlaceOk s) (hr : s.resetLine = false) (hp : s.phase = .enc p) :
    Proceeds (step s) := by
  cases p with
  | imageHeader | imageFooter | audioHeader | hist | wght => exact proceeds_step_of_encodeTurn hr hp rfl nofun nofun
  | pixel => exact proceeds_step_enc_pixel h hr hp
  | frame =>
    rcases step_enc_frame hr hp with ⟨-, he⟩ | ⟨-, -, he⟩ | ⟨-, -, he⟩ <;> exact .inl ⟨_, he⟩
  | slice k c => exact proceeds_step_enc_slice h hr hp

/-! ## The idle block -/

theorem kindOf_decodeCommand (code : BitVec 3) : kindOf (decodeCommand code) = .command := by
  unfold decodeCommand
  split_ifs <;> rfl

/-- A command on a block that is not busy runs. -/
theorem proceeds_exec_command {i : Instr} (hk : kindOf i = .command) (hb : s.busy = false) : Proceeds (exec i s) := by
  cases i with
  | nop => rw [exec, execNop, whenIdle_of_not_busy hb]; exact proceeds_next _
  | audEnc => rw [exec, execAudEnc, whenIdle_of_not_busy hb]; exact proceeds_checked _ _ _
  | audDec => rw [exec, execAudDec, whenIdle_of_not_busy hb]; exact proceeds_checked _ _ _
  | imgEnc => rw [exec, execImgEnc, whenIdle_of_not_busy hb]; exact proceeds_checked _ _ _
  | imgDec => rw [exec, execImgDec, whenIdle_of_not_busy hb]; exact proceeds_checked _ _ _
  | reserved5 => rw [exec, execReserved5, whenIdle_of_not_busy hb]; exact proceeds_next _
  | reserved6 => rw [exec, execReserved6, whenIdle_of_not_busy hb]; exact proceeds_next _
  | reserved7 => rw [exec, execReserved7, whenIdle_of_not_busy hb]; exact proceeds_next _
  | _ => cases hk

/-- An idle block's step. -/
theorem proceeds_step_idle (hcontrol : ControlOk s) (hr : s.resetLine = false) (hp : s.phase = .idle) :
    Proceeds (step s) := by
  have hb : s.busy = false := by simpa [hp] using hcontrol.1
  cases hh : s.host with
  | nil =>
    simp only [step, turn_idle hr hp, hostTurn, hh]
    exact proceeds_next _
  | cons m rest =>
    cases m with
    | writeCmd code =>
      rw [step_writeCmd hr hp hh]
      exact proceeds_exec_command (kindOf_decodeCommand code) hb
    | _ => rw [step_move hr hp hh nofun]; exact proceeds_next _

/-- Settles O56: reset, the idle block, decoders and encoders, each by its own lemma. -/
theorem goodStepStopsOnlyAtUnfilledInput : Obligations.GoodStepStopsOnlyAtUnfilledInput := by
  intro s hgood
  obtain ⟨hcfg, -, hcontrol, -, -, -, hplace⟩ := hgood
  change Proceeds (step s)
  cases hr : s.resetLine with
  | true => rw [step_of_reset hr]; exact proceeds_next _
  | false =>
    cases hp : s.phase with
    | idle => exact proceeds_step_idle hcontrol hr hp
    | dec p => exact proceeds_step_dec hcfg hplace hr hp
    | enc p => exact proceeds_step_enc hplace hr hp

end Sys2Proof.Machine


/-! SUPPORT. Fields, bytes and words: reading undoes writing, and writing undoes reading. -/

namespace Sys2Proof

/-! ## Bit fields -/

section
variable {a b c d n : Nat}

/-- A field above the lower part of a bit string is a field of the upper part. -/
theorem extract_append_above (x : BitVec a) (y : BitVec b) (start : Nat) :
    (x ++ y).extractLsb' (start + b) n = x.extractLsb' start n := by
  rw [BitVec.extractLsb'_append_eq_of_le (Nat.le_add_left b start), Nat.add_sub_cancel]

/-- The field that the middle one of three joined bit strings is. -/
theorem extract_append_middle (x : BitVec a) (y : BitVec b) (z : BitVec c) : (x ++ y ++ z).extractLsb' c b = y := by
  rw [BitVec.extractLsb'_append_eq_of_le le_rfl, Nat.sub_self, BitVec.extractLsb'_append_eq_right]

/-- The fields of four joined bit strings are those strings. -/
theorem fields_of_append (x : BitVec a) (y : BitVec b) (z : BitVec c) (t : BitVec d) :
    (x ++ y ++ z ++ t).extractLsb' (b + c + d) a = x ∧ (x ++ y ++ z ++ t).extractLsb' (c + d) b = y ∧
      (x ++ y ++ z ++ t).extractLsb' d c = z ∧ (x ++ y ++ z ++ t).extractLsb' 0 d = t := by
  refine ⟨?_, ?_, extract_append_middle _ _ _, BitVec.extractLsb'_append_eq_right⟩
  · rw [extract_append_above, extract_append_above, BitVec.extractLsb'_append_eq_left]
  · rw [extract_append_above, extract_append_middle]

/-- Four adjacent fields that make up a bit string, joined. -/
theorem append_of_fields (w : BitVec (a + b + c + d)) :
    w.extractLsb' (b + c + d) a ++ w.extractLsb' (c + d) b ++ w.extractLsb' d c ++ w.extractLsb' 0 d = w := by
  rw [BitVec.extractLsb'_append_extractLsb'_eq_extractLsb' (by omega),
    BitVec.extractLsb'_append_extractLsb'_eq_extractLsb' (by omega),
    BitVec.extractLsb'_append_extractLsb'_eq_extractLsb' (by omega), BitVec.extractLsb'_eq_self]

end

/-! ## Words of bytes (20_memory.md R65) -/

theorem takeWord32_bytes32 (w : BitVec 32) (rest : List Byte) : takeWord32 (bytes32 w ++ rest) = some (w, rest) :=
  congrArg (fun v => some (v, rest)) (append_of_fields (a := 8) (b := 8) (c := 8) (d := 8) w)

theorem bytes32_of_takeWord32 {bs rest : List Byte} {w : BitVec 32} (h : takeWord32 bs = some (w, rest)) :
    bytes32 w ++ rest = bs := by
  match bs, h with
  | b0 :: b1 :: b2 :: b3 :: _, h =>
    cases h
    obtain ⟨h0, h1, h2, h3⟩ := fields_of_append b0 b1 b2 b3
    simp only [bytes32, List.cons_append, List.nil_append, List.cons.injEq, and_true]
    exact ⟨h0, h1, h2, h3⟩

theorem takeWord64_bytes64 (w : Word64) (rest : List Byte) : takeWord64 (bytes64 w ++ rest) = some (w, rest) := by
  simp only [takeWord64, bytes64, List.cons_append, List.nil_append, Option.some.injEq, Prod.mk.injEq, and_true]
  ext i hi
  simp only [BitVec.getElem_append, BitVec.getElem_extractLsb']
  grind

theorem bytes64_of_takeWord64 {bs rest : List Byte} {w : Word64} (h : takeWord64 bs = some (w, rest)) :
    bytes64 w ++ rest = bs := by
  match bs, h with
  | _ :: _ :: _ :: _ :: _ :: _ :: _ :: _ :: _, h =>
    cases h
    simp only [bytes64, List.cons_append, List.nil_append, List.cons.injEq, and_true]
    refine ⟨?_, ?_, ?_, ?_, ?_, ?_, ?_, ?_⟩ <;> ext i hi <;>
      simp only [BitVec.getElem_extractLsb', BitVec.getLsbD_append] <;> grind

/-! ## Opcode bytes and biased fields (30_encoding.md R99, R105) -/

@[simp] theorem opTag_append (tag : BitVec 2) (low : BitVec 6) : opTag (tag ++ low : BitVec 8) = tag :=
  BitVec.extractLsb'_append_eq_left

@[simp] theorem opLow_append (tag : BitVec 2) (low : BitVec 6) : opLow (tag ++ low : BitVec 8) = low :=
  BitVec.extractLsb'_append_eq_right

theorem opTag_append_opLow (op : Byte) : opTag op ++ opLow op = op := BitVec.extractLsb'_append_extractLsb'

theorem inRange_iff {v lo hi : Int} : inRange v lo hi = true ↔ lo ≤ v ∧ v ≤ hi := by
  simp only [inRange, Bool.and_eq_true, decide_eq_true_eq]

/-- A biased field of `w` bits holds every value from `-bias` on. -/
theorem inRange_unbias {w : Nat} (bias : Int) (x : BitVec w) :
    inRange (unbias bias x) (-bias) (2 ^ w - 1 - bias) = true := by
  have hx : (x.toNat : Int) < 2 ^ w := by exact_mod_cast x.isLt
  rw [inRange_iff, unbias]
  omega

theorem biased_unbias {w : Nat} (bias : Int) (x : BitVec w) : biased w bias (unbias bias x) = x := by
  simp only [biased, unbias, Int.sub_add_cancel, BitVec.ofInt_natCast, BitVec.ofNat_toNat, BitVec.setWidth_eq]

theorem unbias_biased {w : Nat} {bias v : Int} (h : inRange v (-bias) (2 ^ w - 1 - bias) = true) :
    unbias bias (biased w bias v) = v := by
  obtain ⟨hlo, hhi⟩ := inRange_iff.mp h
  have hfield : (((biased w bias v).toNat : Nat) : Int) = v + bias := by
    rw [biased, BitVec.toNat_ofInt, Int.toNat_of_nonneg (Int.emod_nonneg _ (by positivity))]
    exact Int.emod_eq_of_lt (by omega) (by push_cast; omega)
  rw [unbias, hfield, Int.add_sub_cancel]

end Sys2Proof


/-! SUPPORT. The image opcodes as a relation between bytes and instructions, which decoding and encoding both are
(O1, O2, O3). -/

namespace Sys2Proof

variable {f : ImageFormat}

/-! ## Field orders (93_implementation_defined.md I5) -/

@[simp] theorem ColourOrder.sort_arrange {α : Type} (o : ColourOrder) (r g b : α) :
    o.sort (o.arrange r g b).1 (o.arrange r g b).2.1 (o.arrange r g b).2.2 = (r, g, b) := by
  cases o <;> rfl

@[simp] theorem ColourOrder.arrange_sort {α : Type} (o : ColourOrder) (x y z : α) :
    o.arrange (o.sort x y z).1 (o.sort x y z).2.1 (o.sort x y z).2.2 = (x, y, z) := by
  cases o <;> rfl

@[simp] theorem extractAlpha_insertAlpha (place : Fin 4) (a x y z : Byte) :
    extractAlpha place (insertAlpha place a x y z).1 (insertAlpha place a x y z).2.1 (insertAlpha place a x y z).2.2.1
      (insertAlpha place a x y z).2.2.2 = (a, x, y, z) := by
  fin_cases place <;> rfl

@[simp] theorem insertAlpha_extractAlpha (place : Fin 4) (b0 b1 b2 b3 : Byte) :
    insertAlpha place (extractAlpha place b0 b1 b2 b3).1 (extractAlpha place b0 b1 b2 b3).2.1
      (extractAlpha place b0 b1 b2 b3).2.2.1 (extractAlpha place b0 b1 b2 b3).2.2.2 = (b0, b1, b2, b3) := by
  fin_cases place <;> rfl

/-! ## The opcodes' encodings (30_encoding.md R101 to R104) -/

/-- Which bytes hold which opcode, followed by which bytes: one line for each of R101 to R104. -/
inductive OpcodeRead (f : ImageFormat) : List Byte → Instr → List Byte → Prop where
  | rgb (x y z : Byte) (rest : List Byte) : OpcodeRead f (f.tagRgb :: x :: y :: z :: rest) (rgbOf f x y z) rest
  | rgba (b0 b1 b2 b3 : Byte) (rest : List Byte) :
    OpcodeRead f (f.tagRgba :: b0 :: b1 :: b2 :: b3 :: rest) (rgbaOf f b0 b1 b2 b3) rest
  | index (slot : BitVec 6) (rest : List Byte) : OpcodeRead f ((f.tagIndex ++ slot) :: rest) (.index slot) rest
  | diff (x y z : BitVec 2) (rest : List Byte) :
    OpcodeRead f ((f.tagDiff ++ x ++ y ++ z : BitVec 8) :: rest) (diffOf f x y z) rest
  | luma (green : BitVec 6) (high low : BitVec 4) (rest : List Byte) :
    OpcodeRead f ((f.tagLuma ++ green) :: (high ++ low) :: rest) (lumaOf f green high low) rest
  | run (low : BitVec 6) (rest : List Byte) (h : low.toNat < 62) :
    OpcodeRead f ((f.tagRun ++ low) :: rest) (.run (low.toNat + 1)) rest

/-- The encoding of a well-formed opcode holds it. -/
theorem opcodeRead_encode {i : Instr} (hi : i.wf = true) (hk : kindOf i = .opcode) (rest : List Byte) :
    OpcodeRead f (encode f i ++ rest) i rest := by
  cases i with
  | rgb r g b =>
    let c := f.rgbOrder.arrange r g b
    have h := OpcodeRead.rgb (f := f) c.1 c.2.1 c.2.2 rest
    rwa [rgbOf, ColourOrder.sort_arrange] at h
  | rgba r g b a =>
    let c := f.rgbaOrder.arrange r g b
    let p := insertAlpha f.alphaPlace a c.1 c.2.1 c.2.2
    have h := OpcodeRead.rgba (f := f) p.1 p.2.1 p.2.2.1 p.2.2.2 rest
    rwa [rgbaOf, extractAlpha_insertAlpha, ColourOrder.sort_arrange] at h
  | index slot => exact .index slot rest
  | diff dr dg db =>
    simp only [Instr.wf, Bool.and_eq_true] at hi
    obtain ⟨⟨hr, hg⟩, hb⟩ := hi
    let c := f.diffOrder.arrange (biased 2 2 dr) (biased 2 2 dg) (biased 2 2 db)
    have h := OpcodeRead.diff (f := f) c.1 c.2.1 c.2.2 rest
    rwa [diffOf, ColourOrder.sort_arrange, unbias_biased hr, unbias_biased hg, unbias_biased hb] at h
  | luma dg drg dbg =>
    simp only [Instr.wf, Bool.and_eq_true] at hi
    obtain ⟨⟨hg, hrg⟩, hbg⟩ := hi
    have h := OpcodeRead.luma (f := f) (biased 6 32 dg) (biased 4 8 (if f.lumaRedHigh then drg else dbg))
      (biased 4 8 (if f.lumaRedHigh then dbg else drg)) rest
    have hg := unbias_biased (w := 6) (bias := 32) hg
    have hrg := unbias_biased (w := 4) (bias := 8) hrg
    have hbg := unbias_biased (w := 4) (bias := 8) hbg
    cases hred : f.lumaRedHigh <;> simpa [encode, lumaBytes, lumaOf, hred, hg, hrg, hbg] using h
  | run length =>
    simp only [Instr.wf, Bool.and_eq_true, decide_eq_true_eq] at hi
    have hlow : (BitVec.ofNat 6 (length - 1)).toNat = length - 1 := by
      rw [BitVec.toNat_ofNat]; omega
    have h := OpcodeRead.run (f := f) (BitVec.ofNat 6 (length - 1)) rest (by omega)
    rwa [hlow, Nat.sub_add_cancel hi.1] at h
  | _ => cases hk

/-- Bytes that hold an opcode are its encoding, and it is well-formed. -/
theorem OpcodeRead.reencodes {bs rest : List Byte} {i : Instr} (h : OpcodeRead f bs i rest) :
    i.wf = true ∧ kindOf i = .opcode ∧ encode f i ++ rest = bs := by
  cases h with
  | rgb x y z => exact ⟨rfl, rfl, by simp [rgbOf, encode, rgbBytes]⟩
  | rgba b0 b1 b2 b3 => exact ⟨rfl, rfl, by simp [rgbaOf, encode, rgbaBytes]⟩
  | index slot => exact ⟨rfl, rfl, rfl⟩
  | diff x y z =>
    refine ⟨?_, rfl, by simp [diffOf, encode, diffByte, biased_unbias]⟩
    simp only [diffOf, Instr.wf, Bool.and_eq_true]
    exact ⟨⟨inRange_unbias 2 _, inRange_unbias 2 _⟩, inRange_unbias 2 _⟩
  | luma green high low =>
    refine ⟨?_, rfl, ?_⟩
    · simp only [lumaOf, Instr.wf, Bool.and_eq_true]
      exact ⟨⟨inRange_unbias 32 _, inRange_unbias 8 _⟩, inRange_unbias 8 _⟩
    · cases hred : f.lumaRedHigh <;> simp [lumaOf, encode, lumaBytes, hred, biased_unbias]
  | run low rest h =>
    refine ⟨?_, rfl, ?_⟩
    · simp only [Instr.wf, Bool.and_eq_true, decide_eq_true_eq]
      omega
    · simp [encode]

/-! ## Dispatch (30_encoding.md R99) -/

/-- A byte whose tag is not RUN's is no literal tag. -/
theorem not_literal_of_opTag (hf : f.wf = true) {op : Byte} (h : opTag op ≠ f.tagRun) :
    op ≠ f.tagRgb ∧ op ≠ f.tagRgba := by
  obtain ⟨-, -, ⟨hrgb, -⟩, hrgba, -⟩ := ImageFormat.wf_iff.mp hf
  exact ⟨fun e => h (e ▸ hrgb), fun e => h (e ▸ hrgba)⟩

/-- A byte whose low six bits are below 62 is no literal tag. -/
theorem not_literal_of_opLow (hf : f.wf = true) {op : Byte} (h : (opLow op).toNat < 62) :
    op ≠ f.tagRgb ∧ op ≠ f.tagRgba := by
  obtain ⟨-, -, ⟨-, hrgb⟩, -, hrgba⟩ := ImageFormat.wf_iff.mp hf
  exact ⟨fun e => absurd (e ▸ h) (not_lt.mpr hrgb), fun e => absurd (e ▸ h) (not_lt.mpr hrgba)⟩

/-- The four 2-bit tags differ. -/
theorem tags_ne (hf : f.wf = true) :
    f.tagDiff ≠ f.tagIndex ∧ f.tagLuma ≠ f.tagIndex ∧ f.tagLuma ≠ f.tagDiff ∧
      f.tagRun ≠ f.tagIndex ∧ f.tagRun ≠ f.tagDiff ∧ f.tagRun ≠ f.tagLuma := by
  have h := (ImageFormat.wf_iff.mp hf).1
  simp only [List.nodup_cons, List.mem_cons, List.not_mem_nil, or_false, not_or, ← ne_eq] at h
  obtain ⟨⟨hid, hil, hir⟩, ⟨hdl, hdr⟩, hlr, -⟩ := h
  exact ⟨hid.symm, hil.symm, hdl.symm, hir.symm, hdr.symm, hlr.symm⟩

/-- Bytes that hold an opcode decode to it. -/
theorem OpcodeRead.decodes (hf : f.wf = true) {bs rest : List Byte} {i : Instr} (h : OpcodeRead f bs i rest) :
    decodeOpcode f bs = .ok i rest := by
  obtain ⟨hdi, hli, hld, hri, hrd, hrl⟩ := tags_ne hf
  cases h with
  | rgb x y z => simp only [decodeOpcode, if_true]
  | rgba b0 b1 b2 b3 =>
    have hne := (ImageFormat.wf_iff.mp hf).2.1.symm
    simp only [decodeOpcode, if_neg hne, if_true]
  | index slot =>
    obtain ⟨h1, h2⟩ := not_literal_of_opTag hf (op := f.tagIndex ++ slot) (by simpa using hri.symm)
    simp only [decodeOpcode, if_neg h1, if_neg h2, opTag_append, opLow_append, if_true]
  | diff x y z =>
    obtain ⟨htag, hx, hy, hz⟩ := fields_of_append f.tagDiff x y z
    have htag : opTag (f.tagDiff ++ x ++ y ++ z) = f.tagDiff := htag
    obtain ⟨h1, h2⟩ := not_literal_of_opTag hf (op := f.tagDiff ++ x ++ y ++ z) (by rw [htag]; exact hrd.symm)
    simp only [decodeOpcode, if_neg h1, if_neg h2, htag, if_neg hdi, if_true]
    exact congrArg (Decoded.ok · rest) (congr (congrArg₂ (diffOf f) hx hy) hz)
  | luma green high low =>
    obtain ⟨h1, h2⟩ := not_literal_of_opTag hf (op := f.tagLuma ++ green) (by simpa using hrl.symm)
    have hhigh : (high ++ low : BitVec 8).extractLsb' 4 4 = high := BitVec.extractLsb'_append_eq_left
    have hlow : (high ++ low : BitVec 8).extractLsb' 0 4 = low := BitVec.extractLsb'_append_eq_right
    simp only [decodeOpcode, if_neg h1, if_neg h2, opTag_append, opLow_append, if_neg hli, if_neg hld, if_true,
      hhigh, hlow]
  | run low _ h =>
    obtain ⟨h1, h2⟩ := not_literal_of_opLow hf (op := f.tagRun ++ low) (by simpa using h)
    simp only [decodeOpcode, if_neg h1, if_neg h2, opTag_append, opLow_append, if_neg hri, if_neg hrd,
      if_neg hrl, if_true]

/-- The literal tags take the two longest runs. -/
theorem run_length_le (hf : f.wf = true) {bs rest : List Byte} {op : Byte} {i : Instr}
    (h : decodeOpcode f (op :: bs) = .ok i rest) (n : Nat) (hn : i = .run n) : n ≤ 62 := by
  subst hn
  have hcases := (decodeOpcode_cases (f := f) h).2
  simp only [reduceCtorEq, exists_false, false_or, Instr.run.injEq] at hcases
  obtain ⟨_, -, -, hmax, rfl⟩ := hcases
  exact hmax hf

/-- Bytes that decode to an opcode hold it. -/
theorem opcodeRead_of_decodeOpcode (hf : f.wf = true) {bs rest : List Byte} {i : Instr}
    (h : decodeOpcode f bs = .ok i rest) : OpcodeRead f bs i rest := by
  cases bs with
  | nil => cases h
  | cons op bs =>
    have hmax := run_length_le hf h
    simp only [decodeOpcode] at h
    split_ifs at h with hrgb hrgba hindex hdiff hluma hrun
    · split at h <;> cases h
      exact hrgb ▸ .rgb ..
    · split at h <;> cases h
      exact hrgba ▸ .rgba ..
    · cases h
      have hread := OpcodeRead.index (f := f) (opLow op) rest
      rwa [← hindex, opTag_append_opLow] at hread
    · cases h
      have hop : opTag op ++ op.extractLsb' 4 2 ++ op.extractLsb' 2 2 ++ op.extractLsb' 0 2 = op :=
        append_of_fields (a := 2) (b := 2) (c := 2) (d := 2) op
      have hread := OpcodeRead.diff (f := f) (op.extractLsb' 4 2) (op.extractLsb' 2 2) (op.extractLsb' 0 2) rest
      rwa [← hdiff, hop] at hread
    · split at h <;> cases h
      rename_i b
      have hop : b.extractLsb' 4 4 ++ b.extractLsb' 0 4 = b := BitVec.extractLsb'_append_extractLsb'
      have hread := OpcodeRead.luma (f := f) (opLow op) (b.extractLsb' 4 4) (b.extractLsb' 0 4) rest
      rwa [← hluma, hop, opTag_append_opLow] at hread
    · cases h
      have hlow : (opLow op).toNat < 62 := by
        have := hmax _ rfl
        omega
      have hread := OpcodeRead.run (f := f) (opLow op) rest hlow
      rwa [← hrun, opTag_append_opLow] at hread

/-- Four bytes after any first byte are enough for an opcode. -/
theorem decodeOpcode_total (hf : f.wf = true) (op : Byte) {rest : List Byte} (hlen : 4 ≤ rest.length) :
    ∃ i, decodeOpcode f (op :: rest) = .ok i (rest.drop (opcodeLength f op - 1)) := by
  match rest, hlen with
  | b0 :: b1 :: b2 :: b3 :: t, _ =>
    obtain ⟨hdi, hli, hld, hri, hrd, hrl⟩ := tags_ne hf
    by_cases hrgb : op = f.tagRgb
    · simp [decodeOpcode, opcodeLength, hrgb]
    by_cases hrgba : op = f.tagRgba
    · simp [decodeOpcode, opcodeLength, hrgb, ← hrgba]
    rcases tag_cases hf (opTag op) with htag | htag | htag | htag
    · simp [decodeOpcode, opcodeLength, hrgb, hrgba, htag]
    · simp [decodeOpcode, opcodeLength, hrgb, hrgba, htag, hdi]
    · simp [decodeOpcode, opcodeLength, hrgb, hrgba, htag, hli, hld]
    · simp [decodeOpcode, opcodeLength, hrgb, hrgba, htag, hri, hrd, hrl]

/-- The four lengths of an opcode (30_encoding.md R98). -/
theorem opcodeLength_cases (f : ImageFormat) (op : Byte) :
    opcodeLength f op = 1 ∨ opcodeLength f op = 2 ∨ opcodeLength f op = 4 ∨ opcodeLength f op = 5 := by
  unfold opcodeLength
  split_ifs <;> decide

/-- Settles O3: decoding with enough bytes is total, and an opcode has the length its first byte tells. -/
theorem everyFirstByteIsAnOpcode : Obligations.EveryFirstByteIsAnOpcode := by
  intro f op rest hf hlen
  obtain ⟨i, hi⟩ := decodeOpcode_total hf op hlen
  have hlength {i' rest' rest''} (h : decode f .opcode (op :: rest') = .ok i' rest'') :
      unitLength i' = opcodeLength f op := (decodeOpcode_cases h).1
  exact ⟨i, hi, hlength hi, opcodeLength_cases f op, fun _ _ _ h => hlength h⟩

end Sys2Proof


/-! SUPPORT. The layout of a slice word (O5). -/

namespace Sys2Proof

/-! ## Packing (30_encoding.md R94, 42_audio_bitstream.md R187) -/

/-- A code pushed below a word that has room for it. -/
theorem toNat_pushCode {w : Word64} {k : Nat} (c : BitVec 3) (hw : w.toNat < 2 ^ k) (hk : k + 3 ≤ 64) :
    ((w <<< 3) ||| c.setWidth 64).toNat = w.toNat * 8 + c.toNat := by
  have hc := c.isLt
  have hroom : w.toNat < 2 ^ 61 := hw.trans_le (Nat.pow_le_pow_right (by decide) (by omega))
  rw [BitVec.toNat_or, BitVec.toNat_shiftLeft, Nat.shiftLeft_eq, Nat.mod_eq_of_lt (by omega), BitVec.toNat_setWidth,
    Nat.mod_eq_of_lt (by omega), mul_comm, ← Nat.two_pow_add_eq_or_of_lt (i := 3) hc]

theorem pushCode_lt {w : Word64} {k : Nat} (c : BitVec 3) (hw : w.toNat < 2 ^ k) (hk : k + 3 ≤ 64) :
    ((w <<< 3) ||| c.setWidth 64).toNat < 2 ^ (k + 3) := by
  have hc := c.isLt
  rw [toNat_pushCode c hw hk, pow_add]
  omega

/-- A word of `k` bits and `m` codes are a word of `k + 3m` bits. -/
theorem pushCodes_lt {codes : List (BitVec 3)} {w : Word64} {k : Nat} (hw : w.toNat < 2 ^ k)
    (hk : k + 3 * codes.length ≤ 64) : (pushCodes w codes).toNat < 2 ^ (k + 3 * codes.length) := by
  induction codes generalizing w k with
  | nil => exact hw
  | cons c codes ih =>
    rw [List.length_cons] at hk ⊢
    have h := ih (pushCode_lt c hw (by omega)) (by omega)
    rwa [show k + 3 * (codes.length + 1) = k + 3 + 3 * codes.length by omega]

/-- Pushing loses nothing. -/
theorem pushCodes_inj {codes codes' : List (BitVec 3)} {w w' : Word64} {k : Nat} (hlen : codes.length = codes'.length)
    (hw : w.toNat < 2 ^ k) (hw' : w'.toNat < 2 ^ k) (hk : k + 3 * codes.length ≤ 64)
    (h : pushCodes w codes = pushCodes w' codes') : w = w' ∧ codes = codes' := by
  induction codes generalizing codes' w w' k with
  | nil =>
    obtain rfl := List.length_eq_zero_iff.mp hlen.symm
    exact ⟨h, rfl⟩
  | cons c codes ih =>
    cases codes' with
    | nil => cases hlen
    | cons c' codes' =>
      rw [List.length_cons] at hk
      have hk3 : k + 3 ≤ 64 := by omega
      obtain ⟨hpush, rfl⟩ := ih (Nat.succ.inj hlen) (pushCode_lt c hw hk3) (pushCode_lt c' hw' hk3) (by omega) h
      have hnat := congrArg BitVec.toNat hpush
      rw [toNat_pushCode c hw hk3, toNat_pushCode c' hw' hk3] at hnat
      have hc := c.isLt
      have hc' := c'.isLt
      obtain rfl : w = w' := BitVec.eq_of_toNat_eq (by omega)
      obtain rfl : c = c' := BitVec.eq_of_toNat_eq (by omega)
      exact ⟨rfl, rfl⟩

/-- The values of codes in a word: the first one ends `top - 3` bits from the low end, each next one three bits
lower. -/
def codeSum (top : Nat) (codes : List (BitVec 3)) : Nat :=
  ((List.finRange codes.length).map fun j => codes[j].toNat * 2 ^ (top - 3 - 3 * j.val)).sum

theorem codeSum_cons (top : Nat) (c : BitVec 3) (codes : List (BitVec 3)) :
    codeSum top (c :: codes) = c.toNat * 2 ^ (top - 3) + codeSum (top - 3) codes := by
  have hplace : ∀ j, top - 3 - 3 * (j + 1) = top - 3 - 3 - 3 * j := by omega
  simp only [codeSum, List.length_cons, List.finRange_succ, List.map_cons, List.map_map, List.sum_cons,
    Function.comp_def, Fin.getElem_fin, Fin.val_succ, List.getElem_cons_succ, hplace]
  rfl

/-- The pushed codes, moved up to start `top` bits from the word's low end. -/
theorem toNat_pushCodes_mul {codes : List (BitVec 3)} {w : Word64} {k top : Nat} (hw : w.toNat < 2 ^ k)
    (hk : k + 3 * codes.length ≤ 64) (htop : 3 * codes.length ≤ top) :
    (pushCodes w codes).toNat * 2 ^ (top - 3 * codes.length) = w.toNat * 2 ^ top + codeSum top codes := by
  induction codes generalizing w k top with
  | nil => simp [pushCodes, codeSum]
  | cons c codes ih =>
    rw [List.length_cons] at hk htop ⊢
    have hk3 : k + 3 ≤ 64 := by omega
    have h := ih (top := top - 3) (pushCode_lt c hw hk3) (by omega) (by omega)
    calc (pushCodes w (c :: codes)).toNat * 2 ^ (top - 3 * (codes.length + 1))
      _ = (w.toNat * 8 + c.toNat) * 2 ^ (top - 3) + codeSum (top - 3) codes := by
        rw [show top - 3 * (codes.length + 1) = top - 3 - 3 * codes.length by omega, ← toNat_pushCode c hw hk3]
        exact h
      _ = w.toNat * 2 ^ top + codeSum top (c :: codes) := by
        obtain ⟨low, rfl⟩ : ∃ low, top = low + 3 := ⟨top - 3, by omega⟩
        rw [codeSum_cons, Nat.add_sub_cancel, pow_add]
        ring

section
variable {sf : BitVec 4} {codes : List (BitVec 3)}

/-- A scale factor alone is a word of 4 bits. -/
theorem toNat_setWidth_lt (sf : BitVec 4) : (sf.setWidth 64).toNat < 2 ^ 4 :=
  (BitVec.toNat_setWidth_of_le (by decide)).trans_lt sf.isLt

/-- Left-justification moves the pushed codes up and loses nothing (R187). -/
theorem toNat_packSlice (hlen : codes.length ≤ 20) :
    (packSlice sf codes).toNat = (pushCodes (sf.setWidth 64) codes).toNat * 2 ^ (60 - 3 * codes.length) := by
  have hlt := pushCodes_lt (codes := codes) (toNat_setWidth_lt sf) (by omega)
  have hroom : (pushCodes (sf.setWidth 64) codes).toNat * 2 ^ (60 - 3 * codes.length) < 2 ^ 64 :=
    calc _ < 2 ^ (4 + 3 * codes.length) * 2 ^ (60 - 3 * codes.length) := Nat.mul_lt_mul_of_pos_right hlt (by positivity)
      _ = 2 ^ 64 := by rw [← pow_add]; congr 1; omega
  rw [packSlice, BitVec.toNat_shiftLeft, Nat.shiftLeft_eq,
    show 3 * (20 - codes.length) = 60 - 3 * codes.length by omega,
    Nat.mod_eq_of_lt hroom]

/-! ## Unpacking (30_encoding.md R94, R95) -/

/-- A word's bits above a code, with the code pushed. -/
theorem push_adjacent (w : Word64) (n : Nat) :
    (w >>> (n + 3)) <<< 3 ||| (w.extractLsb' n 3).setWidth 64 = w >>> n := by
  ext i hi
  simp only [BitVec.getElem_or, BitVec.getElem_shiftLeft, BitVec.getElem_ushiftRight, BitVec.getElem_setWidth,
    BitVec.getLsbD_extractLsb']
  by_cases hlow : i < 3
  · simp [hlow]
  · simp [hlow, show n + 3 + (i - 3) = n + i by omega]

/-- A word's scale factor and first `m` codes, pushed, are its bits above the fill. -/
theorem pushCodes_sliceCodes (w : Word64) {m : Nat} (hm : m ≤ 20) :
    pushCodes ((w.extractLsb' 60 4).setWidth 64) (sliceCodes w m) = w >>> (60 - 3 * m) := by
  induction m with
  | zero =>
    refine BitVec.eq_of_toNat_eq ?_
    have hw := w.isLt
    simp only [sliceCodes, List.range_zero, List.map_nil, pushCodes, List.foldl_nil, BitVec.toNat_setWidth,
      BitVec.extractLsb'_toNat, BitVec.toNat_ushiftRight, Nat.shiftRight_eq_div_pow]
    omega
  | succ m ih =>
    have hsplit : sliceCodes w (m + 1) = sliceCodes w m ++ [sliceCode w m] := by
      simp only [sliceCodes, List.range_succ, List.map_append, List.map_cons, List.map_nil]
    rw [pushCodes] at ih ⊢
    rw [hsplit, List.foldl_append, ih (by omega), List.foldl_cons, List.foldl_nil, sliceCode,
      show 60 - 3 * m = 60 - 3 * (m + 1) + 3 by omega, show 57 - 3 * m = 60 - 3 * (m + 1) by omega]
    exact push_adjacent w _

/-- A word that agrees with a packed one above the fill bits has its scale factor and its codes. -/
theorem unpack_of_agree {w : Word64} (hlen : codes.length ≤ 20)
    (h : (packSlice sf codes).toNat / 2 ^ (60 - 3 * codes.length) = w.toNat / 2 ^ (60 - 3 * codes.length)) :
    w.extractLsb' 60 4 = sf ∧ sliceCodes w codes.length = codes := by
  have hcount : (sliceCodes w codes.length).length = codes.length := by simp [sliceCodes]
  have hpush : pushCodes ((w.extractLsb' 60 4).setWidth 64) (sliceCodes w codes.length) =
      pushCodes (sf.setWidth 64) codes := by
    rw [pushCodes_sliceCodes w hlen]
    refine BitVec.eq_of_toNat_eq ?_
    rw [BitVec.toNat_ushiftRight, Nat.shiftRight_eq_div_pow, ← h, toNat_packSlice hlen,
      Nat.mul_div_cancel _ (by positivity)]
  obtain ⟨hsf, hcodes⟩ := pushCodes_inj hcount (toNat_setWidth_lt _) (toNat_setWidth_lt _) (by omega) hpush
  have hnarrow := congrArg (BitVec.setWidth 4) hsf
  rw [BitVec.setWidth_setWidth_of_le _ (by decide), BitVec.setWidth_setWidth_of_le _ (by decide), BitVec.setWidth_eq,
    BitVec.setWidth_eq] at hnarrow
  exact ⟨hnarrow, hcodes⟩

/-- A packed slice unpacks to what was packed. -/
theorem unpack_packSlice (sf : BitVec 4) (hlen : codes.length ≤ 20) :
    (packSlice sf codes).extractLsb' 60 4 = sf ∧ sliceCodes (packSlice sf codes) codes.length = codes :=
  unpack_of_agree hlen rfl

/-- A word without fill bits is its scale factor and its 20 codes, packed. -/
theorem packSlice_sliceCodes (w : Word64) : packSlice (w.extractLsb' 60 4) (sliceCodes w 20) = w := by
  rw [packSlice, pushCodes_sliceCodes w le_rfl]
  simp [sliceCodes]

end

/-- Settles O5: packing puts each code at its place, and what agrees above the fill bits unpacks alike. -/
theorem sliceWordLayout : Obligations.SliceWordLayout := by
  intro sf codes hlen
  refine ⟨?_, fun w h => unpack_of_agree hlen h⟩
  rw [toNat_packSlice hlen, toNat_pushCodes_mul (toNat_setWidth_lt sf) (by omega) (by omega),
    BitVec.toNat_setWidth_of_le (by decide)]
  rfl

end Sys2Proof


/-! SUPPORT. Decoding and encoding at every place of a stream (O1, O2), and the spec's worked encodings (O4). -/

namespace Sys2Proof

variable {f : ImageFormat}

/-! ## Units of one word (30_encoding.md R91 to R97) -/

/-- The places at which eight bytes are read as one word. -/
def UnitKind.isWord : UnitKind → Bool
  | .command | .imageHeader | .opcode => false
  | .imageFooter | .audioHeader | .frameHeader | .history | .weights | .slice _ => true

theorem decode_word {k : UnitKind} (hk : k.isWord = true) (w : Word64) (rest : List Byte) :
    decode f k (bytes64 w ++ rest) = unitOfWord k w rest := by
  cases k with
  | command | imageHeader | opcode => cases hk
  | imageFooter | audioHeader | frameHeader | history | weights | slice => simp only [decode, takeWord64_bytes64]

/-- A unit of one word is read from that word's eight bytes. -/
theorem decode_word_ok {k : UnitKind} (hk : k.isWord = true) {bs rest : List Byte} {i : Instr}
    (h : decode f k bs = .ok i rest) : ∃ w bs', bytes64 w ++ bs' = bs ∧ unitOfWord k w bs' = .ok i rest := by
  cases k with
  | command | imageHeader | opcode => cases hk
  | imageFooter | audioHeader | frameHeader | history | weights | slice =>
    simp only [decode] at h
    split at h
    · cases h
    · next w bs' hw => exact ⟨w, bs', bytes64_of_takeWord64 hw, h⟩

/-- The encoding of a unit of one word decodes to it. -/
theorem decode_encode_word {i : Instr} (hi : i.wf = true) (hk : (kindOf i).isWord = true) (rest : List Byte) :
    decode f (kindOf i) (encode f i ++ rest) = .ok i rest := by
  cases i with
  | footer => exact decode_word rfl _ rest
  | qoaf samples =>
    have hmagic : (audioMagic ++ samples : Word64).extractLsb' 32 32 = audioMagic := BitVec.extractLsb'_append_eq_left
    have hsamples : (audioMagic ++ samples : Word64).extractLsb' 0 32 = samples := BitVec.extractLsb'_append_eq_right
    exact (decode_word rfl _ rest).trans (by rw [kindOf, unitOfWord, if_pos hmagic, hsamples])
  | frame channels rate fsamples fsize =>
    obtain ⟨h0, h1, h2, h3⟩ := fields_of_append channels rate fsamples fsize
    refine (decode_word rfl _ rest).trans ?_
    exact congrArg (Decoded.ok · rest) (congr (congr (congrArg₂ Instr.frame h0 h1) h2) h3)
  | hist x0 x1 x2 x3 =>
    obtain ⟨h0, h1, h2, h3⟩ := fields_of_append x0 x1 x2 x3
    refine (decode_word rfl _ rest).trans ?_
    exact congrArg (Decoded.ok · rest) (congr (congr (congrArg₂ Instr.hist h0 h1) h2) h3)
  | wght x0 x1 x2 x3 =>
    obtain ⟨h0, h1, h2, h3⟩ := fields_of_append x0 x1 x2 x3
    refine (decode_word rfl _ rest).trans ?_
    exact congrArg (Decoded.ok · rest) (congr (congr (congrArg₂ Instr.wght h0 h1) h2) h3)
  | slice sf codes =>
    simp only [Instr.wf, Bool.and_eq_true, decide_eq_true_eq] at hi
    obtain ⟨hsf, hcodes⟩ := unpack_packSlice sf hi.2
    exact (decode_word rfl _ rest).trans (by rw [kindOf, unitOfWord, hsf, hcodes])
  | _ => cases hk

/-- A unit of one word, other than the footer and a short slice, is well-formed and encodes to its word. -/
theorem encode_of_unitOfWord {k : UnitKind} {w : Word64} {bs rest : List Byte} {i : Instr}
    (hfooter : k ≠ .imageFooter) (hslice : ∀ m, k = .slice m → m = 20) (h : unitOfWord k w bs = .ok i rest) :
    i.wf = true ∧ encode f i = bytes64 w ∧ rest = bs := by
  cases k with
  | audioHeader =>
    simp only [unitOfWord] at h
    split at h <;> cases h
    next hmagic =>
    have hw : w.extractLsb' 32 32 ++ w.extractLsb' 0 32 = w := BitVec.extractLsb'_append_extractLsb'
    exact ⟨rfl, congrArg bytes64 (hmagic ▸ hw), rfl⟩
  | frameHeader =>
    cases h
    exact ⟨rfl, congrArg bytes64 (append_of_fields (a := 8) (b := 24) (c := 16) (d := 16) w), rfl⟩
  | history | weights =>
    cases h
    exact ⟨rfl, congrArg bytes64 (append_of_fields (a := 16) (b := 16) (c := 16) (d := 16) w), rfl⟩
  | slice m =>
    cases h
    obtain rfl := hslice m rfl
    exact ⟨by simp [Instr.wf, sliceCodes], congrArg bytes64 (packSlice_sliceCodes w), rfl⟩
  | imageFooter => exact absurd rfl hfooter
  | command | imageHeader | opcode => cases h

/-! ## The image header (30_encoding.md R96) -/

theorem decode_encode_imageHeader (width height : BitVec 32) (chtag cstag : Byte) (rest : List Byte) :
    decode f .imageHeader (encode f (.qoif width height chtag cstag) ++ rest) =
      .ok (.qoif width height chtag cstag) rest := by
  simp only [decode, decodeImageHeader, encode, List.append_assoc, takeWord32_bytes32, List.cons_append,
    List.nil_append, if_true]

theorem encode_of_decode_imageHeader {bs rest : List Byte} {i : Instr} (h : decode f .imageHeader bs = .ok i rest) :
    i.wf = true ∧ kindOf i = .imageHeader ∧ encode f i ++ rest = bs := by
  simp only [decode, decodeImageHeader] at h
  split at h
  · cases h
  next magic bs1 h1 =>
  split at h
  · cases h
  next width bs2 h2 =>
  split at h
  · next height chtag cstag rest h3 =>
    split at h <;> cases h
    next hmagic =>
    refine ⟨rfl, rfl, ?_⟩
    rw [← bytes32_of_takeWord32 h1, ← bytes32_of_takeWord32 h2, ← bytes32_of_takeWord32 h3, hmagic]
    simp only [encode, List.append_assoc, List.cons_append, List.nil_append]
  · cases h

/-! ## Commands (30_encoding.md R120, R121) -/

theorem decode_commandByte (code : BitVec 3) (rest : List Byte) :
    decode f .command (commandByte code ++ rest) = .ok (decodeCommand code) rest := by
  have hbyte : (code.setWidth 8).toNat < 8 := by
    rw [BitVec.toNat_setWidth_of_le (by decide)]
    exact code.isLt
  simp only [decode, commandByte, List.cons_append, List.nil_append, if_pos hbyte,
    BitVec.setWidth_setWidth_of_le _ (show 3 ≤ 8 by decide), BitVec.setWidth_eq]

theorem decode_encode_command {i : Instr} (hk : kindOf i = .command) (rest : List Byte) :
    decode f .command (encode f i ++ rest) = .ok i rest := by
  obtain ⟨code, rfl, hbyte⟩ := Machine.exists_code_of_command hk
  rw [hbyte]
  exact decode_commandByte code rest

theorem wf_of_command {i : Instr} (hk : kindOf i = .command) : i.wf = true := by
  cases i with
  | diff | luma | run | slice => cases hk
  | _ => rfl

theorem decodeCommand_inj : ∀ code code' : BitVec 3, decodeCommand code = decodeCommand code' → code = code' := by
  decide

theorem encode_of_decode_command {bs rest : List Byte} {i : Instr} (h : decode f .command bs = .ok i rest) :
    i.wf = true ∧ kindOf i = .command ∧ encode f i ++ rest = bs := by
  cases bs with
  | nil => cases h
  | cons b bs =>
    simp only [decode] at h
    split at h <;> cases h
    next hb =>
    have hk := Machine.kindOf_decodeCommand (b.setWidth 3)
    refine ⟨wf_of_command hk, hk, ?_⟩
    obtain ⟨code, hcode, hbyte⟩ := Machine.exists_code_of_command hk
    obtain rfl := decodeCommand_inj _ _ hcode
    have hb' : (b.setWidth 3).setWidth 8 = b := by
      refine BitVec.eq_of_toNat_eq ?_
      rw [BitVec.toNat_setWidth, BitVec.toNat_setWidth]
      omega
    rw [hbyte, hb']
    rfl

/-! ## Every place -/

/-- Settles O1: at each kind of place the encoding is read back. -/
theorem decodeOfEncode : Obligations.DecodeOfEncode := by
  intro f i rest hf hi
  cases hk : kindOf i with
  | opcode => exact (opcodeRead_encode hi hk rest).decodes hf
  | command => exact decode_encode_command hk rest
  | imageHeader =>
    cases i with
    | qoif width height chtag cstag => exact decode_encode_imageHeader width height chtag cstag rest
    | _ => cases hk
  | imageFooter | audioHeader | frameHeader | history | weights | slice =>
    exact hk ▸ decode_encode_word hi (hk ▸ rfl) rest

/-- Settles O2: at each kind of place what is decoded encodes to the bytes read. -/
theorem decodedUnitReencodes : Obligations.DecodedUnitReencodes := by
  intro f k bs rest i hf hfooter hslice h
  cases k with
  | opcode => exact (opcodeRead_of_decodeOpcode hf h).reencodes
  | command => exact encode_of_decode_command h
  | imageHeader => exact encode_of_decode_imageHeader h
  | imageFooter | audioHeader | frameHeader | history | weights | slice =>
    obtain ⟨w, bs', rfl, hw⟩ := decode_word_ok rfl h
    obtain ⟨hwf, hbytes, rfl⟩ := encode_of_unitOfWord (f := f) hfooter hslice hw
    exact ⟨hwf, Machine.kindOf_of_unitOfWord hw, by rw [hbytes]⟩

/-- Settles O4: each example is evaluated. -/
theorem specExamplesDecode : Obligations.SpecExamplesDecode := by
  unfold Obligations.SpecExamplesDecode
  decide

end Sys2Proof


/-! SUPPORT. The predictor: its prediction, the ranges of its arithmetic, and its update (O6, O7, O8). -/

namespace Sys2Proof.Machine

variable {st : Predictor}

/-! ## The prediction (40_predictor.md R131) -/

/-- The arithmetic shift is the floor division. -/
theorem predict_eq_div (st : Predictor) : predict st = dotProduct st / 8192 := Int.shiftRight_eq_div_pow _ _

/-- Settles O6: a quotient's product with its divisor lies within one divisor below the dividend. -/
theorem predictFloorsDotProduct : Obligations.PredictFloorsDotProduct := by
  intro st
  change predict st * 8192 ≤ dotProduct st ∧ dotProduct st < (predict st + 1) * 8192
  rw [predict_eq_div]
  omega

/-! ## Ranges (40_predictor.md R132) -/

/-- A 16-bit history value adds 15 bits to a weight's magnitude. -/
theorem abs_mul_history_le {w : Int} {h : BitVec 32} {k : Nat} (hh : sampleRange h) (hw : |w| ≤ 2 ^ k) :
    |w * h.toInt| ≤ 2 ^ (k + 15) := by
  have habs : |h.toInt| ≤ 2 ^ 15 := abs_le.mpr ⟨hh.1, hh.2.trans (by decide)⟩
  calc |w * h.toInt| = |w| * |h.toInt| := abs_mul _ _
    _ ≤ 2 ^ k * 2 ^ 15 := mul_le_mul hw habs (abs_nonneg _) (by positivity)
    _ = 2 ^ (k + 15) := (pow_add _ _ _).symm

/-- A sum of four products is two bits longer than one of them. -/
theorem abs_dotProduct_le {k : Nat} (hst : st.historyLegal) (h0 : |st.w0| ≤ 2 ^ k) (h1 : |st.w1| ≤ 2 ^ k)
    (h2 : |st.w2| ≤ 2 ^ k) (h3 : |st.w3| ≤ 2 ^ k) : |dotProduct st| ≤ 2 ^ (k + 17) := by
  obtain ⟨r0, r1, r2, r3⟩ := hst
  have p0 := abs_mul_history_le r0 h0
  have p1 := abs_mul_history_le r1 h1
  have p2 := abs_mul_history_le r2 h2
  have p3 := abs_mul_history_le r3 h3
  have hfour : (2 : Int) ^ (k + 17) = 4 * 2 ^ (k + 15) := by ring
  rw [abs_le] at p0 p1 p2 p3 ⊢
  rw [dotProduct, hfour]
  constructor <;> linarith

/-- The shift takes 13 bits off the dot product's magnitude. -/
theorem abs_predict_le {b : Int} (h : |dotProduct st| ≤ b * 8192) : |predict st| ≤ b := by
  rw [abs_le] at h ⊢
  rw [predict_eq_div]
  omega

/-- A weight that a snapshot holds without loss has a magnitude of 15 bits. -/
theorem abs_le_of_storedRange {w : Int} (h : storedRange w) : |w| ≤ 2 ^ 15 := abs_le.mpr ⟨h.1, h.2.trans (by decide)⟩

/-- Settles O7: the two ranges are one bound on the dot product, at 31 and at 15 bits of a weight's magnitude. -/
theorem predictRange : Obligations.PredictRange := by
  intro st hst h0 h1 h2 h3
  have hdot := abs_dotProduct_le hst h0 h1 h2 h3
  obtain ⟨hlo, hhi⟩ := abs_le.mp (abs_predict_le (b := 2 ^ 35) hdot)
  have hstored : storedRange st.w0 → storedRange st.w1 → storedRange st.w2 → storedRange st.w3 →
      |dotProduct st| ≤ 2 ^ 32 ∧ -524288 ≤ predict st ∧ predict st ≤ 524288 := by
    intro s0 s1 s2 s3
    have hdot' := abs_dotProduct_le hst (abs_le_of_storedRange s0) (abs_le_of_storedRange s1) (abs_le_of_storedRange s2)
      (abs_le_of_storedRange s3)
    exact ⟨hdot', abs_le.mp (abs_predict_le (b := 524288) hdot')⟩
  obtain ⟨r0, r1, r2, r3⟩ := hst
  exact ⟨abs_mul_history_le r0 h0, abs_mul_history_le r1 h1, abs_mul_history_le r2 h2, abs_mul_history_le r3 h3, hdot,
    by omega, by omega, hstored⟩

/-! ## The update (40_predictor.md R133) -/

theorem weightDelta_eq_div (resid : Int) : weightDelta resid = resid / 16 := Int.shiftRight_eq_div_pow _ _

/-- A history register's container is wide enough for a sample. -/
theorem toInt_historyReg {v : Int} (hlo : -32768 ≤ v) (hhi : v ≤ 32767) : (historyReg v).toInt = v := by
  rw [historyReg, BitVec.toInt_ofInt, Int.bmod_eq_of_le] <;> omega

/-- Settles O8: the weights wrap as `stepWeight` says, and the last history register takes the sample. -/
theorem updateRegisters : Obligations.UpdateRegisters := by
  intro cfg st recon resid hlo hhi t delta stepped
  have hstep (w : Int) (h : BitVec 32) : stepWeight cfg w h (weightDelta resid) = stepped w h := by
    rw [weightDelta_eq_div]
    rfl
  exact ⟨hstep _ _, hstep _ _, hstep _ _, hstep _ _, rfl, rfl, rfl, toInt_historyReg hlo hhi⟩

end Sys2Proof.Machine


/-! SUPPORT. A decoder reads a candidate's codes back to the candidate's state (O12). -/

namespace Sys2Proof.Machine

variable {cfg : Config}

/-! ## The codes of a simulation (41_quantizer_slice.md R157) -/

/-- The code that one sample of `SLICE_SIM` chooses. -/
def simCode (cfg : Config) (cand : Candidate) (x : Int) : BitVec 3 := quantize cfg (x - predict cand.pred) cand.sf

/-- The codes that `SLICE_SIM` chooses, in order. -/
def simCodes (cfg : Config) (cand : Candidate) : List Int → List (BitVec 3)
  | [] => []
  | x :: xs => simCode cfg cand x :: simCodes cfg (simSample cfg cand x) xs

theorem length_simCodes (cand : Candidate) (xs : List Int) : (simCodes cfg cand xs).length = xs.length := by
  induction xs generalizing cand with
  | nil => rfl
  | cons x xs ih => exact congrArg (· + 1) (ih _)

@[simp] theorem simSample_sf (cand : Candidate) (x : Int) : (simSample cfg cand x).sf = cand.sf := rfl

/-- The encoder reconstructs and updates as the decoder does (40_predictor.md R135, 41_quantizer_slice.md R162). -/
theorem decodeSample_simCode (cand : Candidate) (x : Int) :
    (decodeSample cfg cand.pred cand.sf (simCode cfg cand x)).1 = (simSample cfg cand x).pred := rfl

/-- A sample's rank is its squared error and the penalty of the weights before it (41_quantizer_slice.md R156). -/
theorem simSample_rank (cand : Candidate) (x : Int) : (simSample cfg cand x).rank =
    cand.rank + ((x - (decodeSample cfg cand.pred cand.sf (simCode cfg cand x)).2).natAbs ^ 2 + penalty cand.pred ^ 2) := rfl

theorem foldl_simSample_sf (cand : Candidate) (xs : List Int) : (xs.foldl (simSample cfg) cand).sf = cand.sf := by
  induction xs generalizing cand with
  | nil => rfl
  | cons x xs ih => exact ih _

/-- The word grows by the codes, pushed one after another. -/
theorem foldl_simSample_word (cand : Candidate) (xs : List Int) :
    (xs.foldl (simSample cfg) cand).word = pushCodes cand.word (simCodes cfg cand xs) := by
  induction xs generalizing cand with
  | nil => rfl
  | cons x xs ih => exact ih _

/-! ## The decoder on these codes (41_quantizer_slice.md R162) -/

/-- The sum of the squared differences of two lists of samples. -/
def squaredDistance (xs ys : List Int) : Nat := ((xs.zip ys).map fun p => (p.1 - p.2).natAbs ^ 2).sum

theorem squaredDistance_cons (x y : Int) (xs ys : List Int) :
    squaredDistance (x :: xs) (y :: ys) = (x - y).natAbs ^ 2 + squaredDistance xs ys := rfl

/-- The decoder goes through the states of the simulation. -/
theorem decodeSlice_simCodes_pred (cand : Candidate) (xs : List Int) :
    (decodeSlice cfg cand.pred cand.sf (simCodes cfg cand xs)).1 = (xs.foldl (simSample cfg) cand).pred := by
  induction xs generalizing cand with
  | nil => rfl
  | cons x xs ih => exact ih (simSample cfg cand x)

/-- The simulation adds at least the squared distance to the rank. -/
theorem squaredDistance_decodeSlice_le (cand : Candidate) (xs : List Int) :
    cand.rank + squaredDistance xs (decodeSlice cfg cand.pred cand.sf (simCodes cfg cand xs)).2 ≤
      (xs.foldl (simSample cfg) cand).rank := by
  induction xs generalizing cand with
  | nil => exact le_rfl
  | cons x xs ih =>
    have hrest := ih (simSample cfg cand x)
    rw [simSample_rank, simSample_sf, ← decodeSample_simCode] at hrest
    rw [simCodes, decodeSlice, squaredDistance_cons]
    exact le_trans (by omega) hrest

/-- Every decoded sample is clamped to 16 bits (41_quantizer_slice.md R154). -/
theorem decodeSlice_sample_range (sf : BitVec 4) (codes : List (BitVec 3)) (st : Predictor) :
    ∀ y ∈ (decodeSlice cfg st sf codes).2, -32768 ≤ y ∧ y ≤ 32767 := by
  induction codes generalizing st with
  | nil => nofun
  | cons code codes ih => exact List.forall_mem_cons.mpr ⟨clamp16_range _, ih _⟩

/-! ## The candidate's word (42_audio_bitstream.md R187) -/

/-- Left-justified, the word of a candidate is the packing of its scale factor and its codes. -/
theorem sliceSim_word (st : Predictor) (xs : List Int) (sf : BitVec 4) :
    (sliceSim cfg st xs sf).word = packSlice sf (simCodes cfg (simStart st sf) xs) := by
  rw [packSlice, length_simCodes]
  exact congrArg (fun w : Word64 => w <<< (3 * (20 - xs.length))) (foldl_simSample_word (simStart st sf) xs)

/-- Settles O12: the word unpacks to the simulation's codes, and on these the decoder takes the simulation's steps. -/
theorem decoderFollowsCandidate : Obligations.DecoderFollowsCandidate := by
  intro cfg st xs sf _ hlen cand codes
  have hcount : (simCodes cfg (simStart st sf) xs).length = xs.length := length_simCodes _ _
  have hword : cand.word = packSlice sf (simCodes cfg (simStart st sf) xs) := sliceSim_word st xs sf
  obtain ⟨hsf, hunpack⟩ := unpack_packSlice sf (hcount.trans_le hlen)
  have hcodes : codes = simCodes cfg (simStart st sf) xs := by
    rw [← hunpack, hcount, ← hword]
  rw [hcodes, hword]
  exact ⟨foldl_simSample_sf _ _, hsf, rfl, decodeSlice_simCodes_pred (simStart st sf) xs,
    (length_decodeSlice _ _ _ _).trans hcount, decodeSlice_sample_range _ _ _,
    le_of_add_le_right (squaredDistance_decodeSlice_le (simStart st sf) xs)⟩

end Sys2Proof.Machine


/-! SUPPORT. The quantizer: what the correction of its division does, the code it looks up and the penalty (O9, O10,
O11). -/

namespace Sys2Proof.Machine

variable {cfg : Config} {v : Int} {sf : BitVec 4}

/-! ## The division (41_quantizer_slice.md R150) -/

theorem sgn_of_pos (h : 0 < v) : sgn v = 1 := if_pos h

theorem sgn_of_neg (h : v < 0) : sgn v = -1 := (if_neg h.le.not_gt).trans (if_pos h)

theorem sgn_zero : sgn 0 = 0 := rfl

theorem sgn_sgn (v : Int) : sgn (sgn v) = sgn v := by
  rcases lt_trichotomy v 0 with hv | rfl | hv
  · rw [sgn_of_neg hv]
    rfl
  · rfl
  · rw [sgn_of_pos hv]
    rfl

/-- The arithmetic shift is the floor division. -/
theorem divFirst_eq_div (cfg : Config) (v : Int) (sf : BitVec 4) :
    divFirst cfg v sf = (v * recip cfg sf + 32768) / 65536 := Int.shiftRight_eq_div_pow _ _

theorem divScale_reciprocal (hdiv : cfg.div = .reciprocal) (v : Int) (sf : BitVec 4) :
    divScale cfg v sf = divFirst cfg v sf + sgn v - sgn (divFirst cfg v sf) := by
  simp only [divScale, hdiv]

/-- The reciprocals of a configuration within the ranges are positive (93_implementation_defined.md I3). -/
theorem recip_pos (hcfg : cfg.wf = true) (sf : BitVec 4) : 0 < recip cfg sf := by
  simp only [Config.wf, Bool.and_eq_true, List.all_eq_true, decide_eq_true_eq] at hcfg
  obtain ⟨⟨⟨⟨hrecip, -⟩, -⟩, -⟩, -⟩ := hcfg
  exact hrecip _ (Vector.mem_toList_iff.mpr (Vector.getElem_mem sf.isLt))

theorem divFirst_zero (cfg : Config) (sf : BitVec 4) : divFirst cfg 0 sf = 0 := by
  rw [divFirst_eq_div, zero_mul]
  rfl

/-- Rounding to the nearest does not take a positive residual below 0. -/
theorem divFirst_nonneg (hcfg : cfg.wf = true) (hv : 0 < v) : 0 ≤ divFirst cfg v sf := by
  have hprod := mul_pos hv (recip_pos hcfg sf)
  rw [divFirst_eq_div]
  omega

/-- Nor a negative one above it. -/
theorem divFirst_nonpos (hcfg : cfg.wf = true) (hv : v < 0) : divFirst cfg v sf ≤ 0 := by
  have hprod := mul_neg_of_neg_of_pos hv (recip_pos hcfg sf)
  rw [divFirst_eq_div]
  omega

/-- A first line that is not 0 has the residual's sign, so the two corrections cancel. -/
theorem sgn_divFirst (hcfg : cfg.wf = true) (h : divFirst cfg v sf ≠ 0) : sgn (divFirst cfg v sf) = sgn v := by
  rcases lt_trichotomy v 0 with hv | rfl | hv
  · rw [sgn_of_neg hv, sgn_of_neg (lt_of_le_of_ne (divFirst_nonpos hcfg hv) h)]
  · exact absurd (divFirst_zero cfg sf) h
  · rw [sgn_of_pos hv, sgn_of_pos (lt_of_le_of_ne (divFirst_nonneg hcfg hv) h.symm)]

/-- Where the first line gave 0 the result is the residual's sign. -/
theorem divScale_of_first_zero (hdiv : cfg.div = .reciprocal) (h : divFirst cfg v sf = 0) :
    divScale cfg v sf = sgn v := by
  rw [divScale_reciprocal hdiv, h, sgn_zero, zero_add, sub_zero]

/-- Elsewhere it is the first line's. -/
theorem divScale_of_first_ne_zero (hcfg : cfg.wf = true) (hdiv : cfg.div = .reciprocal) (h : divFirst cfg v sf ≠ 0) :
    divScale cfg v sf = divFirst cfg v sf := by
  rw [divScale_reciprocal hdiv, sgn_divFirst hcfg h, add_sub_cancel_right]

/-- Settles O9: the correction by the two cases of the first line. -/
theorem divRoundsAwayFromZero : Obligations.DivRoundsAwayFromZero := by
  intro cfg v sf hcfg hdiv first
  have hfirst : divFirst cfg v sf = first := divFirst_eq_div cfg v sf
  refine ⟨?_, fun hv h => ?_, fun hv h => ?_, fun h => ?_⟩
  · rintro rfl
    rw [divScale_of_first_zero hdiv (divFirst_zero cfg sf), sgn_zero]
  · rw [divScale_of_first_zero hdiv (hfirst.trans h), sgn_of_pos hv]
  · rw [divScale_of_first_zero hdiv (hfirst.trans h), sgn_of_neg hv]
  · rw [divScale_of_first_ne_zero hcfg hdiv (hfirst ▸ h), hfirst]

/-- The division keeps the residual's sign, and gives 0 for 0 only. -/
theorem sgn_divScale (hcfg : cfg.wf = true) (hdiv : cfg.div = .reciprocal) (v : Int) (sf : BitVec 4) :
    sgn (divScale cfg v sf) = sgn v := by
  by_cases h : divFirst cfg v sf = 0
  · rw [divScale_of_first_zero hdiv h, sgn_sgn]
  · rw [divScale_of_first_ne_zero hcfg hdiv h, sgn_divFirst hcfg h]

/-! ## Codes and reconstructed samples (41_quantizer_slice.md R151, R153, R154) -/

theorem sgn_nonneg_iff : 0 ≤ sgn v ↔ 0 ≤ v := by
  unfold sgn
  split_ifs <;> omega

theorem sgn_eq_zero_iff : sgn v = 0 ↔ v = 0 := by
  rcases lt_trichotomy v 0 with hv | rfl | hv
  · simp [sgn_of_neg hv, hv.ne]
  · simp [sgn_zero]
  · simp [sgn_of_pos hv, hv.ne']

theorem clamp_eq_max_min {lo hi : Int} (h : lo ≤ hi) (v : Int) : clamp v lo hi = max lo (min hi v) := by
  unfold clamp
  split_ifs <;> omega

/-- A scaled residual's place in `QUANT` is the scaled residual clamped to -8 .. 8, plus 8. -/
theorem val_quantIndex (scaled : Int) : ((quantIndex scaled).val : Int) = max (-8) (min 8 scaled) + 8 := by
  rw [← clamp_eq_max_min (by decide)]
  have hlo : -8 ≤ clamp scaled (-8) 8 := by
    rw [clamp_eq_max_min (by decide)]
    exact le_max_left _ _
  exact Int.toNat_of_nonneg (by omega)

/-- The default `QUANT`: even codes from its middle up, odd ones below, code 0 in the middle, and the codes 6 and 7 at
the three outermost places of each end. -/
theorem defaultQuant_codes : ∀ i : Fin 17,
    (8 ≤ i.val → defaultQuant[i].toNat % 2 = 0) ∧ (i.val < 8 → defaultQuant[i].toNat % 2 = 1) ∧
    (i.val = 8 → defaultQuant[i] = 0) ∧ (14 ≤ i.val → defaultQuant[i] = 6) ∧ (i.val ≤ 2 → defaultQuant[i] = 7) := by
  decide

/-- Settles O10: the table entry is at the clamped place, and the place's side of the middle is the residual's sign. -/
theorem quantizeAndReconstruct : Obligations.QuantizeAndReconstruct := by
  intro cfg resid p sf code q
  have hplace := val_quantIndex (divScale cfg resid sf)
  refine ⟨fun k hk => ?_, clamp_eq_max_min (by decide) _, fun hcfg hdiv hquant => ?_⟩
  · have hindex : quantIndex (divScale cfg resid sf) = k := Fin.ext (by omega)
    exact congrArg (fun i : Fin 17 => cfg.quant[i]) hindex
  · have hsign := sgn_divScale hcfg hdiv resid sf
    have hnonneg : 0 ≤ divScale cfg resid sf ↔ 0 ≤ resid := by rw [← sgn_nonneg_iff, hsign, sgn_nonneg_iff]
    have hzero : divScale cfg resid sf = 0 ↔ resid = 0 := by rw [← sgn_eq_zero_iff, hsign, sgn_eq_zero_iff]
    have hcode : q = defaultQuant[quantIndex (divScale cfg resid sf)] := by rw [← hquant]; rfl
    obtain ⟨heven, hodd, hmiddle, hhigh, hlow⟩ := defaultQuant_codes (quantIndex (divScale cfg resid sf))
    rw [hcode]
    exact ⟨fun h => heven (by omega), fun h => hodd (by omega), fun h => hmiddle (by omega), fun h => hhigh (by omega),
      fun h => hlow (by omega)⟩

/-! ## The penalty (41_quantizer_slice.md R155) -/

/-- The sum of squares as an integer. -/
theorem cast_squaredWeights (st : Predictor) :
    (squaredWeights st : Int) = st.w0 ^ 2 + st.w1 ^ 2 + st.w2 ^ 2 + st.w3 ^ 2 := by
  simp only [squaredWeights, Nat.cast_add, Nat.cast_pow, Int.natCast_natAbs, sq_abs]

theorem penalty_eq (st : Predictor) : penalty st = squaredWeights st / 262144 - 2303 :=
  congrArg (· - penaltyBias) (Nat.shiftRight_eq_div_pow _ _)

theorem penalty_eq_zero_iff {st : Predictor} : penalty st = 0 ↔ squaredWeights st < 603979776 := by
  rw [penalty_eq]
  omega

/-- Four squares of weights within a magnitude are at most four squares of it. -/
theorem squaredWeights_le {st : Predictor} {b : Int} (h0 : |st.w0| ≤ b) (h1 : |st.w1| ≤ b) (h2 : |st.w2| ≤ b)
    (h3 : |st.w3| ≤ b) : (squaredWeights st : Int) ≤ 4 * b ^ 2 := by
  have hsquare {w : Int} (h : |w| ≤ b) : w ^ 2 ≤ b ^ 2 := sq_le_sq' (neg_le_of_abs_le h) (le_of_abs_le h)
  rw [cast_squaredWeights]
  linarith [hsquare h0, hsquare h1, hsquare h2, hsquare h3]

/-- Settles O11: the threshold is the penalty's definition, and four weights below 12288 stay under it. -/
theorem penaltyThreshold : Obligations.PenaltyThreshold := by
  intro st ssq
  have hssq : (squaredWeights st : Int) = ssq := cast_squaredWeights st
  refine ⟨fun h0 h1 h2 h3 => ?_, ?_, ?_, fun h0 h1 h2 h3 => ?_⟩
  · exact hssq ▸ squaredWeights_le h0 h1 h2 h3
  · rw [penalty_eq, ← hssq]
    omega
  · rw [penalty_eq_zero_iff, ← hssq]
    omega
  · have hle := squaredWeights_le (b := 12287) (Int.le_of_lt_add_one h0) (Int.le_of_lt_add_one h1)
      (Int.le_of_lt_add_one h2) (Int.le_of_lt_add_one h3)
    exact penalty_eq_zero_iff.mpr (by omega)

end Sys2Proof.Machine


/-! SUPPORT. The slice search keeps the first candidate of least rank (O13). -/

namespace Sys2Proof.Machine

/-- The best so far is, among the first `n` of a sequence of candidates, the first one of least rank. -/
def FirstLeast (cands : Nat → Candidate) (n : Nat) (best : Option Candidate) : Prop :=
  ∃ i < n, best = some (cands i) ∧ (∀ j < n, (cands i).rank ≤ (cands j).rank) ∧
    ∀ j < i, (cands i).rank < (cands j).rank

theorem firstLeast_one (cands : Nat → Candidate) : FirstLeast cands 1 (some (cands 0)) := by
  refine ⟨0, Nat.one_pos, rfl, fun j hj => ?_, fun j hj => absurd hj (Nat.not_lt_zero j)⟩
  rw [Nat.lt_one_iff.mp hj]

/-- One more candidate replaces the best only if its rank is strictly less (41_quantizer_slice.md R160). -/
theorem FirstLeast.better {cands : Nat → Candidate} {n : Nat} {best : Option Candidate}
    (h : FirstLeast cands n best) : FirstLeast cands (n + 1) (better best (cands n)) := by
  obtain ⟨i, hi, rfl, hleast, hfirst⟩ := h
  simp only [Machine.better]
  split
  · next hless =>
    have hbelow (j : Nat) (hj : j < n) : (cands n).rank < (cands j).rank := hless.trans_le (hleast j hj)
    refine ⟨n, Nat.lt_succ_self n, rfl, fun j hj => ?_, hbelow⟩
    rcases Nat.lt_succ_iff_lt_or_eq.mp hj with hj | rfl
    · exact (hbelow j hj).le
    · exact le_rfl
  · next hless =>
    refine ⟨i, Nat.lt_succ_of_lt hi, rfl, fun j hj => ?_, hfirst⟩
    rcases Nat.lt_succ_iff_lt_or_eq.mp hj with hj | rfl
    · exact hleast j hj
    · exact not_lt.mp hless

/-- After each turn the search has visited one more index, and holds the first candidate of least rank among those
visited. -/
theorem firstLeast_searchTurns (cfg : Config) (st : Predictor) (prevSf : BitVec 4) (xs : List Int) (n : Nat) :
    ((searchTurn cfg st prevSf xs)^[n + 1] Search.start).index = n + 1 ∧
    FirstLeast (fun i => sliceSim cfg st xs (visited prevSf i)) (n + 1)
      ((searchTurn cfg st prevSf xs)^[n + 1] Search.start).best := by
  induction n with
  | zero => exact ⟨rfl, firstLeast_one _⟩
  | succ n ih =>
    obtain ⟨hindex, hbest⟩ := ih
    rw [Function.iterate_succ_apply', searchTurn, hindex]
    exact ⟨rfl, hbest.better⟩

/-- Settles O13: the invariant of the turns, after the sixteenth. -/
theorem searchKeepsFirstLeastRank : Obligations.SearchKeepsFirstLeastRank := by
  intro cfg st prevSf xs
  obtain ⟨-, i, hi, hbest, hleast, hfirst⟩ := firstLeast_searchTurns cfg st prevSf xs 15
  rw [← sliceSearch_eq_iterate] at hbest
  exact ⟨⟨i, hi⟩, _, hbest, rfl, fun j => hleast j.val j.isLt, fun j hj => hfirst j.val hj⟩

end Sys2Proof.Machine


/-! SUPPORT. A slice word, decoded and emitted (O37, O38). -/

namespace Sys2Proof.Machine

variable {s : State} {k : Nat} {c : Fin 8} {sf : BitVec 4} {codes : List (BitVec 3)}

/-! ## The place after a slice (42_audio_bitstream.md R189, R191) -/

theorem lt_sliceCount_iff {n : Nat} : k < sliceCount n ↔ 20 * k < n := by
  simp only [sliceCount, ceilDiv, sliceLen]
  omega

theorem afterSlice_nextChannel {d : Fin 8} (hd : d.val = c.val + 1) (h : d.val < s.stChannels.toNat) :
    afterSlice s k c = some (.slice k d) := by
  have hnext : nextChannel s c = some d := by
    obtain ⟨_, hlt⟩ := d
    subst hd
    rw [nextChannel, dif_pos hlt, if_pos h]
  simp only [afterSlice, hnext]

theorem afterSlice_nextSlice (hlast : s.stChannels.toNat = c.val + 1) (hmore : 20 * (k + 1) < s.fSamples.toNat) :
    afterSlice s k c = some (.slice (k + 1) 0) := by
  simp only [afterSlice, nextChannel_of_last hlast.le, if_pos (lt_sliceCount_iff.mpr hmore)]

theorem afterSlice_frameEnd (hlast : s.stChannels.toNat = c.val + 1) (hend : s.fSamples.toNat ≤ 20 * (k + 1)) :
    afterSlice s k c = none := by
  simp only [afterSlice, nextChannel_of_last hlast.le, if_neg (mt lt_sliceCount_iff.mp (not_lt.mpr hend))]

/-! ## Going on in a frame -/

theorem decodeOnward_some (p : Place) (s : State) : decodeOnward (some p) s = { s with phase := .dec p } := rfl

theorem decodeOnward_none (s : State) :
    decodeOnward none s = { s with sp := advanceSamples s, bp := frameEndCursor s, phase := .dec .frame } := rfl

theorem encodeOnward_some (p : Place) (s : State) :
    encodeOnward (some p) s = { s with search := Search.start, phase := .enc p } := rfl

theorem encodeOnward_none (s : State) :
    encodeOnward none s = { s with sp := advanceSamples s, search := Search.start, phase := .enc .frame } := rfl

/-- Going on leaves the predictor registers and the sample space alone. -/
theorem decodeOnward_keeps (next : Option Place) (s : State) :
    (decodeOnward next s).pred = s.pred ∧ (decodeOnward next s).samples = s.samples := by
  obtain ⟨sp, bp, p, he, -⟩ := decodeOnward_frame next s
  rw [he]
  exact ⟨rfl, rfl⟩

/-- Going on leaves the predictor registers, the previous scale factors and the output alone, and clears the search. -/
theorem encodeOnward_keeps (next : Option Place) (s : State) :
    (encodeOnward next s).pred = s.pred ∧ (encodeOnward next s).prevSf = s.prevSf ∧
    (encodeOnward next s).bytes = s.bytes ∧ (encodeOnward next s).bp = s.bp ∧
    (encodeOnward next s).search = Search.start := by
  obtain ⟨sp, p, he, -⟩ := encodeOnward_frame next s
  rw [he]
  exact ⟨rfl, rfl, rfl, rfl, rfl⟩

/-! ## One channel's entry of a register file -/

/-- A write of one channel's entry leaves the others. -/
theorem getElem_set_other_channel {α : Type} (regs : Vector α 8) {c d : Fin 8} (h : d ≠ c) (v : α) :
    (regs.set c.val v c.isLt)[d.val] = regs[d.val] :=
  Vector.getElem_set_ne _ _ (fun he => h (Fin.ext he.symm))

/-! ## The stores of a decoded slice (43_audio_commands.md R225) -/

/-- Samples of one channel's slice have different indices. -/
theorem sampleIndex_injective (hc : c.val < s.stChannels.toNat) : Function.Injective (sampleIndex s k c) := by
  intro i j h
  have hmul : (s.sp.toNat + sliceLen * k + i) * s.stChannels.toNat =
      (s.sp.toNat + sliceLen * k + j) * s.stChannels.toNat := Nat.add_right_cancel h
  have hsum := Nat.eq_of_mul_eq_mul_right (Nat.zero_lt_of_lt hc) hmul
  omega

theorem map_fst_sliceStores (s : State) (k : Nat) (c : Fin 8) (xs : List Int) :
    (sliceStores s k c xs).map Prod.fst = sampleIndices s k c xs.length :=
  List.map_fst_zip (by simp [sampleIndices])

/-- The stores name the indices of the slice's samples, each once. -/
theorem mem_sliceStores_fst {xs : List Int} {w : Nat × BitVec 16} (h : w ∈ sliceStores s k c xs) :
    ∃ j < xs.length, sampleIndex s k c j = w.1 := by
  have hfst : w.1 ∈ sampleIndices s k c xs.length := map_fst_sliceStores s k c xs ▸ List.mem_map_of_mem h
  simpa [sampleIndices] using hfst

theorem nodup_sliceStores (hc : c.val < s.stChannels.toNat) (xs : List Int) :
    ((sliceStores s k c xs).map Prod.fst).Nodup := by
  rw [map_fst_sliceStores]
  exact List.nodup_range.map (sampleIndex_injective hc)

theorem mem_sliceStores_of_getElem? {xs : List Int} {j : Nat} {x : Int} (h : xs[j]? = some x) :
    (sampleIndex s k c j, BitVec.ofInt 16 x) ∈ sliceStores s k c xs := by
  obtain ⟨hj, rfl⟩ := List.getElem?_eq_some_iff.mp h
  refine List.mem_iff_getElem.mpr ⟨j, by simpa [sliceStores, sampleIndices] using hj, ?_⟩
  simp [sliceStores, sampleIndices]

/-- After the stores each sample stands at its interleaved index. -/
theorem read_sliceStores_of_getElem? (hc : c.val < s.stChannels.toNat) (m : Space (BitVec 16)) {xs : List Int} {j : Nat}
    {x : Int} (h : xs[j]? = some x) :
    Space.read (Space.writeAll m (sliceStores s k c xs)) (sampleIndex s k c j) = some (BitVec.ofInt 16 x) :=
  Space.read_writeAll_of_mem _ _ _ _ (nodup_sliceStores hc xs) (mem_sliceStores_of_getElem? h)

/-- Every other element stays. -/
theorem read_sliceStores_of_ne (m : Space (BitVec 16)) {xs : List Int} {a : Nat}
    (h : ∀ j < xs.length, a ≠ sampleIndex s k c j) :
    Space.read (Space.writeAll m (sliceStores s k c xs)) a = Space.read m a := by
  refine Space.read_writeAll_of_notMem _ _ _ fun w hw he => ?_
  obtain ⟨j, hj, hindex⟩ := mem_sliceStores_fst hw
  exact h j hj (he.symm.trans hindex.symm)

/-! ## A slice word decoded -/

/-- A decoder's slice with room for its samples: the state it leaves, and on in the frame. -/
theorem exec_slice_dec (hp : s.phase = .dec (.slice k c))
    (hcap : ∀ j < codes.length, sampleIndex s k c j < s.sDesc.cap.toNat) :
    exec (.slice sf codes) s = .next (decodeOnward (afterSlice s k c) (sliceDecodedState k c sf codes s)) := by
  have hall : (sliceStores s k c (decodeSlice s.cfg s.pred[c.val] sf codes).2).all
      (fun w => decide (w.1 < s.sDesc.cap.toNat)) = true := by
    refine List.all_eq_true.mpr fun w hw => decide_eq_true ?_
    obtain ⟨j, hj, hindex⟩ := mem_sliceStores_fst hw
    exact hindex ▸ hcap j (hj.trans_eq (length_decodeSlice ..))
  simp only [exec, execSlice, hp, decodeSliceUnit, storeSamples, if_pos hall]
  rfl

/-- Settles O37: the registers and the samples by what the stores and the one register write do, the place by the three
cases of what follows a slice. -/
theorem sliceDecodes : Obligations.SliceDecodes := by
  intro s k c sf codes hp hbp hc _ hcap run index
  have hcursor : (s.bp + 8).toNat = s.bp.toNat + 8 := toNat_bp_add_word hbp
  have hlen : run.2.length = codes.length := length_decodeSlice ..
  obtain ⟨hpred, hsamples⟩ := decodeOnward_keeps (afterSlice s k c) (sliceDecodedState k c sf codes s)
  obtain ⟨sp, bp, p, hframe, -⟩ := decodeOnward_frame (afterSlice s k c) (sliceDecodedState k c sf codes s)
  refine ⟨_, exec_slice_dec hp hcap, ?_, fun d hd => ?_, hlen, fun j x hx => ?_, fun a ha => ?_, fun d hd hlt => ?_,
    fun hlast hmore => ?_, fun hlast hend => ?_, by rw [hframe]; simp [sliceDecodedState]⟩
  · rw [hpred]
    exact Vector.getElem_set_self ..
  · rw [hpred]
    exact getElem_set_other_channel _ hd _
  · rw [hsamples]
    exact read_sliceStores_of_getElem? hc _ hx
  · rw [hsamples]
    exact read_sliceStores_of_ne _ fun j hj => ha j (hj.trans_eq hlen)
  · simpa [afterSlice_nextChannel hd hlt, decodeOnward_some, sliceDecodedState] using hcursor
  · simpa [afterSlice_nextSlice hlast hmore, decodeOnward_some, sliceDecodedState] using hcursor
  · simp [afterSlice_frameEnd hlast hend, decodeOnward_none, sliceDecodedState, advanceSamples, frameEndCursor_eq]

/-! ## A slice word emitted -/

/-- An emission with room is the bytes stored at the cursor, and the cursor past them (20_memory.md R79). -/
theorem emitted_of_hasRoom {bs : List Byte} (h : hasRoom s bs.length = true) : Emitted bs s (emitted bs s) := by
  refine ⟨fun a => ?_, (bp_emitted h).1⟩
  rw [read_emitted]
  split
  · exact (List.getElem?_eq_getElem _).symm
  · rfl

/-- Emission is of the output's bytes and the cursor alone. -/
theorem Emitted.of_eq {bs : List Byte} {t u : State} (h : Emitted bs s t) (hbytes : u.bytes = t.bytes)
    (hbp : u.bp = t.bp) : Emitted bs s u := by
  unfold Emitted
  rwa [hbytes, hbp]

/-- An encoder's slice with a finished search and room for its word: the word emitted, the search committed, and on in
the frame. -/
theorem exec_slice_enc {best : Candidate} (hp : s.phase = .enc (.slice k c)) (hbest : s.search.best = some best)
    (hroom : hasRoom s (bytes64 (packSlice sf codes)).length = true) :
    exec (.slice sf codes) s = .next (encodeOnward (afterSlice s k c)
      (commitSearch c sf best (emitted (bytes64 (packSlice sf codes)) s))) := by
  simp only [exec, execSlice, hp, encodeSliceUnit, hbest]
  exact if_pos hroom

/-- Settles O38: the output by the emission, the registers by the commit, the place by the three cases of what follows a
slice. -/
theorem sliceEmits : Obligations.SliceEmits := by
  intro s k c sf codes best hp hbest hcap _ _
  have hroom : hasRoom s (bytes64 (packSlice sf codes)).length = true := (hasRoom_iff s _).mpr hcap
  obtain ⟨hpred, hprevSf, hbytes, hbp, hsearch⟩ :=
    encodeOnward_keeps (afterSlice s k c) (commitSearch c sf best (emitted (bytes64 (packSlice sf codes)) s))
  obtain ⟨sp, p, hframe, -⟩ :=
    encodeOnward_frame (afterSlice s k c) (commitSearch c sf best (emitted (bytes64 (packSlice sf codes)) s))
  refine ⟨_, exec_slice_enc hp hbest hroom, (emitted_of_hasRoom hroom).of_eq hbytes hbp, ?_, ?_, fun d hd => ?_, hsearch,
    fun d hd hlt => ?_, fun hlast hmore => ?_, fun hlast hend => ?_, by simp [hframe]⟩
  · rw [hpred]
    exact Vector.getElem_set_self ..
  · rw [hprevSf]
    exact Vector.getElem_set_self ..
  · rw [hpred, hprevSf]
    exact ⟨getElem_set_other_channel _ hd _, getElem_set_other_channel _ hd _⟩
  · simp [afterSlice_nextChannel hd hlt, encodeOnward_some]
  · simp [afterSlice_nextSlice hlast hmore, encodeOnward_some]
  · simp [afterSlice_frameEnd hlast hend, encodeOnward_none, advanceSamples]

end Sys2Proof.Machine


/-! SUPPORT. An encoder's step is `exec` of the unit it selects (O48). -/

namespace Sys2Proof.Machine

variable {s : State}

/-- Where an encoder's turn runs a unit, its step is `exec` of it. -/
theorem step_of_encodeTurn {p : Place} {i : Instr} (hr : s.resetLine = false) (hp : s.phase = .enc p)
    (h : encodeTurn s p = .run i s) : step s = exec i s := by
  simp only [step, turn_enc hr hp, h]

/-- With samples left, an encoder's turn at a frame runs the frame header (43_audio_commands.md R212). -/
theorem encodeTurn_frame (h : s.sp.toNat < s.stSamples.toNat) : encodeTurn s .frame = .run (frameUnit s) s := if_pos h

/-- After the sixteen turns of its search, an encoder's turn at a slice runs the best candidate's word
(41_quantizer_slice.md R158). -/
theorem encodeTurn_slice {t : Nat} {c : Fin 8} {best : Candidate} (hi : s.search.index = 16)
    (hbest : s.search.best = some best) :
    encodeTurn s (.slice t c) = .run (.slice best.sf (sliceCodes best.word (sliceSamples s t))) s := by
  have hover : ¬s.search.index < scaleCount := by simp [hi, scaleCount]
  simp only [encodeTurn, sliceTurn, if_neg hover, hbest]

/-- Settles O48: the turn of each place. -/
theorem stepRunsSelectedUnit : Obligations.StepRunsSelectedUnit := by
  intro s hr
  refine ⟨fun hp => step_of_encodeTurn hr hp rfl, fun hp => step_of_encodeTurn hr hp rfl,
    fun hp => step_of_encodeTurn hr hp rfl, ?_, fun c hp => step_of_encodeTurn hr hp rfl,
    fun c hp => step_of_encodeTurn hr hp rfl,
    fun t c best hp hi hbest => step_of_encodeTurn hr hp (encodeTurn_slice hi hbest)⟩
  rintro n ch hp hmore rfl rfl
  exact step_of_encodeTurn hr hp (encodeTurn_frame hmore)

end Sys2Proof.Machine


/-! SUPPORT. What an encoder selects is well-formed (O24). -/

namespace Sys2Proof.Machine

variable {s s1 : State} {i : Instr}

theorem wf_run_iff {n : Nat} : (Instr.run n).wf = true ↔ 1 ≤ n ∧ n ≤ 62 := by simp [Instr.wf]

/-- DIFF and LUMA are chosen only after the test of their ranges (44_pixel_encoder.md R247, R248). -/
theorem wf_selectOpcode (px prev : Pixel) (cache : Vector Pixel 64) : (selectOpcode px prev cache).wf = true := by
  simp only [selectOpcode, selectLiteral]
  split_ifs with _ _ hdiff hluma
  · rfl
  · exact hdiff
  · exact hluma
  · rfl
  · rfl

/-- A RUN takes the counter, which rests at most at 61, or the counter and one more pixel (44_pixel_encoder.md R243). -/
theorem wf_of_pixelTurn (hcoder : PixelCoderOk s) (h : pixelTurn s = .run i s1) : i.wf = true := by
  obtain ⟨hrun, -⟩ := hcoder
  unfold pixelTurn at h
  split at h
  · cases h
  · split_ifs at h with _ _ hactive <;> cases h
    · exact wf_run_iff.mpr ⟨Nat.le_add_left 1 _, Nat.succ_le_succ hrun⟩
    · have hpos : s.run.toNat ≠ 0 := fun h0 => hactive (BitVec.eq_of_toNat_eq h0)
      exact wf_run_iff.mpr ⟨Nat.pos_of_ne_zero hpos, hrun.trans (Nat.le_succ 61)⟩
    · exact wf_selectOpcode _ _ _

/-- A slice of the frame carries 1 to 20 samples (42_audio_bitstream.md R188, R189). -/
theorem sliceSamples_range {k : Nat} (hk : k < sliceCount s.fSamples.toNat) :
    1 ≤ sliceSamples s k ∧ sliceSamples s k ≤ 20 := by
  have hmore := lt_sliceCount_iff.mp hk
  simp only [sliceSamples, sliceLen]
  omega

theorem wf_of_sliceTurn {k : Nat} {c : Fin 8} (hk : k < sliceCount s.fSamples.toNat)
    (h : sliceTurn s k c = .run i s1) : i.wf = true := by
  unfold sliceTurn at h
  split at h
  · split at h <;> cases h
  · split at h <;> cases h
    simpa [Instr.wf, sliceCodes] using sliceSamples_range hk

theorem wf_of_encodeTurn {p : Place} (hcoder : PixelCoderOk s) (hplace : PlaceOk s) (hp : s.phase = .enc p)
    (h : encodeTurn s p = .run i s1) : i.wf = true := by
  cases p with
  | imageHeader | imageFooter | audioHeader | hist | wght => cases h; rfl
  | pixel => exact wf_of_pixelTurn hcoder h
  | frame =>
    simp only [encodeTurn] at h
    split at h <;> cases h
    rfl
  | slice k c =>
    obtain ⟨-, -, -, hk, -⟩ := (placeOk_enc_slice hp).mp hplace
    exact wf_of_sliceTurn hk h

/-- Settles O24: the ranges by the run counter's bound and the slice's place, the kind by the place. -/
theorem encoderSelectsWellFormedUnit : Obligations.EncoderSelectsWellFormedUnit := by
  intro s s' p i hgood hr hp hturn
  obtain ⟨-, -, -, -, -, hcoder, hplace⟩ := hgood
  rw [turn_enc hr hp] at hturn
  obtain ⟨hkind, rfl⟩ := kindOf_of_encodeTurn hturn
  exact ⟨rfl, wf_of_encodeTurn hcoder hplace hp hturn, hkind⟩

end Sys2Proof.Machine


/-! SUPPORT. The stream headers and the frame header, emitted and decoded (O27, O30, O32, O34). -/

namespace Sys2Proof

/-- The bytes of two joined 32-bit fields, the upper one first (20_memory.md R65). -/
theorem bytes64_append (hi lo : BitVec 32) : bytes64 (hi ++ lo) = bytes32 hi ++ bytes32 lo := by
  have hupper (start : Nat) : (hi ++ lo).extractLsb' (start + 32) 8 = hi.extractLsb' start 8 :=
    extract_append_above hi lo start
  have hlower {start : Nat} (h : start + 8 ≤ 32) : (hi ++ lo).extractLsb' start 8 = lo.extractLsb' start 8 :=
    BitVec.extractLsb'_append_eq_of_add_le h
  simp only [bytes64, bytes32, hlower (start := 24) (by decide), hlower (start := 16) (by decide),
    hlower (start := 8) (by decide), hlower (start := 0) (by decide), List.cons_append, List.nil_append]
  rw [hupper 24, hupper 16, hupper 8, hupper 0]

end Sys2Proof

namespace Sys2Proof.Machine

variable {s : State}

/-! ## The encoders' stream headers (42_audio_bitstream.md R181, 44_pixel_encoder.md R242) -/

theorem emitThen_of_room {bs : List Byte} {effect : State → State} (h : s.bp.toNat + bs.length ≤ s.bDesc.cap.toNat) :
    emitThen bs s effect = .next (effect (emitted bs s)) := if_pos ((hasRoom_iff s _).mpr h)

theorem emitted_of_room {bs : List Byte} (h : s.bp.toNat + bs.length ≤ s.bDesc.cap.toNat) : Emitted bs s (emitted bs s) :=
  emitted_of_hasRoom ((hasRoom_iff s _).mpr h)

/-- An emission that moves the encoder to a place and does nothing else. -/
def emittedTo (p : Place) (bs : List Byte) (s : State) : State := { emitted bs s with phase := .enc p }

theorem emittedTo_emits {p : Place} {bs : List Byte} (h : s.bp.toNat + bs.length ≤ s.bDesc.cap.toNat) :
    Emitted bs s (emittedTo p bs s) ∧ (emittedTo p bs s).phase = .enc p ∧
      { emittedTo p bs s with bytes := s.bytes, bp := s.bp, phase := s.phase } = s :=
  ⟨(emitted_of_room h).of_eq rfl rfl, rfl, rfl⟩

theorem encode_qoif (f : ImageFormat) (width height : BitVec 32) (chtag cstag : Byte) :
    encode f (.qoif width height chtag cstag) =
      [0x71, 0x6F, 0x69, 0x66] ++ bytes32 width ++ bytes32 height ++ [chtag, cstag] := by
  rw [encode, bytes32_imageMagic]

theorem encode_qoaf (f : ImageFormat) (samples : BitVec 32) :
    encode f (.qoaf samples) = [0x71, 0x6F, 0x61, 0x66] ++ bytes32 samples := by
  rw [encode, bytes64_append, bytes32_audioMagic]

/-- Settles O27: each header is an emission of its magic and its fields, and a move to the next place. -/
theorem streamHeadersEmit : Obligations.StreamHeadersEmit := by
  intro s
  refine ⟨fun width height chtag cstag hp hcap => ?_, fun samples hp hcap => ?_⟩
  · rw [← encode_qoif s.cfg.image]
    refine ⟨emittedTo .pixel _ s, ?_, emittedTo_emits hcap⟩
    simp only [exec, execQoif, hp]
    exact emitThen_of_room hcap
  · rw [← encode_qoaf s.cfg.image]
    refine ⟨emittedTo .frame _ s, ?_, emittedTo_emits hcap⟩
    simp only [exec, execQoaf, hp]
    exact emitThen_of_room hcap

/-! ## The audio stream header, decoded (43_audio_commands.md R221, R222) -/

/-- The channels and the rate a decoder latches from the peeked word are its two upper fields. -/
theorem latchStream_append (samples : BitVec 32) (channels : BitVec 8) (rate : BitVec 24) (low : BitVec 32) (s : State) :
    latchStream samples (channels ++ rate ++ low) s =
      { s with stSamples := samples, stChannels := channels, stRate := rate } := by
  have hchannels : (channels ++ rate ++ low).extractLsb' (24 + 32) 8 = channels := by
    rw [extract_append_above, BitVec.extractLsb'_append_eq_left]
  have hrate : (channels ++ rate ++ low).extractLsb' 32 24 = rate := extract_append_middle _ _ _
  rw [latchStream, hrate]
  congr 1

/-- A readable word whose fields pass the checks is latched, and the frame loop is next. -/
theorem peekFrame_of_read {samples : BitVec 32} {w : Word64} (hread : readBytes s 8 8 = .ok (bytes64 w))
    (hchecks : firstError (peekChecks (latchStream samples w s)) = none) :
    peekFrame samples s = .next { latchStream samples w s with phase := .dec .frame } := by
  have hword : takeWord64 (bytes64 w) = some (w, []) := takeWord64_bytes64 w []
  simp only [peekFrame, hread, hword]
  exact checked_of_none hchecks

/-- A decoder at the stream header looks at the first frame header, unless the stream has no sample count. -/
theorem exec_qoaf_dec {samples : BitVec 32} (hp : s.phase = .dec .audioHeader) (hn : samples ≠ 0) :
    exec (.qoaf samples) s = peekFrame samples { s with bp := s.bp + 8 } := by
  simp only [exec, execQoaf, hp, if_neg hn]

/-- Settles O30: the two checks hold by the premises, and the latches are the fields of the two words. -/
theorem qoafDecodes : Obligations.QoafDecodes := by
  intro s samples channels rate low hp hn hread hch hcap
  have hchecks : firstError
      (peekChecks (latchStream samples (channels ++ rate ++ low) { s with bp := s.bp + 8 })) = none := by
    simp only [latchStream_append, firstError_none, peekChecks, List.forall_mem_cons, decide_eq_false_iff_not, not_lt]
    exact ⟨hch, hcap, nofun⟩
  refine ⟨_, (exec_qoaf_dec hp hn).trans (peekFrame_of_read hread hchecks), ?_⟩
  rw [latchStream_append]
  exact ⟨rfl, rfl, rfl, rfl, rfl, rfl⟩

/-! ## The frame header (42_audio_bitstream.md R183, R184, 43_audio_commands.md R224) -/

theorem afterFrameHeader_of_zero (h : s.stChannels = 0) : afterFrameHeader s = none := by
  rw [afterFrameHeader, h]
  rfl

theorem afterFrameHeader_of_ne_zero (h : s.stChannels ≠ 0) : afterFrameHeader s = some (.hist 0) :=
  if_neg fun h0 => h (BitVec.eq_of_toNat_eq h0)

/-- A decoder's state behind a frame header: the latches, and the cursor past the word. -/
def frameRead (channels : BitVec 8) (rate : BitVec 24) (fsamples fsize : BitVec 16) (s : State) : State :=
  { latchFrame channels rate fsamples fsize s with bp := s.bp + 8 }

theorem exec_frame_dec {channels : BitVec 8} {rate : BitVec 24} {fsamples fsize : BitVec 16}
    (hp : s.phase = .dec .frame) (hchecks : firstError (frameChecks (frameRead channels rate fsamples fsize s)) = none) :
    exec (.frame channels rate fsamples fsize) s = .next
      (decodeOnward (afterFrameHeader (frameRead channels rate fsamples fsize s))
        (frameRead channels rate fsamples fsize s)) := by
  simp only [exec, execFrame, hp]
  exact checked_of_none hchecks

/-- A frame's size covers its header, its snapshots and its slices (43_audio_commands.md R224 b). -/
theorem frameTooSmall_eq_false_iff : frameTooSmall s = false ↔
    8 + 16 * s.stChannels.toNat ≤ s.fSize.toNat ∧
    (s.fSamples.toNat + 19) / 20 * s.stChannels.toNat ≤ (s.fSize.toNat - 8 - 16 * s.stChannels.toNat) / 8 := by
  rw [frameTooSmall, Bool.or_eq_false_iff, decide_eq_false_iff_not, decide_eq_false_iff_not, not_lt, not_lt, Nat.sub_sub]
  rfl

/-- Going on leaves the frame latches alone. -/
theorem decodeOnward_keeps_latches (next : Option Place) (s : State) :
    (decodeOnward next s).fChannels = s.fChannels ∧ (decodeOnward next s).fRate = s.fRate ∧
    (decodeOnward next s).fSamples = s.fSamples ∧ (decodeOnward next s).fSize = s.fSize ∧
    (decodeOnward next s).fStart = s.fStart := by
  obtain ⟨sp, bp, p, he, -⟩ := decodeOnward_frame next s
  rw [he]
  exact ⟨rfl, rfl, rfl, rfl, rfl⟩

/-- Settles O32: the four checks hold by the premises; the stream's channels decide what follows. -/
theorem frameDecodes : Obligations.FrameDecodes := by
  intro s channels rate fsamples fsize hp hch hrate hcover hslices hlen hsamples
  subst hch hrate
  have hchecks : firstError (frameChecks (frameRead s.stChannels s.stRate fsamples fsize s)) = none := by
    have hsmall : frameTooSmall (frameRead s.stChannels s.stRate fsamples fsize s) = false :=
      frameTooSmall_eq_false_iff.mpr ⟨hcover, hslices⟩
    simp only [firstError_none, frameChecks, List.forall_mem_cons, hsmall, decide_eq_false_iff_not, not_lt,
      Bool.or_eq_false_iff, not_not]
    exact ⟨⟨rfl, rfl⟩, trivial, hlen, hsamples, nofun⟩
  have hcursor : (s.bp + 8).toNat = s.bp.toNat + 8 := toNat_bp_add_word (by omega)
  have hexec := exec_frame_dec hp hchecks
  generalize hs1 : frameRead s.stChannels s.stRate fsamples fsize s = s1 at hexec
  obtain ⟨hchannels, hrate, hfsamples, hfsize, hstart⟩ := decodeOnward_keeps_latches (afterFrameHeader s1) s1
  obtain ⟨sp, bp, p, hframe, -⟩ := decodeOnward_frame (afterFrameHeader s1) s1
  subst hs1
  refine ⟨_, hexec, hchannels, hrate, hfsamples, hfsize, hstart, fun hsome => ?_, fun hzero => ?_, by rw [hframe]; rfl⟩
  · rw [afterFrameHeader_of_ne_zero (s := frameRead ..) hsome]
    exact ⟨hcursor, rfl, rfl⟩
  · rw [afterFrameHeader_of_zero (s := frameRead ..) hzero, decodeOnward_none, frameEndCursor_eq]
    refine ⟨?_, toNat_advanceSamples (s := frameRead s.stChannels s.stRate fsamples fsize s) hsamples, rfl⟩
    change (if s.cfg.frameAdvance = .consumed then s.bp + 8 else s.bp + fsize.setWidth 32).toNat = _
    split
    · exact hcursor
    · rw [BitVec.toNat_add, BitVec.toNat_setWidth]
      omega

theorem exec_frame_enc {channels : BitVec 8} {rate : BitVec 24} {fsamples fsize : BitVec 16}
    (hp : s.phase = .enc .frame) :
    exec (.frame channels rate fsamples fsize) s =
      emitThen (bytes64 (channels ++ rate ++ fsamples ++ fsize)) (latchFrame channels rate fsamples fsize s)
        fun s1 => encodeOnward (afterFrameHeader s1) s1 := by
  simp only [exec, execFrame, hp, encode]

/-- Settles O34: the word is emitted behind the latches, and the stream has a channel to go on with. -/
theorem frameEmits : Obligations.FrameEmits := by
  intro s channels rate fsamples fsize hp hcap hch
  have hlen : (bytes64 (channels ++ rate ++ fsamples ++ fsize)).length = 8 := rfl
  have hsome : s.stChannels ≠ 0 := fun h0 => by simp [h0] at hch
  rw [exec_frame_enc hp]
  generalize bytes64 (channels ++ rate ++ fsamples ++ fsize) = bs at hlen ⊢
  have hroom : (latchFrame channels rate fsamples fsize s).bp.toNat + bs.length ≤
      (latchFrame channels rate fsamples fsize s).bDesc.cap.toNat := hlen ▸ hcap
  have hnext : afterFrameHeader (emitted bs (latchFrame channels rate fsamples fsize s)) = some (.hist 0) :=
    afterFrameHeader_of_ne_zero hsome
  rw [emitThen_of_room hroom, hnext]
  exact ⟨_, rfl, (emitted_of_room hroom).of_eq rfl rfl, rfl, rfl, rfl, rfl, rfl, rfl, rfl, rfl⟩

end Sys2Proof.Machine


/-! SUPPORT. The two words of a predictor snapshot: what they carry, decoded and emitted (O15, O35, O36). -/

namespace Sys2Proof.Machine

variable {s : State} {c : Fin 8}

/-! ## Registers and their stored fields (42_audio_bitstream.md R185, R186) -/

/-- A stored weight fits every legal register width, so the register takes its value. -/
theorem weightReg_toInt {cfg : Config} (hcfg : cfg.wf = true) (x : BitVec 16) : weightReg cfg x.toInt = x.toInt := by
  simp only [Config.wf, Bool.and_eq_true, decide_eq_true_eq] at hcfg
  obtain ⟨⟨⟨-, hbits⟩, -⟩, -⟩ := hcfg
  have hpow : (2 : Nat) ^ 17 ≤ 2 ^ cfg.wBits := Nat.pow_le_pow_right (by decide) hbits
  have hlo := x.le_toInt
  have hhi := x.toInt_lt
  exact Int.bmod_eq_of_le (by omega) (by omega)

theorem toInt_truncWeight (w : Int) : (truncWeight w).toInt = w.bmod (2 ^ 16) := BitVec.toInt_ofInt w

/-- Reduction to 16 bits keeps exactly the weights of the 16-bit range (70_reset_and_hazards.md R352). -/
theorem bmod_eq_self_iff_storedRange (w : Int) : w.bmod (2 ^ 16) = w ↔ storedRange w := by
  refine ⟨fun h => ?_, fun ⟨hlo, hhi⟩ => Int.bmod_eq_of_le (by omega) (by omega)⟩
  have hlo := Int.le_bmod (x := w) (m := 2 ^ 16) (by decide)
  have hhi := Int.bmod_lt (x := w) (m := 2 ^ 16) (by decide)
  rw [h] at hlo hhi
  constructor <;> omega

/-- A history register of the 16-bit range is loaded as it was stored. -/
theorem sext16_trunc16 {h : BitVec 32} (hr : sampleRange h) : sext16 (trunc16 h) = h := by
  obtain ⟨hlo, hhi⟩ := hr
  refine BitVec.eq_of_toInt_eq ?_
  have hstored : (trunc16 h).toInt = h.toInt.bmod (2 ^ 16) := by
    rw [trunc16, BitVec.toInt_setWidth, BitVec.toInt_eq_toNat_bmod, Int.bmod_bmod_of_dvd (by decide)]
  rw [toInt_sext16, hstored, Int.bmod_eq_of_le (by omega) (by omega)]

/-- What a decoder loads from the snapshot of a predictor state. -/
theorem snapshot_loaded {cfg : Config} {st : Predictor} (before : Predictor) (hcfg : cfg.wf = true)
    (hst : st.historyLegal) :
    loadWeights cfg (loadHistory before (trunc16 st.h0) (trunc16 st.h1) (trunc16 st.h2) (trunc16 st.h3))
      (truncWeight st.w0) (truncWeight st.w1) (truncWeight st.w2) (truncWeight st.w3) =
    { st with
      w0 := st.w0.bmod (2 ^ 16), w1 := st.w1.bmod (2 ^ 16)
      w2 := st.w2.bmod (2 ^ 16), w3 := st.w3.bmod (2 ^ 16) } := by
  obtain ⟨h0, h1, h2, h3⟩ := hst
  simp only [loadWeights, loadHistory, weightReg_toInt hcfg, ← toInt_truncWeight, sext16_trunc16 h0, sext16_trunc16 h1,
    sext16_trunc16 h2, sext16_trunc16 h3]

/-- Settles O15: the loaded state is the encoder's with each weight reduced, so they agree where no weight changes. -/
theorem snapshotRoundTrip : Obligations.SnapshotRoundTrip := by
  intro cfg st before hcfg hst loaded
  have hloaded : loaded = _ := snapshot_loaded before hcfg hst
  rw [hloaded]
  refine ⟨rfl, rfl, rfl, rfl, rfl, rfl, rfl, rfl, ?_⟩
  cases st
  simp only [Predictor.mk.injEq, and_true, ← bmod_eq_self_iff_storedRange]

/-! ## The place after a snapshot -/

theorem nextChannel_eq_some {d : Fin 8} (hd : d.val = c.val + 1) (h : d.val < s.stChannels.toNat) :
    nextChannel s c = some d := by
  have hlt : c.val + 1 < 8 := hd ▸ d.isLt
  rw [nextChannel, dif_pos hlt, if_pos (hd ▸ h)]
  exact congrArg some (Fin.ext hd.symm)

theorem sliceCount_eq_zero_iff {n : Nat} : sliceCount n = 0 ↔ n = 0 := by
  simp only [sliceCount, ceilDiv, sliceLen]
  omega

theorem afterWeights_nextChannel {d : Fin 8} (hd : d.val = c.val + 1) (h : d.val < s.stChannels.toNat) :
    afterWeights s c = some (.hist d) := by
  simp only [afterWeights, nextChannel_eq_some hd h]

theorem afterWeights_firstSlice (hlast : s.stChannels.toNat ≤ c.val + 1) (hmore : 0 < s.fSamples.toNat) :
    afterWeights s c = some (.slice 0 0) := by
  simp only [afterWeights, nextChannel_of_last hlast, if_neg (mt sliceCount_eq_zero_iff.mp (Nat.ne_of_gt hmore))]

theorem afterWeights_frameEnd (hlast : s.stChannels.toNat ≤ c.val + 1) (hend : s.fSamples.toNat = 0) :
    afterWeights s c = none := by
  simp only [afterWeights, nextChannel_of_last hlast, if_pos (sliceCount_eq_zero_iff.mpr hend)]

/-- A frame of no samples leaves the sample cursor where it is. -/
theorem advanceSamples_of_zero (h : s.fSamples.toNat = 0) : advanceSamples s = s.sp := by
  have hzero : s.fSamples = 0 := BitVec.eq_of_toNat_eq h
  simp [advanceSamples, hzero]

/-! ## The words decoded -/

/-- A decoder's state behind a snapshot word: the channel's registers loaded, and the cursor past the word. -/
def snapshotRead (c : Fin 8) (st : Predictor) (s : State) : State := { setPredictor s c st with bp := s.bp + 8 }

theorem exec_hist_dec {x0 x1 x2 x3 : BitVec 16} (hp : s.phase = .dec (.hist c)) :
    exec (.hist x0 x1 x2 x3) s =
      .next { snapshotRead c (loadHistory s.pred[c.val] x0 x1 x2 x3) s with phase := .dec (.wght c) } := by
  simp only [exec, execHist, hp]
  rfl

theorem exec_wght_dec {x0 x1 x2 x3 : BitVec 16} (hp : s.phase = .dec (.wght c)) :
    exec (.wght x0 x1 x2 x3) s =
      .next (decodeOnward (afterWeights s c) (snapshotRead c (loadWeights s.cfg s.pred[c.val] x0 x1 x2 x3) s)) := by
  simp only [exec, execWght, hp]
  rfl

theorem snapshotRead_pred_self (c : Fin 8) (st : Predictor) (s : State) : (snapshotRead c st s).pred[c.val] = st :=
  Vector.getElem_set_self ..

theorem snapshotRead_pred_other {d : Fin 8} (h : d ≠ c) (st : Predictor) (s : State) :
    (snapshotRead c st s).pred[d.val] = s.pred[d.val] := getElem_set_other_channel _ h _

/-- Settles O35: the registers by the one write of the register file, the place by the three cases of what follows the
weights. -/
theorem snapshotWordsLoad : Obligations.SnapshotWordsLoad := by
  intro s c x0 x1 x2 x3 hcfg hlen
  have hcursor : (s.bp + 8).toNat = s.bp.toNat + 8 := toNat_bp_add_word hlen
  refine ⟨fun hp => ?_, fun hp => ?_⟩
  · refine ⟨_, exec_hist_dec hp, ?_⟩
    simp only [snapshotRead_pred_self, true_and]
    exact ⟨toInt_sext16 x0, toInt_sext16 x1, toInt_sext16 x2, toInt_sext16 x3, rfl, rfl, rfl, rfl,
      fun d hd => snapshotRead_pred_other hd _ s, hcursor, rfl⟩
  · obtain ⟨hpred, -⟩ := decodeOnward_keeps (afterWeights s c)
      (snapshotRead c (loadWeights s.cfg s.pred[c.val] x0 x1 x2 x3) s)
    obtain ⟨sp, bp, p, hframe, -⟩ := decodeOnward_frame (afterWeights s c)
      (snapshotRead c (loadWeights s.cfg s.pred[c.val] x0 x1 x2 x3) s)
    refine ⟨_, exec_wght_dec hp, ?_⟩
    simp only [hpred, snapshotRead_pred_self]
    refine ⟨weightReg_toInt hcfg x0, weightReg_toInt hcfg x1, weightReg_toInt hcfg x2, weightReg_toInt hcfg x3,
      rfl, rfl, rfl, rfl, fun d hd => snapshotRead_pred_other hd _ s, fun d hd hlt => ?_, fun hlast hmore => ?_,
      fun hlast hend => ?_, by rw [hframe]; rfl⟩
    · rw [afterWeights_nextChannel hd hlt]
      exact ⟨rfl, hcursor, rfl⟩
    · rw [afterWeights_firstSlice hlast hmore]
      exact ⟨rfl, hcursor, rfl⟩
    · rw [afterWeights_frameEnd hlast hend, decodeOnward_none, frameEndCursor_eq]
      exact ⟨rfl, advanceSamples_of_zero (s := snapshotRead ..) hend, rfl⟩

/-! ## The words emitted -/

theorem exec_wght_enc {x0 x1 x2 x3 : BitVec 16} (hp : s.phase = .enc (.wght c))
    (hcap : s.bp.toNat + 8 ≤ s.bDesc.cap.toNat) :
    exec (.wght x0 x1 x2 x3) s =
      .next (encodeOnward (afterWeights s c) (emitted (bytes64 (x0 ++ x1 ++ x2 ++ x3)) s)) := by
  simp only [exec, execWght, hp]
  exact emitThen_of_room hcap

/-- Settles O36: the output by the emission, the place by what follows the weights. -/
theorem snapshotWordsEmit : Obligations.SnapshotWordsEmit := by
  intro s c x0 x1 x2 x3 hcap
  refine ⟨fun hp => ?_, fun hp => ?_⟩
  · refine ⟨emittedTo (.wght c) _ s, ?_, emittedTo_emits hcap⟩
    simp only [exec, execHist, hp]
    exact emitThen_of_room hcap
  · obtain ⟨-, -, hbytes, hbp, hsearch⟩ :=
      encodeOnward_keeps (afterWeights s c) (emitted (bytes64 (x0 ++ x1 ++ x2 ++ x3)) s)
    obtain ⟨sp, p, hframe, -⟩ := encodeOnward_frame (afterWeights s c) (emitted (bytes64 (x0 ++ x1 ++ x2 ++ x3)) s)
    refine ⟨_, exec_wght_enc hp hcap, (emitted_of_room hcap).of_eq hbytes hbp, hsearch, fun d hd hlt => ?_,
      fun hlast hmore => ?_, by rw [hframe]; rfl⟩
    · rw [afterWeights_nextChannel hd hlt]
      exact ⟨rfl, rfl⟩
    · rw [afterWeights_firstSlice hlast hmore]
      exact ⟨rfl, rfl⟩

end Sys2Proof.Machine

/-! SUPPORT. From a good state an encoder has room for every unit it emits, so it ends with its stream's length (O58). -/

namespace Sys2Proof.Machine

variable {s t : State} {p : Place}

/-! ## Units of `AUD_ENC` with room -/

/-- Of the two outcomes of an emission, room leaves the first (20_memory.md R79). -/
theorem eq_of_step_of_room {n : Nat} {reached raised : State}
    (hcases : (hasRoom s n = true ∧ step s = .next reached) ∨ (hasRoom s n = false ∧ step s = .next raised))
    (hroom : s.bp.toNat + n ≤ s.bDesc.cap.toNat) (h : step s = .next t) : t = reached := by
  rcases hcases with ⟨-, he⟩ | ⟨hfull, -⟩
  · exact Host.Outcome.next.inj (h.symm.trans he)
  · exact absurd ((hasRoom_iff s n).mpr hroom) (Bool.eq_false_iff.mp hfull)

/-- With room for a word `AUD_ENC` goes on, but where the frame loop ends. -/
theorem goesOn_of_audio_room (hr : s.resetLine = false) (hp : s.phase = .enc p) (haudio : p.isImage = false)
    (hloop : p = .frame → s.sp.toNat < s.stSamples.toNat) (hroom : s.bp.toNat + 8 ≤ s.bDesc.cap.toNat)
    (h : step s = .next t) : EncoderGoesOn s t := by
  cases p with
  | imageHeader | pixel | imageFooter => cases haudio
  | audioHeader =>
    obtain rfl := eq_of_step_of_room (step_enc_audioHeader hr hp) hroom h
    exact ⟨rfl, rfl, rfl, .audioHeader, .frame, hp, rfl, rfl⟩
  | frame =>
    have hcases := (step_enc_frame hr hp).resolve_left fun hend => hend.1.not_gt (hloop rfl)
    obtain rfl := eq_of_step_of_room (hcases.imp And.right And.right) hroom h
    exact encoderGoesOn_encodeOnward hp rfl (fun q => afterFrameHeader_isImage) rfl rfl rfl
  | hist c =>
    obtain rfl := eq_of_step_of_room (step_enc_hist hr hp) hroom h
    exact ⟨rfl, rfl, rfl, .hist c, .wght c, hp, rfl, rfl⟩
  | wght c =>
    obtain rfl := eq_of_step_of_room (step_enc_wght hr hp) hroom h
    exact encoderGoesOn_encodeOnward hp rfl (fun q => afterWeights_isImage) rfl rfl rfl
  | slice k c =>
    rcases step_enc_slice hr hp h with ⟨-, xs, -, rfl⟩ | ⟨-, best, bs, -, -, -, ⟨-, rfl⟩ | ⟨hfull, -⟩⟩
    · exact ⟨rfl, rfl, rfl, .slice k c, .slice k c, hp, hp, rfl⟩
    · exact encoderGoesOn_encodeOnward hp rfl (fun q => afterSlice_isImage) rfl rfl rfl
    · exact absurd ((hasRoom_iff s 8).mpr hroom) (Bool.eq_false_iff.mp hfull)

/-! ## Units of `IMG_ENC` with room -/

/-- An emission with room goes on where its effect does. -/
theorem goesOn_of_emitThen {bs : List Byte} {s1 : State} {effect : State → State}
    (hroom : s1.bp.toNat + bs.length ≤ s1.bDesc.cap.toNat) (heffect : EncoderGoesOn s (effect (emitted bs s1)))
    (h : emitThen bs s1 effect = .next t) : EncoderGoesOn s t := by
  rw [emitThen_of_room hroom] at h
  cases h
  exact heffect

theorem goesOn_of_flushRun {px : Pixel} {n : Nat} (hp : s.phase = .enc .pixel) (hpx : readPixel s = .ok px)
    (hroom : s.bp.toNat + 1 ≤ s.bDesc.cap.toNat) (h : flushRun (.run n) s = .next t) : EncoderGoesOn s t := by
  simp only [flushRun, hpx] at h
  refine goesOn_of_emitThen (s1 := { s with run := 0 }) (bs := encode s.cfg.image (.run n)) hroom ?_ h
  split
  · exact encoderGoesOn_pixelCoded hp rfl rfl rfl
  · exact ⟨rfl, rfl, rfl, .pixel, .pixel, hp, hp, rfl⟩

theorem goesOn_of_emitPixel {px : Pixel} {slot : BitVec 6} (hp : s.phase = .enc .pixel) (hpx : readPixel s = .ok px)
    (hroom : s.bp.toNat + 1 ≤ s.bDesc.cap.toNat) (h : emitPixel (.index slot) s = .next t) : EncoderGoesOn s t := by
  simp only [emitPixel, hpx] at h
  exact goesOn_of_emitThen (bs := encode s.cfg.image (.index slot)) hroom (encoderGoesOn_pixelCoded hp rfl rfl rfl) h

theorem goesOn_of_emitMissedPixel {px : Pixel} {i : Instr} (hp : s.phase = .enc .pixel) (hpx : readPixel s = .ok px)
    (hroom : s.bp.toNat + (encode s.cfg.image i).length ≤ s.bDesc.cap.toNat)
    (h : emitMissedPixel i s = .next t) : EncoderGoesOn s t := by
  simp only [emitMissedPixel, hpx] at h
  exact goesOn_of_emitThen (s1 := { s with cache := cacheStore s.cache px }) hroom
    (encoderGoesOn_pixelCoded hp rfl rfl rfl) h

/-- With room for the longest opcode a pixel is coded (44_pixel_encoder.md R253). -/
theorem goesOn_of_pixel_room (hr : s.resetLine = false) (hp : s.phase = .enc .pixel)
    (hroom : s.bp.toNat + 5 ≤ s.bDesc.cap.toNat) (h : step s = .next t) : EncoderGoesOn s t := by
  obtain ⟨px, hpx, ⟨-, -, -, rfl⟩ | ⟨-, -, hf⟩ | ⟨-, -, hf⟩ | ⟨-, -, -, hi⟩ | ⟨-, -, -, hm⟩⟩ := step_enc_pixel hr hp h
  · exact encoderGoesOn_pixelCoded hp rfl rfl rfl
  · exact goesOn_of_flushRun hp hpx (by omega) hf
  · exact goesOn_of_flushRun hp hpx (by omega) hf
  · exact goesOn_of_emitPixel hp hpx (by omega) hi
  · obtain ⟨-, hlen, -⟩ := selectLiteral_cases s.cfg.image px s.pxPrev
    exact goesOn_of_emitMissedPixel hp hpx (by omega) hm

/-! ## The room the geometry leaves -/

/-- Where a word is still to come, the capacity has room for it (43_audio_commands.md R211, R213). -/
theorem room_of_streamLeft {n : Nat} (h : AudioEncodeOk s) (hleft : streamLeft s n) (hn : 8 ≤ n) :
    s.bp.toNat + 8 ≤ s.bDesc.cap.toNat := by
  obtain ⟨-, -, -, hcap⟩ := h
  rw [← hleft] at hcap
  omega

/-- `AUD_ENC` has room for a word at every place, but where the frame loop ends (43_audio_commands.md R214). -/
theorem room_of_audio_place (h : PlaceOk s) (hp : s.phase = .enc p) (haudio : p.isImage = false)
    (hloop : p = .frame → s.sp.toNat < s.stSamples.toNat) : s.bp.toNat + 8 ≤ s.bDesc.cap.toNat := by
  cases p with
  | imageHeader | pixel | imageFooter => cases haudio
  | audioHeader =>
    obtain ⟨⟨-, -, -, hcap⟩, hbp, -⟩ := (placeOk_enc_audioHeader hp).mp h
    rw [streamBytes_eq] at hcap
    omega
  | frame =>
    obtain ⟨hok, -, hleft⟩ := (placeOk_enc_frame hp).mp h
    rw [framesBytes_eq_first_add _ (Nat.sub_pos_of_lt (hloop rfl))] at hleft
    exact room_of_streamLeft hok hleft (by omega)
  | hist c =>
    obtain ⟨hok, hc, -, hleft⟩ := (placeOk_enc_hist hp).mp h
    exact room_of_streamLeft hok hleft (by omega)
  | wght c =>
    obtain ⟨hok, -, -, hleft⟩ := (placeOk_enc_wght hp).mp h
    exact room_of_streamLeft hok hleft (by omega)
  | slice k c =>
    obtain ⟨hok, hc, -, -, hleft, -⟩ := (placeOk_enc_slice hp).mp h
    exact room_of_streamLeft hok hleft (by omega)

/-! ## Ends -/

/-- An encoder that goes on stays busy. -/
theorem EncoderGoesOn.busy (h : EncoderGoesOn s t) (hc : ControlOk s) : t.busy = true := by
  obtain ⟨hside, -, -, q, -, hq, -⟩ := h
  exact (congrArg HostSide.busy hside).trans (hc.1.mpr (by simp [hq]))

theorem framesBytes_zero (ch : Nat) : framesBytes 0 ch = 0 := by
  simp [framesBytes, sliceCount, ceilDiv, frameLen, sliceLen]

/-- Behind its last frame `AUD_ENC` has emitted the whole stream (43_audio_commands.md R213). -/
theorem bp_eq_streamBytes (h : PlaceOk s) (hp : s.phase = .enc .frame) (hend : s.stSamples.toNat ≤ s.sp.toNat) :
    s.bp.toNat = streamBytes s.stSamples.toNat s.stChannels.toNat := by
  obtain ⟨-, -, hleft⟩ := (placeOk_enc_frame hp).mp h
  rwa [Nat.sub_eq_zero_of_le hend, framesBytes_zero] at hleft

/-- At the frame loop's end the encode reports its stream (43_audio_commands.md R212). -/
theorem step_enc_frame_end (hr : s.resetLine = false) (hp : s.phase = .enc .frame)
    (hend : s.stSamples.toNat ≤ s.sp.toNat) : step s = .next (streamResult s) := by
  rcases step_enc_frame hr hp with ⟨-, he⟩ | ⟨hmore, -⟩ | ⟨hmore, -⟩
  · exact he
  · exact absurd hend hmore.not_ge
  · exact absurd hend hmore.not_ge

/-- A step that ends `AUD_ENC` is the one behind its last frame. -/
theorem audioEncode_ends (hplace : PlaceOk s) (hc : ControlOk s) (hr : s.resetLine = false) (hp : s.phase = .enc p)
    (haudio : p.isImage = false) (h : step s = .next t) (hb : t.busy = false) :
    t = streamResult s ∧ s.bp.toNat = streamBytes s.stSamples.toNat s.stChannels.toNat := by
  by_cases hend : p = .frame ∧ s.stSamples.toNat ≤ s.sp.toNat
  · obtain ⟨rfl, hend⟩ := hend
    have ht := h.symm.trans (step_enc_frame_end hr hp hend)
    exact ⟨Host.Outcome.next.inj ht, bp_eq_streamBytes hplace hp hend⟩
  · have hloop : p = .frame → s.sp.toNat < s.stSamples.toNat := fun hframe => not_le.mp fun hle => hend ⟨hframe, hle⟩
    have hroom := room_of_audio_place hplace hp haudio hloop
    have hgoes := goesOn_of_audio_room hr hp haudio hloop hroom h
    exact absurd (hgoes.busy hc) (Bool.eq_false_iff.mp hb)

/-- A step that ends `IMG_ENC`, where the largest stream has room, is its footer's, within that stream
(44_pixel_encoder.md R253). -/
theorem imageEncode_ends (hplace : PlaceOk s) (hc : ControlOk s) (hr : s.resetLine = false) (hp : s.phase = .enc p)
    (himage : p.isImage = true) (hcap : 22 + 5 * encPixelCount s ≤ s.bDesc.cap.toNat) (h : step s = .next t)
    (hb : t.busy = false) :
    ∃ s1, t = streamResult s1 ∧ s1.bp.toNat ≤ 22 + 5 * encPixelCount s := by
  cases p with
  | audioHeader | frame | hist | wght | slice => cases himage
  | imageHeader =>
    obtain ⟨-, hbp, -⟩ := (placeOk_enc_imageHeader hp).mp hplace
    obtain ⟨bs, -, -, hcases⟩ := step_enc_imageHeader hr hp
    obtain rfl := eq_of_step_of_room hcases (by omega) h
    have hgoes : EncoderGoesOn s { emitted bs s with phase := .enc .pixel } :=
      ⟨rfl, rfl, rfl, .imageHeader, .pixel, hp, rfl, rfl⟩
    exact absurd (hgoes.busy hc) (Bool.eq_false_iff.mp hb)
  | pixel =>
    obtain ⟨-, hpp, hbp⟩ := (placeOk_enc_pixel hp).mp hplace
    have hgoes := goesOn_of_pixel_room hr hp (by omega) h
    exact absurd (hgoes.busy hc) (Bool.eq_false_iff.mp hb)
  | imageFooter =>
    obtain ⟨-, -, hbp⟩ := (placeOk_enc_imageFooter hp).mp hplace
    have hroom : s.bp.toNat + 8 ≤ s.bDesc.cap.toNat := by omega
    refine ⟨_, eq_of_step_of_room (step_enc_imageFooter hr hp) hroom h, ?_⟩
    have hnext : (emitted (encode s.cfg.image .footer) s).bp.toNat = s.bp.toNat + 8 :=
      (bp_emitted ((hasRoom_iff s 8).mpr hroom)).1
    omega

/-- Settles O58: the steps that end an encode are its stream's last, by the room the geometry leaves. -/
theorem encodersFit : Obligations.EncodersFit := by
  intro s t p hgood hr hp h
  obtain ⟨-, -, hcontrol, -, -, -, hplace⟩ := hgood
  refine ⟨fun haudio hb => ?_, fun himage hcap hb => ?_⟩
  · obtain ⟨rfl, hbp⟩ := audioEncode_ends hplace hcontrol hr hp haudio h hb
    exact ⟨rfl, hbp⟩
  · obtain ⟨s1, rfl, hbp⟩ := imageEncode_ends hplace hcontrol hr hp himage hcap h hb
    exact ⟨rfl, hbp⟩

end Sys2Proof.Machine

/-! SUPPORT. The ends of the two audio commands (O39). -/

namespace Sys2Proof.Machine

variable {s : State}

/-- Where the frame loop's condition fails, a decode makes its end checks (43_audio_commands.md R223, R226). -/
theorem step_dec_frame_end (hr : s.resetLine = false) (hp : s.phase = .dec .frame)
    (hend : ¬(s.bp.toNat < s.bDesc.len.toNat ∧ s.sp.toNat < s.stSamples.toNat)) : step s = finishAudioDecode s := by
  simp only [step, turn_dec hr hp, decodeTurn, reduceCtorEq, false_and, if_false, hend, not_false_eq_true, and_self,
    if_true]

/-- With every sample there and the input consumed the decode has its results (43_audio_commands.md R227). -/
theorem finishAudioDecode_of_complete (hsp : s.sp = s.stSamples) (hbp : s.bp = s.bDesc.len) :
    finishAudioDecode s = .next (audioResults s) :=
  checked_of_none (by simp [firstError, hsp, hbp])

/-- Else it raises `E_EOF` (43_audio_commands.md R226). -/
theorem finishAudioDecode_of_incomplete (h : ¬(s.sp = s.stSamples ∧ s.bp = s.bDesc.len)) :
    finishAudioDecode s = .next (raiseErr .eEof s) := by
  have hfails : (decide (s.sp ≠ s.stSamples) || decide (s.bp ≠ s.bDesc.len)) = true := by
    simpa [imp_iff_not_or] using h
  exact checked_of_error (by simp only [firstError, hfails, if_true])

/-- Settles O39: the end checks decide a decode's end, and an encode's is its stream's result. -/
theorem audioCommandsEnd : Obligations.AudioCommandsEnd := by
  intro s hr
  refine ⟨fun hp hsp hbp hcount => ?_, fun hp hend hincomplete => ?_, fun hp hend => ?_⟩
  · have hend : ¬(s.bp.toNat < s.bDesc.len.toNat ∧ s.sp.toNat < s.stSamples.toNat) := by simp [hsp]
    refine ⟨audioResults s, (step_dec_frame_end hr hp hend).trans (finishAudioDecode_of_complete hsp hbp),
      rfl, rfl, rfl, ?_, rfl, rfl, rfl, rfl, rfl, rfl, rfl⟩
    exact BitVec.toNat_ofNat _ _ |>.trans (Nat.mod_eq_of_lt hcount)
  · exact ⟨_, (step_dec_frame_end hr hp hend).trans (finishAudioDecode_of_incomplete hincomplete),
      raised_raiseErr .eEof s⟩
  · exact ⟨_, step_enc_frame_end hr hp hend, rfl, rfl, rfl, rfl, rfl, rfl⟩

end Sys2Proof.Machine


/-! SUPPORT. The pixel encoder's turn (O22), its opcodes emitted (O19, O20) and its footer (O29). -/

namespace Sys2Proof.Machine

variable {s : State} {px : Pixel} {i : Instr}

/-! ## The turn at a pixel (44_pixel_encoder.md R243) -/

/-- A pixel that ends a full or last run closes it (44_pixel_encoder.md R243 c). -/
theorem turn_pixel_closesRun (hr : s.resetLine = false) (hp : s.phase = .enc .pixel) (hpx : readPixel s = .ok px)
    (hsame : px = s.pxPrev) (hfull : s.run.toNat + 1 = 62 ∨ s.pp.toNat + 1 = encPixelCount s) :
    turn s = .run (.run (s.run.toNat + 1)) s := by
  simp only [turn_enc hr hp, encodeTurn, pixelTurn, hpx, runMax, if_pos hsame]
  exact if_pos hfull

/-- Any other pixel of the previous colour extends the run without a byte. -/
theorem turn_pixel_extendsRun (hr : s.resetLine = false) (hp : s.phase = .enc .pixel) (hpx : readPixel s = .ok px)
    (hsame : px = s.pxPrev) (hfull : ¬(s.run.toNat + 1 = 62 ∨ s.pp.toNat + 1 = encPixelCount s)) :
    turn s = .quiet (.next (extendRun s)) := by
  simp only [turn_enc hr hp, encodeTurn, pixelTurn, hpx, runMax, if_pos hsame]
  exact if_neg hfull

/-- Another colour flushes a pending run. -/
theorem turn_pixel_flushesRun (hr : s.resetLine = false) (hp : s.phase = .enc .pixel) (hpx : readPixel s = .ok px)
    (hnew : px ≠ s.pxPrev) (hrun : s.run ≠ 0) : turn s = .run (.run s.run.toNat) s := by
  simp only [turn_enc hr hp, encodeTurn, pixelTurn, hpx, if_neg hnew, if_pos hrun]

/-- Another colour in no run takes the opcode its cache slot and its deltas select. -/
theorem turn_pixel_selects (hr : s.resetLine = false) (hp : s.phase = .enc .pixel) (hpx : readPixel s = .ok px)
    (hnew : px ≠ s.pxPrev) (hrun : s.run = 0) : turn s = .run (selectOpcode px s.pxPrev s.cache) s := by
  simp only [turn_enc hr hp, encodeTurn, pixelTurn, hpx, if_neg hnew, hrun, ne_eq, not_true_eq_false, if_false]

/-! ## The selector's conditions (44_pixel_encoder.md R244 to R249) -/

/-- The wrapped difference is the balanced remainder modulo 256 (00_scope.md R12). -/
theorem s8_eq_bmod (v : Int) : s8 v = v.bmod 256 := BitVec.toInt_ofInt v

theorem colourDelta_eq_bmod (now before : Byte) : colourDelta now before = ((now.toNat : Int) - before.toNat).bmod 256 :=
  s8_eq_bmod _

theorem toNat_pixelHash (px : Pixel) :
    (pixelHash px).toNat = (px.r.toNat * 3 + px.g.toNat * 5 + px.b.toNat * 7 + px.a.toNat * 11) % 64 :=
  BitVec.toNat_ofNat _ _

theorem diffApplies_iff {dr dg db : Int} :
    diffApplies dr dg db = true ↔ -2 ≤ dr ∧ dr ≤ 1 ∧ -2 ≤ dg ∧ dg ≤ 1 ∧ -2 ≤ db ∧ db ≤ 1 := by
  simp only [diffApplies, Bool.and_eq_true, inRange_iff, and_assoc]

theorem lumaApplies_iff {dg drg dbg : Int} :
    lumaApplies dg drg dbg = true ↔ -32 ≤ dg ∧ dg ≤ 31 ∧ -8 ≤ drg ∧ drg ≤ 7 ∧ -8 ≤ dbg ∧ dbg ≤ 7 := by
  simp only [lumaApplies, Bool.and_eq_true, inRange_iff, and_assoc]

/-- Settles O22: the turn by the run, the opcode by the selector's tests in their order. -/
theorem selectorPriority : Obligations.SelectorPriority := by
  intro s px hr hp hpx
  have selects := turn_pixel_selects hr hp hpx
  simp only [selectOpcode, selectLiteral, diffApplies_iff, lumaApplies_iff, colourDelta_eq_bmod, s8_eq_bmod] at selects
  refine ⟨toNat_pixelHash px, turn_pixel_closesRun hr hp hpx, fun hsame hfull => ?_, turn_pixel_flushesRun hr hp hpx,
    fun hnew hrun hhit => ?_, fun hnew hrun hmiss ha hsmall => ?_, fun hnew hrun hmiss ha hsmall hmedium => ?_,
    fun hnew hrun hmiss ha hsmall hmedium => ?_, fun hnew hrun hmiss ha => ?_⟩
  · subst hsame
    refine ⟨extendRun s, ?_, rfl, ⟨rfl, rfl, rfl⟩, by simp⟩
    rw [step, turn_pixel_extendsRun hr hp hpx rfl hfull]
  · rw [selects hnew hrun, if_pos hhit]
  · rw [selects hnew hrun, if_neg hmiss, if_pos ha, if_pos hsmall]
  · rw [selects hnew hrun, if_neg hmiss, if_pos ha, if_neg hsmall, if_pos hmedium]
  · rw [selects hnew hrun, if_neg hmiss, if_pos ha, if_neg hsmall, if_neg hmedium]
  · rw [selects hnew hrun, if_neg hmiss, if_neg ha]

/-! ## Opcodes emitted (44_pixel_encoder.md R243 to R250) -/

/-- The opcodes of a cache miss (44_pixel_encoder.md R247 to R249). -/
def IsLiteral (i : Instr) : Prop :=
  (∃ r g b, i = .rgb r g b) ∨ (∃ r g b a, i = .rgba r g b a) ∨ (∃ dr dg db, i = .diff dr dg db) ∨
    (∃ dg drg dbg, i = .luma dg drg dbg)

/-- Such an opcode in an encoder is the emission of a missed pixel. -/
theorem IsLiteral.exec_enc (hi : IsLiteral i) (hp : s.phase = .enc .pixel) : exec i s = emitMissedPixel i s := by
  rcases hi with ⟨r, g, b, rfl⟩ | ⟨r, g, b, a, rfl⟩ | ⟨dr, dg, db, rfl⟩ | ⟨dg, drg, dbg, rfl⟩
  · simp only [exec, execRgb, hp]
  · simp only [exec, execRgba, hp]
  · simp only [exec, execDiff, hp]
  · simp only [exec, execLuma, hp]

theorem IsLiteral.length_encode (hi : IsLiteral i) (f : ImageFormat) : (encode f i).length = unitLength i := by
  rcases hi with ⟨r, g, b, rfl⟩ | ⟨r, g, b, a, rfl⟩ | ⟨dr, dg, db, rfl⟩ | ⟨dg, drg, dbg, rfl⟩ <;> rfl

theorem exec_index_enc {slot : BitVec 6} (hp : s.phase = .enc .pixel) :
    exec (.index slot) s = emitPixel (.index slot) s := by
  simp only [exec, execIndex, hp]

theorem exec_run_enc {n : Nat} (hp : s.phase = .enc .pixel) : exec (.run n) s = flushRun (.run n) s := by
  simp only [exec, execRun, hp]

/-- The encoder after a pixel that one opcode codes and no cache slot takes. -/
def hitCoded (px : Pixel) (i : Instr) (s : State) : State := pixelCoded px (emitted (encode s.cfg.image i) s)

/-- The encoder after a pixel that one opcode codes and its cache slot takes. -/
def missCoded (px : Pixel) (i : Instr) (s : State) : State := hitCoded px i { s with cache := cacheStore s.cache px }

/-- The encoder after a RUN: the pixel at the cursor is coded with it exactly where it continues the run. -/
def runFlushed (px : Pixel) (n : Nat) (s : State) : State :=
  if px = s.pxPrev then hitCoded px (.run n) { s with run := 0 }
  else emitted (encode s.cfg.image (.run n)) { s with run := 0 }

theorem emitPixel_of_room (hpx : readPixel s = .ok px)
    (hroom : s.bp.toNat + (encode s.cfg.image i).length ≤ s.bDesc.cap.toNat) :
    emitPixel i s = .next (hitCoded px i s) := by
  simp only [emitPixel, hpx]
  exact emitThen_of_room hroom

theorem emitMissedPixel_of_room (hpx : readPixel s = .ok px)
    (hroom : s.bp.toNat + (encode s.cfg.image i).length ≤ s.bDesc.cap.toNat) :
    emitMissedPixel i s = .next (missCoded px i s) := by
  simp only [emitMissedPixel, hpx]
  exact emitThen_of_room (s := { s with cache := cacheStore s.cache px }) hroom

theorem flushRun_of_room {n : Nat} (hpx : readPixel s = .ok px) (hroom : s.bp.toNat + 1 ≤ s.bDesc.cap.toNat) :
    flushRun (.run n) s = .next (runFlushed px n s) := by
  simp only [flushRun, hpx]
  exact emitThen_of_room (s := { s with run := 0 }) (bs := encode s.cfg.image (.run n)) hroom

theorem emitted_hitCoded (px : Pixel) (hroom : s.bp.toNat + (encode s.cfg.image i).length ≤ s.bDesc.cap.toNat) :
    Emitted (encode s.cfg.image i) s (hitCoded px i s) := (emitted_of_room hroom).of_eq rfl rfl

/-- Settles O19: the bytes by the emission, the cache by the one store of a miss. -/
theorem opcodesEmit : Obligations.OpcodesEmit := by
  intro s px i hp hpx hcap
  refine ⟨fun hi => ?_, ?_⟩
  · have hlit : IsLiteral i := hi
    rw [← hlit.length_encode s.cfg.image] at hcap
    exact ⟨missCoded px i s, (hlit.exec_enc hp).trans (emitMissedPixel_of_room hpx hcap),
      (emitted_hitCoded px hcap).of_eq rfl rfl, cacheSlot_cacheStore s.cache px, ⟨rfl, rfl, rfl⟩, by simp [missCoded, hitCoded]⟩
  · rintro ⟨slot, rfl⟩
    exact ⟨hitCoded px (.index slot) s, (exec_index_enc hp).trans (emitPixel_of_room hpx hcap),
      emitted_hitCoded px hcap, ⟨rfl, rfl, rfl⟩, by simp [hitCoded]⟩

/-- Settles O20: the two cases of the pixel at the cursor, each an emission. -/
theorem runEmits : Obligations.RunEmits := by
  intro s px n hp hpx hcap
  refine ⟨runFlushed px n s, (exec_run_enc hp).trans (flushRun_of_room hpx hcap), ?_⟩
  by_cases hsame : px = s.pxPrev
  · rw [runFlushed, if_pos hsame]
    exact ⟨(emitted_hitCoded (i := .run n) px hcap).of_eq rfl rfl, rfl, fun _ => ⟨rfl, rfl, rfl⟩,
      fun hnew => absurd hsame hnew, by simp [hitCoded]⟩
  · rw [runFlushed, if_neg hsame]
    exact ⟨(emitted_of_room (bs := encode s.cfg.image (.run n)) hcap).of_eq rfl rfl, rfl, fun h => absurd h hsame,
      fun _ => ⟨rfl, rfl, rfl⟩, by simp⟩

/-! ## The footer (44_pixel_encoder.md R252) -/

theorem encode_footer (f : ImageFormat) : encode f .footer = [0, 0, 0, 0, 0, 0, 0, 1] := by
  change bytes64 imageFooterWord = _
  decide

/-- Settles O29: the emission of the marker, then the stream's result. -/
theorem footerEndsImageEncode : Obligations.FooterEndsImageEncode := by
  intro s hp hcap
  rw [← encode_footer s.cfg.image]
  refine ⟨streamResult (emitted (encode s.cfg.image .footer) s), ?_, (emitted_of_room hcap).of_eq rfl rfl,
    rfl, rfl, rfl, rfl, rfl, by simp⟩
  simp only [exec, execFooter, hp]
  exact emitThen_of_room hcap

end Sys2Proof.Machine


/-! SUPPORT. The pixel decoder reads what the pixel encoder selects (O23). -/

namespace Sys2Proof.Machine

variable {s t : State} {px : Pixel}

/-! ## Deltas and their colours (44_pixel_encoder.md R247, R248; 45_pixel_decoder.md R274, R275) -/

/-- A wrapped term of a wrapped sum counts as the term itself. -/
theorem wrap8u_add_s8 (v w : Int) : wrap8u (v + s8 w) = wrap8u (v + w) := by
  simp only [wrap8u, s8, BitVec.ofInt_add, BitVec.ofInt_toInt]

/-- A channel's delta leads back to the channel. -/
theorem wrap8u_add_colourDelta (now before : Byte) : wrap8u (before.toNat + colourDelta now before) = now := by
  rw [colourDelta, wrap8u_add_s8, add_sub_cancel]
  simp only [wrap8u, BitVec.ofInt_natCast, BitVec.ofNat_toNat, BitVec.setWidth_eq]

theorem diffColour_colourDelta {prev : Pixel} (ha : px.a = prev.a) :
    diffColour prev (colourDelta px.r prev.r) (colourDelta px.g prev.g) (colourDelta px.b prev.b) = px := by
  simp only [diffColour, wrap8u_add_colourDelta, ← ha]

/-- A channel's cross delta, with the green delta, leads back to the channel too. -/
theorem wrap8u_add_crossDelta (now before : Byte) (dg : Int) :
    wrap8u (before.toNat + dg + s8 (colourDelta now before - dg)) = now := by
  rw [wrap8u_add_s8, add_assoc, add_sub_cancel, wrap8u_add_colourDelta]

theorem lumaColour_colourDelta {prev : Pixel} (ha : px.a = prev.a) :
    lumaColour prev (colourDelta px.g prev.g) (s8 (colourDelta px.r prev.r - colourDelta px.g prev.g))
      (s8 (colourDelta px.b prev.b - colourDelta px.g prev.g)) = px := by
  simp only [lumaColour, wrap8u_add_crossDelta, wrap8u_add_colourDelta, ← ha]

/-! ## A selected opcode on both sides -/

theorem isLiteral_selectLiteral (px prev : Pixel) : IsLiteral (selectLiteral px prev) := by
  simp only [selectLiteral]
  split_ifs
  · exact .inr (.inr (.inl ⟨_, _, _, rfl⟩))
  · exact .inr (.inr (.inr ⟨_, _, _, rfl⟩))
  · exact .inl ⟨_, _, _, rfl⟩
  · exact .inr (.inl ⟨_, _, _, _, rfl⟩)

/-- The encoder's selected opcode stores its pixel in the cache: a hit's slot holds it already (44_pixel_encoder.md R245,
R246). -/
theorem exec_selectOpcode_enc (hp : s.phase = .enc .pixel) (hpx : readPixel s = .ok px)
    (hroom : s.bp.toNat + unitLength (selectOpcode px s.pxPrev s.cache) ≤ s.bDesc.cap.toNat) :
    exec (selectOpcode px s.pxPrev s.cache) s = .next (missCoded px (selectOpcode px s.pxPrev s.cache) s) := by
  by_cases hhit : cacheSlot s.cache (pixelHash px) = px
  · rw [selectOpcode, if_pos hhit] at hroom ⊢
    rw [exec_index_enc hp, emitPixel_of_room (i := .index (pixelHash px)) hpx hroom, missCoded, cacheStore_of_hit hhit]
  · rw [selectOpcode, if_neg hhit] at hroom ⊢
    have hlit := isLiteral_selectLiteral px s.pxPrev
    rw [← hlit.length_encode s.cfg.image] at hroom
    rw [hlit.exec_enc hp, emitMissedPixel_of_room hpx hroom]

/-- The decoder after an opcode of `n` bytes that gives the colour `px`. -/
def colourProduced (px : Pixel) (n : Nat) (s : State) : State := pixelProduced (colourSet px n s)

theorem producePixel_of_room (hroom : s.pp.toNat < s.pDesc.cap.toNat) : producePixel s = .next (pixelProduced s) :=
  if_neg hroom.not_ge

/-- On the previous pixel and the cache it was selected by, the decoder takes the opcode for its pixel. -/
theorem exec_selectOpcode_dec (hp : s.phase = .dec .pixel) (hroom : s.pp.toNat < s.pDesc.cap.toNat) :
    ∃ n, exec (selectOpcode px s.pxPrev s.cache) s = .next (colourProduced px n s) := by
  have produces (n : Nat) : producePixel (colourSet px n s) = .next (colourProduced px n s) := producePixel_of_room hroom
  simp only [selectOpcode, selectLiteral]
  split_ifs with hhit ha hdiff hluma
  · simp only [exec, execIndex, hp, hhit]
    exact ⟨1, produces 1⟩
  · simp only [exec, execDiff, hp, diffColour_colourDelta ha]
    exact ⟨1, produces 1⟩
  · simp only [exec, execLuma, hp, lumaColour_colourDelta ha]
    exact ⟨2, produces 2⟩
  · simp only [exec, execRgb, hp, ← ha]
    exact ⟨4, produces 4⟩
  · simp only [exec, execRgba, hp]
    exact ⟨5, produces 5⟩

/-! ## A RUN on both sides -/

theorem selectOpcode_ne_run (px prev : Pixel) (cache : Vector Pixel 64) (n : Nat) :
    selectOpcode px prev cache ≠ .run n := by
  simp only [selectOpcode, selectLiteral]
  split_ifs <;> nofun

/-- A selected RUN has as many pixels as the encoder counted, the one at the cursor with them where it continues the run
(44_pixel_encoder.md R243). -/
theorem run_length_of_turn {n : Nat} (hr : s.resetLine = false) (hp : s.phase = .enc .pixel) (hpx : readPixel s = .ok px)
    (h : turn s = .run (.run n) s) : n = if px = s.pxPrev then s.run.toNat + 1 else s.run.toNat := by
  by_cases hsame : px = s.pxPrev
  · rw [if_pos hsame]
    by_cases hfull : s.run.toNat + 1 = 62 ∨ s.pp.toNat + 1 = encPixelCount s
    · rw [turn_pixel_closesRun hr hp hpx hsame hfull] at h
      cases h
      rfl
    · rw [turn_pixel_extendsRun hr hp hpx hsame hfull] at h
      cases h
  · rw [if_neg hsame]
    by_cases hrun : s.run = 0
    · rw [turn_pixel_selects hr hp hpx hsame hrun] at h
      exact absurd (Turn.run.inj h).1 (selectOpcode_ne_run px s.pxPrev s.cache n)
    · rw [turn_pixel_flushesRun hr hp hpx hsame hrun] at h
      cases h
      rfl

theorem runFlushed_keeps (px : Pixel) (n : Nat) (s : State) :
    (runFlushed px n s).pxPrev = s.pxPrev ∧ (runFlushed px n s).cache = s.cache ∧ (runFlushed px n s).run = 0 := by
  unfold runFlushed
  split
  · next hsame => exact ⟨hsame, rfl, rfl⟩
  · exact ⟨rfl, rfl, rfl⟩

/-- One element stored, then those behind it. -/
theorem StoredAt.cons {α : Type} {m m' : Space α} {a : Nat} {v : α} {vs : List α}
    (h : StoredAt (Space.write m a v) m' (a + 1) vs) : StoredAt m m' a (v :: vs) := by
  intro k
  rw [h k, Space.read_write, List.length_cons]
  rcases Nat.lt_trichotomy k a with hlt | rfl | hgt
  · rw [if_neg (by omega), if_neg (by omega), if_neg (by omega)]
  · rw [if_neg (by omega), if_pos rfl, if_pos (by omega), Nat.sub_self]
    rfl
  · obtain ⟨j, rfl⟩ := Nat.exists_eq_add_of_lt hgt
    have hold : a + j + 1 - a = j + 1 := by omega
    have hnext : a + j + 1 - (a + 1) = j := by omega
    rw [hold, hnext, List.getElem?_cons_succ, if_neg (show a + j + 1 ≠ a by omega)]
    exact if_congr (by omega) rfl rfl

/-- The decoder wrote its colour at the next `n` pixels, and the colour and the cache are as before (45_pixel_decoder.md
R271, R277). -/
def ColourRepeated (n : Nat) (s t : State) : Prop :=
  t.pxPrev = s.pxPrev ∧ t.cache = s.cache ∧
    StoredAt s.pixels t.pixels s.pp.toNat (List.replicate n s.pxPrev) ∧ t.pp.toNat = s.pp.toNat + n

theorem colourRepeated_zero (s : State) : ColourRepeated 0 s s := by
  refine ⟨rfl, rfl, fun k => ?_, rfl⟩
  rw [if_neg (by simp)]

/-- One pixel of the colour, then `n` more. -/
theorem ColourRepeated.succ {n : Nat} (hroom : s.pp.toNat < s.pDesc.cap.toNat) (h : ColourRepeated n (pixelProduced s) t) :
    ColourRepeated (n + 1) s t := by
  obtain ⟨hprev, hcache, hpixels, hpp⟩ := h
  have hnext : (pixelProduced s).pp.toNat = s.pp.toNat + 1 := toNat_succ_of_lt hroom
  rw [hnext] at hpixels hpp
  exact ⟨hprev, hcache, hpixels.cons, hpp.trans (by omega)⟩

/-- A step inside a run takes one from the counter and writes the colour (45_pixel_decoder.md R271). -/
theorem step_dec_run (hr : s.resetLine = false) (hp : s.phase = .dec .pixel) (hrun : s.run ≠ 0)
    (hroom : s.pp.toNat < s.pDesc.cap.toNat) : step s = .next (pixelProduced { s with run := s.run - 1 }) := by
  simp only [step, turn_dec hr hp, decodeTurn, hrun, ne_eq, not_false_eq_true, and_self, if_true, consumeRun]
  exact producePixel_of_room hroom

/-- As many steps as the counter says write the colour as many times and end the run. -/
theorem run_dec_run (n : Nat) (hr : s.resetLine = false) (hp : 0 < n → s.phase = .dec .pixel) (hrun : s.run.toNat = n)
    (hcap : s.pp.toNat + n ≤ s.pDesc.cap.toNat) (hcount : s.pp.toNat + n ≤ decPixelCount s) :
    ∃ t, Host.Core.run Sys2Proof.core n s = .next t ∧ ColourRepeated n s t ∧ t.run = 0 := by
  induction n generalizing s with
  | zero => exact ⟨s, rfl, colourRepeated_zero s, BitVec.eq_of_toNat_eq hrun⟩
  | succ n ih =>
    have hroom : s.pp.toNat < s.pDesc.cap.toNat := by omega
    have hactive : s.run ≠ 0 := fun h => by simp [h] at hrun
    have hpp : (s.pp + 1).toNat = s.pp.toNat + 1 := toNat_succ_of_lt hroom
    have hone : (s.run - 1).toNat = n := by bv_omega
    obtain ⟨t, ht, hrepeated, hended⟩ := ih (s := pixelProduced { s with run := s.run - 1 }) hr
      (fun hn => if_pos (show s.pp.toNat + 1 < decPixelCount s by omega)) hone
      (show (s.pp + 1).toNat + n ≤ s.pDesc.cap.toNat by omega) (show (s.pp + 1).toNat + n ≤ decPixelCount s by omega)
    exact ⟨t, (run_succ_of_step (step_dec_run hr (hp n.succ_pos) hactive hroom)).trans ht,
      ColourRepeated.succ (s := { s with run := s.run - 1 }) hroom hrepeated, hended⟩

/-- The decoder after a RUN of `n` pixels (45_pixel_decoder.md R277). -/
def runStarted (n : Nat) (s : State) : State := pixelProduced { s with run := BitVec.ofNat 6 (n - 1), bp := s.bp + 1 }

theorem exec_run_dec {n : Nat} (hp : s.phase = .dec .pixel) (hroom : s.pp.toNat < s.pDesc.cap.toNat) :
    exec (.run n) s = .next (runStarted n s) := by
  simp only [exec, execRun, hp]
  exact producePixel_of_room hroom

/-- A RUN and the steps of its run write the colour as often as the run is long. -/
theorem run_runStarted {n : Nat} (hr : s.resetLine = false) (hn : 1 ≤ n ∧ n ≤ 62)
    (hcap : s.pp.toNat + n ≤ s.pDesc.cap.toNat) (hcount : s.pp.toNat + n ≤ decPixelCount s) :
    ∃ t, Host.Core.run Sys2Proof.core (n - 1) (runStarted n s) = .next t ∧ ColourRepeated n s t ∧ t.run = 0 := by
  obtain ⟨m, rfl⟩ := Nat.exists_eq_add_of_le' hn.1
  have hroom : s.pp.toNat < s.pDesc.cap.toNat := by omega
  have hpp : (s.pp + 1).toNat = s.pp.toNat + 1 := toNat_succ_of_lt hroom
  have hlength : (BitVec.ofNat 6 (m + 1 - 1)).toNat = m := by
    rw [BitVec.toNat_ofNat, Nat.add_sub_cancel, Nat.mod_eq_of_lt (by omega)]
  obtain ⟨t, ht, hrepeated, hended⟩ := run_dec_run (s := runStarted (m + 1) s) m hr
    (fun hm => if_pos (show s.pp.toNat + 1 < decPixelCount s by omega)) hlength
    (show (s.pp + 1).toNat + m ≤ s.pDesc.cap.toNat by omega) (show (s.pp + 1).toNat + m ≤ decPixelCount s by omega)
  exact ⟨t, ht, ColourRepeated.succ (s := { s with run := BitVec.ofNat 6 (m + 1 - 1), bp := s.bp + 1 }) hroom hrepeated,
    hended⟩

/-! ## The two in step -/

/-- What the encoder selects at a pixel is a well-formed image opcode. -/
theorem wf_of_turn_pixel {i : Instr} (hr : s.resetLine = false) (hp : s.phase = .enc .pixel) (hcoder : PixelCoderOk s)
    (h : turn s = .run i s) : i.wf = true ∧ kindOf i = .opcode := by
  rw [turn_enc hr hp] at h
  obtain ⟨hkind, -⟩ := kindOf_of_encodeTurn h
  exact ⟨wf_of_pixelTurn hcoder h, hkind⟩

/-- Its bytes decode to it, whatever stands behind them (44_pixel_encoder.md R255). -/
theorem decode_encode_of_turn_pixel {i : Instr} (hr : s.resetLine = false) (hp : s.phase = .enc .pixel)
    (hf : s.cfg.image.wf = true) (hcoder : PixelCoderOk s) (h : turn s = .run i s) (rest : List Byte) :
    decode s.cfg.image .opcode (encode s.cfg.image i ++ rest) = .ok i rest := by
  obtain ⟨hwf, hkind⟩ := wf_of_turn_pixel hr hp hcoder h
  exact hkind ▸ decodeOfEncode s.cfg.image i rest hf hwf

/-- Settles O23: an opcode by what each side does with the one selected, a RUN by the decoder's steps through it. -/
theorem decoderFollowsPixelEncoder : Obligations.DecoderFollowsPixelEncoder := by
  intro e d px hre hrd hpe hpd hpx himage hf hprev hcache hlegal hrun hdrun
  have hcoder : PixelCoderOk e := ⟨hrun, hlegal⟩
  refine ⟨fun i hnew hnone hturn hroom hcap => ?_, fun n hturn hroom hcap hcount => ?_, fun hsame hsilent => ?_⟩
  · have hselect := turn_pixel_selects hre hpe hpx hnew hnone
    obtain rfl : selectOpcode px e.pxPrev e.cache = i := (Turn.run.inj (hselect.symm.trans hturn)).1
    obtain ⟨n, hdec⟩ := exec_selectOpcode_dec (px := px) hpd hcap
    rw [← hprev, ← hcache] at hdec
    refine ⟨_, _, exec_selectOpcode_enc hpe hpx hroom, hdec, rfl, rfl, congrArg (cacheStore · px) hcache,
      (hcache ▸ hlegal).store px, ?_, toNat_succ_of_lt hcap, hnone, hdrun, fun rest => ?_⟩
    · exact (Space.read_write ..).trans (if_pos rfl)
    · rw [← himage]
      exact decode_encode_of_turn_pixel hre hpe hf hcoder hturn rest
  · obtain ⟨hwf, -⟩ := wf_of_turn_pixel hre hpe hcoder hturn
    have hn := wf_run_iff.mp hwf
    obtain ⟨hprev', hcache', hrun'⟩ := runFlushed_keeps px n e
    obtain ⟨d', hsteps, ⟨hdprev, hdcache, hpixels, hpp⟩, hended⟩ := run_runStarted hrd hn hcap hcount
    refine ⟨run_length_of_turn hre hpe hpx hturn, runFlushed px n e, runStarted n d, d',
      (exec_run_enc hpe).trans (flushRun_of_room hpx hroom), exec_run_dec hpd (by omega), hsteps, hprev',
      hdprev.trans hprev.symm, hcache', hdcache.trans hcache.symm, hprev ▸ hpixels, hpp, hrun', hended, fun rest => ?_⟩
    rw [← himage]
    exact decode_encode_of_turn_pixel hre hpe hf hcoder hturn rest
  · have hfull : ¬(e.run.toNat + 1 = 62 ∨ e.pp.toNat + 1 = encPixelCount e) := fun hfull =>
      hsilent ⟨_, turn_pixel_closesRun hre hpe hpx hsame hfull⟩
    refine ⟨extendRun e, ?_, ?_, rfl, rfl, rfl, rfl⟩
    · rw [step, turn_pixel_extendsRun hre hpe hpx hsame hfull]
    · change (e.run + 1).toNat = _
      bv_omega

end Sys2Proof.Machine


/-! SUPPORT. The pixel decoder: its opcodes (O16, O17, O18), its header (O25, O26) and its footer (O28). -/

namespace Sys2Proof.Machine

variable {s : State} {px : Pixel} {i : Instr}

/-! ## The end of a pixel step (45_pixel_decoder.md R271, R278) -/

/-- A produced pixel is the current colour at the pixel cursor. -/
theorem pixelWritten_pixelProduced (s : State) : PixelWritten s.pxPrev s (pixelProduced s) :=
  ⟨storedAt_write s.pixels s.pp.toNat s.pxPrev, rfl, rfl⟩

/-- With the opcode inside the input, a produced colour is a decoded one. -/
theorem colourDecoded_colourProduced {n : Nat} (px : Pixel) (hbp : s.bp.toNat + n ≤ s.bDesc.len.toNat) :
    ColourDecoded px n s (colourProduced px n s) :=
  ⟨rfl, toNat_add_of_le hbp, cacheSlot_cacheStore s.cache px, pixelWritten_pixelProduced (colourSet px n s), rfl⟩

/-- An opcode that sets a colour completes with that colour. -/
theorem colourDecoded_of_exec {n : Nat} (hexec : exec i s = producePixel (colourSet px n s))
    (hroom : s.pp.toNat < s.pDesc.cap.toNat) (hbp : s.bp.toNat + n ≤ s.bDesc.len.toNat) :
    ∃ t, exec i s = .next t ∧ ColourDecoded px n s t :=
  ⟨colourProduced px n s, hexec.trans (producePixel_of_room hroom), colourDecoded_colourProduced px hbp⟩

/-! ## The colour of each opcode (45_pixel_decoder.md R272 to R276) -/

theorem exec_rgb_dec (hp : s.phase = .dec .pixel) (r g b : Byte) :
    exec (.rgb r g b) s = producePixel (colourSet ⟨r, g, b, s.pxPrev.a⟩ 4 s) := by
  simp only [exec, execRgb, hp]

theorem exec_rgba_dec (hp : s.phase = .dec .pixel) (r g b a : Byte) :
    exec (.rgba r g b a) s = producePixel (colourSet ⟨r, g, b, a⟩ 5 s) := by
  simp only [exec, execRgba, hp]

theorem exec_index_dec (hp : s.phase = .dec .pixel) (slot : BitVec 6) :
    exec (.index slot) s = producePixel (colourSet (cacheSlot s.cache slot) 1 s) := by
  simp only [exec, execIndex, hp]

theorem exec_diff_dec (hp : s.phase = .dec .pixel) (dr dg db : Int) :
    exec (.diff dr dg db) s = producePixel (colourSet (diffColour s.pxPrev dr dg db) 1 s) := by
  simp only [exec, execDiff, hp]

theorem exec_luma_dec (hp : s.phase = .dec .pixel) (dg drg dbg : Int) :
    exec (.luma dg drg dbg) s = producePixel (colourSet (lumaColour s.pxPrev dg drg dbg) 2 s) := by
  simp only [exec, execLuma, hp]

/-- Settles O16: each opcode sets its colour and produces the pixel. -/
theorem literalsAndIndexDecode : Obligations.LiteralsAndIndexDecode := by
  intro s hp hroom
  exact ⟨fun r g b hbp => colourDecoded_of_exec (exec_rgb_dec hp r g b) hroom hbp,
    fun r g b a hbp => colourDecoded_of_exec (exec_rgba_dec hp r g b a) hroom hbp,
    fun slot hbp => colourDecoded_of_exec (exec_index_dec hp slot) hroom hbp⟩

/-- A wrapped channel is the remainder modulo 256 (00_scope.md R12). -/
theorem toNat_wrap8u (v : Int) : ((wrap8u v).toNat : Int) = v % 256 := by
  rw [wrap8u, BitVec.toNat_ofInt]
  exact Int.toNat_of_nonneg (Int.emod_nonneg v (by decide))

/-- Settles O17: the colour is the previous one with its channels' wrapped sums. -/
theorem deltasDecode : Obligations.DeltasDecode := by
  intro s hp hroom
  refine ⟨fun dr dg db hbp => ?_, fun dg drg dbg hbp => ?_⟩
  · obtain ⟨t, hexec, hdecoded⟩ := colourDecoded_of_exec (exec_diff_dec hp dr dg db) hroom hbp
    exact ⟨t, _, hexec, hdecoded, toNat_wrap8u _, toNat_wrap8u _, toNat_wrap8u _, rfl⟩
  · obtain ⟨t, hexec, hdecoded⟩ := colourDecoded_of_exec (exec_luma_dec hp dg drg dbg) hroom hbp
    exact ⟨t, _, hexec, hdecoded, toNat_wrap8u _, toNat_wrap8u _, toNat_wrap8u _, rfl⟩

/-! ## Runs (45_pixel_decoder.md R271, R277) -/

/-- The counter after a RUN holds the pixels still to come, at most 61, which its six bits hold. -/
theorem toNat_runStarted_run {n : Nat} (hn : n ≤ 62) : (runStarted n s).run.toNat = n - 1 :=
  (BitVec.toNat_ofNat _ _).trans (Nat.mod_eq_of_lt (by omega))

/-- An active run's counter goes down by one. -/
theorem toNat_run_sub_one (hrun : s.run ≠ 0) : (s.run - 1).toNat = s.run.toNat - 1 := by
  bv_omega

/-- Settles O18: the opcode starts the run with its first pixel, and each later step of the run produces one more. -/
theorem runRepeatsTheColour : Obligations.RunRepeatsTheColour := by
  intro s hp hroom
  refine ⟨fun n _ hn hbp => ?_, fun hr hrun => ?_⟩
  · exact ⟨runStarted n s, exec_run_dec hp hroom, toNat_runStarted_run hn, toNat_add_of_le hbp,
      pixelWritten_pixelProduced { s with run := BitVec.ofNat 6 (n - 1), bp := s.bp + 1 }, rfl⟩
  · exact ⟨_, step_dec_run hr hp hrun hroom, toNat_run_sub_one hrun,
      pixelWritten_pixelProduced { s with run := s.run - 1 }, rfl⟩

/-! ## The header (45_pixel_decoder.md R270) -/

section
variable {width height : BitVec 32} {chtag cstag : Byte}

/-- The tags an image header may hold (60_exceptions.md R311). -/
def GoodTags (chtag cstag : Byte) : Prop := (chtag = 3 ∨ chtag = 4) ∧ (cstag = 0 ∨ cstag = 1)

theorem badTags_eq_false :
    (!(decide (chtag = 3) || decide (chtag = 4)) || !(decide (cstag = 0) || decide (cstag = 1))) = false ↔
      GoodTags chtag cstag := by
  simp only [GoodTags, Bool.or_eq_false_iff, Bool.not_eq_false', Bool.or_eq_true, decide_eq_true_eq]

theorem exec_qoif_dec (hp : s.phase = .dec .imageHeader) :
    exec (.qoif width height chtag cstag) s =
      checked (imageHeaderChecks width height chtag cstag s) s (startPixels width height chtag cstag s) := by
  simp only [exec, execQoif, hp]

/-- A bad dimension fails the first check (60_exceptions.md R309, R314). -/
theorem firstError_imageHeader_dimensions (h : ¬(goodDimension width ∧ goodDimension height)) :
    firstError (imageHeaderChecks width height chtag cstag s) = some .eInvalidDimensions := by
  rw [← badDimensions_eq_false, Bool.not_eq_false] at h
  exact if_pos h

/-- With good dimensions a bad tag fails the next one (60_exceptions.md R311). -/
theorem firstError_imageHeader_tags (hd : goodDimension width ∧ goodDimension height) (h : ¬GoodTags chtag cstag) :
    firstError (imageHeaderChecks width height chtag cstag s) = some .eInvalidTag := by
  rw [← badTags_eq_false, Bool.not_eq_false] at h
  rw [imageHeaderChecks, badDimensions_eq_false.mpr hd]
  exact if_pos h

/-- With good tags too the output's capacity decides (60_exceptions.md R304). -/
theorem firstError_imageHeader_capacity (hd : goodDimension width ∧ goodDimension height) (ht : GoodTags chtag cstag) :
    firstError (imageHeaderChecks width height chtag cstag s) =
      if s.pDesc.cap.toNat < width.toNat * height.toNat then some .eMemory else none := by
  rw [imageHeaderChecks, badDimensions_eq_false.mpr hd, badTags_eq_false.mpr ht]
  simp only [firstError, Bool.false_eq_true, if_false, decide_eq_true_eq]

/-- A failing check of the header is the error raised. -/
theorem raised_of_imageHeader {e : ErrKind} (hp : s.phase = .dec .imageHeader)
    (h : firstError (imageHeaderChecks width height chtag cstag s) = some e) :
    ∃ t, exec (.qoif width height chtag cstag) s = .next t ∧ Raised e s t :=
  ⟨raiseErr e s, (exec_qoif_dec hp).trans (checked_of_error h), raised_raiseErr e s⟩

end

/-- Settles O25: no check fails, so the pixel loop starts. -/
theorem qoifDecodes : Obligations.QoifDecodes := by
  intro s width height chtag cstag hp hwidth hheight hchtag hcstag hcap
  have hnone := (firstError_imageHeader_capacity (s := s) ⟨hwidth, hheight⟩ ⟨hchtag, hcstag⟩).trans (if_neg hcap.not_gt)
  exact ⟨startPixels width height chtag cstag s, (exec_qoif_dec hp).trans (checked_of_none hnone), rfl, rfl, rfl,
    cacheSlot_clearCache, rfl, rfl, rfl, rfl⟩

/-- Settles O26: the first failing check in each of the three cases. -/
theorem qoifRejects : Obligations.QoifRejects := by
  intro s width height chtag cstag hp dimensions tags
  exact ⟨fun hd => raised_of_imageHeader hp (firstError_imageHeader_dimensions hd),
    fun hd ht => raised_of_imageHeader hp (firstError_imageHeader_tags hd ht),
    fun hd ht hcap => raised_of_imageHeader hp ((firstError_imageHeader_capacity hd ht).trans (if_pos hcap))⟩

/-! ## The footer (45_pixel_decoder.md R280, R281) -/

theorem exec_footer_dec (hp : s.phase = .dec .imageFooter) : exec .footer s = .next (imageResults s) := by
  simp only [exec, execFooter, hp]

/-- The output length is the pixel count where the register holds it. -/
theorem toNat_imageResults_len (h : decPixelCount s < 2 ^ 32) :
    (imageResults s).pDesc.len.toNat = s.hdr.width.toNat * s.hdr.height.toNat :=
  (BitVec.toNat_ofNat _ _).trans (Nat.mod_eq_of_lt h)

/-- Settles O28: the results of a finished decode. -/
theorem footerEndsImageDecode : Obligations.FooterEndsImageDecode := by
  intro s hp hcount
  exact ⟨imageResults s, exec_footer_dec hp, rfl, rfl, rfl, rfl, toNat_imageResults_len hcount, rfl, rfl, rfl, rfl, rfl,
    rfl, rfl⟩

end Sys2Proof.Machine


/-! SUPPORT. Every step of a running command brings its end nearer (O57). -/

namespace Sys2Proof.Machine

variable {s t : State} {p : Place}

/-! ## The bound at each place -/

theorem turnsLeft_of_idle (hp : s.phase = .idle) : turnsLeft s = 0 := by
  unfold turnsLeft
  rw [hp]

theorem turnsLeft_dec_imageHeader (hp : s.phase = .dec .imageHeader) : turnsLeft s = maxDim * maxDim + 2 := by
  unfold turnsLeft
  rw [hp]

theorem turnsLeft_dec_pixel (hp : s.phase = .dec .pixel) : turnsLeft s = decPixelCount s - s.pp.toNat + 1 := by
  unfold turnsLeft
  rw [hp]

theorem turnsLeft_dec_imageFooter (hp : s.phase = .dec .imageFooter) : turnsLeft s = 1 := by
  unfold turnsLeft
  rw [hp]

theorem turnsLeft_dec_audio (hp : s.phase = .dec p) (haudio : p.isImage = false) :
    turnsLeft s = s.bDesc.len.toNat - s.bp.toNat + 1 := by
  unfold turnsLeft
  rw [hp]
  cases p with
  | imageHeader | pixel | imageFooter => cases haudio
  | _ => rfl

theorem turnsLeft_enc_imageHeader (hp : s.phase = .enc .imageHeader) : turnsLeft s = 2 * encPixelCount s + 3 := by
  unfold turnsLeft
  rw [hp]

theorem turnsLeft_enc_pixel (hp : s.phase = .enc .pixel) :
    turnsLeft s = 2 * (encPixelCount s - s.pp.toNat) + (if s.run = 0 then 0 else 1) + 1 := by
  unfold turnsLeft
  rw [hp]

theorem turnsLeft_enc_imageFooter (hp : s.phase = .enc .imageFooter) : turnsLeft s = 1 := by
  unfold turnsLeft
  rw [hp]

theorem turnsLeft_enc_audio (hp : s.phase = .enc p) (haudio : p.isImage = false) :
    turnsLeft s =
      17 * (streamBytes s.stSamples.toNat s.stChannels.toNat - s.bp.toNat) + (scaleCount - s.search.index) + 1 := by
  unfold turnsLeft
  rw [hp]
  cases p with
  | imageHeader | pixel | imageFooter => cases haudio
  | _ => rfl

/-- A running command has a step to take. -/
theorem turnsLeft_pos (hp : s.phase ≠ .idle) : 0 < turnsLeft s := by
  unfold turnsLeft
  split
  · next hidle => exact absurd hidle hp
  all_goals omega

/-- An ended command has none, so the step that ends it brings the bound down. -/
theorem turnsLeft_lt_of_ended (hp : s.phase ≠ .idle) (ht : t.phase = .idle) : turnsLeft t < turnsLeft s := by
  rw [turnsLeft_of_idle ht]
  exact turnsLeft_pos hp

/-! ## Images -/

/-- A produced pixel leaves one pixel fewer to come, or the footer (45_pixel_decoder.md R271). -/
theorem turnsLeft_pixelProduced (h : ImageDecodeOk s) (hpp : s.pp.toNat < decPixelCount s) :
    turnsLeft (pixelProduced s) < decPixelCount s - s.pp.toNat + 1 := by
  obtain ⟨-, -, -, -, hcap, -⟩ := h
  have hnext : (s.pp + 1).toNat = s.pp.toNat + 1 := toNat_succ_of_lt (hpp.trans_le hcap)
  by_cases hmore : s.pp.toNat + 1 < decPixelCount s
  · rw [turnsLeft_dec_pixel (if_pos hmore), pixelProduced_pp, hnext]
    change decPixelCount s - (s.pp.toNat + 1) + 1 < _
    omega
  · rw [turnsLeft_dec_imageFooter (if_neg hmore)]
    omega

/-- An accepted header leaves at most the pixels of the largest image (60_exceptions.md R309). -/
theorem turnsLeft_startPixels {width height : BitVec 32} {chtag cstag : Byte}
    (hc : firstError (imageHeaderChecks width height chtag cstag s) = none) :
    turnsLeft (startPixels width height chtag cstag s) < maxDim * maxDim + 2 := by
  simp only [firstError_none, imageHeaderChecks, List.forall_mem_cons, Bool.or_eq_false_iff, badDimension_eq_false] at hc
  obtain ⟨⟨⟨-, hw⟩, -, hh⟩, -⟩ := hc
  have hcount : decPixelCount (startPixels width height chtag cstag s) ≤ maxDim * maxDim := Nat.mul_le_mul hw hh
  rw [turnsLeft_dec_pixel rfl]
  omega

theorem ImageDecoded.turnsLeft_lt (hd : ImageDecoded s t) (h : PlaceOk s) : turnsLeft t < turnsLeft s := by
  cases hd with
  | header width height chtag cstag hp _ hc =>
    rw [turnsLeft_dec_imageHeader hp]
    exact turnsLeft_startPixels hc
  | runUnit hp =>
    obtain ⟨himage, hpp⟩ := (placeOk_dec_pixel hp).mp h
    rw [turnsLeft_dec_pixel hp]
    exact turnsLeft_pixelProduced (s := { s with run := s.run - 1 }) himage hpp
  | colour px n hp hb =>
    obtain ⟨himage, hpp⟩ := (placeOk_dec_pixel hp).mp h
    have hbp : (colourSet px n s).bp.toNat ≤ (colourSet px n s).bDesc.len.toNat := (toNat_add_of_le hb).trans_le hb
    rw [turnsLeft_dec_pixel hp]
    exact turnsLeft_pixelProduced (himage.of_bp rfl rfl hbp) hpp
  | run n hp _ hb =>
    obtain ⟨himage, hpp⟩ := (placeOk_dec_pixel hp).mp h
    have hbp : (s.bp + 1).toNat ≤ s.bDesc.len.toNat := (toNat_add_of_le hb).trans_le hb
    rw [turnsLeft_dec_pixel hp]
    exact turnsLeft_pixelProduced (s := { s with run := BitVec.ofNat 6 (n - 1), bp := s.bp + 1 })
      (himage.of_bp rfl rfl hbp) hpp
  | finish hp => exact turnsLeft_lt_of_ended (by simp [hp]) rfl

/-- A coded pixel leaves one pixel fewer to come, each with a flush before it at most, or the footer
(44_pixel_encoder.md R243, R254). -/
theorem turnsLeft_pixelCoded {px : Pixel} (hlen : s.pDesc.len.toNat = encPixelCount s)
    (hpp : s.pp.toNat < encPixelCount s) :
    turnsLeft (pixelCoded px s) ≤ 2 * (encPixelCount s - s.pp.toNat) := by
  have hnext : (s.pp + 1).toNat = s.pp.toNat + 1 := toNat_succ_of_lt (hlen.symm ▸ hpp)
  by_cases hmore : s.pp.toNat + 1 < encPixelCount s
  · rw [turnsLeft_enc_pixel (if_pos hmore), pixelCoded_pp, hnext]
    change 2 * (encPixelCount s - (s.pp.toNat + 1)) + _ + 1 ≤ _
    split <;> omega
  · rw [turnsLeft_enc_imageFooter (if_neg hmore)]
    omega

/-- So a pixel coded from a state with the operands and the cursor of `s` brings the bound down. -/
theorem turnsLeft_pixelCoded_lt {px : Pixel} {s1 : State} (h : PlaceOk s) (hp : s.phase = .enc .pixel)
    (hwidth : s1.iWidth = s.iWidth) (hheight : s1.iHeight = s.iHeight) (hdesc : s1.pDesc = s.pDesc)
    (hpp : s1.pp = s.pp) : turnsLeft (pixelCoded px s1) < turnsLeft s := by
  obtain ⟨⟨-, -, hlen, -⟩, hmore, -⟩ := (placeOk_enc_pixel hp).mp h
  have hcount : encPixelCount s1 = encPixelCount s := by rw [encPixelCount, encPixelCount, hwidth, hheight]
  rw [← hdesc, ← hcount] at hlen
  rw [← hpp, ← hcount] at hmore
  have hle := turnsLeft_pixelCoded (px := px) hlen hmore
  rw [turnsLeft_enc_pixel hp, ← hpp, ← hcount]
  omega

theorem ImageEncoded.turnsLeft_lt (he : ImageEncoded s t) (h : PlaceOk s) : turnsLeft t < turnsLeft s := by
  cases he with
  | header bs hp =>
    rw [turnsLeft_enc_imageHeader hp, turnsLeft_enc_pixel rfl]
    change 2 * (encPixelCount s - s.pp.toNat) + _ + 1 < _
    split <;> omega
  | silent hp => exact turnsLeft_pixelCoded_lt h hp rfl rfl rfl rfl
  | lastOfRun bs px hp => exact turnsLeft_pixelCoded_lt h hp rfl rfl rfl rfl
  | flush bs hp hrun =>
    have hflushed : (emitted bs { s with run := 0 }).phase = .enc .pixel := hp
    rw [turnsLeft_enc_pixel hflushed, turnsLeft_enc_pixel hp, if_pos (emitted_run ..), if_neg hrun]
    exact Nat.lt_succ_self _
  | index bs px hp => exact turnsLeft_pixelCoded_lt h hp rfl rfl rfl rfl
  | literal bs px hp => exact turnsLeft_pixelCoded_lt h hp rfl rfl rfl rfl
  | finish bs hp => exact turnsLeft_lt_of_ended (by simp [hp]) rfl

/-! ## Audio decodes -/

/-- A validated frame's header, snapshots and slices lie within its declared size (43_audio_commands.md R224). -/
theorem FrameDecodeOk.words_le_size (h : FrameDecodeOk s) :
    8 + 16 * s.stChannels.toNat + 8 * (sliceCount s.fSamples.toNat * s.stChannels.toNat) ≤ s.fSize.toNat := by
  obtain ⟨hcover, hslices⟩ := frameTooSmall_eq_false_iff.mp h.2.1
  change sliceCount s.fSamples.toNat * s.stChannels.toNat ≤ _ at hslices
  omega

/-- Going on in a frame never moves the input cursor back (43_audio_commands.md R223). -/
theorem bp_le_decodeOnward (next : Option Place) (h : FrameDecodeOk s)
    (hbp : s.bp.toNat ≤ s.fStart.toNat + s.fSize.toNat) : s.bp.toNat ≤ (decodeOnward next s).bp.toNat := by
  obtain ⟨-, -, hsize, -⟩ := h
  have hlen := s.bDesc.len.isLt
  rcases decodeOnward_cases next s with ⟨q, -, he⟩ | ⟨-, he⟩ <;> rw [he]
  rcases frameEndCursor_cases s with hcursor | hcursor <;> rw [hcursor]
  rw [BitVec.toNat_add, BitVec.toNat_setWidth]
  omega

/-- The word at a decoder's cursor, read before it goes on in its frame. -/
theorem bp_lt_decodeOnward {s1 : State} (next : Option Place) (h : FrameDecodeOk s1)
    (hbp : s1.bp.toNat = s.bp.toNat + 8) (hsize : s.bp.toNat + 8 ≤ s1.fStart.toNat + s1.fSize.toNat) :
    s.bp.toNat < (decodeOnward next s1).bp.toNat := by
  have hle := bp_le_decodeOnward next h (hbp.trans_le hsize)
  omega

/-- A step of `AUD_DEC` that goes on moves the cursor over a word of the input. -/
theorem AudioDecoded.bp_lt (hd : AudioDecoded s t) (h : PlaceOk s) :
    t = audioResults s ∨ (s.bp.toNat + 8 ≤ s.bDesc.len.toNat ∧ s.bp.toNat < t.bp.toNat) := by
  cases hd with
  | header samples w hp hb =>
    have hnext := toNat_bp_add_word hb
    exact .inr ⟨hb, show s.bp.toNat < (s.bp + 8).toNat by omega⟩
  | frame channels rate fsamples fsize s1 hp hs1 hb hc =>
    obtain ⟨haudio, -, -⟩ := (placeOk_dec_frame hp).mp h
    have hframe : FrameDecodeOk s1 := frameDecodeOk_of_checks (hs1 ▸ haudio) hc
    have hsize := hframe.words_le_size
    have hstart : s1.fStart = s.bp := by rw [hs1]; rfl
    have hbp : s1.bp.toNat = s.bp.toNat + 8 := by rw [hs1]; exact toNat_bp_add_word hb
    exact .inr ⟨hb, bp_lt_decodeOnward _ hframe hbp (by rw [hstart]; omega)⟩
  | history c h0 h1 h2 h3 hp hb =>
    have hnext := toNat_bp_add_word hb
    exact .inr ⟨hb, show s.bp.toNat < (s.bp + 8).toNat by omega⟩
  | weights c w0 w1 w2 w3 hp hb =>
    obtain ⟨hframe, hc, hbp⟩ := (placeOk_dec_wght hp).mp h
    have hsize := hframe.words_le_size
    refine .inr ⟨hb, bp_lt_decodeOnward
      (s1 := { setPredictor s c (loadWeights s.cfg s.pred[c.val] w0 w1 w2 w3) with bp := s.bp + 8 })
      _ hframe (toNat_bp_add_word hb) ?_⟩
    simp only [setPredictor_fStart, setPredictor_fSize]
    omega
  | slice k c sf codes hp hb =>
    obtain ⟨hframe, hc, hk, hbp⟩ := (placeOk_dec_slice hp).mp h
    have hsize := hframe.words_le_size
    have hslices : (k + 1) * s.stChannels.toNat ≤ sliceCount s.fSamples.toNat * s.stChannels.toNat :=
      Nat.mul_le_mul_right _ hk
    rw [Nat.add_one_mul] at hslices
    refine .inr ⟨hb, bp_lt_decodeOnward (s1 := sliceDecodedState k c sf codes s) _ hframe (toNat_bp_add_word hb) ?_⟩
    change s.bp.toNat + 8 ≤ s.fStart.toNat + s.fSize.toNat
    omega
  | finish => exact .inl rfl

theorem AudioDecoded.phase_isAudio (hd : AudioDecoded s t) : ∃ p, s.phase = .dec p ∧ p.isImage = false := by
  cases hd with
  | header samples w hp | frame channels rate fsamples fsize s1 hp | history c h0 h1 h2 h3 hp
  | weights c w0 w1 w2 w3 hp | slice k c sf codes hp | finish hp => exact ⟨_, hp, rfl⟩

theorem AudioDecoded.turnsLeft_lt (hd : AudioDecoded s t) (h : PlaceOk s) : turnsLeft t < turnsLeft s := by
  obtain ⟨p, hp, haudio⟩ := hd.phase_isAudio
  rcases hd.goesOn with ⟨hside, -, p', q, hp', hq, himage⟩ | ⟨-, rfl⟩
  · obtain rfl : p = p' := by simpa [hp] using hp'
    rcases hd.bp_lt h with rfl | ⟨hlen, hlt⟩
    · cases hq
    · have hdesc : t.bDesc = s.bDesc := congrArg HostSide.bDesc hside
      rw [turnsLeft_dec_audio hp haudio, turnsLeft_dec_audio hq (himage.trans haudio), hdesc]
      omega
  · exact turnsLeft_lt_of_ended (by simp [hp]) rfl

/-! ## Audio encodes -/

/-- What is left of a stream is not negative: the cursor is within its length (43_audio_commands.md R213). -/
theorem bp_le_streamBytes (h : PlaceOk s) (hp : s.phase = .enc p) (haudio : p.isImage = false) :
    s.bp.toNat ≤ streamBytes s.stSamples.toNat s.stChannels.toNat := by
  have hle {n : Nat} (hleft : streamLeft s n) : s.bp.toNat ≤ streamBytes s.stSamples.toNat s.stChannels.toNat :=
    hleft ▸ Nat.le_add_right _ n
  cases p with
  | imageHeader | pixel | imageFooter => cases haudio
  | audioHeader =>
    obtain ⟨-, hbp, -⟩ := (placeOk_enc_audioHeader hp).mp h
    omega
  | frame =>
    obtain ⟨-, -, hleft⟩ := (placeOk_enc_frame hp).mp h
    exact hle hleft
  | hist c =>
    obtain ⟨-, -, -, hleft⟩ := (placeOk_enc_hist hp).mp h
    exact hle hleft
  | wght c =>
    obtain ⟨-, -, -, hleft⟩ := (placeOk_enc_wght hp).mp h
    exact hle hleft
  | slice k c =>
    obtain ⟨-, -, -, -, hleft, -⟩ := (placeOk_enc_slice hp).mp h
    exact hle hleft

/-- A word of an audio encode is out: the cursor is past it, the stream's length is the same. -/
def WordEmitted (s t : State) : Prop :=
  t.bp.toNat = s.bp.toNat + 8 ∧ t.stSamples = s.stSamples ∧ t.stChannels = s.stChannels

theorem wordEmitted_of_emitted {bs : List Byte} {s1 : State} (hbp : s1.bp = (emitted bs s).bp)
    (hsamples : s1.stSamples = s.stSamples) (hch : s1.stChannels = s.stChannels) (hlen : bs.length = 8)
    (hroom : hasRoom s bs.length = true) : WordEmitted s s1 :=
  ⟨by rw [hbp, (bp_emitted hroom).1, hlen], hsamples, hch⟩

/-- Going on in a frame is no emission. -/
theorem WordEmitted.of_onward {s1 : State} (h : WordEmitted s s1) (next : Option Place) :
    WordEmitted s (encodeOnward next s1) := by
  obtain ⟨sp, q, he, -⟩ := encodeOnward_frame next s1
  rw [he]
  exact h

/-- A step of `AUD_ENC` ends the command, emits a word or takes a turn of a search. -/
theorem AudioEncoded.progress (he : AudioEncoded s t) :
    t = streamResult s ∨ WordEmitted s t ∨
    (s.search.index < scaleCount ∧ ∃ se, se.index = s.search.index + 1 ∧ t = { s with search := se }) := by
  cases he with
  | header bs hp hlen hroom => exact .inr (.inl (wordEmitted_of_emitted rfl rfl rfl hlen hroom))
  | frame bs s1 hp hlen hroom _ hs1 =>
    subst hs1
    exact .inr (.inl ((wordEmitted_of_emitted (s1 := emitted bs (frameLatched s)) rfl rfl rfl hlen hroom).of_onward _))
  | history bs c hp hlen hroom => exact .inr (.inl (wordEmitted_of_emitted rfl rfl rfl hlen hroom))
  | weights bs c hp hlen hroom =>
    exact .inr (.inl ((wordEmitted_of_emitted (s1 := emitted bs s) rfl rfl rfl hlen hroom).of_onward _))
  | search k c xs hp hi => exact .inr (.inr ⟨hi, _, rfl, rfl⟩)
  | slice bs k c best hp _ hlen hroom =>
    exact .inr (.inl ((wordEmitted_of_emitted (s1 := commitSearch c best.sf best (emitted bs s))
      rfl rfl rfl hlen hroom).of_onward _))
  | finish => exact .inl rfl

theorem AudioEncoded.phase_isAudio (he : AudioEncoded s t) : ∃ p, s.phase = .enc p ∧ p.isImage = false := by
  cases he with
  | header bs hp | frame bs s1 hp | history bs c hp | weights bs c hp | search k c xs hp | slice bs k c best hp
  | finish hp => exact ⟨_, hp, rfl⟩

theorem AudioEncoded.turnsLeft_lt (he : AudioEncoded s t) (h : PlaceOk s) : turnsLeft t < turnsLeft s := by
  obtain ⟨p, hp, haudio⟩ := he.phase_isAudio
  rcases he.goesOn with ⟨-, -, -, p', q, hp', hq, himage⟩ | ⟨-, rfl⟩
  · obtain rfl : p = p' := by simpa [hp] using hp'
    have hqaudio : q.isImage = false := himage.trans haudio
    rw [turnsLeft_enc_audio hp haudio, turnsLeft_enc_audio hq hqaudio]
    rcases he.progress with rfl | ⟨hbp, hsamples, hch⟩ | ⟨hi, se, hse, rfl⟩
    · cases hq
    · have hle := bp_le_streamBytes (he.placeOk h) hq hqaudio
      rw [hsamples, hch] at hle ⊢
      simp only [scaleCount]
      omega
    · simp only [hse]
      omega
  · exact turnsLeft_lt_of_ended (by simp [hp]) rfl

/-! ## Runs -/

/-- Every step of a running command brings the bound down. -/
theorem RunningStepped.turnsLeft_lt (hrun : RunningStepped s t) (hp : s.phase ≠ .idle) (h : PlaceOk s) :
    turnsLeft t < turnsLeft s := by
  cases hrun with
  | raised e => exact turnsLeft_lt_of_ended hp rfl
  | imageDecoded hd => exact hd.turnsLeft_lt h
  | audioDecoded hd => exact hd.turnsLeft_lt h
  | imageEncoded he => exact he.turnsLeft_lt h
  | audioEncoded he => exact he.turnsLeft_lt h

/-- A running command is busy until a step of it sets `DONE` (60_exceptions.md R321). -/
theorem RunningStepped.busy_or_done (hrun : RunningStepped s t) :
    t.busy = s.busy ∨ (t.busy = false ∧ t.done = true) := by
  cases hrun with
  | raised e => exact .inr ⟨rfl, rfl⟩
  | imageDecoded hd =>
    rcases hd.goesOn with ⟨hside, -⟩ | ⟨-, rfl⟩
    · exact .inl (congrArg HostSide.busy hside)
    · exact .inr ⟨rfl, rfl⟩
  | audioDecoded hd =>
    rcases hd.goesOn with ⟨hside, -⟩ | ⟨-, rfl⟩
    · exact .inl (congrArg HostSide.busy hside)
    · exact .inr ⟨rfl, rfl⟩
  | imageEncoded he =>
    rcases he.goesOn with ⟨hside, -⟩ | ⟨-, bs, rfl⟩
    · exact .inl (congrArg HostSide.busy hside)
    · exact .inr ⟨rfl, rfl⟩
  | audioEncoded he =>
    rcases he.goesOn with ⟨hside, -⟩ | ⟨-, rfl⟩
    · exact .inl (congrArg HostSide.busy hside)
    · exact .inr ⟨rfl, rfl⟩

theorem decodeOnward_resetLine (next : Option Place) (s : State) : (decodeOnward next s).resetLine = s.resetLine := by
  obtain ⟨sp, bp, q, he, -⟩ := decodeOnward_frame next s
  rw [he]

theorem encodeOnward_resetLine (next : Option Place) (s : State) : (encodeOnward next s).resetLine = s.resetLine := by
  obtain ⟨sp, q, he, -⟩ := encodeOnward_frame next s
  rw [he]

/-- No step of a running command asserts the reset signal (log 12). -/
theorem RunningStepped.resetLine (hrun : RunningStepped s t) : t.resetLine = s.resetLine := by
  cases hrun with
  | raised e ha => cases ha <;> rfl
  | imageDecoded hd => cases hd <;> rfl
  | audioDecoded hd =>
    cases hd with
    | frame channels rate fsamples fsize s1 hp hs1 => rw [decodeOnward_resetLine, hs1]; rfl
    | weights | slice => rw [decodeOnward_resetLine]; rfl
    | header | history | finish => rfl
  | imageEncoded he => cases he <;> rfl
  | audioEncoded he =>
    cases he with
    | frame bs s1 hp _ _ _ hs1 => rw [encodeOnward_resetLine, hs1]; rfl
    | weights | slice => rw [encodeOnward_resetLine]; rfl
    | header | history | search | finish => rfl

theorem Good.placeOk (h : Good s) : PlaceOk s := by
  obtain ⟨-, -, -, -, -, -, hplace⟩ := h
  exact hplace

/-- A busy block runs a command (10_state.md R31). -/
theorem Good.running (h : Good s) (hbusy : s.busy = true) : s.phase ≠ .idle := by
  obtain ⟨-, -, ⟨hphase, -⟩, -⟩ := h
  exact hphase.mp hbusy

/-- A step from a good state leads to a good state. -/
theorem Good.of_step (h : Good s) (hstep : step s = .next t) : Good t := by
  obtain ⟨hcfg, hmemory, hcontrol, hhistory, hweights, hcoder, hplace⟩ := h
  obtain ⟨hcontrol', hkeeps⟩ := stepKeepsControl s t hstep
  obtain ⟨hhistory', hweights', hcoder'⟩ := stepKeepsRegisterRanges s t hstep
  exact ⟨hkeeps ▸ hcfg, stepKeepsMemory s t hmemory hstep, hcontrol' hcontrol, hhistory' hhistory,
    hweights' hweights, hcoder' hcfg hcoder, stepKeepsPlace s t hcfg hplace hstep⟩

/-- A busy block's next state: the command has completed, or it is still good and nearer to its end. -/
theorem completed_or_nearer (hgood : Good s) (hbusy : s.busy = true) (hr : s.resetLine = false)
    (hstep : step s = .next t) :
    (t.busy = false ∧ t.done = true) ∨
    (Good t ∧ t.busy = true ∧ t.resetLine = false ∧ turnsLeft t < turnsLeft s) := by
  have hp := hgood.running hbusy
  have hrun := runningStepped_of_step hr hp hstep
  rcases hrun.busy_or_done with hkeeps | hended
  · exact .inr ⟨hgood.of_step hstep, hkeeps.trans hbusy, hrun.resetLine.trans hr, hrun.turnsLeft_lt hp hgood.placeOk⟩
  · exact .inl hended

theorem run_one_of_fault {f : Fault} (h : step s = .fault f) : Host.Core.run Sys2Proof.core 1 s = .fault f := by
  have hcore : Sys2Proof.core.step s = .fault f := h
  simp only [Host.Core.run, hcore]

/-- Settles O57: by induction on the bound, since each step that neither completes nor faults brings it down. -/
theorem everyCommandCompletes : Obligations.EveryCommandCompletes := by
  intro s hgood hbusy hr
  induction hn : turnsLeft s using Nat.strong_induction_on generalizing s with
  | _ n ih =>
    have hpos : 1 ≤ n := hn ▸ turnsLeft_pos (hgood.running hbusy)
    rcases goodStepStopsOnlyAtUnfilledInput s hgood with ⟨t, hstep⟩ | hfault
    · rcases completed_or_nearer hgood hbusy hr hstep with hended | ⟨hgood', hbusy', hr', hlt⟩
      · exact ⟨1, hpos, .inl ⟨t, run_succ_of_step hstep, hended⟩⟩
      · obtain ⟨k, hk, hends⟩ := ih _ (hn ▸ hlt) t hgood' hbusy' hr' rfl
        exact ⟨k + 1, by omega, run_succ_of_step hstep ▸ hends⟩
    · exact ⟨1, hpos, .inr (run_one_of_fault hfault)⟩

end Sys2Proof.Machine


/-! SUPPORT. Error completions: what raising does (O44), and the first failing check of an audio stream header (O31) and
of a frame header (O33). -/

namespace Sys2Proof.Machine

variable {s : State}

/-! ## Raising -/

/-- A unit writes nothing of the host's side before its failing check, so the completion is one of the state before the
unit (60_exceptions.md R310, 10_state.md R39). -/
theorem raised_of_attempted (e : ErrKind) {s1 : State} (h : Attempted s s1) : Raised e s (raiseErr e s1) := by
  cases h <;> exact raised_raiseErr e s

/-- NOP and the reserved codes have no output (10_state.md R29). -/
theorem outputOf_atOnce : ∀ code : BitVec 3, code = 0 ∨ 5 ≤ code.toNat → outputOf code = none := by decide

/-- Settles O44: the completion for every kind, the ten numbers and the output of each command. -/
theorem raiseEffects : Obligations.RaiseEffects :=
  ⟨raised_raiseErr, rfl, rfl, rfl, rfl, rfl, outputOf_atOnce⟩

/-! ## The audio stream header (43_audio_commands.md R221, R222) -/

/-- A decoder at the stream header raises on a sample count of 0 before it reads anything more (60_exceptions.md R305). -/
theorem exec_qoaf_streaming (hp : s.phase = .dec .audioHeader) :
    exec (.qoaf 0) s = .next (raiseErr .eStreaming { s with bp := s.bp + 8 }) := by
  simp only [exec, execQoaf, hp, if_true]

/-- A readable word whose fields fail a check raises that check's error. -/
theorem peekFrame_of_error {samples : BitVec 32} {w : Word64} {e : ErrKind} (hread : readBytes s 8 8 = .ok (bytes64 w))
    (hchecks : firstError (peekChecks (latchStream samples w s)) = some e) :
    peekFrame samples s = .next (raiseErr e (latchStream samples w s)) := by
  have hword : takeWord64 (bytes64 w) = some (w, []) := takeWord64_bytes64 w []
  simp only [peekFrame, hread, hword]
  exact checked_of_error hchecks

theorem firstError_peekChecks_channels (h : 8 < s.stChannels.toNat) :
    firstError (peekChecks s) = some .eTooManyChannels := if_pos (decide_eq_true h)

/-- With few enough channels the output's capacity decides (60_exceptions.md R304, R306). -/
theorem firstError_peekChecks_capacity (hch : s.stChannels.toNat ≤ 8)
    (h : s.sDesc.cap.toNat < s.stSamples.toNat * s.stChannels.toNat) : firstError (peekChecks s) = some .eMemory := by
  have hfits : decide (maxChannels < s.stChannels.toNat) = false := decide_eq_false (not_lt.mpr hch)
  rw [peekChecks, hfits]
  exact if_pos (decide_eq_true h)

/-- The failing check of the peeked word is the error raised. -/
theorem raised_of_peek {samples : BitVec 32} {w : Word64} {e : ErrKind} (hp : s.phase = .dec .audioHeader)
    (hn : samples ≠ 0) (hread : readBytes s 8 8 = .ok (bytes64 w))
    (hchecks : firstError (peekChecks (latchStream samples w { s with bp := s.bp + 8 })) = some e) :
    ∃ t, exec (.qoaf samples) s = .next t ∧ Raised e s t :=
  ⟨_, (exec_qoaf_dec hp hn).trans (peekFrame_of_error hread hchecks), raised_of_attempted e (.streamLatched samples w)⟩

/-- Settles O31: the sample count before any read, then the channels, then the capacity. -/
theorem qoafRejects : Obligations.QoafRejects := by
  intro s samples channels rate low hp
  refine ⟨fun hzero => ?_, fun hn hread hch => raised_of_peek hp hn hread ?_,
    fun hn hread hch hcap => raised_of_peek hp hn hread ?_⟩
  · subst hzero
    exact ⟨_, exec_qoaf_streaming hp, raised_of_attempted .eStreaming .headerRead⟩
  · rw [latchStream_append]
    exact firstError_peekChecks_channels hch
  · rw [latchStream_append]
    exact firstError_peekChecks_capacity hch hcap

/-! ## The frame header (43_audio_commands.md R224) -/

/-- The frame's channels and rate are the stream's (43_audio_commands.md R224 a). -/
def FrameConsistent (s : State) : Prop := s.fChannels = s.stChannels ∧ s.fRate = s.stRate

/-- The frame is all there, and the output lacks as many samples (43_audio_commands.md R224 c, d). -/
def FrameFits (s : State) : Prop :=
  s.fStart.toNat + s.fSize.toNat ≤ s.bDesc.len.toNat ∧ s.sp.toNat + s.fSamples.toNat ≤ s.stSamples.toNat

theorem frameInconsistent_eq_false :
    (decide (s.fChannels ≠ s.stChannels) || decide (s.fRate ≠ s.stRate)) = false ↔ FrameConsistent s := by
  simp only [FrameConsistent, Bool.or_eq_false_iff, decide_eq_false_iff_not, not_not]

theorem firstError_frameChecks_inconsistent (h : ¬FrameConsistent s) :
    firstError (frameChecks s) = some .eFrameInconsistent := by
  rw [← frameInconsistent_eq_false, Bool.not_eq_false] at h
  exact if_pos h

/-- In a consistent frame the declared size is looked at next (60_exceptions.md R308). -/
theorem firstError_frameChecks_tooSmall (hc : FrameConsistent s) (h : frameTooSmall s = true) :
    firstError (frameChecks s) = some .eMalformedFrame := by
  rw [frameChecks, frameInconsistent_eq_false.mpr hc]
  exact if_pos h

/-- In a frame of sufficient size either of the last two checks is one for `E_EOF`. -/
theorem firstError_frameChecks_end (hc : FrameConsistent s) (hsize : frameTooSmall s = false) (h : ¬FrameFits s) :
    firstError (frameChecks s) = some .eEof := by
  rw [frameChecks, frameInconsistent_eq_false.mpr hc, hsize]
  simp only [firstError, Bool.false_eq_true, if_false, decide_eq_true_eq]
  by_cases hend : s.bDesc.len.toNat < s.fStart.toNat + s.fSize.toNat
  · exact if_pos hend
  · have hmore : s.stSamples.toNat < s.sp.toNat + s.fSamples.toNat :=
      not_le.mp fun hle => h ⟨not_lt.mp hend, hle⟩
    rw [if_neg hend, if_pos hmore]

/-- The failing check of a frame header is the error raised. -/
theorem raised_of_frame {channels : BitVec 8} {rate : BitVec 24} {fsamples fsize : BitVec 16} {e : ErrKind}
    (hp : s.phase = .dec .frame)
    (hchecks : firstError (frameChecks (frameRead channels rate fsamples fsize s)) = some e) :
    ∃ t, exec (.frame channels rate fsamples fsize) s = .next t ∧ Raised e s t := by
  refine ⟨raiseErr e (frameRead channels rate fsamples fsize s), ?_,
    raised_of_attempted e (.frameRead channels rate fsamples fsize)⟩
  simp only [exec, execFrame, hp]
  exact checked_of_error hchecks

/-- Settles O33: the frame as latched is inconsistent, too small, or not all there. -/
theorem frameRejects : Obligations.FrameRejects := by
  intro s channels rate fsamples fsize hp consistent covered fits
  refine ⟨fun hinconsistent => raised_of_frame hp ?_, fun hconsistent huncovered => raised_of_frame hp ?_,
    fun hconsistent hcovered hunfit => raised_of_frame hp ?_⟩
  · exact firstError_frameChecks_inconsistent hinconsistent
  · refine firstError_frameChecks_tooSmall hconsistent ?_
    exact Bool.of_not_eq_false fun hsize => huncovered (frameTooSmall_eq_false_iff.mp hsize)
  · exact firstError_frameChecks_end hconsistent (frameTooSmall_eq_false_iff.mpr hcovered) hunfit

end Sys2Proof.Machine
